-- ==== Sys2Proof/Word.lean ====
section
/-! DEFINITION. The widths the spec names: bytes of the stream and the memories (20_memory.md R101, R105), 32-bit
command and result words (30_encoding.md R140, R142). -/

namespace Sys2Proof

/-- Eight bits: an element of `WIN`, `LBUF`, `OUT`, `IN`. -/
abbrev Byte := BitVec 8

/-- Thirty-two bits: a command word, a result word, a checksum register. -/
abbrev Word := BitVec 32

end Sys2Proof
end

