-- ==== Sys2Proof/Config.lean ====
section
/-! DEFINITION. What the integrating platform fixes and the spec leaves open (92_eei_decisions.md D1, D22). -/

namespace Sys2Proof

/-- `CORE_BASE`: where a platform places the CORE in its address map (20_memory.md R113, D1: OPEN). No rule of the spec
reads it, so nothing in the model does; it has no value here (log 7). -/
opaque Config.coreBase : Nat

/-- What `matchStart` holds after a compaction whose difference `matchStart - wSize`, the argument, is below the register's
32 signed bits: 41_match_finder.md R256 subtracts without a limit and 00_scope.md R10 has no wrap, so no rule gives the value.
A free value: no body, so nothing can be proved of it (DESIGN CHOICE, log 22). -/
opaque Config.matchStartBelowRange : Int → BitVec 32

/-- The platform's parameters that a rule of the spec reads. -/
structure Config.Platform where
  /-- `OUT_CAPACITY`: the most bytes `OUT` may hold, or `none` for the unbounded default (20_memory.md R105, D22). -/
  outCapacity : Option Nat
deriving DecidableEq, Repr

/-- The default the spec gives: an unbounded output buffer (D22). -/
def Config.Platform.default : Config.Platform := ⟨none⟩

end Sys2Proof
end

