-- ==== Sys2Proof/Syntax.lean ====
section
/-! DEFINITION. The instructions: one constructor per row of spec/opcode_table.json, and the packets that carry them. -/

namespace Sys2Proof

/-- One constructor per row of spec/opcode_table.json. The first twelve are the host's commands (30_encoding.md R140);
the last six are the stream elements the CORE emits (R148 to R159), each read as the order to emit that element
(log 5). -/
inductive Instr where
  /-- CONFIGURE `LEVEL METHOD WBITS MEMLEVEL STRATEGY` (40_host_commands.md R200). -/
  | configure (level method windowBits memLevel : BitVec 4) (strategy : BitVec 2)
  /-- COMPRESS.NO_FLUSH `chunk` (R207). -/
  | compressNoFlush (chunk : List Byte)
  /-- COMPRESS.PARTIAL_FLUSH `chunk` (R208). -/
  | compressPartialFlush (chunk : List Byte)
  /-- COMPRESS.SYNC_FLUSH `chunk` (R209). -/
  | compressSyncFlush (chunk : List Byte)
  /-- COMPRESS.FULL_FLUSH `chunk` (R210). -/
  | compressFullFlush (chunk : List Byte)
  /-- COMPRESS.FINISH `chunk` (R211). -/
  | compressFinish (chunk : List Byte)
  /-- COMPRESS with the illegal `FLUSH` field 5 (R205, 30_encoding.md R160 (b)). -/
  | compressFlush5 (chunk : List Byte)
  /-- COMPRESS with the illegal `FLUSH` field 6 (R205, R160 (b)). -/
  | compressFlush6 (chunk : List Byte)
  /-- COMPRESS with the illegal `FLUSH` field 7 (R205, R160 (b)). -/
  | compressFlush7 (chunk : List Byte)
  /-- GET_BYTES (R212). -/
  | getBytes
  /-- TAKE_BYTES (R213). -/
  | takeBytes
  /-- GET_CRC (R214). -/
  | getCrc
  /-- STREAM.ZLIB_HEADER: `CINFO`, `FLEVEL`, `FCHECK` (30_encoding.md R149); CM = 8 and FDICT = 0 are fixed. -/
  | zlibHeader (cinfo : BitVec 4) (flevel : BitVec 2) (fcheck : BitVec 5)
  /-- BLOCK.STORED with its BFINAL bit (R151, R152). -/
  | blockStored (bfinal : BitVec 1)
  /-- BLOCK.STATIC with its BFINAL bit (R151, R153). -/
  | blockStatic (bfinal : BitVec 1)
  /-- BLOCK.DYNAMIC with its BFINAL bit (R156). -/
  | blockDynamic (bfinal : BitVec 1)
  /-- BLOCK.RESERVED with its BFINAL bit: never emitted (R151). -/
  | blockReserved (bfinal : BitVec 1)
  /-- STREAM.ADLER_TRAILER with the 32 bits it carries (R159). -/
  | adlerTrailer (adler : Word)
deriving DecidableEq, Repr

/-- What stands on the command port. A host presents `command` packets only: a 32-bit word and the bytes on the data-in
port (30_encoding.md R140). The other three carry a stream element's own bits (R149, R151, R159; log 5). -/
inductive Packet where
  | command (word : Word) (chunk : List Byte)
  | header  (bits : BitVec 16)
  | block   (bits : BitVec 3)
  | trailer (bits : Word)
deriving DecidableEq, Repr

end Sys2Proof
end

