-- ==== Sys2Proof/Machine/State.lean ====
section
/-! DEFINITION. Everything the spec gives the machine, as plain data, and the power-on state (10_state.md R30,
20_memory.md R100, 70_reset_and_hazards.md R541). The records follow the spec's own sections. Counters and window indices
are numbers (00_scope.md R10); registers the spec shifts or masks are bit vectors of the width it gives. -/

namespace Sys2Proof.Machine

/-- A memory or register file of `w`-bit elements: the (index, value) pairs whose value is not 0, indices rising. An
unlisted element reads as 0 (log 8). -/
abbrev Arr (w : Nat) := List (Nat × BitVec w)

/-- `fsm` (10_state.md R31). -/
inductive Fsm where
  | unconfigured | busy | finish | faulted
deriving DecidableEq, Repr

/-- The driver column of the configuration table (10_state.md R35). -/
inductive Driver where
  | stored | fast | slow
deriving DecidableEq, Repr

/-- Control and status registers (10_state.md R31 to R33). -/
structure Control where
  fsm : Fsm
  faultCode : BitVec 8
  lastFlush : BitVec 3
deriving DecidableEq, Repr

/-- Configuration registers (10_state.md R34). -/
structure Settings where
  level : BitVec 4
  method : BitVec 4
  windowBits : BitVec 4
  memLevel : BitVec 4
  strategy : BitVec 2
deriving DecidableEq, Repr

/-- Configuration-table row registers (10_state.md R35). -/
structure CtRow where
  goodLength : BitVec 9
  maxLazy : BitVec 9
  niceLength : BitVec 9
  maxChain : BitVec 13
  driver : Driver
deriving DecidableEq, Repr

/-- Match-state registers (10_state.md R36 to R44). `matchStart` and `prevMatch` are 32 bits read as signed (R41, R43):
compactions can take them to the end of that range, and nothing bounds them but their width (log 22). -/
structure MatchRegs where
  strStart : Nat
  lookAhead : Nat
  blockStart : Int
  insH : BitVec 16
  matchLength : Nat
  matchStart : BitVec 32
  prevLength : Nat
  prevMatch : BitVec 32
  matchAvailable : Bool
deriving DecidableEq, Repr

/-- Token counters (10_state.md R45, R46). -/
structure Tokens where
  lastLit : Nat
  numMatches : Nat
deriving DecidableEq, Repr

/-- Scratch of a tree build (10_state.md R52): the priority set, the per-node arrays as (node, value) pairs, the pop order
and the counters of 42_huffman_builder.md R326 and R333. -/
structure Scratch where
  live : List Nat
  freq : List (Nat × Nat)
  depth : List (Nat × Nat)
  dad : List (Nat × Nat)
  len : List (Nat × Nat)
  order : List Nat
  blCount : List Nat
  nextCode : List Nat
  overflow : Int
deriving DecidableEq, Repr

/-- Huffman builder state (10_state.md R47 to R50, R52). -/
structure Huffman where
  optLen : Int
  staticLen : Int
  lfreq : Arr 16
  dfreq : Arr 16
  blfreq : Arr 16
  llen : Arr 4
  lcode : Arr 15
  dlen : Arr 4
  dcode : Arr 15
  bllen : Arr 4
  blcode : Arr 15
  lMaxCode : Nat
  dMaxCode : Nat
  blMaxCode : Nat
  maxBlIndex : Nat
  scratch : Scratch
deriving DecidableEq, Repr

/-- Bit accumulator (10_state.md R53). -/
structure BitAcc where
  biBuf : BitVec 16
  biValid : Nat
deriving DecidableEq, Repr

/-- Checksum registers (10_state.md R54, R55). -/
structure Sums where
  adler : Word
  crc : Word
deriving DecidableEq, Repr

/-- The memories of 20_memory.md R101 to R106. -/
structure Memory where
  win : Arr 8
  head : Arr 16
  prev : Arr 16
  dbuf : Arr 16
  lbuf : Arr 8
  out : List Byte
  input : List Byte
deriving DecidableEq, Repr

/-- What a command returns besides its result word (30_encoding.md R142). -/
inductive ReplyData where
  | none
  | bytes (b : List Byte)
  | crc (v : Word)
deriving DecidableEq, Repr

/-- The result of a command (30_encoding.md R142). -/
structure Reply where
  word : Word
  data : ReplyData
deriving DecidableEq, Repr

/-- The host's side: the packets it will present, the next one first, and the last result it received (log 3, log 4). -/
structure Port where
  queue : List Packet
  reply : Option Reply
deriving DecidableEq, Repr

/-- The whole machine. -/
structure State where
  ctl : Control
  cfg : Settings
  ct : CtRow
  mf : MatchRegs
  tok : Tokens
  hb : Huffman
  bp : BitAcc
  sums : Sums
  mem : Memory
  platform : Config.Platform
  port : Port
deriving DecidableEq, Repr

/-- Fault codes (60_exceptions.md R500). They are TAKEN (`Machine.raise`), they do not stop the machine. -/
inductive FaultCode where
  | config | notConfigured | badFlush | afterFinish | storedNoOffset | matchBounds | kraft | faulted
  | tokenOverflow | bounds | invariant | bits | alloc | badCommand
deriving DecidableEq, Repr

/-- Why an operation did not come to its end: the spec's `raise`, or a loop of the model that outlasts its bound. -/
inductive Abort where
  | raise (f : FaultCode)
  | unbounded
deriving DecidableEq, Repr

/-- The machine stops. -/
inductive Fault where
  /-- Raised by `Machine.iterate` when a loop of 41_match_finder.md outlasts the bound the model gives it, which is the
  number of bytes still to be consumed; no command sequence does (log 10). Safe: the machine stops where the spec's loop
  would go on. -/
  | loopBound
deriving DecidableEq, Repr

/-- No meaning for what stands on the port. -/
inductive Refusal where
  /-- An arm of `exec` without a meaning; no arm uses it. Safe. -/
  | notModelled (mnemonic : String)
  /-- BLOCK.RESERVED: BTYPE 11 is "reserved and never emitted" (30_encoding.md R151). Raised by `execBlockReserved`. Safe. -/
  | reservedBlockType
  /-- A packet that is no command word and no row of the table: "the CORE has no decoder and so no rule for receiving
  them" (R160 (d)). Raised by `step`; no host can present one. Safe. -/
  | noStreamElement
deriving DecidableEq, Repr

/-! ### Power-on (70_reset_and_hazards.md R541)

`fsm` and `faultCode` are the spec's; "every other register and memory holds no value", so the rest are the values log 1
names: every number 0, every list empty. -/

/-- Power-on scratch: nothing built yet (log 1). -/
def Scratch.powerOn : Scratch := ⟨[], [], [], [], [], [], [], [], 0⟩

/-- Power-on Huffman registers (log 1). -/
def Huffman.powerOn : Huffman :=
  ⟨0, 0, [], [], [], [], [], [], [], [], [], 0, 0, 0, 0, Scratch.powerOn⟩

/-- The machine right after power-on. -/
def State.reset : State where
  ctl := { fsm := .unconfigured, faultCode := 0, lastFlush := 0 }
  cfg := { level := 0, method := 0, windowBits := 0, memLevel := 0, strategy := 0 }
  ct := { goodLength := 0, maxLazy := 0, niceLength := 0, maxChain := 0, driver := .stored }
  mf := { strStart := 0, lookAhead := 0, blockStart := 0, insH := 0, matchLength := 0, matchStart := 0,
          prevLength := 0, prevMatch := 0, matchAvailable := false }
  tok := { lastLit := 0, numMatches := 0 }
  hb := Huffman.powerOn
  bp := { biBuf := 0, biValid := 0 }
  sums := { adler := 0, crc := 0 }
  mem := { win := [], head := [], prev := [], dbuf := [], lbuf := [], out := [], input := [] }
  platform := Config.Platform.default
  port := { queue := [], reply := none }

end Sys2Proof.Machine
end

