-- ==== Sys2Proof/Machine/Operands.lean ====
section
/-! DEFINITION. Operands: the legal ranges of CONFIGURE, the constants and derived parameters of a session, the
configuration table, and the symbol alphabets with their extra bits. -/

namespace Sys2Proof.Machine

/-! ### Constants (00_scope.md R8) -/

def MIN_MATCH : Nat := 3
def MAX_MATCH : Nat := 258
def MIN_LOOKAHEAD : Nat := MAX_MATCH + MIN_MATCH + 1
def L_CODES : Nat := 286
def D_CODES : Nat := 30
def BL_CODES : Nat := 19
def MAX_BITS : Nat := 15
def MAX_BL_BITS : Nat := 7
def END_BLOCK : Nat := 256
def BUF_SIZE : Nat := 16
def TRUNC_PERIOD : Nat := 8192
def STORED_LIMIT : Nat := 65535

/-! ### Derived parameters (00_scope.md R7, log 16) -/

def Settings.wSize (c : Settings) : Nat := 2 ^ c.windowBits.toNat
def Settings.wMask (c : Settings) : Nat := c.wSize - 1
def Settings.windowBytes (c : Settings) : Nat := 2 * c.wSize
def Settings.maxDist (c : Settings) : Nat := c.wSize - MIN_LOOKAHEAD
def Settings.hashBits (c : Settings) : Nat := c.memLevel.toNat + 7
def Settings.hashSize (c : Settings) : Nat := 2 ^ c.hashBits
def Settings.hashMask (c : Settings) : Nat := c.hashSize - 1
def Settings.hashShift (c : Settings) : Nat := (c.hashBits + MIN_MATCH - 1) / MIN_MATCH
def Settings.litBufferSize (c : Settings) : Nat := 2 ^ (c.memLevel.toNat + 6)
def Settings.storedMax (c : Settings) : Nat := c.maxDist

/-! ### CONFIGURE operands (00_scope.md R6, 40_host_commands.md R200) -/

/-- HUFFMAN_ONLY and FILTERED (30_encoding.md R147). -/
def HUFFMAN_ONLY : BitVec 2 := 2
def FILTERED : BitVec 2 := 1

/-- Every field in its legal range; the order of the fields (60_exceptions.md R511 (5)) shows in the dropped info
argument only. -/
def Settings.legal (c : Settings) : Bool :=
  decide (c.level.toNat ≤ 9) && decide (c.method = 8) && decide (9 ≤ c.windowBits.toNat)
    && decide (1 ≤ c.memLevel.toNat) && decide (c.memLevel.toNat ≤ 9) && decide (c.strategy.toNat ≤ 2)

/-- The configuration table CT (00_scope.md R9). Levels above 9 pass no CONFIGURE. -/
def ctRow (level : BitVec 4) : CtRow :=
  match level.toNat with
  | 0 => ⟨0, 0, 0, 0, .stored⟩
  | 1 => ⟨4, 4, 8, 4, .fast⟩
  | 2 => ⟨4, 5, 16, 8, .fast⟩
  | 3 => ⟨4, 6, 32, 32, .fast⟩
  | 4 => ⟨4, 4, 16, 16, .slow⟩
  | 5 => ⟨8, 16, 32, 32, .slow⟩
  | 6 => ⟨8, 16, 128, 128, .slow⟩
  | 7 => ⟨8, 32, 128, 256, .slow⟩
  | 8 => ⟨32, 128, 258, 1024, .slow⟩
  | _ => ⟨32, 258, 258, 4096, .slow⟩

/-! ### Flush modes (30_encoding.md R146) -/

def NO_FLUSH : BitVec 3 := 0
def PARTIAL_FLUSH : BitVec 3 := 1
def SYNC_FLUSH : BitVec 3 := 2
def FULL_FLUSH : BitVec 3 := 3
def FINISH : BitVec 3 := 4

/-! ### Symbol alphabets (30_encoding.md R154 to R158) -/

/-- The last index whose base is at most `v`, counting rows from `at`; `best` when there is none. -/
def lastRow (v : Nat) : List (Nat × Nat) → Nat → Nat → Nat
  | [], _, best => best
  | (base, _) :: rest, i, best => if base ≤ v then lastRow v rest (i + 1) i else best

/-- (first length, extra bits) of symbols 257.. (R154). -/
def lengthRows : List (Nat × Nat) :=
  [(3, 0), (4, 0), (5, 0), (6, 0), (7, 0), (8, 0), (9, 0), (10, 0), (11, 1), (13, 1)]
  ++ [(15, 1), (17, 1), (19, 2), (23, 2), (27, 2), (31, 2), (35, 3), (43, 3), (51, 3), (59, 3)]
  ++ [(67, 4), (83, 4), (99, 4), (115, 4), (131, 5), (163, 5), (195, 5), (227, 5), (258, 0)]

/-- (first distance, extra bits) of distance codes 0.. (R155). -/
def distRows : List (Nat × Nat) :=
  [(1, 0), (2, 0), (3, 0), (4, 0), (5, 1), (7, 1), (9, 2), (13, 2), (17, 3), (25, 3)]
  ++ [(33, 4), (49, 4), (65, 5), (97, 5), (129, 6), (193, 6), (257, 7), (385, 7), (513, 8), (769, 8)]
  ++ [(1025, 9), (1537, 9), (2049, 10), (3073, 10), (4097, 11), (6145, 11), (8193, 12), (12289, 12), (16385, 13), (24577, 13)]

/-- `lcode(len)` = `LengthSym(len) - 257` (R154). -/
def lcode (len : Nat) : Nat := lastRow len lengthRows 0 0

/-- `DistCode(d)` (R155). -/
def distCode (d : Nat) : Nat := lastRow d distRows 0 0

def baseLength (code : Nat) : Nat := (lengthRows.getD code (0, 0)).1
def extraLBits (code : Nat) : Nat := (lengthRows.getD code (0, 0)).2
def baseDist (code : Nat) : Nat := (distRows.getD code (0, 0)).1
def extraDBits (code : Nat) : Nat := (distRows.getD code (0, 0)).2

/-- `EXTRA_BLBITS` (R157). -/
def extraBlBits (sym : Nat) : Nat := if sym = 16 then 2 else if sym = 17 then 3 else if sym = 18 then 7 else 0

/-- `BL_ORDER` (R158). -/
def blOrder : List Nat := [16, 17, 18, 0, 8, 7, 9, 6, 10, 5, 11, 4, 12, 3, 13, 2, 14, 1, 15]

/-! ### Bit reversal and the static ROMs (00_scope.md R11, 42_huffman_builder.md R340, R341) -/

/-- `rev_n(c)`: bit i of the result is bit n-1-i of c. -/
def revBits : Nat → Nat → Nat
  | 0, _ => 0
  | n + 1, c => (c % 2) * 2 ^ n + revBits n (c / 2)

/-- `SLLEN` (R340). -/
def staticLitLen (n : Nat) : Nat := if n ≤ 143 then 8 else if n ≤ 255 then 9 else if n ≤ 279 then 7 else 8

/-- The canonical (unreversed) static literal/length code (R340). -/
def staticLitCanonical (n : Nat) : Nat :=
  if n ≤ 143 then 0x30 + n else if n ≤ 255 then 0x190 + (n - 144) else if n ≤ 279 then n - 256 else 0xC0 + (n - 280)

/-- `SLCODE` (R340). -/
def staticLitCode (n : Nat) : Nat := revBits (staticLitLen n) (staticLitCanonical n)

/-- `SDLEN` (R341). -/
def staticDistLen (_ : Nat) : Nat := 5

/-- `SDCODE` (R341). -/
def staticDistCode (n : Nat) : Nat := revBits 5 n

end Sys2Proof.Machine
end

