-- ==== Sys2Proof/Machine/Flags.lean ====
section
/-! DEFINITION. The CORE has no condition-code register (10_state.md R56). What plays its part: the codes of `fsm`, the
fault codes, the result word, and the block-full tests the tally makes. -/

namespace Sys2Proof.Machine

/-- The encodings of `fsm` (10_state.md R31). -/
def Fsm.code : Fsm → BitVec 2
  | .unconfigured => 0
  | .busy => 1
  | .finish => 2
  | .faulted => 3

/-- The encodings of `driver` (10_state.md R35). -/
def Driver.code : Driver → BitVec 2
  | .stored => 0
  | .fast => 1
  | .slow => 2

/-- The codes of 60_exceptions.md R500. -/
def FaultCode.code : FaultCode → BitVec 8
  | .config => 1
  | .notConfigured => 2
  | .badFlush => 3
  | .afterFinish => 4
  | .storedNoOffset => 5
  | .matchBounds => 6
  | .kraft => 7
  | .faulted => 8
  | .tokenOverflow => 9
  | .bounds => 10
  | .invariant => 11
  | .bits => 12
  | .alloc => 13
  | .badCommand => 14

/-- `RESULT` 0 OK (30_encoding.md R142). -/
def okWord : Word := 0

/-- `RESULT` 1 STREAM_END (R142). -/
def streamEndWord : Word := 1

/-- `RESULT` 2 FAULT with the code in `FCODE` [15:8] (R142). -/
def faultWord (f : FaultCode) : Word := (0#16 ++ f.code) ++ 2#8

/-- `Sparse()`'s estimate of the output, in bits (41_match_finder.md R271): 8 bits a token and, for every distance code,
5 bits and its extra bits an occurrence. `dfreq d` is `DFREQ[d]`. -/
def sparseOutBits (lastLit : Nat) (dfreq : Nat → Nat) : Nat :=
  (List.range D_CODES).foldl (fun bits d => bits + dfreq d * (5 + extraDBits d)) (lastLit * 8)

/-- `Sparse()` (R271): every 8192 tokens, above level 2, when fewer than half the tokens are matches and the estimate is
under half the input. `inBytes` = `strStart - blockStart`. -/
def sparse (level lastLit numMatches : Nat) (dfreq : Nat → Nat) (inBytes : Int) : Bool :=
  decide (lastLit % TRUNC_PERIOD = 0) && decide (2 < level) && decide (numMatches < lastLit / 2)
    && decide (((sparseOutBits lastLit dfreq / 8 : Nat) : Int) < inBytes / 2)

/-- The tally's `bflush` (R270, R272): the heuristic fires, or the buffer is full but for its last slot. -/
def blockFull (litBufferSize lastLit : Nat) (isSparse : Bool) : Bool :=
  isSparse || decide (lastLit + 1 = litBufferSize)

end Sys2Proof.Machine
end

