-- ==== Sys2Proof/Machine/Ops.lean ====
section
/-! DEFINITION. The named operations over memory and registers: sparse arrays, the operation type with its three loops,
the index checks of 60_exceptions.md R505, output, input and checksums, and fault entry (R510). -/

namespace Sys2Proof.Machine

/-! ### Arrays (log 8) -/

/-- The element at `i`; an unlisted element reads as 0. -/
def Arr.read {w : Nat} : Arr w → Nat → BitVec w
  | [], _ => 0
  | (j, v) :: rest, i => if i = j then v else Arr.read rest i

/-- Write one element, keeping the canonical form: writing 0 removes the entry. -/
def Arr.write {w : Nat} : Arr w → Nat → BitVec w → Arr w
  | [], i, v => if v = 0 then [] else [(i, v)]
  | (j, u) :: rest, i, v =>
      if i < j then (if v = 0 then (j, u) :: rest else (i, v) :: (j, u) :: rest)
      else if i = j then (if v = 0 then rest else (i, v) :: rest)
      else (j, u) :: Arr.write rest i v

/-- Consecutive elements from `i` on. -/
def Arr.writeAll {w : Nat} (a : Arr w) (i : Nat) : List (BitVec w) → Arr w
  | [] => a
  | v :: rest => Arr.writeAll (a.write i v) (i + 1) rest

/-- The canonical form: indices strictly rising, no stored 0. -/
abbrev Arr.Canonical {w : Nat} (a : Arr w) : Prop :=
  a.Pairwise (fun p q => p.1 < q.1) ∧ ∀ p ∈ a, p.2 ≠ 0

/-- Every index is below `n`. -/
abbrev Arr.Within {w : Nat} (a : Arr w) (n : Nat) : Prop := ∀ p ∈ a, p.1 < n

/-- The canonical form of every memory (20_memory.md R101 to R104, log 8). -/
def Memory.wf (m : Memory) : Bool :=
  decide m.win.Canonical && decide m.head.Canonical && decide m.prev.Canonical && decide m.dbuf.Canonical
    && decide m.lbuf.Canonical

/-- The canonical form of every register file (10_state.md R48, R49). -/
def Huffman.wf (h : Huffman) : Bool :=
  decide h.lfreq.Canonical && decide h.dfreq.Canonical && decide h.blfreq.Canonical && decide h.llen.Canonical
    && decide h.lcode.Canonical && decide h.dlen.Canonical && decide h.dcode.Canonical && decide h.bllen.Canonical
    && decide h.blcode.Canonical

/-- `HEAD` or `PREV` after a compaction: `v - wSize` where `v ≥ wSize`, else 0 (41_match_finder.md R256). -/
def Arr.rebase (wSize : Nat) : Arr 16 → Arr 16
  | [] => []
  | (i, v) :: rest =>
      if wSize < v.toNat then (i, BitVec.ofNat 16 (v.toNat - wSize)) :: Arr.rebase wSize rest
      else Arr.rebase wSize rest

/-- `WIN` after a compaction: the upper half copied down, the upper half kept (R256). -/
def Arr.compact {w : Nat} (a : Arr w) (wSize : Nat) : Arr w :=
  ((a.filter (fun p => decide (wSize ≤ p.1 ∧ p.1 < 2 * wSize))).map (fun p => (p.1 - wSize, p.2)))
    ++ a.filter (fun p => decide (wSize ≤ p.1))

/-! ### One component at a time -/

def State.setCtl (s : State) (v : Control) : State := { s with ctl := v }
def State.setCfg (s : State) (v : Settings) : State := { s with cfg := v }
def State.setCt (s : State) (v : CtRow) : State := { s with ct := v }
def State.setMf (s : State) (v : MatchRegs) : State := { s with mf := v }
def State.setTok (s : State) (v : Tokens) : State := { s with tok := v }
def State.setHb (s : State) (v : Huffman) : State := { s with hb := v }
def State.setBp (s : State) (v : BitAcc) : State := { s with bp := v }
def State.setSums (s : State) (v : Sums) : State := { s with sums := v }
def State.setMem (s : State) (v : Memory) : State := { s with mem := v }
def State.setPort (s : State) (v : Port) : State := { s with port := v }

/-! ### Operations

A sub-operation runs to completion and may raise (00_scope.md R12, R13). Writes made before a raise stay
(60_exceptions.md R510 (b), log 9). -/

/-- A sub-operation of the CORE. -/
abbrev Op (α : Type) := EStateM Abort State α

/-- The whole state. -/
def Op.state : Op State := EStateM.get

/-- Read something of the state. -/
def Op.gets {α : Type} (g : State → α) : Op α := EStateM.modifyGet fun s => (g s, s)

/-- Write something of the state. -/
def Op.update (u : State → State) : Op Unit := EStateM.modifyGet fun s => ((), u s)

/-- `raise F` (00_scope.md R12): the command stops here. The info argument is dropped (60_exceptions.md R501). -/
def Op.raise {α : Type} (f : FaultCode) : Op α := EStateM.throw (.raise f)

/-- Raise `f` unless `p` holds. -/
def Op.require (p : Prop) [Decidable p] (f : FaultCode) : Op Unit :=
  if p then pure () else Op.raise f

/-- `if p: op`. -/
def Op.when (p : Prop) [Decidable p] (op : Op Unit) : Op Unit :=
  if p then op else pure ()

/-- What a loop body answers: go round again, leave the loop, or return "more input needed". -/
inductive LoopStep where
  | again | exit | needMore
deriving DecidableEq, Repr

/-- `loop` of the pseudocode, at most `fuel` times round; outlasting it is the model's own stop (log 10). -/
def Op.iterate (body : Op LoopStep) : Nat → Op LoopStep
  | 0 => EStateM.throw .unbounded
  | fuel + 1 => do
      match ← body with
      | .again => Op.iterate body fuel
      | .exit => pure .exit
      | .needMore => pure .needMore

/-- `repeat k times`. -/
def Op.times : Nat → Op Unit → Op Unit
  | 0, _ => pure ()
  | k + 1, body => do
      body
      Op.times k body

/-- `for x in list`. -/
def Op.forEach {α : Type} (body : α → Op Unit) : List α → Op Unit
  | [] => pure ()
  | x :: rest => do
      body x
      Op.forEach body rest

/-! ### Element access with the index check (60_exceptions.md R505) -/

/-- Read element `i` of an array of `size` elements. -/
def Op.readAt {w : Nat} (size : Nat) (a : Arr w) (i : Nat) : Op (BitVec w) := do
  Op.require (i < size) .bounds
  pure (a.read i)

def readWin (i : Nat) : Op Byte := do
  let s ← Op.state
  Op.readAt s.cfg.windowBytes s.mem.win i

def readHead (i : Nat) : Op (BitVec 16) := do
  let s ← Op.state
  Op.readAt s.cfg.hashSize s.mem.head i

def readPrev (i : Nat) : Op (BitVec 16) := do
  let s ← Op.state
  Op.readAt s.cfg.wSize s.mem.prev i

def readDbuf (i : Nat) : Op (BitVec 16) := do
  let s ← Op.state
  Op.readAt s.cfg.litBufferSize s.mem.dbuf i

def readLbuf (i : Nat) : Op Byte := do
  let s ← Op.state
  Op.readAt s.cfg.litBufferSize s.mem.lbuf i

def writeHead (i : Nat) (v : BitVec 16) : Op Unit := do
  let s ← Op.state
  Op.require (i < s.cfg.hashSize) .bounds
  Op.update fun s => s.setMem { s.mem with head := s.mem.head.write i v }

def writePrev (i : Nat) (v : BitVec 16) : Op Unit := do
  let s ← Op.state
  Op.require (i < s.cfg.wSize) .bounds
  Op.update fun s => s.setMem { s.mem with prev := s.mem.prev.write i v }

def writeToken (i : Nat) (dist : BitVec 16) (lc : Byte) : Op Unit := do
  let s ← Op.state
  Op.require (i < s.cfg.litBufferSize) .bounds
  Op.update fun s => s.setMem { s.mem with dbuf := s.mem.dbuf.write i dist, lbuf := s.mem.lbuf.write i lc }

/-- `LFREQ[i] <- LFREQ[i] + k` (10_state.md R48: no entry can overflow its 16 bits). -/
def countLit (i k : Nat) : Op Unit := do
  Op.require (i < L_CODES) .bounds
  Op.update fun s => s.setHb { s.hb with lfreq := s.hb.lfreq.write i (s.hb.lfreq.read i + BitVec.ofNat 16 k) }

/-- `DFREQ[i] <- DFREQ[i] + k`. -/
def countDist (i k : Nat) : Op Unit := do
  Op.require (i < D_CODES) .bounds
  Op.update fun s => s.setHb { s.hb with dfreq := s.hb.dfreq.write i (s.hb.dfreq.read i + BitVec.ofNat 16 k) }

/-- `BLFREQ[i] <- BLFREQ[i] + k`. -/
def countBl (i k : Nat) : Op Unit := do
  Op.require (i < BL_CODES) .bounds
  Op.update fun s => s.setHb { s.hb with blfreq := s.hb.blfreq.write i (s.hb.blfreq.read i + BitVec.ofNat 16 k) }

/-- `strStart + lookAhead ≤ WINDOW_BYTES`, `0 ≤ strStart` (in its type) and `blockStart ≤ strStart`, checked after every
fill, compaction and driver step (60_exceptions.md R506, log 18). -/
def checkWindow : Op Unit := do
  let s ← Op.state
  Op.require (s.mf.strStart + s.mf.lookAhead ≤ s.cfg.windowBytes ∧ s.mf.blockStart ≤ (s.mf.strStart : Int)) .invariant

/-- `lookAhead <- lookAhead - n`; the register holds no negative value (10_state.md R37, log 11). -/
def takeLook (n : Nat) : Op Unit := do
  let s ← Op.state
  Op.require (n ≤ s.mf.lookAhead) .invariant
  Op.update fun s => s.setMf { s.mf with lookAhead := s.mf.lookAhead - n }

/-- `strStart <- strStart + n`. -/
def advance (n : Nat) : Op Unit :=
  Op.update fun s => s.setMf { s.mf with strStart := s.mf.strStart + n }

/-! ### Output (20_memory.md R105, 43_bit_packer.md R395, R396) -/

/-- Whether `OUT` may take one more byte (20_memory.md R105, 92_eei_decisions.md D22). -/
def State.outHasRoom (s : State) : Bool :=
  match s.platform.outCapacity with
  | none => true
  | some cap => decide (s.mem.out.length < cap)

/-- `Emit(b)`: append one byte to `OUT`; past a finite `OUT_CAPACITY` it raises F_ALLOC (R105). -/
def emit (b : Byte) : Op Unit := do
  let s ← Op.state
  Op.require (s.outHasRoom = true) .alloc
  Op.update fun s => s.setMem { s.mem with out := s.mem.out ++ [b] }

/-- `PutByte(b)` (R395). -/
def putByte (b : Byte) : Op Unit := emit b

/-- `PutShort(w)`: low byte first (R396). -/
def putShort (w : BitVec 16) : Op Unit := do
  putByte (w.extractLsb' 0 8)
  putByte (w.extractLsb' 8 8)

/-! ### Input and checksums (20_memory.md R116, R118, R119) -/

/-- One byte of `Adler32Update` (R118): A in [15:0], B in [31:16], both modulo 65521. -/
def adlerByte (adler : Word) (x : Byte) : Word :=
  let a := ((adler.extractLsb' 0 16).toNat + x.toNat) % 65521
  let b := ((adler.extractLsb' 16 16).toNat + a) % 65521
  BitVec.ofNat 16 b ++ BitVec.ofNat 16 a

/-- `Adler32Update(adler, bytes)` (R118). -/
def adlerUpdate (adler : Word) (bytes : List Byte) : Word := bytes.foldl adlerByte adler

/-- One right shift of `T[n]`, XORing the polynomial in when a 1 drops out (R119). -/
def crcShift (v : Word) : Word := if v.extractLsb' 0 1 = 1 then (v >>> 1) ^^^ 0xEDB88320#32 else v >>> 1

/-- `T[n]` (R119). -/
def crcTable (n : Byte) : Word :=
  crcShift (crcShift (crcShift (crcShift (crcShift (crcShift (crcShift (crcShift (n.zeroExtend 32))))))))

/-- One byte of `Crc32Update`, between the two inversions (R119). -/
def crcByte (c : Word) (x : Byte) : Word := crcTable (c.extractLsb' 0 8 ^^^ x) ^^^ (c >>> 8)

/-- `Crc32Update(crc, bytes)` (R119). -/
def crcUpdate (crc : Word) (bytes : List Byte) : Word :=
  bytes.foldl crcByte (crc ^^^ 0xFFFFFFFF#32) ^^^ 0xFFFFFFFF#32

/-- `ReadBuf(dst, size)`: up to `size` bytes from the front of `IN` into `WIN`, both checksums updated; answers how many
(R116). -/
def readBuf (dst size : Nat) : Op Nat := do
  let s ← Op.state
  let bytes := s.mem.input.take size
  Op.update fun s => s.setMem { s.mem with input := s.mem.input.drop size }
  if bytes.length = 0 then pure 0
  else do
    Op.require (dst + bytes.length ≤ s.cfg.windowBytes) .bounds
    Op.update fun s => s.setMem { s.mem with win := s.mem.win.writeAll dst bytes }
    Op.update fun s => s.setSums
      { adler := adlerUpdate s.sums.adler bytes, crc := crcUpdate s.sums.crc bytes }
    pure bytes.length

/-! ### Fault entry and the end of a command -/

/-- The host receives a result (30_encoding.md R142). -/
def State.answer (s : State) (r : Reply) : State := s.setPort { s.port with reply := some r }

/-- Fault entry (60_exceptions.md R510): the only way a fault is taken, and there is no return but CONFIGURE (R512).
In FAULTED `faultCode` keeps the first fault; in UNCONFIGURED, or for F_CONFIG, the CORE is UNCONFIGURED afterwards;
in BUSY and FINISH it is FAULTED. -/
def raise (f : FaultCode) (s : State) : State :=
  let t : State :=
    if s.ctl.fsm = .faulted then s
    else if s.ctl.fsm = .unconfigured ∨ f = .config then
      s.setCtl { s.ctl with faultCode := f.code, fsm := .unconfigured }
    else s.setCtl { s.ctl with faultCode := f.code, fsm := .faulted }
  t.answer ⟨faultWord f, .none⟩

/-- `IN` is empty outside a COMPRESS command (20_memory.md R106, log 9). -/
def State.clearInput (s : State) : State := s.setMem { s.mem with input := [] }

/-- A host command from its dispatch to its result (70_reset_and_hazards.md R560). -/
def runCommand (op : Op Reply) (s : State) : Host.Outcome State Fault Refusal :=
  match op.run s with
  | .ok r t => .next (t.answer r)
  | .error (.raise f) t => .next (raise f t.clearInput)
  | .error .unbounded _ => .fault .loopBound

/-- A stream element run on its own (log 5): no result for the host unless it raises. -/
def runElement (op : Op Unit) (s : State) : Host.Outcome State Fault Refusal :=
  match op.run s with
  | .ok _ t => .next t
  | .error (.raise f) t => .next (raise f t.clearInput)
  | .error .unbounded _ => .fault .loopBound

/-- `raise (F_NOT_CONFIGURED if UNCONFIGURED else F_FAULTED)` unless a session is open (40_host_commands.md R212). -/
def requireSession : Op Unit := do
  let s ← Op.state
  Op.require (s.ctl.fsm ≠ .unconfigured) .notConfigured
  Op.require (s.ctl.fsm ≠ .faulted) .faulted

end Sys2Proof.Machine
end

