-- ==== Sys2Proof/Machine/BitPacker.lean ====
section
/-! DEFINITION. The bit packer (43_bit_packer.md). -/

namespace Sys2Proof.Machine

/-- `SendBits(value, length)` (R390): the low `length` bits of `value`, least significant first, through the 16-bit
accumulator; `value ≥ 2^length` or `length > 16` raises F_BITS. -/
def sendBits (value length : Nat) : Op Unit := do
  Op.require (length ≤ BUF_SIZE ∧ value < 2 ^ length) .bits
  let s ← Op.state
  if BUF_SIZE - length < s.bp.biValid then do
    Op.update fun s => s.setBp { s.bp with biBuf := s.bp.biBuf ||| (BitVec.ofNat 16 value <<< s.bp.biValid) }
    let t ← Op.state
    putShort t.bp.biBuf
    Op.update fun s => s.setBp { biBuf := BitVec.ofNat 16 (value >>> (BUF_SIZE - s.bp.biValid)),
                                 biValid := s.bp.biValid + length - BUF_SIZE }
  else
    Op.update fun s => s.setBp { biBuf := s.bp.biBuf ||| (BitVec.ofNat 16 value <<< s.bp.biValid),
                                 biValid := s.bp.biValid + length }

/-- `SendBits(a - b, length)`; a negative value is no value below `2^length`, so F_BITS (R390, log 15). -/
def sendDiff (a b length : Nat) : Op Unit := do
  Op.require (b ≤ a) .bits
  sendBits (a - b) length

/-- The bytes `BiWindup` sends: two, one or none (R392). -/
def windupBytes (bp : BitAcc) : Op Unit :=
  if 8 < bp.biValid then putShort bp.biBuf
  else Op.when (0 < bp.biValid) (putByte (bp.biBuf.extractLsb' 0 8))

/-- `BiWindup()` (R392): zero bits up to the byte boundary. -/
def biWindup : Op Unit := do
  let s ← Op.state
  windupBytes s.bp
  Op.update fun s => s.setBp { biBuf := 0, biValid := 0 }

/-- One round of `BiFlushBytes`: the oldest byte leaves the accumulator. -/
def biFlushByte : Op Unit := do
  let s ← Op.state
  putByte (s.bp.biBuf.extractLsb' 0 8)
  Op.update fun s => s.setBp { biBuf := s.bp.biBuf >>> 8, biValid := s.bp.biValid - 8 }

/-- `BiFlushBytes()` (R393): while `biValid ≥ 8`, which is `biValid / 8` rounds. -/
def biFlushBytes : Op Unit := do
  let s ← Op.state
  Op.times (s.bp.biValid / 8) biFlushByte

end Sys2Proof.Machine
end

