-- ==== Sys2Proof/Machine/HuffmanBuilder.lean ====
section
/-! DEFINITION. The Huffman tree builder (42_huffman_builder.md): the tree build as pure functions of the frequencies, and
the operations that write its results into the registers. -/

namespace Sys2Proof.Machine

/-! ### Per-block reset -/

/-- The builder registers after `InitBlock()`: frequencies 0 but `LFREQ[END_BLOCK]` = 1, costs 0 (R320). -/
def Huffman.initBlock (h : Huffman) : Huffman :=
  { h with optLen := 0, staticLen := 0, lfreq := [(END_BLOCK, 1)], dfreq := [], blfreq := [] }

/-- `InitBlock()` (R320). -/
def initBlock : Op Unit :=
  Op.update fun s => (s.setHb s.hb.initBlock).setTok { lastLit := 0, numMatches := 0 }

/-! ### Tree descriptors (R321) -/

/-- Which of the three trees. -/
inductive Tree where
  | lit | dist | bl
deriving DecidableEq, Repr

def Tree.elems : Tree → Nat
  | .lit => L_CODES
  | .dist => D_CODES
  | .bl => BL_CODES

def Tree.maxLength : Tree → Nat
  | .lit => MAX_BITS
  | .dist => MAX_BITS
  | .bl => MAX_BL_BITS

/-- `stat(n)`: the static length of symbol n, 0 for the tree without a static reference. -/
def Tree.stat : Tree → Nat → Nat
  | .lit, n => staticLitLen n
  | .dist, n => staticDistLen n
  | .bl, _ => 0

/-- Whether the tree has a static reference. -/
def Tree.hasStatic : Tree → Bool
  | .lit => true
  | .dist => true
  | .bl => false

/-- `xbits(n)`: `extra[n - extraBase]` if `n ≥ extraBase`, otherwise 0. -/
def Tree.xbits : Tree → Nat → Nat
  | .lit, n => if 257 ≤ n then extraLBits (n - 257) else 0
  | .dist, n => extraDBits n
  | .bl, n => extraBlBits n

/-! ### The priority set (R322 to R325) -/

/-- A node of the priority set: its number, `FREQ` and `DEPTH`. -/
structure Node where
  num : Nat
  freq : Nat
  depth : Nat
deriving DecidableEq, Repr

/-- The order on the key `(FREQ, DEPTH, n)` (R324, D11). -/
def Node.before (a b : Node) : Bool :=
  decide (a.freq < b.freq)
    || (decide (a.freq = b.freq) && (decide (a.depth < b.depth) || (decide (a.depth = b.depth) && decide (a.num < b.num))))

/-- Add a node to the priority set, which is kept sorted: "any structure that yields the same pop sequence" (R324). -/
def insertNode (a : Node) : List Node → List Node
  | [] => [a]
  | b :: rest => if a.before b then a :: b :: rest else b :: insertNode a rest

/-- The leaves of nonzero frequency, in symbol order (R322). -/
def seedLeaves (freq : Arr 16) : List Node := freq.map fun p => ⟨p.1, p.2.toNat, 0⟩

/-- One phantom leaf's number: `maxCode + 1` while `maxCode < 2`, else 0 (R323). `maxCode` = -1 when there is no leaf. -/
def phantomNode (maxCode : Int) : Nat := if maxCode < 2 then (maxCode + 1).toNat else 0

/-- Phantom leaves until there are two (R323): the leaves, `maxCode`, and the numbers of the phantoms. -/
def addPhantoms : Nat → List Node → Int → List Nat → List Node × Int × List Nat
  | 0, leaves, maxCode, phantoms => (leaves, maxCode, phantoms)
  | fuel + 1, leaves, maxCode, phantoms =>
      if 2 ≤ leaves.length then (leaves, maxCode, phantoms)
      else
        addPhantoms fuel (⟨phantomNode maxCode, 1, 0⟩ :: leaves)
          (if maxCode < 2 then maxCode + 1 else maxCode) (phantomNode maxCode :: phantoms)

/-- The merge (R325): pop the two least, join them under the next internal node. Answers the set that is left, and each
popped node with its `DAD` in pop order. -/
def mergeNodes : Nat → Nat → List Node → List (Node × Nat) → List Node × List (Node × Nat)
  | fuel + 1, next, n :: m :: rest, popped =>
      mergeNodes fuel (next + 1) (insertNode ⟨next, n.freq + m.freq, max n.depth m.depth + 1⟩ rest)
        (popped ++ [(n, next), (m, next)])
  | _, _, live, popped => (live, popped)

/-! ### Lengths (R326 to R328) -/

/-- The value of a node in a (node, value) list, 0 when absent. -/
def valueOf (n : Nat) : List (Nat × Nat) → Nat
  | [] => 0
  | (m, v) :: rest => if n = m then v else valueOf n rest

/-- `LEN` and `overflow` of every popped node, last popped first, so that parents precede children (R326). -/
def assignLengths (maxLength : Nat) : List (Node × Nat) → List (Nat × Nat) → Nat → List (Nat × Nat) × Nat
  | [], lens, overflow => (lens, overflow)
  | (n, dad) :: rest, lens, overflow =>
      if maxLength < valueOf dad lens + 1 then
        assignLengths maxLength rest ((n.num, maxLength) :: lens) (overflow + 1)
      else assignLengths maxLength rest ((n.num, valueOf dad lens + 1) :: lens) overflow

/-- `blCount[0..15]` of the leaves' lengths (R326). -/
def countLengths (leafLens : List (Nat × Nat)) : List Nat :=
  (List.range 16).map fun b => (leafLens.filter fun p => p.2 = b).length

/-- The largest `b ≤ bits` with `blCount[b] ≠ 0`. -/
def deepestUsed (blCount : List Nat) : Nat → Option Nat
  | 0 => if blCount.getD 0 0 = 0 then none else some 0
  | b + 1 => if blCount.getD (b + 1) 0 = 0 then deepestUsed blCount b else some (b + 1)

/-- One step of the repair (R328): a leaf moves down from depth `bits`, an overflow leaf becomes its sibling. `none` where
an index or a counter would leave its range (log 15). -/
def repairStep (maxLength : Nat) (blCount : List Nat) : Option (List Nat) :=
  match deepestUsed blCount (maxLength - 1) with
  | none => none
  | some bits =>
      let a := blCount.set bits (blCount.getD bits 0 - 1)
      let b := a.set (bits + 1) (a.getD (bits + 1) 0 + 2)
      if b.getD maxLength 0 = 0 then none else some (b.set maxLength (b.getD maxLength 0 - 1))

/-- `repeat .. until overflow <= 0`, `overflow` falling by 2 a step (R328): the argument is the number of steps. -/
def repairCounts (maxLength : Nat) : Nat → List Nat → Option (List Nat)
  | 0, blCount => some blCount
  | k + 1, blCount =>
      match repairStep maxLength blCount with
      | none => none
      | some next => repairCounts maxLength k next

/-- The lengths in the order R328 hands them out: `blCount[maxLength]` times `maxLength`, down to `blCount[1]` times 1. -/
def lengthsDown (blCount : List Nat) : Nat → List Nat
  | 0 => []
  | bits + 1 => List.replicate (blCount.getD (bits + 1) 0) (bits + 1) ++ lengthsDown blCount bits

/-- The second part of R328: the leaves, in pop order, take the lengths, longest first; `none` if the pop order runs out
before the lengths do. Leaves left over keep their length. -/
def reassign : List Nat → List (Nat × Nat) → Option (List (Nat × Nat))
  | [], leafLens => some leafLens
  | _ :: _, [] => none
  | bits :: more, (n, _) :: rest => (reassign more rest).map fun tail => (n, bits) :: tail

/-- The Kraft check (R331). -/
def kraftHolds (maxLength : Nat) (leafLens : List (Nat × Nat)) : Bool :=
  leafLens.all (fun p => decide (p.2 ≤ maxLength))
    && decide ((leafLens.map fun p => 2 ^ (maxLength - p.2)).sum ≤ 2 ^ maxLength)

/-- `nextCode[bits]` for bits 1.. (R333), `code` being the value for the length before. -/
def nextCodesFrom (blCount : List Nat) : Nat → Nat → Nat → List Nat
  | 0, _, _ => []
  | k + 1, bits, code =>
      ((code + blCount.getD (bits - 1) 0) * 2) :: nextCodesFrom blCount k (bits + 1) ((code + blCount.getD (bits - 1) 0) * 2)

/-- `nextCode[0..15]`; entry 0 is not used (R333). -/
def firstCodes (blCount : List Nat) : List Nat := 0 :: nextCodesFrom (blCount.set 0 0) 15 1 0

/-- `GenCodes` (R333): the stored, bit-reversed codes of the symbols with nonzero length, in symbol order, and `nextCode`
at the end. -/
def genCodes : List Nat → List (Nat × Nat) → List (Nat × Nat) × List Nat
  | nextCode, [] => ([], nextCode)
  | nextCode, (n, len) :: rest =>
      if len = 0 then genCodes nextCode rest
      else
        let r := genCodes (nextCode.set len (nextCode.getD len 0 + 1)) rest
        ((n, revBits len (nextCode.getD len 0)) :: r.1, r.2)

/-! ### One build -/

/-- What the first part of a build gives (R322 to R326): the popped nodes with their parents, the leaves among them in
pop order with lengths, the costs, and what the repair and the scratch need. -/
structure Built where
  live : List Node
  popped : List (Node × Nat)
  maxCode : Nat
  phantoms : List Nat
  lens : List (Nat × Nat)
  overflow : Nat
  leafLens : List (Nat × Nat)
  blCount : List Nat
deriving DecidableEq, Repr

/-- Seed, phantoms, merge, lengths (R322 to R326). -/
def buildLengths (tree : Tree) (freq : Arr 16) : Built :=
  let seeds := seedLeaves freq
  let maxSeed : Int := seeds.foldl (fun m n => max m (n.num : Int)) (-1)
  let withPhantoms := addPhantoms 2 seeds maxSeed []
  let sorted := withPhantoms.1.foldl (fun live n => insertNode n live) []
  let merged := mergeNodes sorted.length tree.elems sorted []
  let root := merged.1.map fun n => (n.num, 0)
  let assigned := assignLengths tree.maxLength merged.2.reverse root 0
  let maxCode := withPhantoms.2.1.toNat
  let leafLens := (merged.2.filter fun p => decide (p.1.num ≤ maxCode)).map
    fun p => (p.1.num, valueOf p.1.num assigned.1)
  { live := merged.1, popped := merged.2, maxCode := maxCode, phantoms := withPhantoms.2.2, lens := assigned.1,
    overflow := assigned.2, leafLens := leafLens, blCount := countLengths leafLens }

/-- `FREQ[n]` of a popped node (phantoms count 1). -/
def Built.freqOf (b : Built) (n : Nat) : Nat := valueOf n (b.popped.map fun p => (p.1.num, p.1.freq))

/-- What the build adds to `optLen`: -1 for each phantom (R323), `FREQ * (bits + xbits)` for each leaf (R326). -/
def Built.optCost (tree : Tree) (b : Built) : Int :=
  (b.leafLens.map fun p => ((b.freqOf p.1 * (p.2 + tree.xbits p.1) : Nat) : Int)).sum - b.phantoms.length

/-- What the build adds to `staticLen`: `-stat` for each phantom, `FREQ * (stat + xbits)` for each leaf. -/
def Built.staticCost (tree : Tree) (b : Built) : Int :=
  if tree.hasStatic then
    (b.leafLens.map fun p => ((b.freqOf p.1 * (tree.stat p.1 + tree.xbits p.1) : Nat) : Int)).sum
      - (b.phantoms.map fun n => ((tree.stat n : Nat) : Int)).sum
  else 0

/-- The length repair (R327, R328): the final `blCount` and leaf lengths in pop order. -/
def Built.repair (tree : Tree) (b : Built) : Option (List Nat × List (Nat × Nat)) :=
  if b.overflow = 0 then some (b.blCount, b.leafLens)
  else
    match repairCounts tree.maxLength ((b.overflow + 1) / 2) b.blCount with
    | none => none
    | some blCount =>
        match reassign (lengthsDown blCount tree.maxLength) b.leafLens with
        | none => none
        | some leafLens => some (blCount, leafLens)

/-- What the repair adds to `optLen`: `(bits - LEN) * FREQ` for each leaf it changes (R328). -/
def Built.repairCost (b : Built) (before after : List (Nat × Nat)) : Int :=
  ((before.zip after).map fun p => ((p.2.2 : Int) - (p.1.2 : Int)) * (b.freqOf p.1.1 : Int)).sum

/-- A `*LEN` register file from the leaves' lengths: 0 for symbols that are not leaves (R332). -/
def lenFile (leafLens : List (Nat × Nat)) : Arr 4 :=
  leafLens.foldl (fun a p => a.write p.1 (BitVec.ofNat 4 p.2)) []

/-- The leaves in symbol order. -/
def bySymbol (leafLens : List (Nat × Nat)) : List (Nat × Nat) :=
  (lenFile leafLens).map fun p => (p.1, p.2.toNat)

/-- `overflow` at the end of a build: the count of R326, less 2 for every repair step (R328). -/
def Built.finalOverflow (b : Built) : Int := (b.overflow : Int) - 2 * (((b.overflow + 1) / 2 : Nat) : Int)

/-- The scratch registers at the end of a build (10_state.md R52, log 17). -/
def Built.scratch (b : Built) (blCount : List Nat) (leafLens : List (Nat × Nat)) (nextCode : List Nat) : Scratch where
  live := b.live.map (·.num)
  freq := b.popped.map (fun p => (p.1.num, p.1.freq)) ++ b.live.map (fun n => (n.num, n.freq))
  depth := b.popped.map (fun p => (p.1.num, p.1.depth)) ++ b.live.map (fun n => (n.num, n.depth))
  dad := b.popped.map fun p => (p.1.num, p.2)
  len := leafLens ++ b.lens.filter (fun p => decide (b.maxCode < p.1))
  order := b.popped.map fun p => p.1.num
  blCount := blCount
  nextCode := nextCode
  overflow := b.finalOverflow

/-! ### The registers of one tree (R321) -/

/-- The frequency register file of a tree. -/
def Huffman.freqs (h : Huffman) : Tree → Arr 16
  | .lit => h.lfreq
  | .dist => h.dfreq
  | .bl => h.blfreq

/-- The `*LEN` register file of a tree. -/
def Huffman.lens (h : Huffman) : Tree → Arr 4
  | .lit => h.llen
  | .dist => h.dlen
  | .bl => h.bllen

/-- The `*CODE` register file of a tree. -/
def Huffman.codes (h : Huffman) : Tree → Arr 15
  | .lit => h.lcode
  | .dist => h.dcode
  | .bl => h.blcode

/-- Write `*LEN`, `*CODE` and the max-code register of a tree (R332, R333). -/
def Huffman.setTree (h : Huffman) (tree : Tree) (len : Arr 4) (code : Arr 15) (maxCode : Nat) : Huffman :=
  match tree with
  | .lit => { h with llen := len, lcode := code, lMaxCode := maxCode }
  | .dist => { h with dlen := len, dcode := code, dMaxCode := maxCode }
  | .bl => { h with bllen := len, blcode := code, blMaxCode := maxCode }

/-- Add to the two cost registers (10_state.md R47). -/
def addCost (opt static : Int) : Op Unit :=
  Op.update fun s => s.setHb { s.hb with optLen := s.hb.optLen + opt, staticLen := s.hb.staticLen + static }

/-- A `*CODE` register file with the codes written; entries of symbols without a code keep what they held (R333). -/
def codeFile (old : Arr 15) (codes : List (Nat × Nat)) : Arr 15 :=
  codes.foldl (fun a p => a.write p.1 (BitVec.ofNat 15 p.2)) old

/-- `BuildTree(desc)` (R321 to R333). -/
def buildTree (tree : Tree) : Op Unit := do
  let s ← Op.state
  let b := buildLengths tree (s.hb.freqs tree)
  addCost (b.optCost tree) (b.staticCost tree)
  match b.repair tree with
  | none => Op.raise .bounds
  | some (blCount, leafLens) => do
      addCost (b.repairCost b.leafLens leafLens) 0
      Op.require (kraftHolds tree.maxLength leafLens = true) .kraft
      let coded := genCodes (firstCodes blCount) (bySymbol leafLens)
      Op.update fun s => s.setHb
        { s.hb.setTree tree (lenFile leafLens) (codeFile (s.hb.codes tree) coded.1) b.maxCode with
          scratch := b.scratch blCount leafLens coded.2 }

/-! ### The run-length scan (R335, 44_block_controller.md R443) -/

/-- One code-length symbol with its repeat count: what `ScanTree` counts and `SendTree` sends. -/
inductive ClSym where
  | len (l : Nat)
  | repeatPrev (count : Nat)
  | zeros (count : Nat)
  | manyZeros (count : Nat)
deriving DecidableEq, Repr

/-- The symbols of one run of `count` lengths `curlen` (R335, R443). -/
def runSymbols (curlen count minCount : Nat) (prevlen : Option Nat) : List ClSym :=
  if count < minCount then List.replicate count (.len curlen)
  else if curlen ≠ 0 then
    if prevlen = some curlen then [.repeatPrev count] else [.len curlen, .repeatPrev (count - 1)]
  else if count ≤ 10 then [.zeros count]
  else [.manyZeros count]

/-- `(maxCount, minCount)` for the next run (R335); `nextlen = none` is the guard unequal to every length. -/
def runLimits (curlen : Nat) (nextlen : Option Nat) : Nat × Nat :=
  if nextlen = some 0 then (138, 3) else if nextlen = some curlen then (6, 3) else (7, 4)

/-- The scan over `LENS[0 .. maxCode]`, given as a list (R335). -/
def scanLens : List Nat → Option Nat → Nat → Nat × Nat → List ClSym
  | [], _, _, _ => []
  | curlen :: rest, prevlen, count, (maxCount, minCount) =>
      if count + 1 < maxCount ∧ rest.head? = some curlen then
        scanLens rest prevlen (count + 1) (maxCount, minCount)
      else
        runSymbols curlen (count + 1) minCount prevlen
          ++ scanLens rest (some curlen) 0 (runLimits curlen rest.head?)

/-- The whole scan of one tree: `prevlen` = -1 and the limits by the first length (R335). -/
def scanTree (lens : List Nat) : List ClSym :=
  scanLens lens none 0 (if lens.head? = some 0 then (138, 3) else (7, 4))

/-- `LENS[0 .. maxCode]` as numbers. -/
def lensUpTo (lens : Arr 4) (maxCode : Nat) : List Nat := (List.range (maxCode + 1)).map fun n => (lens.read n).toNat

/-- The code-length symbol's number (30_encoding.md R157). -/
def ClSym.num : ClSym → Nat
  | .len l => l
  | .repeatPrev _ => 16
  | .zeros _ => 17
  | .manyZeros _ => 18

/-- `ScanTree(LENS, maxCode)` (R335): count each symbol into `BLFREQ`. -/
def countTree (tree : Tree) (maxCode : Nat) : Op Unit := do
  Op.require (maxCode < tree.elems) .bounds
  let s ← Op.state
  Op.forEach (fun c => countBl (ClSym.num c) 1) (scanTree (lensUpTo (s.hb.lens tree) maxCode))

/-- The largest i in 3..18 with `BLLEN[BL_ORDER[i]] ≠ 0`, or 3 (R336); the argument counts down from 18. -/
def lastBlIndex (bllen : Arr 4) : Nat → Nat
  | 0 => 3
  | i + 1 => if i + 1 ≤ 3 then 3
             else if bllen.read (blOrder.getD (i + 1) 0) ≠ 0 then i + 1 else lastBlIndex bllen i

/-- `BuildAll()` (R337). -/
def buildAll : Op Unit := do
  buildTree .lit
  buildTree .dist
  let s ← Op.state
  countTree .lit s.hb.lMaxCode
  countTree .dist s.hb.dMaxCode
  buildTree .bl
  Op.update fun s => s.setHb { s.hb with maxBlIndex := lastBlIndex s.hb.bllen 18 }
  Op.update fun s => s.setHb { s.hb with optLen := s.hb.optLen + ((3 * (s.hb.maxBlIndex + 1) + 5 + 5 + 4 : Nat) : Int) }

end Sys2Proof.Machine
end

