-- ==== Sys2Proof/Machine/BlockController.lean ====
section
/-! DEFINITION. The block controller's emission side (44_block_controller.md R424 to R443): block bodies, block headers,
the mode selector, one block boundary, the flush epilogues, the zlib header and the trailer. -/

namespace Sys2Proof.Machine

/-! ### Codes (43_bit_packer.md R391) -/

/-- Which pair of code tables a block body uses. -/
inductive CodeSet where
  | static | dynamic
deriving DecidableEq, Repr

/-- How many entries the code table has: the static literal/length ROM has 288 (42_huffman_builder.md R340). -/
def CodeSet.size : CodeSet → Tree → Nat
  | .static, .lit => 288
  | .static, t => t.elems
  | .dynamic, t => t.elems

/-- `CODE[c]` (R391). -/
def CodeSet.code (h : Huffman) : CodeSet → Tree → Nat → Nat
  | .static, .lit, c => staticLitCode c
  | .static, .dist, c => staticDistCode c
  | .static, .bl, c => ((h.codes .bl).read c).toNat
  | .dynamic, t, c => ((h.codes t).read c).toNat

/-- `LEN[c]` (R391). -/
def CodeSet.len (h : Huffman) : CodeSet → Tree → Nat → Nat
  | .static, .lit, c => staticLitLen c
  | .static, .dist, c => staticDistLen c
  | .static, .bl, c => ((h.lens .bl).read c).toNat
  | .dynamic, t, c => ((h.lens t).read c).toNat

/-- `SendCode(c, CODE, LEN)` (R391). -/
def sendCode (set : CodeSet) (tree : Tree) (c : Nat) : Op Unit := do
  Op.require (c < set.size tree) .bounds
  let s ← Op.state
  sendBits (set.code s.hb tree c) (set.len s.hb tree c)

/-! ### Block bodies (44_block_controller.md R440) -/

/-- Send `v - base` in `n` extra bits, if there are any. -/
def sendExtra (v base n : Nat) : Op Unit := if n = 0 then pure () else sendDiff v base n

/-- One token of the block body (R440). -/
def sendToken (set : CodeSet) (i : Nat) : Op Unit := do
  let dist ← readDbuf i
  let lc ← readLbuf i
  if dist = 0 then sendCode set .lit lc.toNat
  else do
    sendCode set .lit (257 + lcode (lc.toNat + 3))
    sendExtra (lc.toNat + 3) (baseLength (lcode (lc.toNat + 3))) (extraLBits (lcode (lc.toNat + 3)))
    sendCode set .dist (distCode dist.toNat)
    sendExtra dist.toNat (baseDist (distCode dist.toNat)) (extraDBits (distCode dist.toNat))

/-- `CompressBlock(LC, LL, DC, DL)`: the tokens in tally order, then END_BLOCK (R440). -/
def compressBlock (set : CodeSet) : Op Unit := do
  let s ← Op.state
  Op.forEach (sendToken set) (List.range s.tok.lastLit)
  sendCode set .lit END_BLOCK

/-! ### The tree description (R442, R443) -/

/-- Send one code-length symbol and its repeat count (R443, 30_encoding.md R157). -/
def sendClSym : ClSym → Op Unit
  | .len l => sendCode .dynamic .bl l
  | .repeatPrev count => do
      sendCode .dynamic .bl 16
      sendDiff count 3 2
  | .zeros count => do
      sendCode .dynamic .bl 17
      sendDiff count 3 3
  | .manyZeros count => do
      sendCode .dynamic .bl 18
      sendDiff count 11 7

/-- `SendTree(LENS, maxCode)` (R443). -/
def sendTree (tree : Tree) (maxCode : Nat) : Op Unit := do
  Op.require (maxCode < tree.elems) .bounds
  let s ← Op.state
  Op.forEach sendClSym (scanTree (lensUpTo (s.hb.lens tree) maxCode))

/-- One 3-bit length of the bit-length tree, `BLLEN[BL_ORDER[rank]]` (R442). -/
def sendBlLen (rank : Nat) : Op Unit := do
  Op.require (rank < BL_CODES) .bounds
  let s ← Op.state
  sendBits (s.hb.bllen.read (blOrder.getD rank 0)).toNat 3

/-- `SendAllTrees()` (R442). -/
def sendAllTrees : Op Unit := do
  let s ← Op.state
  sendDiff (s.hb.lMaxCode + 1) 257 5
  sendDiff (s.hb.dMaxCode + 1) 1 5
  sendDiff (s.hb.maxBlIndex + 1) 4 4
  Op.forEach sendBlLen (List.range (s.hb.maxBlIndex + 1))
  sendTree .lit s.hb.lMaxCode
  sendTree .dist s.hb.dMaxCode

/-! ### The three kinds of block (R431, R432) -/

/-- The bytes `WIN[start ..]` of a stored block, one `PutByte` each (R432). -/
def putWindowByte (i : Nat) : Op Unit := do
  let b ← readWin i
  putByte b

/-- `StoredBlock(start, len, eof)` (R432). -/
def storedBlock (start len : Int) (eof : BitVec 1) : Op Unit := do
  Op.require (0 ≤ start ∧ 0 ≤ len ∧ len ≤ (STORED_LIMIT : Int)) .storedNoOffset
  sendBits (0 * 2 + eof.toNat) 3
  biWindup
  putShort (BitVec.ofNat 16 len.toNat)
  putShort (~~~ (BitVec.ofNat 16 len.toNat))
  Op.forEach (fun i => putWindowByte (start.toNat + i)) (List.range len.toNat)

/-- The static branch of `FlushBlock`: BTYPE 01, then the tokens (R431). -/
def staticBlock (eof : BitVec 1) : Op Unit := do
  sendBits (1 * 2 + eof.toNat) 3
  compressBlock .static

/-- The dynamic branch of `FlushBlock`: BTYPE 10, the tree description, then the tokens (R431). -/
def dynamicBlock (eof : BitVec 1) : Op Unit := do
  sendBits (2 * 2 + eof.toNat) 3
  sendAllTrees
  compressBlock .dynamic

/-! ### One block boundary (R428 to R431) -/

/-- What the mode selector answers (R429). -/
inductive BlockMode where
  | stored | static | dynamic
deriving DecidableEq, Repr

/-- `(len + 3 + 7) >> 3` (R428). -/
def costBytes (len : Int) : Int := (len + 3 + 7) / 8

/-- The mode selector (R429). -/
def selectMode (level : Nat) (storedLen blockStart optLen staticLen : Int) : BlockMode :=
  if level = 0 then .stored
  else if storedLen + 5 ≤ min (costBytes optLen) (costBytes staticLen) + 4 ∧ storedLen ≤ (STORED_LIMIT : Int)
      ∧ 0 ≤ blockStart then .stored
  else if costBytes staticLen ≤ costBytes optLen then .static
  else .dynamic

/-- The block in the mode selected (R431). -/
def emitBlock (mode : BlockMode) (blockStart storedLen : Int) (eof : BitVec 1) : Op Unit :=
  match mode with
  | .stored => storedBlock blockStart storedLen eof
  | .static => staticBlock eof
  | .dynamic => dynamicBlock eof

/-- `FlushBlock(eof)` (R431). -/
def flushBlock (eof : BitVec 1) : Op Unit := do
  let s ← Op.state
  Op.when (s.cfg.level.toNat ≠ 0) buildAll
  let t ← Op.state
  emitBlock (selectMode t.cfg.level.toNat ((t.mf.strStart : Int) - t.mf.blockStart) t.mf.blockStart t.hb.optLen
    t.hb.staticLen) t.mf.blockStart ((t.mf.strStart : Int) - t.mf.blockStart) eof
  initBlock
  Op.when (eof = 1) biWindup
  Op.update fun s => s.setMf { s.mf with blockStart := (s.mf.strStart : Int) }

/-! ### Flush epilogues (R433 to R435) -/

/-- `ClearHead()` (R435). -/
def clearHead : Op Unit := Op.update fun s => s.setMem { s.mem with head := [] }

/-- `FlushEpilogue(f)` (R433, R434). -/
def flushEpilogue (f : BitVec 3) : Op Unit :=
  if f = PARTIAL_FLUSH then biFlushBytes
  else do
    storedBlock 0 0 0
    Op.when (f = FULL_FLUSH) clearHead

/-! ### zlib container (R424, R425) -/

/-- CMF then FLG, from the fields of 30_encoding.md R149. -/
def putHeader (cinfo : BitVec 4) (flevel : BitVec 2) (fcheck : BitVec 5) : Op Unit := do
  putByte (cinfo ++ 8#4)
  putByte (flevel ++ 0#1 ++ fcheck)

/-- FLEVEL (R424, D16). -/
def flevelOf (level : Nat) (strategy : BitVec 2) : Nat :=
  if strategy = HUFFMAN_ONLY ∨ level < 2 then 0 else if level < 6 then 1 else if level = 6 then 2 else 3

/-- The header value before the check bits, `(CMF << 8) | (FLEVEL << 6)` (R424). -/
def headerBase (c : Settings) : Nat :=
  ((c.windowBits.toNat - 8) * 16 + 8) * 256 + flevelOf c.level.toNat c.strategy * 64

/-- The two bytes of `h + 31 - (h mod 31)` (R424), as the fields of the stream element. -/
def zlibHeader : Op Unit := do
  let s ← Op.state
  putHeader (BitVec.ofNat 4 (s.cfg.windowBits.toNat - 8)) (BitVec.ofNat 2 (flevelOf s.cfg.level.toNat s.cfg.strategy))
    (BitVec.ofNat 5 (31 - headerBase s.cfg % 31))

/-- Four bytes, most significant first (R425, 30_encoding.md R159). -/
def putAdler (adler : Word) : Op Unit := do
  putByte (adler.extractLsb' 24 8)
  putByte (adler.extractLsb' 16 8)
  putByte (adler.extractLsb' 8 8)
  putByte (adler.extractLsb' 0 8)

/-- `Trailer()` (R425). -/
def trailer : Op Unit := do
  let s ← Op.state
  putAdler s.sums.adler

end Sys2Proof.Machine
end

