-- ==== Sys2Proof/Machine/MatchFinder.lean ====
section
/-! DEFINITION. The match finder (41_match_finder.md): hash, insertion, window fill, compaction, longest match, tally and
the three drivers, and the driver dispatch (44_block_controller.md R420). The lines of each definition follow the
pseudocode's (00_scope.md R13). -/

namespace Sys2Proof.Machine

/-! ### Hash and insertion (R250, R251) -/

/-- `UpdateHash(h, c)` = `((h << hashShift) ^ c) & hashMask` (R250). -/
def updateHash (c : Settings) (h : BitVec 16) (b : Byte) : BitVec 16 :=
  ((h <<< c.hashShift) ^^^ b.zeroExtend 16) &&& BitVec.ofNat 16 c.hashMask

/-- `InsertString(pos)`: link `pos` into its hash chain, answer the previous head, 0 meaning NIL (R251, R262). -/
def insertString (pos : Nat) : Op Nat := do
  let b ← readWin (pos + 2)
  Op.update fun s => s.setMf { s.mf with insH := updateHash s.cfg s.mf.insH b }
  let s ← Op.state
  let old ← readHead s.mf.insH.toNat
  writePrev (pos % s.cfg.wSize) old
  writeHead s.mf.insH.toNat (BitVec.ofNat 16 pos)
  pure old.toNat

/-! ### Window fill and compaction (R256, R257) -/

/-- `matchStart - wSize` in the 32 signed bits of the register (R256, 10_state.md R41). Below them no rule gives a value
(00_scope.md R10): a free one (DESIGN CHOICE, log 22). -/
def rebaseMatch (m : BitVec 32) (wSize : Nat) : BitVec 32 :=
  if -2147483648 ≤ m.toInt - (wSize : Int) then BitVec.ofInt 32 (m.toInt - (wSize : Int))
  else Config.matchStartBelowRange (m.toInt - (wSize : Int))

/-- `Slide()` (R256). `matchStart` is kept in its 32 bits by `rebaseMatch` (log 22); `prevMatch` is not rebased. -/
def slide : Op Unit := do
  Op.update fun s => s.setMem { s.mem with
    win := s.mem.win.compact s.cfg.wSize,
    head := s.mem.head.rebase s.cfg.wSize,
    prev := s.mem.prev.rebase s.cfg.wSize }
  Op.update fun s => s.setMf { s.mf with
    matchStart := rebaseMatch s.mf.matchStart s.cfg.wSize,
    strStart := s.mf.strStart - s.cfg.wSize,
    blockStart := s.mf.blockStart - s.cfg.wSize }
  checkWindow

/-- `insH <- UpdateHash(WIN[strStart], WIN[strStart + 1])` after a fill (R257). -/
def seedHash : Op Unit := do
  let s ← Op.state
  let x ← readWin s.mf.strStart
  let y ← readWin (s.mf.strStart + 1)
  Op.update fun s => s.setMf { s.mf with insH := updateHash s.cfg (x.zeroExtend 16) y }

/-- The fill compacts first: `strStart ≥ wSize + MAX_DIST` (R257). -/
def State.mustSlide (s : State) : Bool := decide (s.cfg.wSize + s.cfg.maxDist ≤ s.mf.strStart)

/-- `more`, after the compaction if there is one (R257). -/
def State.fillRoom (s : State) : Nat :=
  s.cfg.windowBytes - s.mf.lookAhead - s.mf.strStart + (if s.mustSlide = true then s.cfg.wSize else 0)

/-- One round of the fill (R257). The compaction test runs even when `IN` is empty. -/
def fillStep : Op LoopStep := do
  let s ← Op.state
  Op.when (s.mustSlide = true) slide
  let t ← Op.state
  if t.mem.input = [] then pure .exit
  else do
    let n ← readBuf (t.mf.strStart + t.mf.lookAhead) s.fillRoom
    Op.update fun s => s.setMf { s.mf with lookAhead := s.mf.lookAhead + n }
    let u ← Op.state
    Op.when (MIN_MATCH ≤ u.mf.lookAhead) seedHash
    if MIN_LOOKAHEAD ≤ u.mf.lookAhead ∨ u.mem.input = [] then pure .exit else pure .again

/-- How many times round a fill may go: every round but the last consumes a byte of `IN` (log 10). -/
def State.fillFuel (s : State) : Nat := s.mem.input.length + 1

/-- `FillWindow()` (R257), with the check of 60_exceptions.md R506 after it. -/
def fillWindow : Op Unit := do
  let s ← Op.state
  let _ ← Op.iterate fillStep s.fillFuel
  checkWindow

/-! ### Longest match (R260) -/

/-- The common length of `WIN[a ..]` and `WIN[b ..]`, at most `limit` (the inner loop of R260). -/
def commonLength (a b : Nat) : Nat → Op Nat
  | 0 => pure 0
  | limit + 1 => do
      let x ← readWin a
      let y ← readWin b
      if x = y then do
        let n ← commonLength (a + 1) (b + 1) limit
        pure (n + 1)
      else pure 0

/-- The chain walk of R260: `chain` candidates at most, newest first, down to `limit`; answers `best` (log 15). -/
def walkChain (strStart maxLen nice limit : Nat) : Nat → Nat → Nat → Op Nat
  | 0, _, best => pure best
  | chain + 1, cur, best => do
      let len ← commonLength strStart cur maxLen
      Op.when (best < len) (Op.update fun s => s.setMf { s.mf with matchStart := BitVec.ofNat 32 cur })
      if best < len ∧ nice ≤ len then pure len
      else do
        let s ← Op.state
        let next ← readPrev (cur % s.cfg.wSize)
        if limit < next.toNat then walkChain strStart maxLen nice limit chain next.toNat (max best len)
        else pure (max best len)

/-- `LongestMatch(cur)` (R260). -/
def longestMatch (cur : Nat) : Op Nat := do
  let s ← Op.state
  let chain := if s.ct.goodLength.toNat ≤ s.mf.prevLength then s.ct.maxChain.toNat / 2 else s.ct.maxChain.toNat
  let best ← walkChain s.mf.strStart (min MAX_MATCH s.mf.lookAhead) (min s.ct.niceLength.toNat s.mf.lookAhead)
    (s.mf.strStart - s.cfg.maxDist) chain cur s.mf.prevLength
  pure (min best s.mf.lookAhead)

/-! ### Tally (R270 to R272) -/

/-- The frequencies a token counts: a literal's symbol, or a match's length and distance symbols (R270). -/
def countToken (dist : Int) (lc : Nat) : Op Unit :=
  if dist = 0 then countLit lc 1
  else do
    let s ← Op.state
    Op.require (1 ≤ dist ∧ dist ≤ (s.cfg.maxDist : Int) ∧ lc ≤ 255) .matchBounds
    Op.update fun s => s.setTok { s.tok with numMatches := s.tok.numMatches + 1 }
    countLit (257 + lcode (lc + 3)) 1
    countDist (distCode dist.toNat) 1

/-- `bflush` after a token (R270 to R272). -/
def State.blockEnds (s : State) : Bool :=
  blockFull s.cfg.litBufferSize s.tok.lastLit
    (sparse s.cfg.level.toNat s.tok.lastLit s.tok.numMatches (fun d => (s.hb.dfreq.read d).toNat)
      ((s.mf.strStart : Int) - s.mf.blockStart))

/-- `Tally(dist, lc)` (R270): one token; answers `bflush`. A literal has `dist` = 0. -/
def tally (dist : Int) (lc : Nat) : Op Bool := do
  let s ← Op.state
  Op.require (s.tok.lastLit < s.cfg.litBufferSize) .tokenOverflow
  writeToken s.tok.lastLit (BitVec.ofInt 16 dist) (BitVec.ofNat 8 lc)
  Op.update fun s => s.setTok { s.tok with lastLit := s.tok.lastLit + 1 }
  countToken dist lc
  Op.gets State.blockEnds

/-- A literal token for `WIN[i]`. -/
def tallyLiteral (i : Nat) : Op Bool := do
  let b ← readWin i
  tally 0 b.toNat

/-- End the block now if the tally said so (R285, R290). -/
def flushIf (bflush : Bool) : Op Unit := Op.when (bflush = true) (flushBlock 0)

/-! ### Driving strategies (R275 to R290) -/

/-- What a driver returns (R275). -/
inductive DriveResult where
  | needMore | blockDone | finishDone
deriving DecidableEq, Repr

/-- The end of every driver: the final `FlushBlock` of the command, and the driver's result. -/
def endDrive (f : BitVec 3) (l : LoopStep) : Op DriveResult :=
  match l with
  | .needMore => pure .needMore
  | _ => do
      flushBlock (if f = FINISH then 1 else 0)
      pure (if f = FINISH then .finishDone else .blockDone)

/-- How many times round a driver may go: every round but the last consumes a byte (log 10). -/
def driveFuel : Op Nat := do
  let s ← Op.state
  pure (s.mf.lookAhead + s.mem.input.length + 2)

/-- One round of `DriveStored` once there is lookahead (R280). -/
def storedStep : Op LoopStep := do
  let s ← Op.state
  let n := min (s.mf.lookAhead : Int) ((s.cfg.storedMax : Int) - ((s.mf.strStart : Int) - s.mf.blockStart))
  advance n.toNat
  takeLook n.toNat
  let t ← Op.state
  Op.when ((t.mf.strStart : Int) - t.mf.blockStart = (t.cfg.storedMax : Int)) (flushBlock 0)
  checkWindow
  pure .again

/-- The top of `DriveStored`'s loop: fill when the lookahead is empty (R280). -/
def storedRound (f : BitVec 3) : Op LoopStep := do
  let s ← Op.state
  Op.when (s.mf.lookAhead = 0) fillWindow
  let t ← Op.state
  if t.mf.lookAhead = 0 then pure (if f = NO_FLUSH then .needMore else .exit) else storedStep

/-- `DriveStored(f)` (R280). -/
def driveStored (f : BitVec 3) : Op DriveResult := do
  let fuel ← driveFuel
  let l ← Op.iterate (storedRound f) fuel
  endDrive f l

/-- The top of the FAST and SLOW loops: fill below `MIN_LOOKAHEAD`, then more input, the exit, or `step` (R285, R290). -/
def matchRound (f : BitVec 3) (step : Op LoopStep) : Op LoopStep := do
  let s ← Op.state
  Op.when (s.mf.lookAhead < MIN_LOOKAHEAD) fillWindow
  let t ← Op.state
  if s.mf.lookAhead < MIN_LOOKAHEAD ∧ t.mf.lookAhead < MIN_LOOKAHEAD ∧ f = NO_FLUSH then pure .needMore
  else if s.mf.lookAhead < MIN_LOOKAHEAD ∧ t.mf.lookAhead = 0 then pure .exit
  else step

/-- `head <- 0; if lookAhead >= MIN_MATCH: head <- InsertString(strStart)`. -/
def insertHere : Op Nat := do
  let s ← Op.state
  if MIN_MATCH ≤ s.mf.lookAhead then insertString s.mf.strStart else pure 0

/-- `strStart <- strStart + 1; InsertString(strStart)` (R285). -/
def skipFast : Op Unit := do
  advance 1
  let s ← Op.state
  let _ ← insertString s.mf.strStart
  pure ()

/-- `WIN0(i)`: `WIN[i]`, or 0 past the end (R285). -/
def State.win0 (s : State) (i : Nat) : Byte := if i < s.cfg.windowBytes then s.mem.win.read i else 0

/-- FAST: pass a match of `len` bytes, insert what it skips, or re-seed the hash near the end of the data (R285). -/
def fastPass (len : Nat) : Op Unit := do
  let t ← Op.state
  if MIN_MATCH ≤ t.mf.lookAhead then do
    Op.times (len - 1) skipFast
    advance 1
  else do
    advance len
    Op.update fun u => u.setMf { u.mf with
      insH := updateHash u.cfg ((u.win0 u.mf.strStart).zeroExtend 16) (u.win0 (u.mf.strStart + 1)) }

/-- FAST, a match of length `matchLength` found: tally it and pass it (R285). -/
def fastMatch : Op Bool := do
  let s ← Op.state
  let bflush ← tally ((s.mf.strStart : Int) - s.mf.matchStart.toInt) (s.mf.matchLength - MIN_MATCH)
  takeLook s.mf.matchLength
  fastPass s.mf.matchLength
  Op.update fun u => u.setMf { u.mf with matchLength := 0 }
  pure bflush

/-- FAST, no match: a literal (R285). -/
def fastLiteral : Op Bool := do
  let s ← Op.state
  let bflush ← tallyLiteral s.mf.strStart
  takeLook 1
  advance 1
  pure bflush

/-- `matchLength <- LongestMatch(head)`. -/
def searchFrom (head : Nat) : Op Unit := do
  let len ← longestMatch head
  Op.update fun u => u.setMf { u.mf with matchLength := len }

/-- FAST: the match just found, or a literal (R285). -/
def fastToken : Op Bool := do
  let t ← Op.state
  if MIN_MATCH ≤ t.mf.matchLength then fastMatch else fastLiteral

/-- One round of `DriveFast` once there is lookahead (R285). -/
def fastStep : Op LoopStep := do
  let head ← insertHere
  let s ← Op.state
  Op.when (head ≠ 0 ∧ s.mf.strStart ≤ head + s.cfg.maxDist ∧ s.cfg.strategy ≠ HUFFMAN_ONLY) (searchFrom head)
  let bflush ← fastToken
  flushIf bflush
  checkWindow
  pure .again

/-- `DriveFast(f)` (R285). -/
def driveFast (f : BitVec 3) : Op DriveResult := do
  let fuel ← driveFuel
  let l ← Op.iterate (matchRound f fastStep) fuel
  endDrive f l

/-- `strStart <- strStart + 1; if strStart <= maxInsert: InsertString(strStart)`, where `maxInsert` = `fence - MIN_MATCH`
(R290). -/
def skipSlow (fence : Nat) : Op Unit := do
  advance 1
  let s ← Op.state
  Op.when (s.mf.strStart + MIN_MATCH ≤ fence) (do
    let _ ← insertString s.mf.strStart
    pure ())

/-- SLOW: commit the match found at `strStart - 1` (R290). A compaction between the search and this step can have taken
`prevMatch` to -1, and the distance is formed from it all the same: the pseudocode of R256 and R290 is followed, against the
note R262 (c) and 10_state.md R41, and the distance is the one the search found (DEDUCED, log 23). -/
def slowCommit : Op Unit := do
  let s ← Op.state
  let bflush ← tally ((s.mf.strStart : Int) - 1 - s.mf.prevMatch.toInt) (s.mf.prevLength - MIN_MATCH)
  takeLook (s.mf.prevLength - 1)
  Op.times (s.mf.prevLength - 2) (skipSlow (s.mf.strStart + s.mf.lookAhead))
  Op.update fun u => u.setMf { u.mf with
    prevLength := 0, matchAvailable := false, matchLength := MIN_MATCH - 1, strStart := u.mf.strStart + 1 }
  flushIf bflush

/-- `WIN[strStart - 1]` as a literal; index -1 is outside the memory (R290, 60_exceptions.md R505). -/
def tallyDeferred : Op Bool := do
  let s ← Op.state
  Op.require (1 ≤ s.mf.strStart) .bounds
  tallyLiteral (s.mf.strStart - 1)

/-- SLOW: the match at `strStart - 1` (if any) lost; its byte is a literal (R290). -/
def slowLiteral : Op Unit := do
  let bflush ← tallyDeferred
  flushIf bflush
  advance 1
  takeLook 1

/-- SLOW: nothing deferred yet, defer this position (R290). -/
def slowDefer : Op Unit := do
  Op.update fun u => u.setMf { u.mf with matchAvailable := true }
  advance 1
  takeLook 1

/-- FILTERED drops a match of at most 5 bytes (R290). -/
def State.dropShort (s : State) : State :=
  if s.mf.matchLength ≤ 5 ∧ s.cfg.strategy = FILTERED then s.setMf { s.mf with matchLength := MIN_MATCH - 1 } else s

/-- SLOW: the search at `strStart`, or none (R290). -/
def slowSearch (head : Nat) : Op Unit := do
  let s ← Op.state
  Op.when (head ≠ 0 ∧ s.mf.prevLength < s.ct.maxLazy.toNat ∧ s.mf.strStart ≤ head + s.cfg.maxDist) (do
    Op.when (s.cfg.strategy ≠ HUFFMAN_ONLY) (searchFrom head)
    Op.update State.dropShort)

/-- SLOW: commit the previous match, or give its byte up, or defer (R290). -/
def slowDecide : Op Unit := do
  let t ← Op.state
  if MIN_MATCH ≤ t.mf.prevLength ∧ t.mf.matchLength ≤ t.mf.prevLength then slowCommit
  else if t.mf.matchAvailable = true then slowLiteral
  else slowDefer

/-- One round of `DriveSlow` once there is lookahead (R290). -/
def slowStep : Op LoopStep := do
  let head ← insertHere
  Op.update fun u => u.setMf { u.mf with
    prevLength := u.mf.matchLength, prevMatch := u.mf.matchStart, matchLength := MIN_MATCH - 1 }
  slowSearch head
  slowDecide
  checkWindow
  pure .again

/-- The deferred literal at the end of `DriveSlow`; its result is ignored, `FlushBlock` follows (R290). -/
def flushDeferred : Op Unit := do
  let s ← Op.state
  Op.when (s.mf.matchAvailable = true) (do
    let _ ← tallyDeferred
    Op.update fun u => u.setMf { u.mf with matchAvailable := false })

/-- `DriveSlow(f)` (R290). -/
def driveSlow (f : BitVec 3) : Op DriveResult := do
  let fuel ← driveFuel
  let l ← Op.iterate (matchRound f slowStep) fuel
  Op.when (l = .exit) flushDeferred
  endDrive f l

/-- `Drive(f)` (44_block_controller.md R420). -/
def drive (f : BitVec 3) : Op DriveResult := do
  let s ← Op.state
  match s.ct.driver with
  | .stored => driveStored f
  | .fast => driveFast f
  | .slow => driveSlow f

end Sys2Proof.Machine
end

