-- ==== Sys2Proof/Machine/HostCommands.lean ====
section
/-! DEFINITION. The host commands (40_host_commands.md), one meaning per row of the opcode table, over the session reset
(70_reset_and_hazards.md R540) and the common part of COMPRESS (R205). -/

namespace Sys2Proof.Machine

/-- OK with nothing returned (30_encoding.md R142). -/
def okReply : Reply := ⟨okWord, .none⟩

/-- STREAM_END (R142). -/
def streamEndReply : Reply := ⟨streamEndWord, .none⟩

/-! ### CONFIGURE (R200) -/

/-- "discard every register and memory of the session": the power-on values, all but `faultCode`, which the raise writes,
and what is no register of the CORE (R200, 70_reset_and_hazards.md R541, log 13). -/
def State.discardSession (s : State) : State :=
  { State.reset with ctl := { s.ctl with fsm := .unconfigured, lastFlush := 0 }, platform := s.platform, port := s.port }

/-- The registers and memories of a fresh session (70_reset_and_hazards.md R540), `OUT` still empty; the ones R540 gives
no value hold the power-on values (log 2). -/
def State.freshSession (s : State) : State :=
  { s with
    ctl := { s.ctl with lastFlush := NO_FLUSH }
    mf := { strStart := 0, lookAhead := 0, blockStart := 0, insH := 0, matchLength := MIN_MATCH - 1, matchStart := 0,
            prevLength := MIN_MATCH - 1, prevMatch := 0, matchAvailable := false }
    tok := { lastLit := 0, numMatches := 0 }
    hb := Huffman.powerOn.initBlock
    bp := { biBuf := 0, biValid := 0 }
    sums := { adler := 1, crc := 0 }
    mem := { win := [], head := [], prev := [], dbuf := [], lbuf := [], out := [], input := [] } }

/-- `SessionReset()` (R540): the registers and memories, then the header bytes in `OUT` (44_block_controller.md R424). -/
def sessionReset : Op Unit := do
  Op.update State.freshSession
  zlibHeader

/-- Latch the configuration registers and the CT row (R200). -/
def latch (c : Settings) : Op Unit := Op.update fun s => (s.setCfg c).setCt (ctRow c.level)

/-- CONFIGURE (R200). `faultCode <- 0` stands with `fsm <- BUSY`, after the header (log 12). -/
def configure (c : Settings) : Op Reply :=
  if c.legal then do
    latch c
    sessionReset
    Op.update fun s => s.setCtl { s.ctl with fsm := .busy, faultCode := 0 }
    pure okReply
  else do
    Op.update State.discardSession
    Op.raise .config

/-- CONFIGURE `level, method, windowBits, memLevel, strategy` (R200). -/
def execConfigure (level method windowBits memLevel : BitVec 4) (strategy : BitVec 2) (s : State) :
    Host.Outcome State Fault Refusal :=
  runCommand (configure ⟨level, method, windowBits, memLevel, strategy⟩) s

/-! ### COMPRESS (R205) -/

/-- What the driver's result calls for (R205, 44_block_controller.md R437). -/
def afterDrive (f : BitVec 3) : DriveResult → Op Unit
  | .finishDone => Op.update fun s => s.setCtl { s.ctl with fsm := .finish }
  | .blockDone => flushEpilogue f
  | .needMore => pure ()

/-- The driver, then what its result calls for (R205). -/
def runDriver (f : BitVec 3) : Op Unit := do
  let bstate ← drive f
  afterDrive f bstate

/-- COMPRESS in state BUSY (R205), with the duplicate-flush test (R206). -/
def compressBusy (f : BitVec 3) (c : List Byte) : Op Reply := do
  let s ← Op.state
  Op.update fun s => s.setMem { s.mem with input := c }
  Op.update fun s => s.setCtl { s.ctl with lastFlush := f }
  if c = [] ∧ f ≤ s.ctl.lastFlush ∧ f ≠ FINISH then pure okReply
  else do
    Op.when (c ≠ [] ∨ s.mf.lookAhead ≠ 0 ∨ f ≠ NO_FLUSH) (runDriver f)
    if f ≠ FINISH then pure okReply
    else do
      trailer
      pure streamEndReply

/-- COMPRESS, the common part for every flush mode (R205), the checks in the order of 60_exceptions.md R511. -/
def compress (f : BitVec 3) (c : List Byte) : Op Reply := do
  requireSession
  Op.require (f ≤ FINISH) .badFlush
  let s ← Op.state
  if s.ctl.fsm = .finish then
    if f = FINISH ∧ c = [] then pure streamEndReply else Op.raise .afterFinish
  else compressBusy f c

/-- COMPRESS.NO_FLUSH `chunk` (R207). -/
def execCompressNoFlush (chunk : List Byte) (s : State) : Host.Outcome State Fault Refusal :=
  runCommand (compress NO_FLUSH chunk) s

/-- COMPRESS.PARTIAL_FLUSH `chunk` (R208). -/
def execCompressPartialFlush (chunk : List Byte) (s : State) : Host.Outcome State Fault Refusal :=
  runCommand (compress PARTIAL_FLUSH chunk) s

/-- COMPRESS.SYNC_FLUSH `chunk` (R209). -/
def execCompressSyncFlush (chunk : List Byte) (s : State) : Host.Outcome State Fault Refusal :=
  runCommand (compress SYNC_FLUSH chunk) s

/-- COMPRESS.FULL_FLUSH `chunk` (R210). -/
def execCompressFullFlush (chunk : List Byte) (s : State) : Host.Outcome State Fault Refusal :=
  runCommand (compress FULL_FLUSH chunk) s

/-- COMPRESS.FINISH `chunk` (R211). -/
def execCompressFinish (chunk : List Byte) (s : State) : Host.Outcome State Fault Refusal :=
  runCommand (compress FINISH chunk) s

/-- COMPRESS with `FLUSH` 5: F_BAD_FLUSH after the state check (R205, R160 (b)). -/
def execCompressFlush5 (chunk : List Byte) (s : State) : Host.Outcome State Fault Refusal :=
  runCommand (compress 5 chunk) s

/-- COMPRESS with `FLUSH` 6 (R205, R160 (b)). -/
def execCompressFlush6 (chunk : List Byte) (s : State) : Host.Outcome State Fault Refusal :=
  runCommand (compress 6 chunk) s

/-- COMPRESS with `FLUSH` 7 (R205, R160 (b)). -/
def execCompressFlush7 (chunk : List Byte) (s : State) : Host.Outcome State Fault Refusal :=
  runCommand (compress 7 chunk) s

/-! ### Output and status access (R212 to R214) -/

/-- GET_BYTES (R212). -/
def getBytes : Op Reply := do
  requireSession
  let s ← Op.state
  pure ⟨okWord, .bytes s.mem.out⟩

/-- TAKE_BYTES (R213). -/
def takeBytes : Op Reply := do
  requireSession
  let s ← Op.state
  Op.update fun s => s.setMem { s.mem with out := [] }
  pure ⟨okWord, .bytes s.mem.out⟩

/-- GET_CRC (R214). -/
def getCrc : Op Reply := do
  requireSession
  let s ← Op.state
  pure ⟨okWord, .crc s.sums.crc⟩

def execGetBytes (s : State) : Host.Outcome State Fault Refusal := runCommand getBytes s

def execTakeBytes (s : State) : Host.Outcome State Fault Refusal := runCommand takeBytes s

def execGetCrc (s : State) : Host.Outcome State Fault Refusal := runCommand getCrc s

end Sys2Proof.Machine
end

