-- ==== Sys2Proof/Machine/StreamElements.lean ====
section
/-! DEFINITION. The stream elements of the opcode table (30_encoding.md R148 to R159), each as the emission the commands
perform for it, run on its own (log 5). -/

namespace Sys2Proof.Machine

/-- STREAM.ZLIB_HEADER: CMF then FLG (R149, 44_block_controller.md R424), as the packet gives them, well formed or not
(log 20). DESIGN CHOICE (log 5): the bytes go to `OUT` whatever waits in the accumulator, so bits still pending come after
them (43_bit_packer.md R394 (d) has a direct `PutByte` at `biValid` = 0 only). -/
def execZlibHeader (cinfo : BitVec 4) (flevel : BitVec 2) (fcheck : BitVec 5) (s : State) :
    Host.Outcome State Fault Refusal :=
  runElement (putHeader cinfo flevel fcheck) s

/-- BLOCK.STORED: the current block, window bytes `blockStart .. strStart - 1`, as a stored block (R152, R431, R432). -/
def execBlockStored (bfinal : BitVec 1) (s : State) : Host.Outcome State Fault Refusal :=
  runElement (storedBlock s.mf.blockStart ((s.mf.strStart : Int) - s.mf.blockStart) bfinal) s

/-- BLOCK.STATIC: the tokens of the current block with the static codes (R151, R153, R431). DESIGN CHOICE (log 5): no
`BiWindup` follows, BFINAL = 1 or not, so the block's last bits, at most 16, stay in the accumulator; it is no part of the
element but of `FlushBlock` (R431), as InitBlock is. -/
def execBlockStatic (bfinal : BitVec 1) (s : State) : Host.Outcome State Fault Refusal :=
  runElement (staticBlock bfinal) s

/-- BLOCK.DYNAMIC: tree description and tokens with the trees of the last build (R156, R431, R442). DESIGN CHOICE (log 5):
no `BiWindup` follows, BFINAL = 1 or not, as in `execBlockStatic`. -/
def execBlockDynamic (bfinal : BitVec 1) (s : State) : Host.Outcome State Fault Refusal :=
  runElement (dynamicBlock bfinal) s

/-- BLOCK.RESERVED: "11 = reserved and never emitted" (R151). -/
def execBlockReserved (_bfinal : BitVec 1) (_s : State) : Host.Outcome State Fault Refusal :=
  .refused .reservedBlockType

/-- STREAM.ADLER_TRAILER: four bytes, most significant first (R159, 44_block_controller.md R425). DESIGN CHOICE (log 5):
ahead of any bits still pending, as in `execZlibHeader`. -/
def execAdlerTrailer (adler : Word) (s : State) : Host.Outcome State Fault Refusal :=
  runElement (putAdler adler) s

end Sys2Proof.Machine
end

