-- ==== Sys2Proof/Machine/Dispatch.lean ====
section
/-! DEFINITION. One arm per instruction (40_host_commands.md R215 for the commands). -/

namespace Sys2Proof.Machine

def exec (i : Instr) (s : State) : Host.Outcome State Fault Refusal :=
  match i with
  | .configure level method windowBits memLevel strategy => Sys2Proof.Machine.execConfigure level method windowBits memLevel strategy s
  | .compressNoFlush chunk => Sys2Proof.Machine.execCompressNoFlush chunk s
  | .compressPartialFlush chunk => Sys2Proof.Machine.execCompressPartialFlush chunk s
  | .compressSyncFlush chunk => Sys2Proof.Machine.execCompressSyncFlush chunk s
  | .compressFullFlush chunk => Sys2Proof.Machine.execCompressFullFlush chunk s
  | .compressFinish chunk => Sys2Proof.Machine.execCompressFinish chunk s
  | .compressFlush5 chunk => Sys2Proof.Machine.execCompressFlush5 chunk s
  | .compressFlush6 chunk => Sys2Proof.Machine.execCompressFlush6 chunk s
  | .compressFlush7 chunk => Sys2Proof.Machine.execCompressFlush7 chunk s
  | .getBytes => Sys2Proof.Machine.execGetBytes s
  | .takeBytes => Sys2Proof.Machine.execTakeBytes s
  | .getCrc => Sys2Proof.Machine.execGetCrc s
  | .zlibHeader cinfo flevel fcheck => Sys2Proof.Machine.execZlibHeader cinfo flevel fcheck s
  | .blockStored bfinal => Sys2Proof.Machine.execBlockStored bfinal s
  | .blockStatic bfinal => Sys2Proof.Machine.execBlockStatic bfinal s
  | .blockDynamic bfinal => Sys2Proof.Machine.execBlockDynamic bfinal s
  | .blockReserved bfinal => Sys2Proof.Machine.execBlockReserved bfinal s
  | .adlerTrailer adler => Sys2Proof.Machine.execAdlerTrailer adler s

end Sys2Proof.Machine
end

