-- ==== Sys2Proof/WellFormed.lean ====
section
/-! DEFINITION. Which instructions the spec's encodings admit. Field widths are in the types of the constructors; a
CONFIGURE operand or a `FLUSH` field out of its legal range is an operand error of a well-formed command
(30_encoding.md R140), so it is no matter of this file. -/

namespace Sys2Proof

/-- FCHECK makes `CMF * 256 + FLG` a multiple of 31 (30_encoding.md R149). -/
def headerValue (cinfo : BitVec 4) (flevel : BitVec 2) (fcheck : BitVec 5) : Nat :=
  (cinfo.toNat * 16 + 8) * 256 + flevel.toNat * 64 + fcheck.toNat

/-- A stream element that the CORE may emit; every command is well formed.
* STREAM.ZLIB_HEADER: CINFO = `windowBits - 8` with `windowBits` in 9..15, and the check bits right (R149).
* BLOCK.RESERVED: BTYPE 11 is reserved and never emitted (R151). -/
def Instr.wellFormed : Instr → Bool
  | .zlibHeader cinfo flevel fcheck =>
      decide (1 ≤ cinfo.toNat) && decide (cinfo.toNat ≤ 7) && decide (headerValue cinfo flevel fcheck % 31 = 0)
  | .blockReserved _ => false
  | .configure _ _ _ _ _ => true
  | .compressNoFlush _ => true
  | .compressPartialFlush _ => true
  | .compressSyncFlush _ => true
  | .compressFullFlush _ => true
  | .compressFinish _ => true
  | .compressFlush5 _ => true
  | .compressFlush6 _ => true
  | .compressFlush7 _ => true
  | .getBytes => true
  | .takeBytes => true
  | .getCrc => true
  | .blockStored _ => true
  | .blockStatic _ => true
  | .blockDynamic _ => true
  | .adlerTrailer _ => true

end Sys2Proof
end

