-- ==== Sys2Proof/Decode.lean ====
section
/-! DEFINITION. Decoding of packets (total, rejecting by name) and, after it, the encoder. Both are written from the field
layouts of 30_encoding.md R140, R149, R151, R159 and spec/opcode_table.json. -/

namespace Sys2Proof

/-- Why a packet is no instruction. The first two are the causes of F_BAD_COMMAND (40_host_commands.md R215). -/
inductive DecodeError where
  /-- `OPC` is 0 or 6..15. -/
  | reservedOpcode (opc : BitVec 4)
  /-- A reserved bit of the command's layout is 1. -/
  | reservedBits (word : Word)
  /-- A 16-bit element whose CM is not 8 or whose FDICT is not 0: no row of the table (R149, R160 (d)). -/
  | notZlibHeader (bits : BitVec 16)
deriving DecidableEq, Repr

/-- The `FLUSH` field of a COMPRESS (30_encoding.md R146) picks the row. -/
def compressInstr (flush : BitVec 3) (chunk : List Byte) : Instr :=
  match flush.toNat with
  | 0 => .compressNoFlush chunk
  | 1 => .compressPartialFlush chunk
  | 2 => .compressSyncFlush chunk
  | 3 => .compressFullFlush chunk
  | 4 => .compressFinish chunk
  | 5 => .compressFlush5 chunk
  | 6 => .compressFlush6 chunk
  | _ => .compressFlush7 chunk

/-- A command word with nothing but its `OPC` in [3:0] (GET_BYTES, TAKE_BYTES, GET_CRC: bits [31:4] reserved). -/
def decodeNoOperand (word : Word) (i : Instr) : Except DecodeError Instr :=
  if word.extractLsb' 4 28 = 0 then .ok i else .error (.reservedBits word)

/-- The command word (R140, R141): every field unsigned, taken from its bits; decoding looks at `OPC` and the reserved
bits only (R215). The bytes on the data-in port are the operand of COMPRESS alone (log 19). -/
def decodeCommand (word : Word) (chunk : List Byte) : Except DecodeError Instr :=
  match (word.extractLsb' 0 4).toNat with
  | 1 => if word.extractLsb' 22 10 = 0
         then .ok (.configure (word.extractLsb' 4 4) (word.extractLsb' 8 4) (word.extractLsb' 12 4)
                    (word.extractLsb' 16 4) (word.extractLsb' 20 2))
         else .error (.reservedBits word)
  | 2 => if word.extractLsb' 7 25 = 0 then .ok (compressInstr (word.extractLsb' 4 3) chunk)
         else .error (.reservedBits word)
  | 3 => decodeNoOperand word .getBytes
  | 4 => decodeNoOperand word .takeBytes
  | 5 => decodeNoOperand word .getCrc
  | _ => .error (.reservedOpcode (word.extractLsb' 0 4))

/-- `CMF * 256 + FLG`: CINFO [15:12], CM [11:8] = 8, FLEVEL [7:6], FDICT [5] = 0, FCHECK [4:0] (R149). Only the fixed bits
of the row are looked at: an FCHECK that does not check or a CINFO of no window decodes all the same, although such a header
is not well formed (DESIGN CHOICE, log 20; R160 (d) has no rule for receiving an element). -/
def decodeHeader (bits : BitVec 16) : Except DecodeError Instr :=
  if bits.extractLsb' 8 4 = 8 ∧ bits.extractLsb' 5 1 = 0
  then .ok (.zlibHeader (bits.extractLsb' 12 4) (bits.extractLsb' 6 2) (bits.extractLsb' 0 5))
  else .error (.notZlibHeader bits)

/-- The 3-bit block header `(BTYPE << 1) | BFINAL` (R151). -/
def decodeBlock (bits : BitVec 3) : Instr :=
  match (bits.extractLsb' 1 2).toNat with
  | 0 => .blockStored (bits.extractLsb' 0 1)
  | 1 => .blockStatic (bits.extractLsb' 0 1)
  | 2 => .blockDynamic (bits.extractLsb' 0 1)
  | _ => .blockReserved (bits.extractLsb' 0 1)

/-- The decoder: total on every packet. -/
def decode : Packet → Except DecodeError Instr
  | .command word chunk => decodeCommand word chunk
  | .header bits => decodeHeader bits
  | .block bits => .ok (decodeBlock bits)
  | .trailer bits => .ok (.adlerTrailer bits)

/-- Where a word of spec/opcode_table.json stands, its bits numbered as the table numbers them: 3 bits in one byte are a
block header, 16 bits the zlib header, 32 bits a command word with an empty chunk. A 32-bit word that decodes to no
command is the one other 32-bit row, STREAM.ADLER_TRAILER (log 6). -/
def tablePacket (nbits w : Nat) : Packet :=
  if nbits ≤ 8 then .block (BitVec.ofNat 3 w)
  else if nbits ≤ 16 then .header (BitVec.ofNat 16 w)
  else
    match decodeCommand (BitVec.ofNat 32 w) [] with
    | .ok _ => .command (BitVec.ofNat 32 w) []
    | .error _ => .trailer (BitVec.ofNat 32 w)

/-- Whether `w` fits the width of the rows that have `nbits` bits (the 3 header bits of a block stand in one byte). -/
def tableWordFits (nbits w : Nat) : Bool :=
  if nbits ≤ 8 then decide (w < 8) else if nbits ≤ 16 then decide (w < 65536) else decide (w < 4294967296)

/-- The instruction the decoder reads from a word of the opcode table; none where it refuses. -/
def decodeTableWord (nbits w : Nat) : Option Instr :=
  if tableWordFits nbits w then
    match decode (tablePacket nbits w) with
    | .ok i => some i
    | .error _ => none
  else none

/-! ### The encoder -/

/-- A COMPRESS word: `OPC` = 2, `FLUSH` in [6:4] (R140, R146). -/
def compressWord (flush : Nat) : Word := BitVec.ofNat 32 (2 + flush * 16)

/-- The packet of an instruction, from the same field layouts (R140, R149, R151, R159). -/
def encode : Instr → Packet
  | .configure level method windowBits memLevel strategy =>
      .command (BitVec.ofNat 32 (1 + level.toNat * 2 ^ 4 + method.toNat * 2 ^ 8 + windowBits.toNat * 2 ^ 12
        + memLevel.toNat * 2 ^ 16 + strategy.toNat * 2 ^ 20)) []
  | .compressNoFlush chunk => .command (compressWord 0) chunk
  | .compressPartialFlush chunk => .command (compressWord 1) chunk
  | .compressSyncFlush chunk => .command (compressWord 2) chunk
  | .compressFullFlush chunk => .command (compressWord 3) chunk
  | .compressFinish chunk => .command (compressWord 4) chunk
  | .compressFlush5 chunk => .command (compressWord 5) chunk
  | .compressFlush6 chunk => .command (compressWord 6) chunk
  | .compressFlush7 chunk => .command (compressWord 7) chunk
  | .getBytes => .command 3 []
  | .takeBytes => .command 4 []
  | .getCrc => .command 5 []
  | .zlibHeader cinfo flevel fcheck => .header (BitVec.ofNat 16 (headerValue cinfo flevel fcheck))
  | .blockStored bfinal => .block (BitVec.ofNat 3 (0 * 2 + bfinal.toNat))
  | .blockStatic bfinal => .block (BitVec.ofNat 3 (1 * 2 + bfinal.toNat))
  | .blockDynamic bfinal => .block (BitVec.ofNat 3 (2 * 2 + bfinal.toNat))
  | .blockReserved bfinal => .block (BitVec.ofNat 3 (3 * 2 + bfinal.toNat))
  | .adlerTrailer adler => .trailer adler

end Sys2Proof
end

