-- ==== Sys2Proof/Machine/Fetch.lean ====
section
/-! DEFINITION. The command port: taking the next packet, presenting one, and what a packet that decodes to no instruction
does (40_host_commands.md R215, log 3). -/

namespace Sys2Proof.Machine

/-- The next packet on the port, and the state with it taken off. -/
def fetch (s : State) : Option (Packet × State) :=
  match s.port.queue with
  | [] => none
  | p :: rest => some (p, s.setPort { s.port with queue := rest })

/-- The host presents one more packet, after those already there. -/
def State.present (s : State) (p : Packet) : State := s.setPort { s.port with queue := s.port.queue ++ [p] }

/-- The host issues a command word with the bytes on the data-in port (30_encoding.md R140). -/
def State.issue (s : State) (word : Word) (chunk : List Byte) : State := s.present (.command word chunk)

/-- A packet becomes the very next one. -/
def State.presentFirst (s : State) (p : Packet) : State := s.setPort { s.port with queue := p :: s.port.queue }

/-- A packet that is no instruction: a reserved command word raises F_BAD_COMMAND (R215, 60_exceptions.md R510 (e)); other
bits are no stream element (30_encoding.md R160 (d), log 20). -/
def undecoded (e : DecodeError) (s : State) : Host.Outcome State Fault Refusal :=
  match e with
  | .reservedOpcode _ => .next (raise .badCommand s)
  | .reservedBits _ => .next (raise .badCommand s)
  | .notZlibHeader _ => .refused .noStreamElement

end Sys2Proof.Machine
end

