-- ==== Sys2Proof/Machine/Step.lean ====
section
/-! DEFINITION. One step: the next packet on the command port, run to completion (70_reset_and_hazards.md R560). With
nothing presented the CORE is idle and keeps every register and memory (60_exceptions.md R525). -/

namespace Sys2Proof.Machine

/-- One step of the machine. -/
def step (s : State) : Host.Outcome State Fault Refusal :=
  match fetch s with
  | none => .next s
  | some (p, t) =>
      match decode p with
      | .ok i => exec i t
      | .error e => undecoded e t

/-- `s` with a word of the opcode table as the next thing on the port, so that `step` runs exactly that (log 3, log 6). -/
def State.withFetchWord (s : State) (nbits w : Nat) : State := s.presentFirst (tablePacket nbits w)

end Sys2Proof.Machine
end

