-- ==== Sys2Proof/Safety.lean ====
section
/-! DEFINITION. What counts as a good state and a good run, in the terms the statements use: the state invariants the spec
gives the machine, and the abstract bit stream of 43_bit_packer.md R394. -/

namespace Sys2Proof.Machine

/-! ### Outcomes -/

/-- The next state of an outcome, if it is one. -/
def nextOf : Host.Outcome State Fault Refusal → Option State
  | .next s => some s
  | .fault _ => none
  | .refused _ => none

/-! ### Modes -/

/-- A session is open: `fsm` is BUSY or FINISH (10_state.md R31). -/
abbrev State.isOpen (s : State) : Prop := s.ctl.fsm = .busy ∨ s.ctl.fsm = .finish

/-- `OUT` is unbounded, the spec's default (20_memory.md R105). -/
abbrev State.unbounded (s : State) : Prop := s.platform.outCapacity = none

/-! ### Invariants -/

/-- The sum of a frequency register file. -/
def Arr.total (a : Arr 16) : Nat := (a.map fun p => p.2.toNat).sum

/-- Every memory and register file in canonical form and inside its declared range (20_memory.md R101 to R104,
10_state.md R48, R49, log 8). -/
abbrev State.MemoryOk (s : State) : Prop :=
  (s.mem.wf = true ∧ s.hb.wf = true)
  ∧ (s.mem.win.Within s.cfg.windowBytes ∧ s.mem.head.Within s.cfg.hashSize ∧ s.mem.prev.Within s.cfg.wSize
    ∧ s.mem.dbuf.Within s.cfg.litBufferSize ∧ s.mem.lbuf.Within s.cfg.litBufferSize)
  ∧ (s.hb.lfreq.Within L_CODES ∧ s.hb.dfreq.Within D_CODES ∧ s.hb.blfreq.Within BL_CODES
    ∧ s.hb.llen.Within L_CODES ∧ s.hb.lcode.Within L_CODES ∧ s.hb.dlen.Within D_CODES ∧ s.hb.dcode.Within D_CODES
    ∧ s.hb.bllen.Within BL_CODES ∧ s.hb.blcode.Within BL_CODES)

/-- In an open session no fault has been taken, the configuration is legal and the CT row is that of `level`; in FAULTED
a fault has been recorded; `lastFlush` is a legal mode (10_state.md R32 to R35). -/
abbrev State.ModeOk (s : State) : Prop :=
  (s.isOpen → s.ctl.faultCode = 0 ∧ s.cfg.legal = true ∧ s.ct = ctRow s.cfg.level)
  ∧ (s.ctl.fsm = .faulted → s.ctl.faultCode ≠ 0)
  ∧ s.ctl.lastFlush ≤ FINISH

/-- The window invariant of an open session (60_exceptions.md R506, 10_state.md R36). -/
abbrev State.WindowOk (s : State) : Prop :=
  s.isOpen → s.mf.strStart + s.mf.lookAhead ≤ s.cfg.windowBytes ∧ s.mf.blockStart ≤ (s.mf.strStart : Int)

/-- The bit accumulator holds `biValid ≤ 16` bits and zeros above them (10_state.md R53). -/
abbrev BitAcc.Ok (bp : BitAcc) : Prop := bp.biValid ≤ BUF_SIZE ∧ bp.biBuf.toNat < 2 ^ bp.biValid

/-- The accumulator invariant of an open session. -/
abbrev State.AccOk (s : State) : Prop := s.isOpen → s.bp.Ok

/-- The token buffer is never full between commands and the frequencies count its tokens (10_state.md R45, R46, R48,
41_match_finder.md R272). -/
abbrev State.TokensOk (s : State) : Prop :=
  s.isOpen → s.tok.lastLit + 1 < s.cfg.litBufferSize ∧ s.tok.numMatches ≤ s.tok.lastLit
    ∧ s.hb.lfreq.total = s.tok.lastLit + 1 ∧ s.hb.dfreq.total = s.tok.numMatches

/-- Every chain entry is a window index below the end of the data (41_match_finder.md R252 (a)). -/
abbrev State.ChainsOk (s : State) : Prop :=
  s.isOpen → (∀ p ∈ s.mem.head, p.2.toNat < s.mf.strStart + s.mf.lookAhead)
    ∧ (∀ p ∈ s.mem.prev, p.2.toNat < s.mf.strStart + s.mf.lookAhead)

/-- At level 0 the lookahead is consumed whole and the pending block is short of `STORED_MAX` and still in the window
(41_match_finder.md R280, 44_block_controller.md R432). -/
abbrev State.StoredOk (s : State) : Prop :=
  s.isOpen → s.cfg.level = 0 → s.mf.lookAhead = 0 ∧ 0 ≤ s.mf.blockStart
    ∧ (s.mf.strStart : Int) - s.mf.blockStart < (s.cfg.storedMax : Int)

/-- What the SLOW driver holds back between rounds is a byte before `strStart`, and a match found for it is no longer than
the data and within reach; with nothing held back there is no match (41_match_finder.md R290, R260). -/
abbrev State.HeldOk (s : State) : Prop :=
  (s.mf.matchAvailable = false → s.mf.matchLength < 3)
  ∧ (s.mf.matchAvailable = true → 1 ≤ s.mf.strStart
    ∧ (3 ≤ s.mf.matchLength → s.mf.matchLength ≤ 258 ∧ s.mf.matchLength ≤ s.mf.lookAhead + 1
      ∧ s.mf.matchStart.toInt + 1 < (s.mf.strStart : Int)
      ∧ (s.mf.strStart : Int) - 1 - s.mf.matchStart.toInt ≤ (s.cfg.maxDist : Int)))

/-- The match state of an open session between commands: chain entries lie below `strStart`, FAST has no match under way,
SLOW holds back what it may (41_match_finder.md R252, R285, R290). -/
abbrev State.SearchOk (s : State) : Prop :=
  s.isOpen → ((∀ p ∈ s.mem.head, p.2.toNat < s.mf.strStart) ∧ (∀ p ∈ s.mem.prev, p.2.toNat < s.mf.strStart))
    ∧ (s.ct.driver = .fast → s.mf.matchLength < 3 ∧ s.mf.prevLength = 2)
    ∧ (s.ct.driver = .slow → s.HeldOk)

/-- Every token of the current block is a legal one whose symbols have been counted, and so has the end of the block; no
code-length symbol has (10_state.md R48, 41_match_finder.md R270, 42_huffman_builder.md R320). -/
abbrev State.Counted (s : State) : Prop :=
  (s.hb.lfreq.read END_BLOCK ≠ 0 ∧ s.hb.blfreq = [])
    ∧ (∀ i, i < s.tok.lastLit → s.mem.dbuf.read i = 0 → s.hb.lfreq.read (s.mem.lbuf.read i).toNat ≠ 0)
    ∧ (∀ i, i < s.tok.lastLit → s.mem.dbuf.read i ≠ 0 → (s.mem.dbuf.read i).toNat ≤ s.cfg.maxDist
        ∧ s.hb.lfreq.read (257 + lcode ((s.mem.lbuf.read i).toNat + 3)) ≠ 0
        ∧ s.hb.dfreq.read (distCode (s.mem.dbuf.read i).toNat) ≠ 0)

/-- `Counted`, of an open session. -/
abbrev State.CountsOk (s : State) : Prop := s.isOpen → s.Counted

/-! ### The abstract bit stream (43_bit_packer.md R394) -/

/-- The bits of a byte, least significant first (20_memory.md R110). -/
def byteBits (b : Byte) : List Bool := (List.range 8).map fun k => b.getLsbD k

/-- The bits `v[0], .., v[n-1]` of a field (30_encoding.md R150). -/
def fieldBits (n v : Nat) : List Bool := (List.range n).map fun k => v.testBit k

/-- The bits of a byte sequence. -/
def bytesBits (bytes : List Byte) : List Bool := bytes.flatMap byteBits

/-- `Pending`: `biBuf[0], .., biBuf[biValid - 1]`. -/
def BitAcc.pending (bp : BitAcc) : List Bool := (List.range bp.biValid).map fun k => bp.biBuf.getLsbD k

/-- `Bits(OUT) ++ Pending`. -/
def State.stream (s : State) : List Bool := bytesBits s.mem.out ++ s.bp.pending

/-- Zero bits up to the next byte boundary. -/
def padToByte (bits : List Bool) : List Bool := bits ++ List.replicate ((8 - bits.length % 8) % 8) false

end Sys2Proof.Machine
end

