-- ==== Sys2Proof/Certificates/Slice0/Obligations.lean ====
section
/-! DEFINITION. The statements for the provers, in the order of spec/: encodings, commands, faults and modes, memories, the
four sub-blocks, the stream elements, the invariants every step keeps. `Sys2Proof.Claims` holds what they say it with:
values written from the rules, not taken from the meanings they speak about. -/

namespace Sys2Proof.Claims

open Sys2Proof Sys2Proof.Machine

/-! ### Commands -/

/-- A host command, as against a stream element (30_encoding.md R140, R148). -/
def IsCommand : Instr → Prop
  | .zlibHeader _ _ _ => False
  | .blockStored _ => False
  | .blockStatic _ => False
  | .blockDynamic _ => False
  | .blockReserved _ => False
  | .adlerTrailer _ => False
  | .configure _ _ _ _ _ => True
  | .compressNoFlush _ => True
  | .compressPartialFlush _ => True
  | .compressSyncFlush _ => True
  | .compressFullFlush _ => True
  | .compressFinish _ => True
  | .compressFlush5 _ => True
  | .compressFlush6 _ => True
  | .compressFlush7 _ => True
  | .getBytes => True
  | .takeBytes => True
  | .getCrc => True

/-- A CONFIGURE, whatever its operands. -/
def IsConfigure (i : Instr) : Prop := ∃ level method windowBits memLevel strategy,
  i = .configure level method windowBits memLevel strategy

/-- The command word has a reserved `OPC`, or a reserved bit of its layout is 1 (R140). -/
abbrev ReservedWord (w : Word) : Prop :=
  w.toNat % 16 = 0 ∨ 6 ≤ w.toNat % 16
    ∨ (w.toNat % 16 = 1 ∧ w.toNat / 2 ^ 22 ≠ 0)
    ∨ (w.toNat % 16 = 2 ∧ w.toNat / 2 ^ 7 ≠ 0)
    ∨ (3 ≤ w.toNat % 16 ∧ w.toNat / 2 ^ 4 ≠ 0)

/-- The instruction a command word names by its `OPC` and fields (R140, R146); the chunk belongs to COMPRESS. -/
def namedBy (w : Word) (chunk : List Byte) : Instr :=
  if w.toNat % 16 = 1 then
    .configure (BitVec.ofNat 4 (w.toNat / 2 ^ 4)) (BitVec.ofNat 4 (w.toNat / 2 ^ 8)) (BitVec.ofNat 4 (w.toNat / 2 ^ 12))
      (BitVec.ofNat 4 (w.toNat / 2 ^ 16)) (BitVec.ofNat 2 (w.toNat / 2 ^ 20))
  else if w.toNat % 16 = 2 then
    if w.toNat / 2 ^ 4 % 8 = 0 then .compressNoFlush chunk
    else if w.toNat / 2 ^ 4 % 8 = 1 then .compressPartialFlush chunk
    else if w.toNat / 2 ^ 4 % 8 = 2 then .compressSyncFlush chunk
    else if w.toNat / 2 ^ 4 % 8 = 3 then .compressFullFlush chunk
    else if w.toNat / 2 ^ 4 % 8 = 4 then .compressFinish chunk
    else if w.toNat / 2 ^ 4 % 8 = 5 then .compressFlush5 chunk
    else if w.toNat / 2 ^ 4 % 8 = 6 then .compressFlush6 chunk
    else .compressFlush7 chunk
  else if w.toNat % 16 = 3 then .getBytes
  else if w.toNat % 16 = 4 then .takeBytes
  else .getCrc

/-- COMPRESS with a legal mode: 0 NO_FLUSH, 1 PARTIAL_FLUSH, 2 SYNC_FLUSH, 3 FULL_FLUSH, 4 FINISH (R146). -/
def compressWith (f : BitVec 3) (chunk : List Byte) : Instr :=
  if f = 0 then .compressNoFlush chunk
  else if f = 1 then .compressPartialFlush chunk
  else if f = 2 then .compressSyncFlush chunk
  else if f = 3 then .compressFullFlush chunk
  else .compressFinish chunk

/-- The duplicate-flush case of 40_host_commands.md R206. -/
abbrev Duplicate (s : State) (f : BitVec 3) (chunk : List Byte) : Prop :=
  chunk = [] ∧ f ≤ s.ctl.lastFlush ∧ f ≠ 4

/-- The state after a command fell into FAULTED with code `code` (60_exceptions.md R510), `IN` empty again (20_memory.md
R106). -/
def faultedWith (code : BitVec 8) (s : State) : State :=
  { s with ctl := { s.ctl with fsm := .faulted, faultCode := code }, mem := { s.mem with input := [] },
           port := { s.port with reply := some ⟨BitVec.ofNat 32 (2 + 256 * code.toNat), .none⟩ } }

/-- The state after a command was turned away with a result word and nothing else but an empty `IN`. -/
def turnedAway (word : Word) (s : State) : State :=
  { s with mem := { s.mem with input := [] }, port := { s.port with reply := some ⟨word, .none⟩ } }

/-- The state with a result on the port. -/
def answered (word : Word) (data : ReplyData) (s : State) : State :=
  { s with port := { s.port with reply := some ⟨word, data⟩ } }

/-- `OUT` may take `n` more bytes (20_memory.md R105). -/
def HasRoom (s : State) (n : Nat) : Prop := ∀ cap, s.platform.outCapacity = some cap → s.mem.out.length + n ≤ cap

/-- `bytes` appended to `OUT`. -/
def appended (bytes : List Byte) (s : State) : State := { s with mem := { s.mem with out := s.mem.out ++ bytes } }

/-- A legal CONFIGURE (R200, 00_scope.md R6). -/
abbrev LegalOperands (level method windowBits memLevel : BitVec 4) (strategy : BitVec 2) : Prop :=
  level.toNat ≤ 9 ∧ method.toNat = 8 ∧ 9 ≤ windowBits.toNat ∧ 1 ≤ memLevel.toNat ∧ memLevel.toNat ≤ 9
    ∧ strategy.toNat ≤ 2

/-- CMF of 44_block_controller.md R424. -/
def cmf (windowBits : Nat) : Nat := (windowBits - 8) * 16 + 8

/-- FLEVEL of R424. -/
def flevel (level strategy : Nat) : Nat :=
  if strategy = 2 ∨ level < 2 then 0 else if level < 6 then 1 else if level = 6 then 2 else 3

/-- FLG of R424: FLEVEL, FDICT 0 and the check bits. -/
def flg (level windowBits strategy : Nat) : Nat :=
  flevel level strategy * 64 + (31 - (cmf windowBits * 256 + flevel level strategy * 64) % 31)

/-! ### Stream bits -/

/-- Everything of a state but the accumulator and `OUT` is as it was. -/
abbrev OnlyEmitted (s t : State) : Prop := t = { s with bp := t.bp, mem := { s.mem with out := t.mem.out } }

/-- The bytes of the pending block, `WIN[blockStart .. strStart - 1]` (44_block_controller.md R431). -/
def pendingBytes (s : State) : List Byte :=
  (List.range ((s.mf.strStart : Int) - s.mf.blockStart).toNat).map fun k => s.mem.win.read (s.mf.blockStart.toNat + k)

/-- A stored block after the bits `bits` of a stream (30_encoding.md R152). -/
def storedBlockBits (bits : List Bool) (eof : Bool) (data : List Byte) : List Bool :=
  padToByte (bits ++ [eof, false, false]) ++ fieldBits 16 data.length ++ fieldBits 16 (65535 - data.length)
    ++ bytesBits data

/-- Non-final stored blocks of `size` bytes each while there are that many; the bits so far and the bytes left
(41_match_finder.md R280). The first argument bounds the number of blocks. -/
def cutStored (size : Nat) : Nat → List Bool → List Byte → List Bool × List Byte
  | 0, bits, data => (bits, data)
  | k + 1, bits, data =>
      if size ≤ data.length then cutStored size k (storedBlockBits bits false (data.take size)) (data.drop size)
      else (bits, data)

/-- Four bytes, most significant first (30_encoding.md R159). -/
def trailerBytes (adler : Word) : List Byte :=
  [BitVec.ofNat 8 (adler.toNat / 2 ^ 24), BitVec.ofNat 8 (adler.toNat / 2 ^ 16), BitVec.ofNat 8 (adler.toNat / 2 ^ 8),
   BitVec.ofNat 8 adler.toNat]

/-- The stream after a level-0 COMPRESS of mode `f`: `data` is the pending bytes and the chunk, `adler` the checksum of all
input (R280, 44_block_controller.md R432, R433, R425). -/
def level0Stream (f : BitVec 3) (size : Nat) (bits : List Bool) (data : List Byte) (adler : Word) : List Bool :=
  let cut := cutStored size data.length bits data
  if f = 0 then cut.1
  else if f = 1 then storedBlockBits cut.1 false cut.2
  else if f = 4 then storedBlockBits cut.1 true cut.2 ++ bytesBits (trailerBytes adler)
  else storedBlockBits (storedBlockBits cut.1 false cut.2) false []

/-- What a level-0 COMPRESS leaves pending. -/
def level0Pending (f : BitVec 3) (size : Nat) (bits : List Bool) (data : List Byte) : List Byte :=
  if f = 0 then (cutStored size data.length bits data).2 else []

/-- A token's bits, from the bits of literal/length and distance symbols (30_encoding.md R153 to R155). -/
def tokenBits (lit dist : Nat → List Bool) (d lc : Nat) : List Bool :=
  if d = 0 then lit lc
  else
    lit (257 + lcode (lc + 3)) ++ fieldBits (extraLBits (lcode (lc + 3))) (lc + 3 - baseLength (lcode (lc + 3)))
      ++ dist (distCode d) ++ fieldBits (extraDBits (distCode d)) (d - baseDist (distCode d))

/-- The tokens of the current block and END_BLOCK (44_block_controller.md R440). -/
def bodyBits (lit dist : Nat → List Bool) (s : State) : List Bool :=
  (List.range s.tok.lastLit).flatMap (fun i => tokenBits lit dist (s.mem.dbuf.read i).toNat (s.mem.lbuf.read i).toNat)
    ++ lit 256

/-- A symbol's bits with the static codes (42_huffman_builder.md R340, R341). -/
def staticLitBits (c : Nat) : List Bool := fieldBits (staticLitLen c) (staticLitCode c)
def staticDistBits (c : Nat) : List Bool := fieldBits 5 (staticDistCode c)

/-- A symbol's bits with the codes in the registers (43_bit_packer.md R391). -/
def dynBits (h : Huffman) (tree : Tree) (c : Nat) : List Bool :=
  fieldBits ((h.lens tree).read c).toNat ((h.codes tree).read c).toNat

/-- A code-length symbol's bits (30_encoding.md R157). -/
def clBits (h : Huffman) : ClSym → List Bool
  | .len l => dynBits h .bl l
  | .repeatPrev count => dynBits h .bl 16 ++ fieldBits 2 (count - 3)
  | .zeros count => dynBits h .bl 17 ++ fieldBits 3 (count - 3)
  | .manyZeros count => dynBits h .bl 18 ++ fieldBits 7 (count - 11)

/-- `BL_ORDER` as R158 writes it. -/
def codeLengthOrder : List Nat := [16, 17, 18, 0, 8, 7, 9, 6, 10, 5, 11, 4, 12, 3, 13, 2, 14, 1, 15]

/-- The tree description (R156, R158, 44_block_controller.md R442, R443). -/
def treesBits (h : Huffman) : List Bool :=
  fieldBits 5 (h.lMaxCode - 256) ++ fieldBits 5 h.dMaxCode ++ fieldBits 4 (h.maxBlIndex - 3)
    ++ (List.range (h.maxBlIndex + 1)).flatMap (fun rank => fieldBits 3 (h.bllen.read (codeLengthOrder.getD rank 0)).toNat)
    ++ (scanTree (lensUpTo h.llen h.lMaxCode)).flatMap (clBits h)
    ++ (scanTree (lensUpTo h.dlen h.dMaxCode)).flatMap (clBits h)

/-- The code lengths a list of code-length symbols stands for, `prev` being the length before it (R157). -/
def expandCl : Nat → List ClSym → List Nat
  | _, [] => []
  | _, .len l :: rest => l :: expandCl l rest
  | prev, .repeatPrev count :: rest => List.replicate count prev ++ expandCl prev rest
  | _, .zeros count :: rest => List.replicate count 0 ++ expandCl 0 rest
  | _, .manyZeros count :: rest => List.replicate count 0 ++ expandCl 0 rest

/-- The counts the code-length alphabet admits (R157). -/
def ClOk : ClSym → Prop
  | .len l => l ≤ 15
  | .repeatPrev count => 3 ≤ count ∧ count ≤ 6
  | .zeros count => 3 ≤ count ∧ count ≤ 10
  | .manyZeros count => 11 ≤ count ∧ count ≤ 138

/-- The number of a code-length symbol (R157). -/
def clNumber : ClSym → Nat
  | .len l => l
  | .repeatPrev _ => 16
  | .zeros _ => 17
  | .manyZeros _ => 18

/-- The runs of equal lengths of a list, as (length, how many), in order. -/
def runsOf : List Nat → List (Nat × Nat)
  | [] => []
  | l :: rest =>
      match runsOf rest with
      | [] => [(l, 1)]
      | (m, r) :: more => if l = m then (l, r + 1) :: more else (l, 1) :: (m, r) :: more

/-- The symbols of one whole run (42_huffman_builder.md R335). Zeros go 138 at a time, then as 18, 17 or one by one. Of a
nonzero length, fewer than 4 go one by one; otherwise the first 7 at most are one length and a repeat, the rest repeats of 6
at most, a rest below 3 one by one. -/
def cutRun (run : Nat × Nat) : List ClSym :=
  let (l, r) := run
  if l = 0 then
    List.replicate (r / 138) (.manyZeros 138)
      ++ (if r % 138 < 3 then List.replicate (r % 138) (.len 0)
          else if r % 138 ≤ 10 then [.zeros (r % 138)] else [.manyZeros (r % 138)])
  else if r < 4 then List.replicate r (.len l)
  else
    [.len l, .repeatPrev (min r 7 - 1)] ++ List.replicate ((r - 7) / 6) (.repeatPrev 6)
      ++ (if (r - 7) % 6 < 3 then List.replicate ((r - 7) % 6) (.len l) else [.repeatPrev ((r - 7) % 6)])

/-- The length of symbol `n` in a tree's registers. -/
def lenOf (h : Huffman) (tree : Tree) (n : Nat) : Nat := ((h.lens tree).read n).toNat

/-- The frequency of symbol `n`. -/
def freqOf (h : Huffman) (tree : Tree) (n : Nat) : Nat := ((h.freqs tree).read n).toNat

/-- The max-code register of a tree (10_state.md R50). -/
def maxCodeOf (h : Huffman) : Tree → Nat
  | .lit => h.lMaxCode
  | .dist => h.dMaxCode
  | .bl => h.blMaxCode

/-- `m` is the largest symbol of a tree that has a code. -/
abbrev IsLastCoded (h : Huffman) (tree : Tree) (m : Nat) : Prop :=
  lenOf h tree m ≠ 0 ∧ ∀ n, lenOf h tree n ≠ 0 → n ≤ m

/-- What a build keeps of the builder's registers: every frequency, `maxBlIndex`, and all registers of the other trees
(42_huffman_builder.md R332). -/
abbrev OnlyTreeBuilt (tree : Tree) (h g : Huffman) : Prop :=
  (∀ any, g.freqs any = h.freqs any) ∧ g.maxBlIndex = h.maxBlIndex
  ∧ ∀ other, other ≠ tree → g.lens other = h.lens other ∧ g.codes other = h.codes other ∧ maxCodeOf g other = maxCodeOf h other

/-- `m` is the `maxBlIndex` of a bit-length tree: the last rank of 3 to 18 in the order of R158 whose symbol has a code, or 3
(42_huffman_builder.md R336). -/
abbrev IsMaxBlIndex (h : Huffman) (m : Nat) : Prop :=
  3 ≤ m ∧ m ≤ 18 ∧ (3 < m → lenOf h .bl (codeLengthOrder.getD m 0) ≠ 0)
  ∧ ∀ i, m < i → i ≤ 18 → lenOf h .bl (codeLengthOrder.getD i 0) = 0

/-- The unreversed code of symbol `n`. -/
def codeOf (h : Huffman) (tree : Tree) (n : Nat) : Nat := revBits (lenOf h tree n) ((h.codes tree).read n).toNat

/-- The symbols of a tree that have a code and whose length meets `p`. -/
def codedWith (h : Huffman) (tree : Tree) (p : Nat → Bool) : List Nat :=
  (List.range tree.elems).filter fun n => lenOf h tree n ≠ 0 && p (lenOf h tree n)

/-- The first code of length `len`, `nextCode[len]` of 42_huffman_builder.md R333: every shorter code takes
`2 ^ (len - its length)` values before it. -/
def firstCodeOf (h : Huffman) (tree : Tree) (len : Nat) : Nat :=
  ((codedWith h tree (· < len)).map fun n => 2 ^ (len - lenOf h tree n)).sum

/-- How many smaller symbols have a code as long as that of `n`. -/
def rankOf (h : Huffman) (tree : Tree) (n : Nat) : Nat :=
  ((codedWith h tree (· = lenOf h tree n)).filter (· < n)).length

/-! ### One block boundary (44_block_controller.md R428 to R431) -/

/-- The stream after the block of `u`, the state the trees and costs are in: the mode by the words of R429, then the
element with BFINAL = `eof` after the bits `bits`. -/
def blockBits (bits : List Bool) (eof : Bool) (u : State) : List Bool :=
  let storedLen := (u.mf.strStart : Int) - u.mf.blockStart
  let optLenB := (u.hb.optLen + 3 + 7) / 8
  let staticLenB := (u.hb.staticLen + 3 + 7) / 8
  if u.cfg.level = 0 ∨ storedLen + 5 ≤ min optLenB staticLenB + 4 ∧ storedLen ≤ 65535 ∧ 0 ≤ u.mf.blockStart then
    storedBlockBits bits eof (pendingBytes u)
  else if staticLenB ≤ optLenB then bits ++ [eof, true, false] ++ bodyBits staticLitBits staticDistBits u
  else bits ++ [eof, false, true] ++ treesBits u.hb ++ bodyBits (dynBits u.hb .lit) (dynBits u.hb .dist) u

/-- The literal/length symbol of token `i`. -/
def litSymbol (s : State) (i : Nat) : Nat :=
  if s.mem.dbuf.read i = 0 then (s.mem.lbuf.read i).toNat else 257 + lcode ((s.mem.lbuf.read i).toNat + 3)

/-- Every frequency is the number of its symbol's occurrences in the block: in the tokens and, for 256, at its end
(10_state.md R48). -/
abbrev ExactCounts (s : State) : Prop :=
  (∀ n, n < 286 → (s.hb.lfreq.read n).toNat
      = ((List.range s.tok.lastLit).filter fun i => litSymbol s i = n).length + (if n = 256 then 1 else 0))
  ∧ (∀ n, n < 30 → (s.hb.dfreq.read n).toNat = ((List.range s.tok.lastLit).filter fun i =>
      s.mem.dbuf.read i ≠ 0 ∧ distCode (s.mem.dbuf.read i).toNat = n).length)
  ∧ s.hb.blfreq = []

/-! ### Checksums, from the words of 20_memory.md R118 and R119 -/

/-- One shift of `T[n]`, on numbers: the polynomial is XORed in when a 1 drops out. -/
def crcBit (c : Nat) : Nat := if c % 2 = 1 then (c / 2) ^^^ 0xEDB88320 else c / 2

/-- The CRC-32 with no table: eight shifts for every byte. -/
def crcOf (v : Nat) (bytes : List Byte) : Nat :=
  bytes.foldl (fun c x => Nat.repeat crcBit 8 (c ^^^ x.toNat)) (v ^^^ 0xFFFFFFFF) ^^^ 0xFFFFFFFF

/-! ### The search (41_match_finder.md R260) -/

/-- The candidates from `cur` down its chain, at most `chain` of them, each next one above the limit of R260. -/
def candidates (s : State) : Nat → Nat → List Nat
  | 0, _ => []
  | chain + 1, cur =>
      cur :: (if s.mf.strStart - s.cfg.maxDist < (s.mem.prev.read (cur % s.cfg.wSize)).toNat
        then candidates s chain (s.mem.prev.read (cur % s.cfg.wSize)).toNat else [])

/-- How far a candidate agrees with the data at `strStart`, at most `MAX_MATCH` and the lookahead. -/
def agreement (s : State) (cur : Nat) : Nat :=
  ((List.range (min 258 s.mf.lookAhead)).takeWhile fun k =>
    s.mem.win.read (s.mf.strStart + k) = s.mem.win.read (cur + k)).length

/-- A candidate that ends the search: better than the match in hand and at least `niceLength` or the lookahead. -/
def niceEnough (s : State) (cur : Nat) : Bool :=
  s.mf.prevLength < agreement s cur && min s.ct.niceLength.toNat s.mf.lookAhead ≤ agreement s cur

/-- The candidates compared: the chain, halved when the match in hand has `goodLength`, up to the first that is nice
enough. -/
def compared (s : State) (cur : Nat) : List Nat :=
  let all := candidates s
    (if s.ct.goodLength.toNat ≤ s.mf.prevLength then s.ct.maxChain.toNat / 2 else s.ct.maxChain.toNat) cur
  all.takeWhile (fun c => !niceEnough s c) ++ ((all.dropWhile fun c => !niceEnough s c).take 1)

/-- The best length the search meets, `prevLength` included. -/
def bestOf (s : State) (cur : Nat) : Nat := (compared s cur).foldl (fun m c => max m (agreement s c)) s.mf.prevLength

/-! ### The sparsity heuristic (41_match_finder.md R271) -/

/-- The conditions of `Sparse()` in a state. -/
def SparseHolds (s : State) : Prop :=
  s.tok.lastLit % 8192 = 0 ∧ 2 < s.cfg.level.toNat ∧ s.tok.numMatches < s.tok.lastLit / 2
    ∧ (((s.tok.lastLit * 8 + ((List.range 30).map fun d => (s.hb.dfreq.read d).toNat * (5 + extraDBits d)).sum) / 8 : Nat) : Int)
        < ((s.mf.strStart : Int) - s.mf.blockStart) / 2

/-- A driver round added a token of distance `d` (0 for a literal) to the block: it is one more, and the block is neither
full nor ended; or the round ended the block with it, for want of room or at a test of the heuristic, and the next block
starts at `next` (R270 to R272, 44_block_controller.md R431). -/
abbrev TokenAdded (s t : State) (d next : Nat) : Prop :=
  (t.tok = { lastLit := s.tok.lastLit + 1, numMatches := s.tok.numMatches + (if d = 0 then 0 else 1) }
    ∧ t.mf.blockStart = s.mf.blockStart ∧ s.tok.lastLit + 2 ≠ s.cfg.litBufferSize)
  ∨ (t.tok = { lastLit := 0, numMatches := 0 } ∧ t.mf.blockStart = (next : Int)
    ∧ (s.tok.lastLit + 2 = s.cfg.litBufferSize ∨ (s.tok.lastLit + 1) % 8192 = 0))

/-! ### Tables, transcribed from the spec -/

/-- Rows of 00_scope.md R9: level, `goodLength`, `maxLazy`, `niceLength`, `maxChain`, driver. -/
def levelTable : List (Nat × Nat × Nat × Nat × Nat × Driver) :=
  [(0, 0, 0, 0, 0, .stored), (1, 4, 4, 8, 4, .fast), (2, 4, 5, 16, 8, .fast), (3, 4, 6, 32, 32, .fast),
   (4, 4, 4, 16, 16, .slow), (5, 8, 16, 32, 32, .slow), (6, 8, 16, 128, 128, .slow), (7, 8, 32, 128, 256, .slow),
   (8, 32, 128, 258, 1024, .slow), (9, 32, 258, 258, 4096, .slow)]

/-- Rows of 60_exceptions.md R500: fault and code. -/
def faultTable : List (FaultCode × Nat) :=
  [(.config, 1), (.notConfigured, 2), (.badFlush, 3), (.afterFinish, 4), (.storedNoOffset, 5), (.matchBounds, 6),
   (.kraft, 7), (.faulted, 8), (.tokenOverflow, 9), (.bounds, 10), (.invariant, 11), (.bits, 12), (.alloc, 13),
   (.badCommand, 14)]

/-- Rows of 30_encoding.md R154: symbol, extra bits, first and last length. -/
def lengthTable : List (Nat × Nat × Nat × Nat) :=
  [(257, 0, 3, 3), (258, 0, 4, 4), (259, 0, 5, 5), (260, 0, 6, 6), (261, 0, 7, 7), (262, 0, 8, 8), (263, 0, 9, 9),
   (264, 0, 10, 10), (265, 1, 11, 12), (266, 1, 13, 14)]
  ++ [(267, 1, 15, 16), (268, 1, 17, 18), (269, 2, 19, 22), (270, 2, 23, 26), (271, 2, 27, 30), (272, 2, 31, 34),
   (273, 3, 35, 42), (274, 3, 43, 50), (275, 3, 51, 58), (276, 3, 59, 66)]
  ++ [(277, 4, 67, 82), (278, 4, 83, 98), (279, 4, 99, 114), (280, 4, 115, 130), (281, 5, 131, 162), (282, 5, 163, 194),
   (283, 5, 195, 226), (284, 5, 227, 257), (285, 0, 258, 258)]

/-- Rows of 30_encoding.md R155: code, extra bits, first and last distance. -/
def distTable : List (Nat × Nat × Nat × Nat) :=
  [(0, 0, 1, 1), (1, 0, 2, 2), (2, 0, 3, 3), (3, 0, 4, 4), (4, 1, 5, 6), (5, 1, 7, 8), (6, 2, 9, 12), (7, 2, 13, 16),
   (8, 3, 17, 24), (9, 3, 25, 32)]
  ++ [(10, 4, 33, 48), (11, 4, 49, 64), (12, 5, 65, 96), (13, 5, 97, 128), (14, 6, 129, 192), (15, 6, 193, 256),
   (16, 7, 257, 384), (17, 7, 385, 512), (18, 8, 513, 768), (19, 8, 769, 1024)]
  ++ [(20, 9, 1025, 1536), (21, 9, 1537, 2048), (22, 10, 2049, 3072), (23, 10, 3073, 4096), (24, 11, 4097, 6144),
   (25, 11, 6145, 8192), (26, 12, 8193, 12288), (27, 12, 12289, 16384), (28, 13, 16385, 24576), (29, 13, 24577, 32768)]

/-! ### States -/

/-- A session in state BUSY as CONFIGURE leaves it configured. -/
abbrev BusyAt (s : State) : Prop := s.ctl.fsm = .busy ∧ s.cfg.legal = true ∧ s.ct = ctRow s.cfg.level

/-- The registers of a block with no token in it (42_huffman_builder.md R320). -/
abbrev BlockFresh (s : State) : Prop :=
  s.tok.lastLit = 0 ∧ s.tok.numMatches = 0 ∧ s.hb.optLen = 0 ∧ s.hb.staticLen = 0 ∧ s.hb.lfreq = [(256, 1)]
    ∧ s.hb.dfreq = [] ∧ s.hb.blfreq = []

/-- What `DriveSlow` holds back at the top of a round (41_match_finder.md R290): nothing and no match, or the byte at
`strStart - 1` and the match found for it, if any, which is a real one within reach. -/
abbrev DeferredOk (s : State) : Prop :=
  (s.mf.matchAvailable = false → s.mf.matchLength < 3)
  ∧ (s.mf.matchAvailable = true → 1 ≤ s.mf.strStart
    ∧ (3 ≤ s.mf.matchLength → s.mf.matchLength ≤ 258 ∧ s.mf.matchLength ≤ s.mf.lookAhead + 1
      ∧ 0 ≤ s.mf.matchStart.toInt ∧ s.mf.matchStart.toInt + 1 < (s.mf.strStart : Int)
      ∧ (s.mf.strStart : Int) - 1 - s.mf.matchStart.toInt ≤ (s.cfg.maxDist : Int)
      ∧ ∀ k, k < s.mf.matchLength →
          s.mem.win.read (s.mf.strStart - 1 + k) = s.mem.win.read (s.mf.matchStart.toInt.toNat + k)))

/-- After `n` bytes of a session the input can be split without a compaction that one command would not make: the first
compaction is not due yet, or a window filled to the `n`-th byte ends below `wSize + MAX_DIST` or is full (41_match_finder.md
R257). -/
abbrev ClearSplit (wSize n : Nat) : Prop := n < wSize + (wSize - 262) ∨ n % wSize < wSize - 262

/-- Commands one after the other, from `s`. -/
def runAll : List Instr → State → Option State
  | [], s => some s
  | i :: rest, s => (nextOf (exec i s)).bind (runAll rest)

end Sys2Proof.Claims

open Sys2Proof Sys2Proof.Machine Sys2Proof.Claims

/-! ### Encodings -/

/-- Decoding an encoded instruction gives it back, every operand at every value its field admits
(30_encoding.md R140, R149, R151, R159). -/
def Obligations.DecodeEncode : Prop := ∀ i : Instr, decode (encode i) = .ok i

/-- 40_host_commands.md R215: a reserved word raises F_BAD_COMMAND and nothing else runs, every other command word runs
the command its `OPC` and fields name. -/
def Obligations.CommandDecode : Prop :=
  ∀ (s : State) (w : Word) (chunk : List Byte) (rest : List Packet), s.port.queue = .command w chunk :: rest →
    let t := { s with port := { s.port with queue := rest } }
    (ReservedWord w → step s = .next (raise .badCommand t)) ∧ (¬ ReservedWord w → step s = exec (namedBy w chunk) t)

/-- A few words of the table, written out bit by bit (R140, R149, R151, R159). -/
def Obligations.SampleWords : Prop :=
  decode (.command 0b00000000_0000_1000_1111_1000_0110_0001#32 []) = .ok (.configure 6 8 15 8 0)
  ∧ decode (.command 0b00000000_0000_0000_0000_0000_0100_0010#32 [0x61]) = .ok (.compressFinish [0x61])
  ∧ decode (.command 0b00000000_0000_0000_0000_0000_0000_0101#32 []) = .ok .getCrc
  ∧ decode (.header 0b0111_1000_10_0_11100#16) = .ok (.zlibHeader 7 2 28)
  ∧ decode (.block 0b10_1#3) = .ok (.blockDynamic 1)
  ∧ decode (.trailer 0x024D0127#32) = .ok (.adlerTrailer 0x024D0127)

/-- A step runs the decoded instruction on the state with its packet taken off the port; with nothing on the port the CORE
is idle and keeps every register and memory (70_reset_and_hazards.md R560, 60_exceptions.md R525, log 3). -/
def Obligations.StepRunsDecoded : Prop :=
  ∀ s : State,
    (∀ p rest i, s.port.queue = p :: rest → decode p = .ok i →
      step s = exec i { s with port := { s.port with queue := rest } })
    ∧ (s.port.queue = [] → step s = .next s)

/-! ### Faults and modes -/

/-- The code of every fault, and fault entry in every state of `fsm`, with the result word (60_exceptions.md R500, R510,
R501, 30_encoding.md R142). -/
def Obligations.FaultEntry : Prop :=
  (∀ f : FaultCode, (f, f.code.toNat) ∈ faultTable)
  ∧ ∀ (f : FaultCode) (s : State),
    let word : Word := BitVec.ofNat 32 (2 + 256 * f.code.toNat)
    (s.ctl.fsm = .faulted → raise f s = answered word .none s)
    ∧ (s.ctl.fsm = .unconfigured →
        raise f s = answered word .none { s with ctl := { s.ctl with faultCode := f.code } })
    ∧ (s.ctl.fsm = .busy ∨ s.ctl.fsm = .finish →
        raise f s = answered word .none
          { s with ctl := { s.ctl with faultCode := f.code, fsm := if f = .config then .unconfigured else .faulted } })

/-- The state checks of every command but CONFIGURE, in their order (60_exceptions.md R511, 44_block_controller.md R445):
F_NOT_CONFIGURED, F_FAULTED with `faultCode` kept, F_BAD_FLUSH for the illegal modes, F_AFTER_FINISH but for a FINISH with
an empty chunk, which returns STREAM_END again and changes nothing else (40_host_commands.md R211,
70_reset_and_hazards.md R564). -/
def Obligations.StateChecks : Prop :=
  ∀ s : State,
    (∀ i, IsCommand i → ¬ IsConfigure i → s.ctl.fsm = .unconfigured →
      exec i s = .next (turnedAway 0x202 { s with ctl := { s.ctl with faultCode := 2 } }))
    ∧ (∀ i, IsCommand i → ¬ IsConfigure i → s.ctl.fsm = .faulted → exec i s = .next (turnedAway 0x802 s))
    ∧ (∀ i chunk, i = .compressFlush5 chunk ∨ i = .compressFlush6 chunk ∨ i = .compressFlush7 chunk → s.isOpen →
      exec i s = .next (faultedWith 3 s))
    ∧ (∀ f chunk, f ≤ 4 → s.ctl.fsm = .finish → ¬ (f = 4 ∧ chunk = []) →
      exec (compressWith f chunk) s = .next (faultedWith 4 s))
    ∧ (s.ctl.fsm = .finish → exec (.compressFinish []) s = .next (answered 1 .none s))

/-- What moves `fsm`: BUSY is entered by CONFIGURE alone, FINISH by COMPRESS.FINISH in BUSY alone, UNCONFIGURED by a failed
CONFIGURE alone, and nothing but CONFIGURE changes a control register in FAULTED (10_state.md R31, 60_exceptions.md
R512). -/
def Obligations.ModeTransitions : Prop :=
  ∀ (i : Instr) (s t : State), exec i s = .next t →
    (t.ctl.fsm = .busy → s.ctl.fsm = .busy ∨ IsConfigure i)
    ∧ (t.ctl.fsm = .finish → s.ctl.fsm = .finish ∨ (s.ctl.fsm = .busy ∧ ∃ chunk, i = .compressFinish chunk))
    ∧ (t.ctl.fsm = .unconfigured → s.ctl.fsm = .unconfigured ∨ IsConfigure i)
    ∧ (s.ctl.fsm = .faulted → ¬ IsConfigure i → t.ctl = s.ctl)

/-- Every command that comes to its end leaves a result word of 30_encoding.md R142: OK with what GET_BYTES, TAKE_BYTES and
GET_CRC return, STREAM_END from FINISH, or FAULT with a code. -/
def Obligations.ResultWord : Prop :=
  ∀ (i : Instr) (s t : State), IsCommand i → exec i s = .next t → ∃ r, t.port.reply = some r ∧
    ((r.word = 0 ∧ ((i = .getBytes ∨ i = .takeBytes) ∧ r.data = .bytes s.mem.out
          ∨ i = .getCrc ∧ r.data = .crc s.sums.crc
          ∨ i ≠ .getBytes ∧ i ≠ .takeBytes ∧ i ≠ .getCrc ∧ r.data = .none))
      ∨ (r.word = 1 ∧ r.data = .none ∧ ∃ chunk, i = .compressFinish chunk)
      ∨ (∃ f : FaultCode, r.word = BitVec.ofNat 32 (2 + 256 * f.code.toNat) ∧ r.data = .none))

/-! ### CONFIGURE -/

/-- A legal CONFIGURE in any state opens a fresh session: every register and memory has the value of the table of
70_reset_and_hazards.md R540, the result is OK; the CT row is the level's row of 00_scope.md R9, and the derived sizes are
those of R7. -/
def Obligations.ConfigureOpensSession : Prop :=
  ∀ (level method windowBits memLevel : BitVec 4) (strategy : BitVec 2) (s : State),
    LegalOperands level method windowBits memLevel strategy →
    (∀ cap, s.platform.outCapacity = some cap → 2 ≤ cap) →
    ∃ t, exec (.configure level method windowBits memLevel strategy) s = .next t
      ∧ t.ctl = { fsm := .busy, faultCode := 0, lastFlush := 0 }
      ∧ t.cfg = { level, method, windowBits, memLevel, strategy }
      ∧ t.ct = ctRow level
      ∧ (level.toNat, t.ct.goodLength.toNat, t.ct.maxLazy.toNat, t.ct.niceLength.toNat, t.ct.maxChain.toNat, t.ct.driver)
          ∈ levelTable
      ∧ (t.cfg.legal = true ∧ t.cfg.wSize = 2 ^ windowBits.toNat ∧ t.cfg.windowBytes = 2 * 2 ^ windowBits.toNat
        ∧ t.cfg.maxDist = 2 ^ windowBits.toNat - 262 ∧ t.cfg.storedMax = 2 ^ windowBits.toNat - 262
        ∧ t.cfg.hashSize = 2 ^ (memLevel.toNat + 7) ∧ t.cfg.hashShift = (memLevel.toNat + 9) / 3
        ∧ t.cfg.litBufferSize = 2 ^ (memLevel.toNat + 6))
      ∧ t.mf = { strStart := 0, lookAhead := 0, blockStart := 0, insH := 0, matchLength := 2, matchStart := 0,
                 prevLength := 2, prevMatch := 0, matchAvailable := false }
      ∧ t.tok = { lastLit := 0, numMatches := 0 }
      ∧ (t.hb.optLen = 0 ∧ t.hb.staticLen = 0 ∧ (∀ n, t.hb.lfreq.read n = if n = 256 then 1 else 0)
        ∧ (∀ n, t.hb.dfreq.read n = 0) ∧ (∀ n, t.hb.blfreq.read n = 0))
      ∧ t.bp = { biBuf := 0, biValid := 0 }
      ∧ t.sums = { adler := 1, crc := 0 }
      ∧ ((∀ n, t.mem.win.read n = 0) ∧ (∀ n, t.mem.head.read n = 0) ∧ (∀ n, t.mem.prev.read n = 0))
      ∧ t.mem.out = [BitVec.ofNat 8 (cmf windowBits.toNat),
                     BitVec.ofNat 8 (flg level.toNat windowBits.toNat strategy.toNat)]
      ∧ t.mem.input = []
      ∧ t.platform = s.platform
      ∧ t.port = { s.port with reply := some ⟨0, .none⟩ }

/-- An illegal CONFIGURE leaves no session: UNCONFIGURED with `faultCode` 1 and the result FAULT 1; all else is at its
power-on value (40_host_commands.md R200, 70_reset_and_hazards.md R541; that those values are `State.reset`'s is the
model's choice, log 13). -/
def Obligations.ConfigureRefused : Prop :=
  ∀ (level method windowBits memLevel : BitVec 4) (strategy : BitVec 2) (s : State),
    ¬ LegalOperands level method windowBits memLevel strategy →
    exec (.configure level method windowBits memLevel strategy) s =
      .next { State.reset with
        ctl := { fsm := .unconfigured, faultCode := 1, lastFlush := 0 }
        platform := s.platform
        port := { s.port with reply := some ⟨0x102, .none⟩ } }

/-- 30_encoding.md R149: the fields of the two header bytes a legal CONFIGURE leaves in `OUT`, and their check. -/
def Obligations.HeaderBytes : Prop :=
  ∀ (level method windowBits memLevel : BitVec 4) (strategy : BitVec 2) (s : State),
    LegalOperands level method windowBits memLevel strategy → s.unbounded →
    ∃ t b0 b1, exec (.configure level method windowBits memLevel strategy) s = .next t ∧ t.mem.out = [b0, b1]
      ∧ b0.toNat % 16 = 8 ∧ b0.toNat / 16 = windowBits.toNat - 8
      ∧ b1.toNat / 32 % 2 = 0
      ∧ b1.toNat / 64 = (if strategy = 2 ∨ level.toNat < 2 then 0 else if level.toNat ≤ 5 then 1
                         else if level.toNat = 6 then 2 else 3)
      ∧ b1.toNat % 32 = 31 - (b0.toNat * 256 + b1.toNat / 64 * 64) % 31
      ∧ (b0.toNat * 256 + b1.toNat) % 31 = 0 ∧ 1 ≤ b1.toNat % 32 ∧ b1.toNat % 32 ≤ 30

/-! ### The frame of every instruction -/

/-- Whatever an instruction does, be it a fault: nothing but CONFIGURE writes the configuration registers, the derived
parameters or the CT row (10_state.md R34, R35, 70_reset_and_hazards.md R566); no instruction writes the platform or the
packets still to come; and `OUT` only grows, but for CONFIGURE and TAKE_BYTES (20_memory.md R105). -/
def Obligations.EveryInstructionFrame : Prop :=
  ∀ (i : Instr) (s t : State), exec i s = .next t →
    t.platform = s.platform ∧ t.port.queue = s.port.queue
    ∧ (¬ IsConfigure i → t.cfg = s.cfg ∧ t.ct = s.ct)
    ∧ (¬ IsConfigure i → i ≠ .takeBytes → ∃ bytes, t.mem.out = s.mem.out ++ bytes)

/-- With the unbounded buffer no instruction raises F_ALLOC; with a finite `OUT_CAPACITY` an `Emit` past it does, and
appends nothing (20_memory.md R105, 60_exceptions.md R500). -/
def Obligations.OutCapacity : Prop :=
  (∀ (i : Instr) (s t : State) (r : Reply), s.unbounded → exec i s = .next t → t.port.reply = some r →
    r.word = 0xD02 → s.port.reply = some r ∧ ¬ IsCommand i)
  ∧ (∀ (b : Byte) (s : State),
    (HasRoom s 1 → (emit b).run s = .ok () (appended [b] s))
    ∧ (¬ HasRoom s 1 → (emit b).run s = .error (.raise .alloc) s))

/-! ### Output and status access -/

/-- 40_host_commands.md R212. -/
def Obligations.GetBytes : Prop :=
  ∀ s : State,
    (s.isOpen → exec .getBytes s = .next (answered 0 (.bytes s.mem.out) s))
    ∧ (s.ctl.fsm = .unconfigured → exec .getBytes s = .next (raise .notConfigured s.clearInput))
    ∧ (s.ctl.fsm = .faulted → exec .getBytes s = .next (raise .faulted s.clearInput))

/-- TAKE_BYTES and GET_CRC (the pseudocode of 40_host_commands.md R213 and R214). -/
def Obligations.TakeBytesAndGetCrc : Prop :=
  (∀ s : State,
    (s.isOpen → exec .takeBytes s =
      .next (answered 0 (.bytes s.mem.out) { s with mem := { s.mem with out := [] } }))
    ∧ (s.ctl.fsm = .unconfigured → exec .takeBytes s = .next (raise .notConfigured s.clearInput))
    ∧ (s.ctl.fsm = .faulted → exec .takeBytes s = .next (raise .faulted s.clearInput)))
  ∧ (∀ s : State,
    (s.isOpen → exec .getCrc s = .next (answered 0 (.crc s.sums.crc) s))
    ∧ (s.ctl.fsm = .unconfigured → exec .getCrc s = .next (raise .notConfigured s.clearInput))
    ∧ (s.ctl.fsm = .faulted → exec .getCrc s = .next (raise .faulted s.clearInput)))

/-! ### COMPRESS -/

/-- 40_host_commands.md R206: an empty chunk whose mode is not FINISH and is at most the previous mode does nothing but
record the mode; so does NO_FLUSH with an empty chunk. -/
def Obligations.DuplicateFlush : Prop :=
  ∀ (f : BitVec 3) (s : State), f ≤ 3 → f ≤ s.ctl.lastFlush → s.ctl.fsm = .busy →
    exec (compressWith f []) s =
      .next (answered 0 .none { s with ctl := { s.ctl with lastFlush := f }, mem := { s.mem with input := [] } })

/-- A COMPRESS that returns normally has read its whole chunk, and both checksums cover exactly it more
(20_memory.md R106, 70_reset_and_hazards.md R561, R565); `lastFlush` is its mode (10_state.md R33). -/
def Obligations.CompressReadsChunk : Prop :=
  ∀ (f : BitVec 3) (chunk : List Byte) (s t : State), f ≤ 4 → s.ctl.fsm = .busy →
    exec (compressWith f chunk) s = .next t → t.ctl.fsm ≠ .faulted →
    t.mem.input = [] ∧ t.ctl.lastFlush = f ∧ t.ctl.faultCode = s.ctl.faultCode
      ∧ t.sums = { adler := adlerUpdate s.sums.adler chunk, crc := crcUpdate s.sums.crc chunk }

/-- The frame of the window: a COMPRESS too short to reach a compaction writes its chunk after the data and no other byte
of `WIN` (20_memory.md R101, 41_match_finder.md R255, R257). -/
def Obligations.CompressWindow : Prop :=
  ∀ (f : BitVec 3) (chunk : List Byte) (s t : State), f ≤ 4 → BusyAt s →
    s.mf.strStart + s.mf.lookAhead + chunk.length < s.cfg.wSize + s.cfg.maxDist →
    exec (compressWith f chunk) s = .next t → t.ctl.fsm ≠ .faulted →
    t.mem.win = s.mem.win.writeAll (s.mf.strStart + s.mf.lookAhead) chunk
      ∧ t.mf.strStart + t.mf.lookAhead = s.mf.strStart + s.mf.lookAhead + chunk.length

/-- COMPRESS.NO_FLUSH at levels 1 to 9 with fewer than `MIN_LOOKAHEAD` bytes in all: the chunk is read, nothing is
compressed, the hash is seeded, the result is OK (40_host_commands.md R207, 41_match_finder.md R257, R285, R290). The whole
next state. -/
def Obligations.NoFlushBuffers : Prop :=
  ∀ (chunk : List Byte) (s : State), BusyAt s → s.cfg.level ≠ 0 → chunk ≠ [] →
    s.mf.lookAhead + chunk.length < 262 → s.mf.strStart < s.cfg.wSize + s.cfg.maxDist →
    s.mf.blockStart ≤ (s.mf.strStart : Int) →
    let win := s.mem.win.writeAll (s.mf.strStart + s.mf.lookAhead) chunk
    exec (.compressNoFlush chunk) s = .next
      { s with
        ctl := { s.ctl with lastFlush := 0 }
        mf := { s.mf with
          lookAhead := s.mf.lookAhead + chunk.length
          insH := if 3 ≤ s.mf.lookAhead + chunk.length
            then updateHash s.cfg ((win.read s.mf.strStart).zeroExtend 16) (win.read (s.mf.strStart + 1)) else s.mf.insH }
        sums := { adler := adlerUpdate s.sums.adler chunk, crc := crcUpdate s.sums.crc chunk }
        mem := { s.mem with win := win, input := [] }
        port := { s.port with reply := some ⟨0, .none⟩ } }

/-- NO_FLUSH stops only for want of lookahead: afterwards fewer than `MIN_LOOKAHEAD` bytes wait, at level 0 none
(40_host_commands.md R207, 41_match_finder.md R275). -/
def Obligations.NoFlushNeedsMore : Prop :=
  ∀ (chunk : List Byte) (s t : State), BusyAt s → chunk ≠ [] →
    exec (.compressNoFlush chunk) s = .next t → t.ctl.fsm ≠ .faulted →
    t.ctl.fsm = .busy ∧ t.mf.lookAhead < 262 ∧ (s.cfg.level = 0 → t.mf.lookAhead = 0)

/-- What a flush leaves (40_host_commands.md R208 to R211, 43_bit_packer.md R392, R393, 44_block_controller.md R433 to
R435): all lookahead consumed, the block ended, its registers as InitBlock leaves them; at most 7 bits pending after
PARTIAL_FLUSH; 00 00 FF FF at the end of an aligned stream after SYNC_FLUSH and FULL_FLUSH, with no chain head left after
FULL_FLUSH; the aligned stream ended by the Adler-32 of all input after FINISH, with `fsm` FINISH and STREAM_END. -/
def Obligations.FlushEndsBlock : Prop :=
  ∀ (f : BitVec 3) (chunk : List Byte) (s t : State), 1 ≤ f → f ≤ 4 → BusyAt s → ¬ Duplicate s f chunk →
    exec (compressWith f chunk) s = .next t → t.ctl.fsm ≠ .faulted →
    t.mf.lookAhead = 0 ∧ t.mf.blockStart = (t.mf.strStart : Int) ∧ BlockFresh t
    ∧ (s.ct.driver = .slow → t.mf.matchAvailable = false)
    ∧ (f = 1 → t.ctl.fsm = .busy ∧ t.bp.biValid < 8)
    ∧ (f = 2 ∨ f = 3 → t.ctl.fsm = .busy ∧ t.bp.biValid = 0 ∧ ∃ out, t.mem.out = out ++ [0, 0, 0xFF, 0xFF])
    ∧ (f = 3 → t.mem.head = [])
    ∧ (f = 4 → t.ctl.fsm = .finish ∧ t.bp.biValid = 0 ∧ (∃ out, t.mem.out = out ++ trailerBytes t.sums.adler)
        ∧ t.port.reply = some ⟨1, .none⟩)

/-- A flush at levels 1 to 9 with nothing pending emits one empty stored block (44_block_controller.md R429), final for
FINISH, and the epilogue: PARTIAL_FLUSH, SYNC_FLUSH, FULL_FLUSH and FINISH complete there (R430, R433 to R435, R437). -/
def Obligations.EmptyFlush : Prop :=
  ∀ (f : BitVec 3) (s : State), 1 ≤ f → f ≤ 4 → BusyAt s → s.cfg.level ≠ 0 → ¬ Duplicate s f [] → s.unbounded →
    s.MemoryOk → s.bp.Ok → BlockFresh s → s.mf.lookAhead = 0 → s.mf.matchAvailable = false →
    s.mf.strStart ≤ s.cfg.windowBytes → s.mf.blockStart = (s.mf.strStart : Int) →
    ∃ t, exec (compressWith f []) s = .next t
      ∧ t.stream = level0Stream f s.cfg.storedMax s.stream [] s.sums.adler
      ∧ t.sums = s.sums ∧ t.mf.lookAhead = 0 ∧ t.mf.blockStart = (t.mf.strStart : Int) ∧ BlockFresh t
      ∧ t.mem.head = (if f = 3 then [] else t.mem.head)
      ∧ t.ctl = { s.ctl with lastFlush := f, fsm := if f = 4 then .finish else .busy }
      ∧ t.port = { s.port with reply := some ⟨if f = 4 then 1 else 0, .none⟩ }

/-- Level 0 is exact: for every mode and chunk a COMPRESS completes, the stream is extended by the pending bytes and the
chunk cut into stored blocks of `STORED_MAX` bytes, the rest pending or, for a flush, in a last block, then the epilogue
and the trailer; no token, chain or Huffman code is written (41_match_finder.md R280, 44_block_controller.md R425, R432,
R433, R437, R445). -/
def Obligations.Level0Stream : Prop :=
  ∀ (f : BitVec 3) (chunk : List Byte) (s : State), f ≤ 4 → BusyAt s → s.cfg.level = 0 → ¬ Duplicate s f chunk →
    s.unbounded → s.MemoryOk → s.StoredOk → s.WindowOk → s.bp.Ok →
    ∃ t, exec (compressWith f chunk) s = .next t
      ∧ t.stream = level0Stream f s.cfg.storedMax s.stream (pendingBytes s ++ chunk) (adlerUpdate s.sums.adler chunk)
      ∧ pendingBytes t = level0Pending f s.cfg.storedMax s.stream (pendingBytes s ++ chunk)
      ∧ t.mf.lookAhead = 0 ∧ t.bp.Ok ∧ t.mem.input = []
      ∧ t.sums = { adler := adlerUpdate s.sums.adler chunk, crc := crcUpdate s.sums.crc chunk }
      ∧ t.ctl = { s.ctl with lastFlush := f, fsm := if f = 4 then .finish else .busy }
      ∧ t.cfg = s.cfg ∧ t.ct = s.ct ∧ t.platform = s.platform
      ∧ t.port = { s.port with reply := some ⟨if f = 4 then 1 else 0, .none⟩ }
      ∧ t.mem.dbuf = s.mem.dbuf ∧ t.mem.lbuf = s.mem.lbuf
      ∧ (∀ tree, t.hb.lens tree = s.hb.lens tree ∧ t.hb.codes tree = s.hb.codes tree)
      ∧ (s.mem.head = [] → t.mem.head = []) ∧ (BlockFresh s → BlockFresh t)

/-- Level 0: however the input is split over NO_FLUSH chunks, empty ones among them, what the last COMPRESS leaves is what
one COMPRESS of all the input leaves (20_memory.md R117 at level 0). At least one byte comes before the last command; with
none, the modes before it would be all the chunks change (40_host_commands.md R206). -/
def Obligations.Level0Chunking : Prop :=
  ∀ (f : BitVec 3) (chunks : List (List Byte)) (b : List Byte) (s : State), f ≤ 4 → BusyAt s → s.cfg.level = 0 →
    chunks.flatten ≠ [] → s.unbounded → s.MemoryOk → s.StoredOk → s.WindowOk → s.bp.Ok →
    ∃ u v, runAll (chunks.map .compressNoFlush ++ [compressWith f b]) s = some u
      ∧ exec (compressWith f (chunks.flatten ++ b)) s = .next v
      ∧ u.mem.out = v.mem.out ∧ u.bp = v.bp ∧ u.sums = v.sums ∧ u.ctl = v.ctl ∧ pendingBytes u = pendingBytes v
      ∧ u.port.reply = v.port.reply

/-- 20_memory.md R117 as the spec states it: at every level, in every session, any split of the input into NO_FLUSH chunks
before the last command gives the output of one command with all the bytes. Expected to fail: a compaction between two
chunks turns a chain entry equal to `wSize` into 0, which is NIL (R256, R262), and a fill compacts at a point that depends
on the chunks (R257; log 21). -/
def Obligations.ChunkingEveryLevel : Prop :=
  ∀ (level windowBits memLevel : BitVec 4) (strategy : BitVec 2) (f : BitVec 3) (chunks : List (List Byte)) (b : List Byte)
    (s u v : State), f ≤ 4 →
    exec (.configure level 8 windowBits memLevel strategy) State.reset = .next s → s.ctl.fsm = .busy →
    runAll (chunks.map .compressNoFlush ++ [compressWith f b]) s = some u →
    exec (compressWith f (chunks.flatten ++ b)) s = .next v → u.mem.out = v.mem.out

/-- Where R117 does hold at every level: when every point where the input is split is a clear one. Any such split into
NO_FLUSH chunks before the last command gives the output, pending bits, checksums, control registers and result of one
command with all the bytes, however many compactions the session makes (20_memory.md R117, 41_match_finder.md R256, R257).
Every split of an input shorter than `wSize + MAX_DIST` is of this kind. That R117 needs the bound is log 21. -/
def Obligations.ChunkingAtClearSplits : Prop :=
  ∀ (level windowBits memLevel : BitVec 4) (strategy : BitVec 2) (f : BitVec 3) (chunks : List (List Byte)) (b : List Byte)
    (s : State), LegalOperands level 8 windowBits memLevel strategy → f ≤ 4 →
    (∀ k, ClearSplit (2 ^ windowBits.toNat) (chunks.take k).flatten.length) →
    exec (.configure level 8 windowBits memLevel strategy) State.reset = .next s →
    ∃ u v, runAll (chunks.map .compressNoFlush ++ [compressWith f b]) s = some u
      ∧ exec (compressWith f (chunks.flatten ++ b)) s = .next v
      ∧ u.mem.out = v.mem.out ∧ u.bp = v.bp ∧ u.sums = v.sums ∧ u.ctl = v.ctl ∧ u.port.reply = v.port.reply

/-- No command hangs or stops the machine: in every state of a configured session, and in every other state, each command
comes to its end with a result (40_host_commands.md R205, 60_exceptions.md R513, 70_reset_and_hazards.md R560). -/
def Obligations.EveryCommandCompletes : Prop :=
  ∀ (i : Instr) (s : State), IsCommand i → s.ModeOk → s.StoredOk → ∃ t r, exec i s = .next t ∧ t.port.reply = some r

/-- COMPRESS completes: in every session that meets the invariants, with an unbounded buffer, every legal mode and chunk
has a next state without a fault, with the result OK, or STREAM_END for FINISH, the configuration is kept and all the
invariants hold again
(40_host_commands.md R205, R207 to R211, 60_exceptions.md R500). -/
def Obligations.CompressCompletes : Prop :=
  ∀ (f : BitVec 3) (chunk : List Byte) (s : State), f ≤ 4 → s.ctl.fsm = .busy → s.unbounded →
    s.MemoryOk → s.ModeOk → s.WindowOk → s.AccOk → s.TokensOk → s.StoredOk → s.SearchOk → s.CountsOk →
    ∃ t, exec (compressWith f chunk) s = .next t
      ∧ t.ctl = { s.ctl with lastFlush := f, fsm := if f = 4 then .finish else .busy }
      ∧ t.port = { s.port with reply := some ⟨if f = 4 then 1 else 0, .none⟩ }
      ∧ t.cfg = s.cfg ∧ t.ct = s.ct ∧ t.platform = s.platform
      ∧ t.MemoryOk ∧ t.ModeOk ∧ t.WindowOk ∧ t.AccOk ∧ t.TokensOk ∧ t.StoredOk ∧ t.SearchOk ∧ t.CountsOk

/-- From power-on with an unbounded buffer no sequence of commands raises an invariant or resource fault: the codes 5, 6, 7,
9, 10, 11, 12 and 13 are unreachable (60_exceptions.md R500). -/
def Obligations.InternalFaultsUnreachable : Prop :=
  ∀ (cmds : List Instr) (t : State) (r : Reply), (∀ i ∈ cmds, IsCommand i) → runAll cmds State.reset = some t →
    t.port.reply = some r →
    ∀ code ∈ [5, 6, 7, 9, 10, 11, 12, 13], r.word ≠ BitVec.ofNat 32 (2 + 256 * code)

/-! ### Input and checksums -/

/-- 20_memory.md R116. -/
def Obligations.ReadBuf : Prop :=
  ∀ (dst size : Nat) (s : State), s.MemoryOk →
    let bytes := s.mem.input.take size
    (bytes = [] → (readBuf dst size).run s = .ok 0 s)
    ∧ (bytes ≠ [] → s.cfg.windowBytes < dst + bytes.length →
        ∃ t, (readBuf dst size).run s = .error (.raise .bounds) t ∧ t.mem.win = s.mem.win)
    ∧ (bytes ≠ [] → dst + bytes.length ≤ s.cfg.windowBytes →
        ∃ win, (readBuf dst size).run s = .ok bytes.length
            { s with mem := { s.mem with win := win, input := s.mem.input.drop size }
                     sums := { adler := adlerUpdate s.sums.adler bytes, crc := crcUpdate s.sums.crc bytes } }
          ∧ ∀ i, win.read i = if dst ≤ i ∧ i < dst + bytes.length then bytes.getD (i - dst) 0 else s.mem.win.read i)

/-- Both checksums are those of 20_memory.md R118 and R119, and chunks do not show in them: CRC-32 is the shift-by-shift
one, with no table; Adler-32 is the sum of the bytes in [15:0] and the sum of those sums in [31:16], modulo 65521; and
updating with `xs ++ ys` is updating with `xs` and then with `ys`. -/
def Obligations.Checksums : Prop :=
  (∀ (v : Word) (xs : List Byte), (crcUpdate v xs).toNat = crcOf v.toNat xs)
  ∧ (∀ (v : Word) (xs : List Byte), v.toNat % 65536 < 65521 → v.toNat / 65536 < 65521 →
      (adlerUpdate v xs).toNat % 65536 = (v.toNat % 65536 + (xs.map fun x => x.toNat).sum) % 65521
      ∧ (adlerUpdate v xs).toNat / 65536 = (v.toNat / 65536 + xs.length * (v.toNat % 65536)
          + ((List.range xs.length).map fun i => (xs.length - i) * (xs.getD i 0).toNat).sum) % 65521)
  ∧ (∀ (v : Word) (xs ys : List Byte), adlerUpdate v (xs ++ ys) = adlerUpdate (adlerUpdate v xs) ys)
  ∧ (∀ (v : Word) (xs ys : List Byte), crcUpdate v (xs ++ ys) = crcUpdate (crcUpdate v xs) ys)

/-! ### Match finder -/

/-- 41_match_finder.md R250: the rolling hash, and that three updates forget what came before. -/
def Obligations.UpdateHash : Prop :=
  ∀ (c : Settings), c.legal = true → ∀ (h g : BitVec 16) (x y z : Byte),
    (updateHash c h x).toNat = ((h.toNat * 2 ^ c.hashShift) ^^^ x.toNat) % c.hashSize
    ∧ updateHash c (updateHash c (updateHash c h x) y) z = updateHash c (updateHash c (updateHash c g x) y) z

/-- The pseudocode of 41_match_finder.md R251. -/
def Obligations.InsertString : Prop :=
  ∀ (pos : Nat) (s : State), s.cfg.legal = true → s.MemoryOk → pos + 2 < s.cfg.windowBytes →
    let h := updateHash s.cfg s.mf.insH (s.mem.win.read (pos + 2))
    ∃ head prev, (insertString pos).run s = .ok (s.mem.head.read h.toNat).toNat
        { s with mf := { s.mf with insH := h }, mem := { s.mem with head := head, prev := prev } }
      ∧ (∀ i, head.read i = if i = h.toNat then BitVec.ofNat 16 pos else s.mem.head.read i)
      ∧ (∀ i, prev.read i = if i = pos % s.cfg.wSize then s.mem.head.read h.toNat else s.mem.prev.read i)

/-- 41_match_finder.md R256, element by element. Where `matchStart - wSize` is below the 32 signed bits of the register
nothing is said of its new value, a free value (the model's choice, log 22). -/
def Obligations.Slide : Prop :=
  ∀ s : State, s.MemoryOk → s.cfg.wSize + s.cfg.maxDist ≤ s.mf.strStart →
    s.mf.strStart + s.mf.lookAhead ≤ s.cfg.windowBytes → s.mf.blockStart ≤ (s.mf.strStart : Int) →
    ∃ t, slide.run s = .ok () t
      ∧ (∀ i, t.mem.win.read i = if i < s.cfg.wSize then s.mem.win.read (i + s.cfg.wSize) else s.mem.win.read i)
      ∧ (∀ h, t.mem.head.read h = if s.cfg.wSize ≤ (s.mem.head.read h).toNat
          then BitVec.ofNat 16 ((s.mem.head.read h).toNat - s.cfg.wSize) else 0)
      ∧ (∀ i, t.mem.prev.read i = if s.cfg.wSize ≤ (s.mem.prev.read i).toNat
          then BitVec.ofNat 16 ((s.mem.prev.read i).toNat - s.cfg.wSize) else 0)
      ∧ t = { s with
          mf := { s.mf with matchStart := t.mf.matchStart, strStart := s.mf.strStart - s.cfg.wSize,
                            blockStart := s.mf.blockStart - s.cfg.wSize }
          mem := { s.mem with win := t.mem.win, head := t.mem.head, prev := t.mem.prev } }
      ∧ (-2147483648 ≤ s.mf.matchStart.toInt - s.cfg.wSize →
          t.mf.matchStart.toInt = s.mf.matchStart.toInt - s.cfg.wSize)

/-- What a fill leaves (41_match_finder.md R258), and what it does to a match that SLOW holds back: the distance it stands
for stays, and `matchStart` stays a window index but for one case, where the fill compacts at `wSize + MAX_DIST` and the
source is at `wSize - 1`, at distance `MAX_DIST` of the byte held back (90_conflicts.md C8): there it is -1 (R256; that a
distance is formed from it all the same, against the note R262 (c), is log 23). -/
def Obligations.FillPostcondition : Prop :=
  ∀ s t : State, s.cfg.legal = true → s.mf.strStart ≤ s.cfg.windowBytes → fillWindow.run s = .ok () t →
    (262 ≤ t.mf.lookAhead ∨ t.mem.input = []) ∧ t.mf.strStart + t.mf.lookAhead ≤ t.cfg.windowBytes
      ∧ t.mf.strStart < t.cfg.wSize + t.cfg.maxDist
      ∧ (0 ≤ s.mf.matchStart.toInt → s.mf.matchStart.toInt + 1 < (s.mf.strStart : Int) →
          (s.mf.strStart : Int) - 1 - s.mf.matchStart.toInt ≤ (s.cfg.maxDist : Int) →
          (t.mf.strStart : Int) - t.mf.matchStart.toInt = (s.mf.strStart : Int) - s.mf.matchStart.toInt
          ∧ (0 ≤ t.mf.matchStart.toInt ∨ t.mf.matchStart.toInt = -1 ∧ s.mf.strStart = s.cfg.wSize + s.cfg.maxDist
              ∧ s.mf.matchStart.toInt + 1 = (s.cfg.wSize : Int)))

/-- What the search answers and finds (41_match_finder.md R260). In every state that lets it come to its end: `prevLength` cut to the lookahead with nothing written, or the length
of a real match at most `MAX_MATCH` and the lookahead, at the candidate written to `matchStart`, which is the first one or
a chain entry above `limit`. And when the data and the chains lie in the window it comes to its end with exactly the best
of the candidates it is to compare: the chain from `cur` down to `limit`, at most `maxChain` candidates, half as many when
`prevLength` has `goodLength`, no further than the first that reaches `niceLength` or the lookahead; of equal lengths the
first candidate wins. -/
def Obligations.LongestMatchIsAMatch : Prop :=
  (∀ (cur len : Nat) (s t : State), (longestMatch cur).run s = .ok len t →
    (t = s ∧ len = min s.mf.prevLength s.mf.lookAhead)
    ∨ ∃ m : Nat, t = { s with mf := { s.mf with matchStart := BitVec.ofNat 32 m } }
        ∧ s.mf.prevLength < len ∧ len ≤ 258 ∧ len ≤ s.mf.lookAhead
        ∧ (∀ k, k < len → s.mem.win.read (s.mf.strStart + k) = s.mem.win.read (m + k))
        ∧ (m = cur ∨ (s.mf.strStart - s.cfg.maxDist < m ∧ ∃ i, (s.mem.prev.read i).toNat = m)))
  ∧ (∀ (cur : Nat) (s : State), s.cfg.legal = true → s.ct = ctRow s.cfg.level → s.ct.driver ≠ .stored →
      s.mf.strStart + s.mf.lookAhead ≤ s.cfg.windowBytes → cur < s.mf.strStart →
      (∀ p ∈ s.mem.prev, p.2.toNat < s.mf.strStart) →
      ∃ t, (longestMatch cur).run s = .ok (min (bestOf s cur) s.mf.lookAhead) t
        ∧ (bestOf s cur = s.mf.prevLength → t = s)
        ∧ (s.mf.prevLength < bestOf s cur → ∃ m,
            (compared s cur).find? (fun c => agreement s c = bestOf s cur) = some m
            ∧ t = { s with mf := { s.mf with matchStart := BitVec.ofNat 32 m } }))

/-- 41_match_finder.md R270 to R272: one token, its counts, the two checks, and when the block ends: exactly when the
heuristic's conditions hold after the token or one slot is left. -/
def Obligations.Tally : Prop :=
  ∀ (dist lc : Nat) (s : State), s.MemoryOk → lc ≤ 255 →
    (s.cfg.litBufferSize ≤ s.tok.lastLit → (tally dist lc).run s = .error (.raise .tokenOverflow) s)
    ∧ (s.tok.lastLit < s.cfg.litBufferSize → s.cfg.maxDist < dist → ∃ t,
        (tally dist lc).run s = .error (.raise .matchBounds) t)
    ∧ (s.tok.lastLit < s.cfg.litBufferSize → dist ≤ s.cfg.maxDist → ∃ b t, (tally dist lc).run s = .ok b t
        ∧ t.tok = { lastLit := s.tok.lastLit + 1, numMatches := s.tok.numMatches + (if dist = 0 then 0 else 1) }
        ∧ (∀ i, t.mem.dbuf.read i = if i = s.tok.lastLit then BitVec.ofNat 16 dist else s.mem.dbuf.read i)
        ∧ (∀ i, t.mem.lbuf.read i = if i = s.tok.lastLit then BitVec.ofNat 8 lc else s.mem.lbuf.read i)
        ∧ (∀ i, t.hb.lfreq.read i = s.hb.lfreq.read i
            + (if i = (if dist = 0 then lc else 257 + lcode (lc + 3)) then 1 else 0))
        ∧ (∀ i, t.hb.dfreq.read i = s.hb.dfreq.read i + (if dist ≠ 0 ∧ i = distCode dist then 1 else 0))
        ∧ t = { s with tok := t.tok, hb := { s.hb with lfreq := t.hb.lfreq, dfreq := t.hb.dfreq }
                       mem := { s.mem with dbuf := t.mem.dbuf, lbuf := t.mem.lbuf } }
        ∧ (s.mf.blockStart ≤ (s.mf.strStart : Int) →
            (b = true ↔ SparseHolds t ∨ t.tok.lastLit + 1 = s.cfg.litBufferSize))
        ∧ (t.tok.lastLit + 1 = s.cfg.litBufferSize → b = true)
        ∧ (t.tok.lastLit % 8192 ≠ 0 → t.tok.lastLit + 1 ≠ s.cfg.litBufferSize → b = false))

/-- The greedy driver loses nothing: one round appends one token, and it is the byte at `strStart`, or a match whose source
bytes in the window equal the bytes it covers; `strStart` and `lookAhead` move past exactly them and `WIN` stays. The token
is the next of the block, or the round ended the block with it (41_match_finder.md R285, R260, R270 to R272). -/
def Obligations.FastStepIsLossless : Prop :=
  ∀ s t : State, s.cfg.legal = true → s.ct = ctRow s.cfg.level → s.ct.driver = .fast → s.MemoryOk →
    s.mf.matchLength < 3 → s.mf.prevLength = 2 → 1 ≤ s.mf.lookAhead →
    (∀ p ∈ s.mem.head, p.2.toNat < s.mf.strStart) → (∀ p ∈ s.mem.prev, p.2.toNat < s.mf.strStart) →
    fastStep.run s = .ok .again t →
    let d := (t.mem.dbuf.read s.tok.lastLit).toNat
    let lc := t.mem.lbuf.read s.tok.lastLit
    t.mem.win = s.mem.win ∧ TokenAdded s t d t.mf.strStart
    ∧ (d = 0 → lc = s.mem.win.read s.mf.strStart ∧ t.mf.strStart = s.mf.strStart + 1
        ∧ t.mf.lookAhead + 1 = s.mf.lookAhead)
    ∧ (d ≠ 0 → d ≤ s.cfg.maxDist ∧ d ≤ s.mf.strStart ∧ t.mf.strStart = s.mf.strStart + (lc.toNat + 3)
        ∧ t.mf.lookAhead + (lc.toNat + 3) = s.mf.lookAhead
        ∧ ∀ k, k < lc.toNat + 3 → s.mem.win.read (s.mf.strStart + k) = s.mem.win.read (s.mf.strStart + k - d))

/-- The lazy driver loses nothing: a round with nothing held back holds back the byte at `strStart`; any other appends one
token, and it is the byte held back, or a match for it whose source bytes in the window equal the bytes it covers. The token
is the next of the block, or the round ended the block with it, after the match or before the byte at `strStart`. What is
held back afterwards is right again, and `WIN` and the end of the data stay (41_match_finder.md R290 (d), (e), R260, R270 to
R272). -/
def Obligations.SlowStepIsLossless : Prop :=
  ∀ s t : State, s.cfg.legal = true → s.ct = ctRow s.cfg.level → s.ct.driver = .slow → s.MemoryOk →
    DeferredOk s → 1 ≤ s.mf.lookAhead →
    (∀ p ∈ s.mem.head, p.2.toNat < s.mf.strStart) → (∀ p ∈ s.mem.prev, p.2.toNat < s.mf.strStart) →
    slowStep.run s = .ok .again t →
    let d := (t.mem.dbuf.read s.tok.lastLit).toNat
    let lc := t.mem.lbuf.read s.tok.lastLit
    t.mem.win = s.mem.win ∧ t.mf.strStart + t.mf.lookAhead = s.mf.strStart + s.mf.lookAhead ∧ DeferredOk t
    ∧ (s.mf.matchAvailable = true → TokenAdded s t d (if d = 0 then s.mf.strStart else t.mf.strStart))
    ∧ (s.mf.matchAvailable = false → t.tok = s.tok ∧ t.mf.blockStart = s.mf.blockStart ∧ t.mf.strStart = s.mf.strStart + 1 ∧ t.mf.matchAvailable = true)
    ∧ (s.mf.matchAvailable = true → d = 0 → lc = s.mem.win.read (s.mf.strStart - 1)
        ∧ t.mf.strStart = s.mf.strStart + 1 ∧ t.mf.matchAvailable = true)
    ∧ (s.mf.matchAvailable = true → d ≠ 0 → d ≤ s.cfg.maxDist ∧ d < s.mf.strStart ∧ t.mf.matchAvailable = false
        ∧ t.mf.strStart + 1 = s.mf.strStart + (lc.toNat + 3)
        ∧ ∀ k, k < lc.toNat + 3 →
            s.mem.win.read (s.mf.strStart - 1 + k) = s.mem.win.read (s.mf.strStart - 1 + k - d))

/-! ### Symbol alphabets -/

/-- The tables of 30_encoding.md R154 and R155: `lcode`, `DistCode`, first values and extra-bit counts of every length and
distance; the extra bits of R157; the order of R158; and the tree descriptors of 42_huffman_builder.md R321. -/
def Obligations.SymbolTables : Prop :=
  (∀ row ∈ lengthTable, extraLBits (row.1 - 257) = row.2.1 ∧ baseLength (row.1 - 257) = row.2.2.1
    ∧ ∀ len, row.2.2.1 ≤ len → len ≤ row.2.2.2 → 257 + lcode len = row.1)
  ∧ (∀ row ∈ distTable, extraDBits row.1 = row.2.1 ∧ baseDist row.1 = row.2.2.1
    ∧ ∀ d, row.2.2.1 ≤ d → d ≤ row.2.2.2 → distCode d = row.1)
  ∧ blOrder = codeLengthOrder
  ∧ ([Tree.lit, .dist, .bl].map fun tree => (tree.elems, tree.maxLength, tree.hasStatic))
      = [(286, 15, true), (30, 15, true), (19, 7, false)]
  ∧ (∀ n, Tree.lit.stat n = staticLitLen n ∧ Tree.dist.stat n = staticDistLen n)
  ∧ (∀ n, n < 257 → Tree.lit.xbits n = 0) ∧ (∀ row ∈ lengthTable, Tree.lit.xbits row.1 = row.2.1)
  ∧ (∀ row ∈ distTable, Tree.dist.xbits row.1 = row.2.1)
  ∧ (∀ n, n < 19 → Tree.bl.xbits n = if n = 16 then 2 else if n = 17 then 3 else if n = 18 then 7 else 0)

/-! ### Huffman builder -/

/-- Every tree build completes with a complete code within the length limit, the repair included (42_huffman_builder.md
R345 (a), (b), (c), (e), R331): every length at most `maxLength`, the Kraft sum exactly 1, a code for every symbol that
occurs, and no more codes than symbols that occur but for the phantoms that make two, which are those of R323. The max-code
register is the largest symbol with a code, and nothing but this tree's registers, the costs and the scratch is written
(R322, R323, R332, 10_state.md R50). -/
def Obligations.TreeIsComplete : Prop :=
  ∀ (tree : Tree) (s : State), s.MemoryOk → ∃ t, (buildTree tree).run s = .ok () t
    ∧ (∀ n, lenOf t.hb tree n ≤ tree.maxLength)
    ∧ (((List.range tree.elems).filter fun n => lenOf t.hb tree n ≠ 0).map
        fun n => 2 ^ (tree.maxLength - lenOf t.hb tree n)).sum = 2 ^ tree.maxLength
    ∧ (∀ n, freqOf s.hb tree n ≠ 0 → lenOf t.hb tree n ≠ 0)
    ∧ ((List.range tree.elems).filter fun n => lenOf t.hb tree n ≠ 0).length
        = max 2 ((List.range tree.elems).filter fun n => freqOf s.hb tree n ≠ 0).length
    ∧ ((∀ n, freqOf s.hb tree n = 0) → lenOf t.hb tree 0 ≠ 0 ∧ lenOf t.hb tree 1 ≠ 0)
    ∧ (∀ m, (∀ n, freqOf s.hb tree n ≠ 0 ↔ n = m) → lenOf t.hb tree (if m < 2 then m + 1 else 0) ≠ 0)
    ∧ IsLastCoded t.hb tree (maxCodeOf t.hb tree)
    ∧ t = { s with hb := t.hb } ∧ OnlyTreeBuilt tree s.hb t.hb

/-- The codes of a build are canonical and prefix-free (42_huffman_builder.md R333, R345 (d)): each fits its length; the
unreversed codes of one length are the consecutive numbers from that length's first code on, in the order of the symbols;
and no code as it is sent, low bit first, begins another. -/
def Obligations.CodesAreCanonical : Prop :=
  ∀ (tree : Tree) (s t : State), s.MemoryOk → (buildTree tree).run s = .ok () t →
    ∀ m n, lenOf t.hb tree m ≠ 0 → lenOf t.hb tree n ≠ 0 →
      ((t.hb.codes tree).read m).toNat < 2 ^ lenOf t.hb tree m
      ∧ codeOf t.hb tree m = firstCodeOf t.hb tree (lenOf t.hb tree m) + rankOf t.hb tree m
      ∧ (m < n → lenOf t.hb tree m = lenOf t.hb tree n → codeOf t.hb tree m < codeOf t.hb tree n)
      ∧ (m ≠ n → lenOf t.hb tree m ≤ lenOf t.hb tree n →
          ((t.hb.codes tree).read n).toNat % 2 ^ lenOf t.hb tree m ≠ ((t.hb.codes tree).read m).toNat)

/-- What a build adds to the two cost registers: the bits of every symbol that occurs with its final length and its extra
bits, phantoms costing nothing, and the same with the static lengths (42_huffman_builder.md R323, R326, R328; 10_state.md
R47). -/
def Obligations.TreeCost : Prop :=
  ∀ (tree : Tree) (s t : State), s.MemoryOk → (buildTree tree).run s = .ok () t →
    t.hb.optLen = s.hb.optLen + (((List.range tree.elems).map
        fun n => freqOf s.hb tree n * (lenOf t.hb tree n + tree.xbits n)).sum : Nat)
    ∧ (tree.hasStatic = true → t.hb.staticLen = s.hb.staticLen + (((List.range tree.elems).map
        fun n => freqOf s.hb tree n * (tree.stat n + tree.xbits n)).sum : Nat))
    ∧ (tree.hasStatic = false → t.hb.staticLen = s.hb.staticLen)

/-- The run-length coding of code lengths: every run of equal lengths is cut as R335 says, each by itself; nothing is lost;
and every count is one the alphabet admits (42_huffman_builder.md R335, 44_block_controller.md R443, 30_encoding.md R157). -/
def Obligations.ScanCutsRuns : Prop :=
  ∀ lens : List Nat, (∀ l ∈ lens, l ≤ 15) →
    scanTree lens = (runsOf lens).flatMap cutRun
    ∧ expandCl 0 (scanTree lens) = lens ∧ ∀ c ∈ scanTree lens, ClOk c

/-- The static ROMs are the tables of 42_huffman_builder.md R340 and R341, and the literal/length codes are those R333 gives
for the lengths. -/
def Obligations.StaticRoms : Prop :=
  (∀ n, n < 288 →
    (n ≤ 143 → staticLitLen n = 8 ∧ staticLitCode n = revBits 8 (0x30 + n))
    ∧ (144 ≤ n → n ≤ 255 → staticLitLen n = 9 ∧ staticLitCode n = revBits 9 (0x190 + (n - 144)))
    ∧ (256 ≤ n → n ≤ 279 → staticLitLen n = 7 ∧ staticLitCode n = revBits 7 (n - 256))
    ∧ (280 ≤ n → staticLitLen n = 8 ∧ staticLitCode n = revBits 8 (0xC0 + (n - 280))))
  ∧ (let leaves := (List.range 288).map fun n => (n, staticLitLen n)
     (genCodes (firstCodes (countLengths leaves)) leaves).1 = (List.range 288).map fun n => (n, staticLitCode n))
  ∧ (∀ n, n < 30 → staticDistLen n = 5 ∧ staticDistCode n = revBits 5 n)

/-! ### Bit packer -/

/-- 43_bit_packer.md R390: the two branches as one, with the check. -/
def Obligations.SendBits : Prop :=
  ∀ (value length : Nat) (s : State), s.bp.Ok → s.unbounded →
    (16 < length ∨ 2 ^ length ≤ value → (sendBits value length).run s = .error (.raise .bits) s)
    ∧ (length ≤ 16 → value < 2 ^ length → ∃ t, (sendBits value length).run s = .ok () t
        ∧ OnlyEmitted s t ∧ t.bp.Ok
        ∧ (s.bp.biValid + length ≤ 16 → t.mem.out = s.mem.out ∧ t.bp.biValid = s.bp.biValid + length
            ∧ t.bp.biBuf.toNat = s.bp.biBuf.toNat + value * 2 ^ s.bp.biValid)
        ∧ (16 < s.bp.biValid + length →
            t.mem.out = s.mem.out ++ [BitVec.ofNat 8 (s.bp.biBuf.toNat + value * 2 ^ s.bp.biValid),
                BitVec.ofNat 8 ((s.bp.biBuf.toNat + value * 2 ^ s.bp.biValid) / 256)]
            ∧ t.bp.biValid = s.bp.biValid + length - 16
            ∧ t.bp.biBuf.toNat = value / 2 ^ (16 - s.bp.biValid)))

/-- 43_bit_packer.md R394: `SendBits` appends its field to the abstract stream, `BiFlushBytes` leaves the stream as it is,
`BiWindup` pads it with zero bits to a byte, and a direct `PutByte` or `PutShort` on an aligned stream appends its bytes. -/
def Obligations.BitStream : Prop :=
  ∀ s : State, s.bp.Ok → s.unbounded →
    (∀ value length, length ≤ 16 → value < 2 ^ length → ∃ t, (sendBits value length).run s = .ok () t
      ∧ t.stream = s.stream ++ fieldBits length value)
    ∧ (∃ t, biFlushBytes.run s = .ok () t ∧ t.stream = s.stream ∧ t.bp.biValid ≤ 7 ∧ OnlyEmitted s t)
    ∧ (∃ t, biWindup.run s = .ok () t ∧ t.stream = padToByte s.stream ∧ t.bp.biValid = 0 ∧ OnlyEmitted s t)
    ∧ (s.bp.biValid = 0 → ∀ b : Byte, ∃ t, (putByte b).run s = .ok () t ∧ t.stream = s.stream ++ byteBits b)
    ∧ (s.bp.biValid = 0 → ∀ w : BitVec 16, ∃ t, (putShort w).run s = .ok () t ∧ t.stream = s.stream ++ fieldBits 16 w.toNat)

/-! ### Block controller -/

/-- 44_block_controller.md R429, with the byte costs of R428. -/
def Obligations.ModeSelector : Prop :=
  ∀ (level storedLen optLen staticLen : Nat) (blockStart : Int),
    let optLenB := (optLen + 3 + 7) / 8
    let staticLenB := (staticLen + 3 + 7) / 8
    let stored := storedLen + 5 ≤ min optLenB staticLenB + 4 ∧ storedLen ≤ 65535 ∧ 0 ≤ blockStart
    (level = 0 ∨ stored → selectMode level storedLen blockStart optLen staticLen = .stored)
    ∧ (level ≠ 0 → ¬ stored → staticLenB ≤ optLenB → selectMode level storedLen blockStart optLen staticLen = .static)
    ∧ (level ≠ 0 → ¬ stored → optLenB < staticLenB → selectMode level storedLen blockStart optLen staticLen = .dynamic)

/-- One block boundary. `InitBlock` sets its registers and no others (42_huffman_builder.md R320). `FlushBlock` completes at
every level with tokens pending: after the build (levels 1 to 9) it emits the block of the mode of R429 with BFINAL =
`eof`, as a whole stream, padded to a byte if `eof`; then the block's registers are as `InitBlock` leaves them and the next
block starts at `strStart`; nothing else changes but what the build wrote (44_block_controller.md R428 to R431). -/
def Obligations.BlockBoundary : Prop :=
  (∀ s : State, ∃ lfreq dfreq blfreq,
    initBlock.run s = .ok ()
      { s with hb := { s.hb with lfreq := lfreq, dfreq := dfreq, blfreq := blfreq, optLen := 0, staticLen := 0 }
               tok := { lastLit := 0, numMatches := 0 } }
    ∧ (∀ n, lfreq.read n = if n = 256 then 1 else 0) ∧ (∀ n, dfreq.read n = 0) ∧ (∀ n, blfreq.read n = 0))
  ∧ (∀ (eof : BitVec 1) (s : State), s.cfg.legal = true → s.MemoryOk → s.bp.Ok → s.unbounded →
    s.mf.strStart ≤ s.cfg.windowBytes → s.mf.blockStart ≤ (s.mf.strStart : Int) →
    s.tok.lastLit ≤ s.cfg.litBufferSize → s.Counted →
    (s.cfg.level = 0 → 0 ≤ s.mf.blockStart ∧ (s.mf.strStart : Int) - s.mf.blockStart ≤ 65535) →
    ∃ u t, (s.cfg.level = 0 → u = s) ∧ (s.cfg.level ≠ 0 → buildAll.run s = .ok () u)
      ∧ (flushBlock eof).run s = .ok () t
      ∧ t.stream = (if eof = 1 then padToByte (blockBits s.stream true u) else blockBits s.stream false u)
      ∧ t.bp.Ok ∧ (eof = 1 → t.bp.biValid = 0) ∧ BlockFresh t
      ∧ t = { s with
          mf := { s.mf with blockStart := (s.mf.strStart : Int) }, tok := t.tok, bp := t.bp
          hb := { u.hb with lfreq := t.hb.lfreq, dfreq := t.hb.dfreq, blfreq := t.hb.blfreq, optLen := t.hb.optLen,
                            staticLen := t.hb.staticLen }
          mem := { s.mem with out := t.mem.out } })

/-- `BuildAll` is the three builds in their order, the last on the counts of the code-length symbols of the first two, then
`maxBlIndex` and the bits of the tree description that are no codes (42_huffman_builder.md R335 to R337). And the costs the
mode selector compares are lengths: on a block whose frequencies are its symbols' counts and whose cost registers are 0,
`optLen` is the number of bits of the dynamic block, tree description included, and `staticLen` that of the static block,
both without the 3-bit header (10_state.md R47, R50). -/
def Obligations.CostsAreLengths : Prop :=
  ∀ s : State, s.cfg.legal = true → s.MemoryOk → s.tok.lastLit ≤ s.cfg.litBufferSize → ExactCounts s →
    (∀ i, i < s.tok.lastLit → (s.mem.dbuf.read i).toNat ≤ 32768) → s.hb.optLen = 0 → s.hb.staticLen = 0 →
    ∃ a b c u, (buildTree .lit).run s = .ok () a ∧ (buildTree .dist).run a = .ok () b
      ∧ (buildTree .bl).run { b with hb := { b.hb with blfreq := u.hb.blfreq } } = .ok () c
      ∧ buildAll.run s = .ok () u
      ∧ u = { c with hb := { c.hb with maxBlIndex := u.hb.maxBlIndex,
                                       optLen := c.hb.optLen + ((3 * (u.hb.maxBlIndex + 1) + 14 : Nat) : Int) } }
      ∧ (∀ n, (u.hb.blfreq.read n).toNat = ((scanTree (lensUpTo u.hb.llen u.hb.lMaxCode)
          ++ scanTree (lensUpTo u.hb.dlen u.hb.dMaxCode)).filter fun sym => clNumber sym = n).length)
      ∧ (∀ tree, IsLastCoded u.hb tree (maxCodeOf u.hb tree)) ∧ IsMaxBlIndex u.hb u.hb.maxBlIndex
      ∧ u.hb.optLen = ((treesBits u.hb ++ bodyBits (dynBits u.hb .lit) (dynBits u.hb .dist) u).length : Nat)
      ∧ u.hb.staticLen = ((bodyBits staticLitBits staticDistBits u).length : Nat)

/-- STREAM.ZLIB_HEADER completes with CMF and FLG at the end of `OUT`, FDICT 0, and STREAM.ADLER_TRAILER with its four
bytes, most significant first (30_encoding.md R149, R159; that the rows run on their own is the model's choice, log 5). -/
def Obligations.HeaderAndTrailerElements : Prop :=
  (∀ (cinfo : BitVec 4) (fl : BitVec 2) (fcheck : BitVec 5) (s : State), HasRoom s 2 →
    exec (.zlibHeader cinfo fl fcheck) s =
      .next (appended [BitVec.ofNat 8 (cinfo.toNat * 16 + 8), BitVec.ofNat 8 (fl.toNat * 64 + fcheck.toNat)] s))
  ∧ (∀ (adler : Word) (s : State), HasRoom s 4 →
    exec (.adlerTrailer adler) s = .next (appended (trailerBytes adler) s))

/-- BLOCK.STORED completes with the header, the pad, LEN, NLEN and the bytes of the current block; with no valid offset or
more than 65535 bytes it raises F_STORED_NO_OFFSET (30_encoding.md R152, 44_block_controller.md R432; log 5). -/
def Obligations.BlockStoredElement : Prop :=
  ∀ (bfinal : BitVec 1) (s : State), s.bp.Ok → s.unbounded → s.mf.strStart ≤ s.cfg.windowBytes →
    s.mf.blockStart ≤ (s.mf.strStart : Int) →
    (0 ≤ s.mf.blockStart → (s.mf.strStart : Int) - s.mf.blockStart ≤ 65535 →
      ∃ t, exec (.blockStored bfinal) s = .next t ∧ OnlyEmitted s t ∧ t.bp.biValid = 0
        ∧ t.stream = storedBlockBits s.stream (bfinal = 1) (pendingBytes s))
    ∧ (s.mf.blockStart < 0 ∨ 65535 < (s.mf.strStart : Int) - s.mf.blockStart →
      exec (.blockStored bfinal) s = .next (raise .storedNoOffset s.clearInput))

/-- BLOCK.STATIC completes with its header, every token in order with the static codes, and END_BLOCK (30_encoding.md R151,
R153, 44_block_controller.md R431, R440; log 5). -/
def Obligations.BlockStaticElement : Prop :=
  ∀ (bfinal : BitVec 1) (s : State), s.bp.Ok → s.unbounded → s.tok.lastLit ≤ s.cfg.litBufferSize →
    (∀ i, i < s.tok.lastLit → (s.mem.dbuf.read i).toNat ≤ 32768) →
    ∃ t, exec (.blockStatic bfinal) s = .next t ∧ OnlyEmitted s t ∧ t.bp.Ok
      ∧ t.stream = s.stream ++ [decide (bfinal = 1), true, false] ++ bodyBits staticLitBits staticDistBits s

/-- BLOCK.DYNAMIC completes with its header, the tree description, every token in order with the codes in the registers,
and END_BLOCK (30_encoding.md R151, R156 to R158, 44_block_controller.md R431, R440, R442, R443; log 5). -/
def Obligations.BlockDynamicElement : Prop :=
  ∀ (bfinal : BitVec 1) (s : State), s.bp.Ok → s.unbounded → s.tok.lastLit ≤ s.cfg.litBufferSize →
    (∀ i, i < s.tok.lastLit → (s.mem.dbuf.read i).toNat ≤ 32768) →
    256 ≤ s.hb.lMaxCode → s.hb.lMaxCode < 286 → s.hb.dMaxCode < 30 → 3 ≤ s.hb.maxBlIndex → s.hb.maxBlIndex ≤ 18 →
    (∀ n, (s.hb.bllen.read n).toNat ≤ 7) →
    (∀ tree n, ((s.hb.codes tree).read n).toNat < 2 ^ ((s.hb.lens tree).read n).toNat) →
    ∃ t, exec (.blockDynamic bfinal) s = .next t ∧ OnlyEmitted s t ∧ t.bp.Ok
      ∧ t.stream = s.stream ++ [decide (bfinal = 1), false, true] ++ treesBits s.hb
          ++ bodyBits (dynBits s.hb .lit) (dynBits s.hb .dist) s

/-- BLOCK.RESERVED stops: BTYPE 11 is "reserved and never emitted" (30_encoding.md R151). -/
def Obligations.BlockReservedStops : Prop :=
  ∀ (bfinal : BitVec 1) (s : State), exec (.blockReserved bfinal) s = .refused .reservedBlockType

/-! ### Invariants -/

/-- The power-on state: UNCONFIGURED and no fault (70_reset_and_hazards.md R541), nothing in `IN`, and it meets every
invariant below. That `IN` and the memories are empty and `lastFlush` is 0 there, which `MemoryOk` and `ModeOk` speak about,
is the model's choice (DESIGN CHOICE, log 1): R541 gives `fsm` and `faultCode` alone. The other invariants speak of an open
session only. -/
def Obligations.ResetIsGood : Prop :=
  State.reset.ctl.fsm = .unconfigured ∧ State.reset.ctl.faultCode = 0 ∧ State.reset.mem.input = []
  ∧ State.reset.MemoryOk ∧ State.reset.ModeOk ∧ State.reset.WindowOk ∧ State.reset.AccOk ∧ State.reset.TokensOk
  ∧ State.reset.ChainsOk ∧ State.reset.StoredOk ∧ State.reset.SearchOk ∧ State.reset.CountsOk

/-- Every step keeps every memory and register file canonical and inside its declared range, and `IN` empty outside a
command (20_memory.md R101 to R104, R106, 10_state.md R48, R49). -/
def Obligations.StepKeepsMemoryForm : Prop :=
  ∀ s t : State, step s = .next t → (s.MemoryOk → t.MemoryOk) ∧ (s.mem.input = [] → t.mem.input = [])

/-- Every step keeps the window invariant, the accumulator's form, and the chain entries below the end of the data, in an
open session (60_exceptions.md R506, 10_state.md R36, R53, 41_match_finder.md R252 (a)). -/
def Obligations.StepKeepsWindowAccumulatorAndChains : Prop :=
  ∀ s t : State, step s = .next t →
    (s.WindowOk → t.WindowOk) ∧ (s.AccOk → t.AccOk) ∧ (s.ChainsOk → t.ChainsOk)

/-- Every step keeps the mode and configuration invariant, and with it the pending block of level 0 inside the window
(10_state.md R32 to R35, 44_block_controller.md R432). -/
def Obligations.StepKeepsModeAndLevel0 : Prop :=
  ∀ s t : State, s.ModeOk → s.StoredOk → step s = .next t → t.ModeOk ∧ t.StoredOk

/-- Every step keeps the token invariant: the buffer is never full between commands and the frequencies count its tokens
(10_state.md R45, R46, R48, 41_match_finder.md R272). -/
def Obligations.StepKeepsTokens : Prop :=
  ∀ s t : State, s.MemoryOk → s.ModeOk → s.TokensOk → step s = .next t → t.TokensOk
end

