-- ==== Sys2Proof/Laws/Arr.lean ====
section
/-! SUPPORT. The laws of the sparse arrays: read after write, and every array operation keeps the canonical form and the
declared range (log 8). -/

namespace Sys2Proof.Machine

variable {w : Nat}

/-! ### Reading -/

@[simp] theorem Arr.read_nil (i : Nat) : Arr.read ([] : Arr w) i = 0 := rfl

@[simp] theorem Arr.read_cons (p : Nat × BitVec w) (rest : Arr w) (i : Nat) :
    Arr.read (p :: rest) i = if i = p.1 then p.2 else Arr.read rest i := rfl

/-- An index that is not listed reads as 0. -/
theorem Arr.read_eq_zero {a : Arr w} {i : Nat} (h : ∀ p ∈ a, p.1 ≠ i) : a.read i = 0 := by
  induction a with
  | nil => rfl
  | cons p rest ih =>
    have hp : i ≠ p.1 := fun e => h p (by simp) e.symm
    simp [hp, ih (fun q hq => h q (by simp [hq]))]

/-- Past the declared range everything reads as 0. -/
theorem Arr.read_of_within {a : Arr w} {n i : Nat} (h : a.Within n) (hi : n ≤ i) : a.read i = 0 :=
  Arr.read_eq_zero fun p hp => Nat.ne_of_lt (Nat.lt_of_lt_of_le (h p hp) hi)

/-! ### The canonical form -/

@[simp] theorem Arr.canonical_nil : Arr.Canonical ([] : Arr w) := ⟨List.Pairwise.nil, fun _ h => nomatch h⟩

theorem Arr.within_nil (n : Nat) : Arr.Within ([] : Arr w) n := fun _ h => nomatch h

theorem Arr.canonical_cons {p : Nat × BitVec w} {rest : Arr w} :
    Arr.Canonical (p :: rest) ↔ (∀ q ∈ rest, p.1 < q.1) ∧ p.2 ≠ 0 ∧ Arr.Canonical rest := by
  simp only [Arr.Canonical, List.pairwise_cons, List.mem_cons, forall_eq_or_imp]
  tauto

theorem Arr.Canonical.tail {p : Nat × BitVec w} {rest : Arr w} (h : Arr.Canonical (p :: rest)) :
    Arr.Canonical rest := (Arr.canonical_cons.1 h).2.2

/-- Membership after a write: the entry written, or one that was there. -/
theorem Arr.mem_write {a : Arr w} {i : Nat} {v : BitVec w} {p : Nat × BitVec w} (h : p ∈ a.write i v) :
    (p = (i, v) ∧ v ≠ 0) ∨ p ∈ a := by
  induction a with
  | nil =>
    simp only [Arr.write] at h
    split at h <;> simp_all
  | cons q rest ih =>
    obtain ⟨j, u⟩ := q
    simp only [Arr.write] at h
    split at h
    · split at h
      · exact .inr h
      · rcases List.mem_cons.1 h with h | h
        · exact .inl ⟨h, ‹_›⟩
        · exact .inr h
    · split at h
      · split at h
        · exact .inr (by simp [h])
        · rcases List.mem_cons.1 h with h | h
          · exact .inl ⟨h, ‹_›⟩
          · exact .inr (by simp [h])
      · rcases List.mem_cons.1 h with h | h
        · exact .inr (by simp [h])
        · rcases ih h with h | h
          · exact .inl h
          · exact .inr (by simp [h])

/-- A write keeps the canonical form. -/
theorem Arr.canonical_write {a : Arr w} (h : a.Canonical) (i : Nat) (v : BitVec w) : (a.write i v).Canonical := by
  induction a with
  | nil =>
    simp only [Arr.write]
    split
    · exact h
    · rw [Arr.canonical_cons]
      exact ⟨fun q hq => by simp at hq, ‹_›, h⟩
  | cons q rest ih =>
    obtain ⟨j, u⟩ := q
    obtain ⟨hlt, hu, hrest⟩ := Arr.canonical_cons.1 h
    simp only [Arr.write]
    split
    · split
      · exact h
      · rw [Arr.canonical_cons]
        refine ⟨fun q hq => ?_, ‹_›, h⟩
        rcases List.mem_cons.1 hq with rfl | hq
        · assumption
        · have := hlt q hq; simp only at *; omega
    · split
      · split
        · exact hrest
        · rw [Arr.canonical_cons]
          refine ⟨fun q hq => ?_, ‹_›, hrest⟩
          have := hlt q hq; simp only at *; omega
      · rw [Arr.canonical_cons]
        refine ⟨fun q hq => ?_, hu, ih hrest⟩
        rcases Arr.mem_write hq with ⟨rfl, -⟩ | hq
        · simp only at *; omega
        · exact hlt q hq

/-- A write inside the range keeps the range. -/
theorem Arr.within_write {a : Arr w} {n i : Nat} (h : a.Within n) (hi : i < n) (v : BitVec w) :
    (a.write i v).Within n := by
  intro p hp
  rcases Arr.mem_write hp with ⟨rfl, -⟩ | hp
  · exact hi
  · exact h p hp

/-! ### Read after write -/

theorem Arr.read_write {a : Arr w} (h : a.Canonical) (i j : Nat) (v : BitVec w) :
    (a.write i v).read j = if j = i then v else a.read j := by
  induction a with
  | nil =>
    simp only [Arr.write]
    split <;> simp_all
  | cons q rest ih =>
    obtain ⟨k, u⟩ := q
    obtain ⟨hlt, -, hrest⟩ := Arr.canonical_cons.1 h
    have hz : ∀ m, m ≤ k → Arr.read rest m = 0 := fun m hm =>
      Arr.read_eq_zero fun p hp => by have := hlt p hp; simp only at this; omega
    simp only [Arr.write]
    split
    · rename_i hik
      split
      · rename_i hv
        by_cases hj : j = i
        · have hne : i ≠ k := by omega
          simp [hj, hv, hz i (by omega), hne]
        · simp [hj]
      · rw [Arr.read_cons]
    · split
      · rename_i hik
        by_cases hv : v = 0
        · by_cases hj : j = i
          · simp [hv, hj, hz i (by omega)]
          · simp [hv, hj, ← hik]
        · by_cases hj : j = i <;> simp only [hv, if_false, Arr.read_cons, hj, ← hik, if_true]
      · rename_i hik
        rw [Arr.read_cons, Arr.read_cons, ih hrest]
        by_cases hj : j = k <;> simp [hj]
        intro hk; omega

/-- The element written reads back. -/
theorem Arr.read_write_same {a : Arr w} (h : a.Canonical) (i : Nat) (v : BitVec w) : (a.write i v).read i = v := by
  simp [Arr.read_write h]

/-- A write leaves every other element alone. -/
theorem Arr.read_write_ne {a : Arr w} (h : a.Canonical) {i j : Nat} (hij : j ≠ i) (v : BitVec w) :
    (a.write i v).read j = a.read j := by
  simp [Arr.read_write h, hij]

/-! ### Consecutive writes -/

theorem Arr.canonical_writeAll {a : Arr w} (h : a.Canonical) (i : Nat) (vs : List (BitVec w)) :
    (a.writeAll i vs).Canonical := by
  induction vs generalizing a i with
  | nil => exact h
  | cons v rest ih => exact ih (Arr.canonical_write h i v) (i + 1)

theorem Arr.within_writeAll {a : Arr w} {n i : Nat} (h : a.Within n) (vs : List (BitVec w)) (hi : i + vs.length ≤ n) :
    (a.writeAll i vs).Within n := by
  induction vs generalizing a i with
  | nil => exact h
  | cons v rest ih =>
    simp only [List.length_cons] at hi
    exact ih (Arr.within_write h (by omega) v) (by omega)

/-- Reading after consecutive writes. -/
theorem Arr.read_writeAll {a : Arr w} (h : a.Canonical) (i j : Nat) (vs : List (BitVec w)) :
    (a.writeAll i vs).read j = if i ≤ j ∧ j < i + vs.length then vs.getD (j - i) 0 else a.read j := by
  induction vs generalizing a i with
  | nil =>
    have : ¬ (i ≤ j ∧ j < i) := by omega
    simp [Arr.writeAll, this]
  | cons v rest ih =>
    simp only [Arr.writeAll, List.length_cons]
    rw [ih (Arr.canonical_write h i v), Arr.read_write h]
    by_cases hji : j = i
    · subst hji; simp
    · by_cases hr : i + 1 ≤ j ∧ j < i + 1 + rest.length
      · have h1 : i ≤ j ∧ j < i + (rest.length + 1) := by omega
        have h2 : j - i = (j - (i + 1)) + 1 := by omega
        simp only [hr, h1, h2, and_self, if_true]
        simp
      · have h1 : ¬ (i ≤ j ∧ j < i + (rest.length + 1)) := by omega
        simp only [hr, h1, if_false, hji]

/-! ### Compaction (41_match_finder.md R256) -/

theorem Arr.mem_rebase {wSize : Nat} {a : Arr 16} {p : Nat × BitVec 16} (h : p ∈ a.rebase wSize) :
    ∃ v, (p.1, v) ∈ a ∧ wSize < v.toNat ∧ p.2 = BitVec.ofNat 16 (v.toNat - wSize) := by
  induction a with
  | nil => simp [Arr.rebase] at h
  | cons q rest ih =>
    obtain ⟨i, u⟩ := q
    simp only [Arr.rebase] at h
    split at h
    · rcases List.mem_cons.1 h with rfl | h
      · exact ⟨u, by simp, ‹_›, rfl⟩
      · obtain ⟨v, hv, h1, h2⟩ := ih h
        exact ⟨v, by simp [hv], h1, h2⟩
    · obtain ⟨v, hv, h1, h2⟩ := ih h
      exact ⟨v, by simp [hv], h1, h2⟩

theorem Arr.within_rebase {a : Arr 16} {n : Nat} (h : a.Within n) (wSize : Nat) : (a.rebase wSize).Within n := by
  intro p hp
  obtain ⟨v, hv, -, -⟩ := Arr.mem_rebase hp
  exact h (p.1, v) hv

theorem Arr.canonical_rebase {a : Arr 16} (h : a.Canonical) (wSize : Nat) : (a.rebase wSize).Canonical := by
  induction a with
  | nil => exact h
  | cons q rest ih =>
    obtain ⟨i, u⟩ := q
    obtain ⟨hlt, -, hrest⟩ := Arr.canonical_cons.1 h
    simp only [Arr.rebase]
    split
    · rw [Arr.canonical_cons]
      refine ⟨fun q hq => ?_, ?_, ih hrest⟩
      · obtain ⟨v, hv, -, -⟩ := Arr.mem_rebase hq
        exact hlt (q.1, v) hv
      · have := u.isLt
        intro he
        have := congrArg BitVec.toNat he
        simp only [BitVec.toNat_ofNat, BitVec.ofNat_eq_ofNat] at this
        omega
    · exact ih hrest

/-- `v - wSize` where `v ≥ wSize`, else 0. -/
theorem Arr.read_rebase {a : Arr 16} (h : a.Canonical) (wSize i : Nat) :
    (a.rebase wSize).read i = BitVec.ofNat 16 ((a.read i).toNat - wSize) := by
  induction a with
  | nil => simp [Arr.rebase]
  | cons q rest ih =>
    obtain ⟨j, u⟩ := q
    obtain ⟨hlt, -, hrest⟩ := Arr.canonical_cons.1 h
    simp only [Arr.rebase]
    split
    · rw [Arr.read_cons, Arr.read_cons, ih hrest]
      by_cases hij : i = j <;> simp [hij]
    · rw [Arr.read_cons, ih hrest]
      by_cases hij : i = j
      · subst hij
        have hz : Arr.read rest i = 0 := Arr.read_eq_zero fun p hp => by have := hlt p hp; simp only at this; omega
        have h0 : u.toNat - wSize = 0 := by omega
        simp [hz, h0]
      · simp [hij]

theorem Arr.within_compact {a : Arr w} {wSize n : Nat} (h : a.Within n) : (a.compact wSize).Within n := by
  intro p hp
  simp only [Arr.compact, List.mem_append, List.mem_map, List.mem_filter] at hp
  rcases hp with ⟨q, ⟨hq, -⟩, rfl⟩ | ⟨hp, -⟩
  · have := h q hq; simp only; omega
  · exact h p hp

theorem Arr.canonical_compact {a : Arr w} (h : a.Canonical) (wSize : Nat) : (a.compact wSize).Canonical := by
  obtain ⟨hp, hn⟩ := h
  refine ⟨?_, ?_⟩
  · rw [Arr.compact, List.pairwise_append]
    refine ⟨?_, hp.filter _, ?_⟩
    · rw [List.pairwise_map]
      refine (hp.filter _).imp_of_mem ?_
      intro x y hx hy hxy
      simp only [List.mem_filter, decide_eq_true_eq] at hx hy
      show x.1 - wSize < y.1 - wSize
      omega
    · intro x hx y hy
      simp only [List.mem_map, List.mem_filter, decide_eq_true_eq] at hx hy
      obtain ⟨q, ⟨-, hq⟩, rfl⟩ := hx
      simp only
      omega
  · intro p hp
    simp only [Arr.compact, List.mem_append, List.mem_map, List.mem_filter] at hp
    rcases hp with ⟨q, ⟨hq, -⟩, rfl⟩ | ⟨hp, -⟩
    · exact hn q hq
    · exact hn p hp

theorem Arr.read_append {a b : Arr w} (i : Nat) :
    Arr.read (a ++ b) i = if ∃ p ∈ a, p.1 = i then a.read i else Arr.read b i := by
  induction a with
  | nil => simp
  | cons p rest ih =>
    simp only [List.cons_append, Arr.read_cons, ih, List.mem_cons]
    by_cases hp : i = p.1
    · simp [hp]
    · have : ¬ p.1 = i := fun e => hp e.symm
      simp [hp, this]

/-- The entries kept by an index test read as they did, the others as 0. -/
theorem Arr.read_filter {a : Arr w} (P : Nat → Prop) [DecidablePred P] (i : Nat) :
    Arr.read (a.filter fun p => decide (P p.1)) i = if P i then a.read i else 0 := by
  induction a with
  | nil => simp
  | cons p rest ih =>
    by_cases hp : P p.1
    · by_cases hi : i = p.1
      · subst hi; simp [hp]
      · simp [hp, hi, ih]
    · by_cases hi : i = p.1
      · subst hi; simp [hp, ih]
      · simp [hp, hi, ih]

/-- Entries from `k` on, moved down by `k`. -/
theorem Arr.read_shift {a : Arr w} {k : Nat} (h : ∀ p ∈ a, k ≤ p.1) (i : Nat) :
    Arr.read (a.map fun p => (p.1 - k, p.2)) i = a.read (i + k) := by
  induction a with
  | nil => simp
  | cons p rest ih =>
    have hp := h p (by simp)
    have hi : (i = p.1 - k) ↔ (i + k = p.1) := by omega
    simp [ih (fun q hq => h q (by simp [hq])), hi]

/-- The lower half takes the upper half's elements, the upper half keeps them. -/
theorem Arr.read_compact {a : Arr w} {wSize : Nat} (h : a.Within (2 * wSize)) (i : Nat) :
    (a.compact wSize).read i = if i < wSize then a.read (i + wSize) else a.read i := by
  rw [Arr.compact, Arr.read_append]
  have hmem : ∀ p ∈ a.filter (fun p => decide (wSize ≤ p.1 ∧ p.1 < 2 * wSize)), wSize ≤ p.1 ∧ p.1 < 2 * wSize := by
    intro p hp; simpa using (List.mem_filter.1 hp).2
  have hlow : Arr.read ((a.filter (fun p => decide (wSize ≤ p.1 ∧ p.1 < 2 * wSize))).map fun p => (p.1 - wSize, p.2)) i
      = if i < wSize then a.read (i + wSize) else 0 := by
    rw [Arr.read_shift (fun p hp => (hmem p hp).1), Arr.read_filter (fun n => wSize ≤ n ∧ n < 2 * wSize)]
    by_cases hi : i < wSize
    · have : wSize ≤ i + wSize ∧ i + wSize < 2 * wSize := by omega
      simp [hi, this]
    · have : ¬ (wSize ≤ i + wSize ∧ i + wSize < 2 * wSize) := by omega
      rw [if_neg this, if_neg hi]
  by_cases hi : i < wSize
  · split
    · rw [hlow, if_pos hi]
    · rename_i hno
      have hz : a.read (i + wSize) = 0 := by
        apply Arr.read_eq_zero
        intro p hp he
        apply hno
        have hp2 := h p hp
        exact ⟨(p.1 - wSize, p.2), by
          simp only [List.mem_map, List.mem_filter, decide_eq_true_eq]
          exact ⟨p, ⟨hp, by omega⟩, rfl⟩, by simp only; omega⟩
      have hz2 := Arr.read_filter (a := a) (fun n => wSize ≤ n) i
      have : ¬ wSize ≤ i := by omega
      simp [hz2, this, hz]
  · have hno : ¬ ∃ p ∈ (a.filter (fun p => decide (wSize ≤ p.1 ∧ p.1 < 2 * wSize))).map (fun p => (p.1 - wSize, p.2)),
        p.1 = i := by
      rintro ⟨p, hp, rfl⟩
      obtain ⟨q, hq, rfl⟩ := List.mem_map.1 hp
      have := hmem q hq
      simp only at hi
      omega
    have hge := Arr.read_filter (a := a) (fun n => wSize ≤ n) i
    have hle : wSize ≤ i := by omega
    rw [if_neg hno, hge]
    simp [hi, hle]

/-! ### Two canonical arrays that read the same are the same -/

theorem Arr.read_ne_zero_mem {a : Arr w} {i : Nat} (h : a.read i ≠ 0) : (i, a.read i) ∈ a := by
  induction a with
  | nil => simp at h
  | cons p rest ih =>
    by_cases hi : i = p.1
    · subst hi; simp
    · simp only [Arr.read_cons, hi, if_false] at h ⊢
      exact List.mem_cons_of_mem _ (ih h)

theorem Arr.read_of_mem {a : Arr w} (h : a.Canonical) {p : Nat × BitVec w} (hp : p ∈ a) : a.read p.1 = p.2 := by
  induction a with
  | nil => simp at hp
  | cons q rest ih =>
    obtain ⟨hlt, -, hrest⟩ := Arr.canonical_cons.1 h
    rcases List.mem_cons.1 hp with rfl | hp
    · simp
    · have := hlt p hp
      have hne : p.1 ≠ q.1 := by omega
      simp [hne, ih hrest hp]

theorem Arr.ext_read {a b : Arr w} (ha : a.Canonical) (hb : b.Canonical) (h : ∀ i, a.read i = b.read i) : a = b := by
  induction a generalizing b with
  | nil =>
    cases b with
    | nil => rfl
    | cons q rest => exact absurd (by simpa using (h q.1).symm) (Arr.canonical_cons.1 hb).2.1
  | cons p arest ih =>
    cases b with
    | nil => exact absurd (by simpa using h p.1) (Arr.canonical_cons.1 ha).2.1
    | cons q brest =>
      obtain ⟨halt, hanz, harest⟩ := Arr.canonical_cons.1 ha
      obtain ⟨hblt, hbnz, hbrest⟩ := Arr.canonical_cons.1 hb
      have hza : ∀ m, m ≤ p.1 → Arr.read arest m = 0 := fun m hm =>
        Arr.read_eq_zero fun r hr => by have := halt r hr; omega
      have hzb : ∀ m, m ≤ q.1 → Arr.read brest m = 0 := fun m hm =>
        Arr.read_eq_zero fun r hr => by have := hblt r hr; omega
      have hpq : p.1 = q.1 := by
        rcases Nat.lt_trichotomy p.1 q.1 with hl | he | hl
        · have hne : p.1 ≠ q.1 := by omega
          have h1 := h p.1
          simp only [Arr.read_cons, if_true, hne, if_false, hzb p.1 (by omega)] at h1
          exact absurd h1 hanz
        · exact he
        · have hne : q.1 ≠ p.1 := by omega
          have h1 := h q.1
          simp only [Arr.read_cons, if_true, hne, if_false, hza q.1 (by omega)] at h1
          exact absurd h1.symm hbnz
      have hv : p.2 = q.2 := by have := h p.1; simpa [hpq] using this
      have hpe : p = q := Prod.ext hpq hv
      subst hpe
      congr 1
      apply ih harest hbrest
      intro i
      by_cases hi : i = p.1
      · rw [hi, hza _ (Nat.le_refl _), hzb _ (Nat.le_refl _)]
      · have := h i
        simpa [hi] using this

end Sys2Proof.Machine
end

