-- ==== Sys2Proof/Laws/Op.lean ====
section
/-! SUPPORT. How operations run: one equation per building block, and the rule that a relation between the state before
and after is kept by a compound operation when its parts keep it. -/

namespace Sys2Proof.Machine

variable {α β : Type}

/-! ### Equations -/

theorem Op.bind_apply (x : Op α) (k : α → Op β) (s : State) :
    (x >>= k).run s = match x.run s with
      | .ok a t => (k a).run t
      | .error e t => .error e t := by
  cases h : x.run s <;> simp [h]

/-- A bind whose first part answers. -/
theorem Op.bind_ok {x : Op α} {k : α → Op β} {s t : State} {a : α} (h : x.run s = .ok a t) : (x >>= k).run s = (k a).run t := by
  rw [Op.bind_apply, h]

/-- A bind whose first part stops. -/
theorem Op.bind_error {x : Op α} {k : α → Op β} {s t : State} {e : Abort} (h : x.run s = .error e t) :
    (x >>= k).run s = .error e t := by
  rw [Op.bind_apply, h]

/-- A bind that answers: both parts did. -/
theorem Op.bind_inv {x : Op α} {k : α → Op β} {s u : State} {b : β} (h : (x >>= k).run s = .ok b u) :
    ∃ a t, x.run s = .ok a t ∧ (k a).run t = .ok b u := by
  rw [Op.bind_apply] at h
  split at h
  · exact ⟨_, _, ‹_›, h⟩
  · cases h

@[simp] theorem Op.pure_apply (a : α) (s : State) : (pure a : Op α).run s = .ok a s := rfl

@[simp] theorem Op.state_apply (s : State) : Op.state.run s = .ok s s := rfl

@[simp] theorem Op.gets_apply (g : State → α) (s : State) : (Op.gets g).run s = .ok (g s) s := rfl

@[simp] theorem Op.update_apply (u : State → State) (s : State) : (Op.update u).run s = .ok () (u s) := rfl

@[simp] theorem Op.raise_apply (f : FaultCode) (s : State) : (Op.raise f : Op α).run s = .error (.raise f) s := rfl

@[simp] theorem Op.pure_bind (a : α) (k : α → Op β) (s : State) : (pure a >>= k).run s = (k a).run s := rfl

@[simp] theorem Op.state_bind (k : State → Op β) (s : State) : (Op.state >>= k).run s = (k s).run s := rfl

@[simp] theorem Op.update_bind (u : State → State) (k : Unit → Op β) (s : State) :
    (Op.update u >>= k).run s = (k ()).run (u s) := rfl

theorem Op.require_apply (p : Prop) [Decidable p] (f : FaultCode) (s : State) :
    (Op.require p f).run s = if p then .ok () s else .error (.raise f) s := by
  unfold Op.require; split <;> rfl

theorem Op.require_bind (p : Prop) [Decidable p] (f : FaultCode) (k : Unit → Op β) (s : State) :
    (Op.require p f >>= k).run s = if p then (k ()).run s else .error (.raise f) s := by
  rw [Op.bind_apply, Op.require_apply]
  by_cases h : p <;> simp [h]

@[simp] theorem Op.require_pos {p : Prop} [Decidable p] (h : p) (f : FaultCode) (k : Unit → Op β) (s : State) :
    (Op.require p f >>= k).run s = (k ()).run s := by
  rw [Op.require_bind, if_pos h]

@[simp] theorem Op.require_neg {p : Prop} [Decidable p] (h : ¬ p) (f : FaultCode) (k : Unit → Op β) (s : State) :
    (Op.require p f >>= k).run s = .error (.raise f) s := by
  rw [Op.require_bind, if_neg h]

theorem Op.when_pos {p : Prop} [Decidable p] (h : p) (op : Op Unit) : Op.when p op = op := if_pos h

theorem Op.when_neg {p : Prop} [Decidable p] (h : ¬ p) (op : Op Unit) : Op.when p op = pure () := if_neg h

theorem Op.iterate_succ (body : Op LoopStep) (fuel : Nat) :
    Op.iterate body (fuel + 1) = body >>= fun l =>
      match l with
      | .again => Op.iterate body fuel
      | .exit => pure .exit
      | .needMore => pure .needMore := rfl

@[simp] theorem Op.times_zero (body : Op Unit) : Op.times 0 body = pure () := rfl

theorem Op.times_succ (k : Nat) (body : Op Unit) : Op.times (k + 1) body = body >>= fun _ => Op.times k body := rfl

@[simp] theorem Op.forEach_nil (body : α → Op Unit) : Op.forEach body [] = pure () := rfl

theorem Op.forEach_cons (body : α → Op Unit) (x : α) (rest : List α) :
    Op.forEach body (x :: rest) = body x >>= fun _ => Op.forEach body rest := rfl

/-! ### Relations kept by an operation -/

/-- A relation fit for sequencing. -/
structure Op.Order (R : State → State → Prop) : Prop where
  refl : ∀ s, R s s
  trans : ∀ {s t u}, R s t → R t u → R s u

/-- However `x` ends, the state it leaves is related to the one it found. -/
structure Op.Keeps (R : State → State → Prop) (x : Op α) : Prop where
  run : ∀ s, match x.run s with
    | .ok _ t => R s t
    | .error _ t => R s t

variable {R : State → State → Prop}

theorem Op.Keeps.ok {x : Op α} (h : Op.Keeps R x) {s t : State} {a : α} (e : x.run s = .ok a t) : R s t := by
  have := h.run s; rw [e] at this; exact this

theorem Op.Keeps.error {x : Op α} (h : Op.Keeps R x) {s t : State} {f : Abort} (e : x.run s = .error f t) : R s t := by
  have := h.run s; rw [e] at this; exact this

theorem Op.keeps_pure (o : Op.Order R) (a : α) : Op.Keeps R (pure a : Op α) := ⟨fun s => o.refl s⟩

theorem Op.keeps_state (o : Op.Order R) : Op.Keeps R Op.state := ⟨fun s => o.refl s⟩

theorem Op.keeps_gets (o : Op.Order R) (g : State → α) : Op.Keeps R (Op.gets g) := ⟨fun s => o.refl s⟩

theorem Op.keeps_raise (o : Op.Order R) (f : FaultCode) : Op.Keeps R (Op.raise f : Op α) := ⟨fun s => o.refl s⟩

theorem Op.keeps_update {u : State → State} (h : ∀ s, R s (u s)) : Op.Keeps R (Op.update u) := ⟨fun s => h s⟩

theorem Op.keeps_require (o : Op.Order R) (p : Prop) [Decidable p] (f : FaultCode) : Op.Keeps R (Op.require p f) := by
  unfold Op.require
  split
  · exact Op.keeps_pure o ()
  · exact Op.keeps_raise o f

theorem Op.keeps_bind (o : Op.Order R) {x : Op α} {k : α → Op β} (hx : Op.Keeps R x) (hk : ∀ a, Op.Keeps R (k a)) :
    Op.Keeps R (x >>= k) := by
  constructor
  intro s
  rw [Op.bind_apply]
  cases e : x.run s with
  | ok a t =>
    have h1 := hx.ok e
    have h2 := (hk a).run t
    cases e2 : (k a).run t <;> simp only [e2] at h2 ⊢ <;> exact o.trans h1 h2
  | error f t => exact hx.error e

/-- Reading the state first: what follows may use that it reads the current state. -/
theorem Op.keeps_state_bind {k : State → Op β} (h : ∀ s, match (k s).run s with
    | .ok _ t => R s t
    | .error _ t => R s t) : Op.Keeps R (Op.state >>= k) := ⟨fun s => h s⟩

theorem Op.keeps_ite {p : Prop} [Decidable p] {x y : Op α} (hx : Op.Keeps R x) (hy : Op.Keeps R y) :
    Op.Keeps R (if p then x else y) := by
  split <;> assumption

theorem Op.keeps_when (o : Op.Order R) {p : Prop} [Decidable p] {x : Op Unit} (hx : Op.Keeps R x) :
    Op.Keeps R (Op.when p x) := Op.keeps_ite hx (Op.keeps_pure o ())

theorem Op.keeps_iterate (o : Op.Order R) {body : Op LoopStep} (h : Op.Keeps R body) (fuel : Nat) :
    Op.Keeps R (Op.iterate body fuel) := by
  induction fuel with
  | zero => exact ⟨fun s => o.refl s⟩
  | succ fuel ih =>
    rw [Op.iterate_succ]
    refine Op.keeps_bind o h fun l => ?_
    cases l with
    | again => exact ih
    | exit => exact Op.keeps_pure o _
    | needMore => exact Op.keeps_pure o _

theorem Op.keeps_times (o : Op.Order R) {body : Op Unit} (h : Op.Keeps R body) (k : Nat) :
    Op.Keeps R (Op.times k body) := by
  induction k with
  | zero => exact Op.keeps_pure o ()
  | succ k ih => rw [Op.times_succ]; exact Op.keeps_bind o h fun _ => ih

theorem Op.keeps_forEach (o : Op.Order R) {body : α → Op Unit} (h : ∀ x, Op.Keeps R (body x)) (xs : List α) :
    Op.Keeps R (Op.forEach body xs) := by
  induction xs with
  | nil => exact Op.keeps_pure o ()
  | cons x rest ih => rw [Op.forEach_cons]; exact Op.keeps_bind o (h x) fun _ => ih

/-- The state a loop leaves with an answer other than `again` comes from a round that gave that answer: an invariant of
the rounds holds there together with what that last round gives. -/
theorem Op.iterate_inv {P Q : State → Prop} {body : Op LoopStep} {l : LoopStep}
    (hstep : ∀ s t, P s → body.run s = .ok .again t → P t) (hlast : ∀ s t, P s → body.run s = .ok l t → l ≠ .again → Q t)
    {fuel : Nat} {s t : State} (hs : P s) (h : (Op.iterate body fuel).run s = .ok l t) : l ≠ .again ∧ Q t := by
  induction fuel generalizing s with
  | zero => cases h
  | succ fuel ih =>
    rw [Op.iterate_succ] at h
    obtain ⟨r, u, hr, hrest⟩ := Op.bind_inv h
    cases r with
    | again => exact ih (hstep s u hs hr) hrest
    | exit => cases hrest; exact ⟨by simp, hlast s _ hs hr (by simp)⟩
    | needMore => cases hrest; exact ⟨by simp, hlast s _ hs hr (by simp)⟩

end Sys2Proof.Machine
end

