-- ==== Sys2Proof/Laws/State.lean ====
section
/-! SUPPORT. One lemma per field per update of State, so that no proof unfolds a record update. -/

namespace Sys2Proof.Machine

variable (s : State)

/-! ### setCtl -/

@[simp] theorem State.setCtl_ctl (v : Control) : (s.setCtl v).ctl = v := rfl
@[simp] theorem State.setCtl_cfg (v : Control) : (s.setCtl v).cfg = s.cfg := rfl
@[simp] theorem State.setCtl_ct (v : Control) : (s.setCtl v).ct = s.ct := rfl
@[simp] theorem State.setCtl_mf (v : Control) : (s.setCtl v).mf = s.mf := rfl
@[simp] theorem State.setCtl_tok (v : Control) : (s.setCtl v).tok = s.tok := rfl
@[simp] theorem State.setCtl_hb (v : Control) : (s.setCtl v).hb = s.hb := rfl
@[simp] theorem State.setCtl_bp (v : Control) : (s.setCtl v).bp = s.bp := rfl
@[simp] theorem State.setCtl_sums (v : Control) : (s.setCtl v).sums = s.sums := rfl
@[simp] theorem State.setCtl_mem (v : Control) : (s.setCtl v).mem = s.mem := rfl
@[simp] theorem State.setCtl_platform (v : Control) : (s.setCtl v).platform = s.platform := rfl
@[simp] theorem State.setCtl_port (v : Control) : (s.setCtl v).port = s.port := rfl
@[simp] theorem State.setCtl_setCtl (v w : Control) : (s.setCtl v).setCtl w = s.setCtl w := rfl
@[simp] theorem State.setCtl_self : s.setCtl s.ctl = s := rfl

/-! ### setCfg -/

@[simp] theorem State.setCfg_ctl (v : Settings) : (s.setCfg v).ctl = s.ctl := rfl
@[simp] theorem State.setCfg_cfg (v : Settings) : (s.setCfg v).cfg = v := rfl
@[simp] theorem State.setCfg_ct (v : Settings) : (s.setCfg v).ct = s.ct := rfl
@[simp] theorem State.setCfg_mf (v : Settings) : (s.setCfg v).mf = s.mf := rfl
@[simp] theorem State.setCfg_tok (v : Settings) : (s.setCfg v).tok = s.tok := rfl
@[simp] theorem State.setCfg_hb (v : Settings) : (s.setCfg v).hb = s.hb := rfl
@[simp] theorem State.setCfg_bp (v : Settings) : (s.setCfg v).bp = s.bp := rfl
@[simp] theorem State.setCfg_sums (v : Settings) : (s.setCfg v).sums = s.sums := rfl
@[simp] theorem State.setCfg_mem (v : Settings) : (s.setCfg v).mem = s.mem := rfl
@[simp] theorem State.setCfg_platform (v : Settings) : (s.setCfg v).platform = s.platform := rfl
@[simp] theorem State.setCfg_port (v : Settings) : (s.setCfg v).port = s.port := rfl
@[simp] theorem State.setCfg_setCfg (v w : Settings) : (s.setCfg v).setCfg w = s.setCfg w := rfl
@[simp] theorem State.setCfg_self : s.setCfg s.cfg = s := rfl

/-! ### setCt -/

@[simp] theorem State.setCt_ctl (v : CtRow) : (s.setCt v).ctl = s.ctl := rfl
@[simp] theorem State.setCt_cfg (v : CtRow) : (s.setCt v).cfg = s.cfg := rfl
@[simp] theorem State.setCt_ct (v : CtRow) : (s.setCt v).ct = v := rfl
@[simp] theorem State.setCt_mf (v : CtRow) : (s.setCt v).mf = s.mf := rfl
@[simp] theorem State.setCt_tok (v : CtRow) : (s.setCt v).tok = s.tok := rfl
@[simp] theorem State.setCt_hb (v : CtRow) : (s.setCt v).hb = s.hb := rfl
@[simp] theorem State.setCt_bp (v : CtRow) : (s.setCt v).bp = s.bp := rfl
@[simp] theorem State.setCt_sums (v : CtRow) : (s.setCt v).sums = s.sums := rfl
@[simp] theorem State.setCt_mem (v : CtRow) : (s.setCt v).mem = s.mem := rfl
@[simp] theorem State.setCt_platform (v : CtRow) : (s.setCt v).platform = s.platform := rfl
@[simp] theorem State.setCt_port (v : CtRow) : (s.setCt v).port = s.port := rfl
@[simp] theorem State.setCt_setCt (v w : CtRow) : (s.setCt v).setCt w = s.setCt w := rfl
@[simp] theorem State.setCt_self : s.setCt s.ct = s := rfl

/-! ### setMf -/

@[simp] theorem State.setMf_ctl (v : MatchRegs) : (s.setMf v).ctl = s.ctl := rfl
@[simp] theorem State.setMf_cfg (v : MatchRegs) : (s.setMf v).cfg = s.cfg := rfl
@[simp] theorem State.setMf_ct (v : MatchRegs) : (s.setMf v).ct = s.ct := rfl
@[simp] theorem State.setMf_mf (v : MatchRegs) : (s.setMf v).mf = v := rfl
@[simp] theorem State.setMf_tok (v : MatchRegs) : (s.setMf v).tok = s.tok := rfl
@[simp] theorem State.setMf_hb (v : MatchRegs) : (s.setMf v).hb = s.hb := rfl
@[simp] theorem State.setMf_bp (v : MatchRegs) : (s.setMf v).bp = s.bp := rfl
@[simp] theorem State.setMf_sums (v : MatchRegs) : (s.setMf v).sums = s.sums := rfl
@[simp] theorem State.setMf_mem (v : MatchRegs) : (s.setMf v).mem = s.mem := rfl
@[simp] theorem State.setMf_platform (v : MatchRegs) : (s.setMf v).platform = s.platform := rfl
@[simp] theorem State.setMf_port (v : MatchRegs) : (s.setMf v).port = s.port := rfl
@[simp] theorem State.setMf_setMf (v w : MatchRegs) : (s.setMf v).setMf w = s.setMf w := rfl
@[simp] theorem State.setMf_self : s.setMf s.mf = s := rfl

/-! ### setTok -/

@[simp] theorem State.setTok_ctl (v : Tokens) : (s.setTok v).ctl = s.ctl := rfl
@[simp] theorem State.setTok_cfg (v : Tokens) : (s.setTok v).cfg = s.cfg := rfl
@[simp] theorem State.setTok_ct (v : Tokens) : (s.setTok v).ct = s.ct := rfl
@[simp] theorem State.setTok_mf (v : Tokens) : (s.setTok v).mf = s.mf := rfl
@[simp] theorem State.setTok_tok (v : Tokens) : (s.setTok v).tok = v := rfl
@[simp] theorem State.setTok_hb (v : Tokens) : (s.setTok v).hb = s.hb := rfl
@[simp] theorem State.setTok_bp (v : Tokens) : (s.setTok v).bp = s.bp := rfl
@[simp] theorem State.setTok_sums (v : Tokens) : (s.setTok v).sums = s.sums := rfl
@[simp] theorem State.setTok_mem (v : Tokens) : (s.setTok v).mem = s.mem := rfl
@[simp] theorem State.setTok_platform (v : Tokens) : (s.setTok v).platform = s.platform := rfl
@[simp] theorem State.setTok_port (v : Tokens) : (s.setTok v).port = s.port := rfl
@[simp] theorem State.setTok_setTok (v w : Tokens) : (s.setTok v).setTok w = s.setTok w := rfl
@[simp] theorem State.setTok_self : s.setTok s.tok = s := rfl

/-! ### setHb -/

@[simp] theorem State.setHb_ctl (v : Huffman) : (s.setHb v).ctl = s.ctl := rfl
@[simp] theorem State.setHb_cfg (v : Huffman) : (s.setHb v).cfg = s.cfg := rfl
@[simp] theorem State.setHb_ct (v : Huffman) : (s.setHb v).ct = s.ct := rfl
@[simp] theorem State.setHb_mf (v : Huffman) : (s.setHb v).mf = s.mf := rfl
@[simp] theorem State.setHb_tok (v : Huffman) : (s.setHb v).tok = s.tok := rfl
@[simp] theorem State.setHb_hb (v : Huffman) : (s.setHb v).hb = v := rfl
@[simp] theorem State.setHb_bp (v : Huffman) : (s.setHb v).bp = s.bp := rfl
@[simp] theorem State.setHb_sums (v : Huffman) : (s.setHb v).sums = s.sums := rfl
@[simp] theorem State.setHb_mem (v : Huffman) : (s.setHb v).mem = s.mem := rfl
@[simp] theorem State.setHb_platform (v : Huffman) : (s.setHb v).platform = s.platform := rfl
@[simp] theorem State.setHb_port (v : Huffman) : (s.setHb v).port = s.port := rfl
@[simp] theorem State.setHb_setHb (v w : Huffman) : (s.setHb v).setHb w = s.setHb w := rfl
@[simp] theorem State.setHb_self : s.setHb s.hb = s := rfl

/-! ### setBp -/

@[simp] theorem State.setBp_ctl (v : BitAcc) : (s.setBp v).ctl = s.ctl := rfl
@[simp] theorem State.setBp_cfg (v : BitAcc) : (s.setBp v).cfg = s.cfg := rfl
@[simp] theorem State.setBp_ct (v : BitAcc) : (s.setBp v).ct = s.ct := rfl
@[simp] theorem State.setBp_mf (v : BitAcc) : (s.setBp v).mf = s.mf := rfl
@[simp] theorem State.setBp_tok (v : BitAcc) : (s.setBp v).tok = s.tok := rfl
@[simp] theorem State.setBp_hb (v : BitAcc) : (s.setBp v).hb = s.hb := rfl
@[simp] theorem State.setBp_bp (v : BitAcc) : (s.setBp v).bp = v := rfl
@[simp] theorem State.setBp_sums (v : BitAcc) : (s.setBp v).sums = s.sums := rfl
@[simp] theorem State.setBp_mem (v : BitAcc) : (s.setBp v).mem = s.mem := rfl
@[simp] theorem State.setBp_platform (v : BitAcc) : (s.setBp v).platform = s.platform := rfl
@[simp] theorem State.setBp_port (v : BitAcc) : (s.setBp v).port = s.port := rfl
@[simp] theorem State.setBp_setBp (v w : BitAcc) : (s.setBp v).setBp w = s.setBp w := rfl
@[simp] theorem State.setBp_self : s.setBp s.bp = s := rfl

/-! ### setSums -/

@[simp] theorem State.setSums_ctl (v : Sums) : (s.setSums v).ctl = s.ctl := rfl
@[simp] theorem State.setSums_cfg (v : Sums) : (s.setSums v).cfg = s.cfg := rfl
@[simp] theorem State.setSums_ct (v : Sums) : (s.setSums v).ct = s.ct := rfl
@[simp] theorem State.setSums_mf (v : Sums) : (s.setSums v).mf = s.mf := rfl
@[simp] theorem State.setSums_tok (v : Sums) : (s.setSums v).tok = s.tok := rfl
@[simp] theorem State.setSums_hb (v : Sums) : (s.setSums v).hb = s.hb := rfl
@[simp] theorem State.setSums_bp (v : Sums) : (s.setSums v).bp = s.bp := rfl
@[simp] theorem State.setSums_sums (v : Sums) : (s.setSums v).sums = v := rfl
@[simp] theorem State.setSums_mem (v : Sums) : (s.setSums v).mem = s.mem := rfl
@[simp] theorem State.setSums_platform (v : Sums) : (s.setSums v).platform = s.platform := rfl
@[simp] theorem State.setSums_port (v : Sums) : (s.setSums v).port = s.port := rfl
@[simp] theorem State.setSums_setSums (v w : Sums) : (s.setSums v).setSums w = s.setSums w := rfl
@[simp] theorem State.setSums_self : s.setSums s.sums = s := rfl

/-! ### setMem -/

@[simp] theorem State.setMem_ctl (v : Memory) : (s.setMem v).ctl = s.ctl := rfl
@[simp] theorem State.setMem_cfg (v : Memory) : (s.setMem v).cfg = s.cfg := rfl
@[simp] theorem State.setMem_ct (v : Memory) : (s.setMem v).ct = s.ct := rfl
@[simp] theorem State.setMem_mf (v : Memory) : (s.setMem v).mf = s.mf := rfl
@[simp] theorem State.setMem_tok (v : Memory) : (s.setMem v).tok = s.tok := rfl
@[simp] theorem State.setMem_hb (v : Memory) : (s.setMem v).hb = s.hb := rfl
@[simp] theorem State.setMem_bp (v : Memory) : (s.setMem v).bp = s.bp := rfl
@[simp] theorem State.setMem_sums (v : Memory) : (s.setMem v).sums = s.sums := rfl
@[simp] theorem State.setMem_mem (v : Memory) : (s.setMem v).mem = v := rfl
@[simp] theorem State.setMem_platform (v : Memory) : (s.setMem v).platform = s.platform := rfl
@[simp] theorem State.setMem_port (v : Memory) : (s.setMem v).port = s.port := rfl
@[simp] theorem State.setMem_setMem (v w : Memory) : (s.setMem v).setMem w = s.setMem w := rfl
@[simp] theorem State.setMem_self : s.setMem s.mem = s := rfl

/-! ### setPort -/

@[simp] theorem State.setPort_ctl (v : Port) : (s.setPort v).ctl = s.ctl := rfl
@[simp] theorem State.setPort_cfg (v : Port) : (s.setPort v).cfg = s.cfg := rfl
@[simp] theorem State.setPort_ct (v : Port) : (s.setPort v).ct = s.ct := rfl
@[simp] theorem State.setPort_mf (v : Port) : (s.setPort v).mf = s.mf := rfl
@[simp] theorem State.setPort_tok (v : Port) : (s.setPort v).tok = s.tok := rfl
@[simp] theorem State.setPort_hb (v : Port) : (s.setPort v).hb = s.hb := rfl
@[simp] theorem State.setPort_bp (v : Port) : (s.setPort v).bp = s.bp := rfl
@[simp] theorem State.setPort_sums (v : Port) : (s.setPort v).sums = s.sums := rfl
@[simp] theorem State.setPort_mem (v : Port) : (s.setPort v).mem = s.mem := rfl
@[simp] theorem State.setPort_platform (v : Port) : (s.setPort v).platform = s.platform := rfl
@[simp] theorem State.setPort_port (v : Port) : (s.setPort v).port = v := rfl
@[simp] theorem State.setPort_setPort (v w : Port) : (s.setPort v).setPort w = s.setPort w := rfl
@[simp] theorem State.setPort_self : s.setPort s.port = s := rfl

/-! ### The reply and the input -/

@[simp] theorem State.answer_ctl (r : Reply) : (s.answer r).ctl = s.ctl := rfl
@[simp] theorem State.answer_cfg (r : Reply) : (s.answer r).cfg = s.cfg := rfl
@[simp] theorem State.answer_ct (r : Reply) : (s.answer r).ct = s.ct := rfl
@[simp] theorem State.answer_mf (r : Reply) : (s.answer r).mf = s.mf := rfl
@[simp] theorem State.answer_tok (r : Reply) : (s.answer r).tok = s.tok := rfl
@[simp] theorem State.answer_hb (r : Reply) : (s.answer r).hb = s.hb := rfl
@[simp] theorem State.answer_bp (r : Reply) : (s.answer r).bp = s.bp := rfl
@[simp] theorem State.answer_sums (r : Reply) : (s.answer r).sums = s.sums := rfl
@[simp] theorem State.answer_mem (r : Reply) : (s.answer r).mem = s.mem := rfl
@[simp] theorem State.answer_platform (r : Reply) : (s.answer r).platform = s.platform := rfl
@[simp] theorem State.answer_port (r : Reply) : (s.answer r).port = { s.port with reply := some r } := rfl

@[simp] theorem State.clearInput_ctl : s.clearInput.ctl = s.ctl := rfl
@[simp] theorem State.clearInput_cfg : s.clearInput.cfg = s.cfg := rfl
@[simp] theorem State.clearInput_ct : s.clearInput.ct = s.ct := rfl
@[simp] theorem State.clearInput_mf : s.clearInput.mf = s.mf := rfl
@[simp] theorem State.clearInput_tok : s.clearInput.tok = s.tok := rfl
@[simp] theorem State.clearInput_hb : s.clearInput.hb = s.hb := rfl
@[simp] theorem State.clearInput_bp : s.clearInput.bp = s.bp := rfl
@[simp] theorem State.clearInput_sums : s.clearInput.sums = s.sums := rfl
@[simp] theorem State.clearInput_mem : s.clearInput.mem = { s.mem with input := [] } := rfl
@[simp] theorem State.clearInput_platform : s.clearInput.platform = s.platform := rfl
@[simp] theorem State.clearInput_port : s.clearInput.port = s.port := rfl

end Sys2Proof.Machine
end

