-- ==== Sys2Proof/Laws/Inside.lean ====
section
/-! SUPPORT. What no sub-operation of a command touches: control, configuration, CT row, platform and port stay, `OUT`
only grows, and memories and register files keep their form (log 8). -/

namespace Sys2Proof.Machine

variable {α : Type}

/-! ### The relation -/

/-- From the state a sub-operation found to the state it left. -/
structure Inside (s t : State) : Prop where
  ctl : t.ctl = s.ctl
  cfg : t.cfg = s.cfg
  ct : t.ct = s.ct
  platform : t.platform = s.platform
  port : t.port = s.port
  out : ∃ bytes, t.mem.out = s.mem.out ++ bytes
  memory : s.MemoryOk → t.MemoryOk

theorem Inside.order : Op.Order Inside where
  refl s := ⟨rfl, rfl, rfl, rfl, rfl, ⟨[], by simp⟩, id⟩
  trans {s t u} h k :=
    ⟨k.ctl.trans h.ctl, k.cfg.trans h.cfg, k.ct.trans h.ct, k.platform.trans h.platform, k.port.trans h.port, by
      obtain ⟨a, ha⟩ := h.out
      obtain ⟨b, hb⟩ := k.out
      exact ⟨a ++ b, by rw [hb, ha, List.append_assoc]⟩, fun m => k.memory (h.memory m)⟩

/-- Writing match registers, tokens, the accumulator or the checksums. -/
theorem Inside.of_mem_hb {s t : State} (h1 : t.ctl = s.ctl) (h2 : t.cfg = s.cfg) (h3 : t.ct = s.ct)
    (h4 : t.platform = s.platform) (h5 : t.port = s.port) (h6 : t.mem = s.mem) (h7 : t.hb = s.hb) : Inside s t := by
  refine ⟨h1, h2, h3, h4, h5, ⟨[], by simp [h6]⟩, fun m => ?_⟩
  unfold State.MemoryOk at m ⊢
  rw [h2, h6, h7]
  exact m

/-- Writing Huffman registers. -/
theorem Inside.of_hb {s : State} {h : Huffman} (hm : s.MemoryOk → (s.setHb h).MemoryOk) : Inside s (s.setHb h) :=
  ⟨rfl, rfl, rfl, rfl, rfl, ⟨[], by simp⟩, hm⟩

/-- Writing memories. -/
theorem Inside.of_mem {s : State} {m : Memory} (ho : ∃ bytes, m.out = s.mem.out ++ bytes)
    (hm : s.MemoryOk → (s.setMem m).MemoryOk) : Inside s (s.setMem m) :=
  ⟨rfl, rfl, rfl, rfl, rfl, ho, hm⟩

/-- Writing a Huffman register that is no register file. -/
theorem Inside.of_same_files {s : State} {h : Huffman} (e1 : h.lfreq = s.hb.lfreq) (e2 : h.dfreq = s.hb.dfreq)
    (e3 : h.blfreq = s.hb.blfreq) (e4 : h.llen = s.hb.llen) (e5 : h.lcode = s.hb.lcode) (e6 : h.dlen = s.hb.dlen)
    (e7 : h.dcode = s.hb.dcode) (e8 : h.bllen = s.hb.bllen) (e9 : h.blcode = s.hb.blcode) : Inside s (s.setHb h) := by
  refine Inside.of_hb fun m => ?_
  simpa only [State.MemoryOk, Huffman.wf, State.setHb_hb, State.setHb_mem, State.setHb_cfg, e1, e2, e3, e4, e5, e6, e7,
    e8, e9] using m

/-- The canonical forms and ranges a good memory consists of. -/
theorem State.memoryOk_iff (s : State) : s.MemoryOk ↔
    ((s.mem.win.Canonical ∧ s.mem.head.Canonical ∧ s.mem.prev.Canonical ∧ s.mem.dbuf.Canonical ∧ s.mem.lbuf.Canonical)
      ∧ (s.hb.lfreq.Canonical ∧ s.hb.dfreq.Canonical ∧ s.hb.blfreq.Canonical ∧ s.hb.llen.Canonical
        ∧ s.hb.lcode.Canonical ∧ s.hb.dlen.Canonical ∧ s.hb.dcode.Canonical ∧ s.hb.bllen.Canonical
        ∧ s.hb.blcode.Canonical))
    ∧ (s.mem.win.Within s.cfg.windowBytes ∧ s.mem.head.Within s.cfg.hashSize ∧ s.mem.prev.Within s.cfg.wSize
      ∧ s.mem.dbuf.Within s.cfg.litBufferSize ∧ s.mem.lbuf.Within s.cfg.litBufferSize)
    ∧ (s.hb.lfreq.Within L_CODES ∧ s.hb.dfreq.Within D_CODES ∧ s.hb.blfreq.Within BL_CODES
      ∧ s.hb.llen.Within L_CODES ∧ s.hb.lcode.Within L_CODES ∧ s.hb.dlen.Within D_CODES ∧ s.hb.dcode.Within D_CODES
      ∧ s.hb.bllen.Within BL_CODES ∧ s.hb.blcode.Within BL_CODES) := by
  unfold State.MemoryOk Memory.wf Huffman.wf
  simp only [Bool.and_eq_true, decide_eq_true_eq, and_assoc]

/-! ### Reads -/

theorem readAt_keeps {w : Nat} (size : Nat) (a : Arr w) (i : Nat) : Op.Keeps Inside (Op.readAt size a i) :=
  Op.keeps_bind Inside.order (Op.keeps_require Inside.order _ _) fun _ => Op.keeps_pure Inside.order _

theorem readWin_keeps (i : Nat) : Op.Keeps Inside (readWin i) :=
  Op.keeps_bind Inside.order (Op.keeps_state Inside.order) fun _ => readAt_keeps _ _ _

theorem readHead_keeps (i : Nat) : Op.Keeps Inside (readHead i) :=
  Op.keeps_bind Inside.order (Op.keeps_state Inside.order) fun _ => readAt_keeps _ _ _

theorem readPrev_keeps (i : Nat) : Op.Keeps Inside (readPrev i) :=
  Op.keeps_bind Inside.order (Op.keeps_state Inside.order) fun _ => readAt_keeps _ _ _

theorem readDbuf_keeps (i : Nat) : Op.Keeps Inside (readDbuf i) :=
  Op.keeps_bind Inside.order (Op.keeps_state Inside.order) fun _ => readAt_keeps _ _ _

theorem readLbuf_keeps (i : Nat) : Op.Keeps Inside (readLbuf i) :=
  Op.keeps_bind Inside.order (Op.keeps_state Inside.order) fun _ => readAt_keeps _ _ _

/-! ### Writes of memories and register files -/

/-- An update guarded by a test of the state it starts from. -/
theorem Op.keeps_guarded {R : State → State → Prop} (o : Op.Order R) {p : State → Prop} [DecidablePred p]
    {f : FaultCode} {u : State → State} (h : ∀ s, p s → R s (u s)) :
    Op.Keeps R (do let s ← Op.state; Op.require (p s) f; Op.update u) := by
  refine Op.keeps_state_bind fun s => ?_
  by_cases hp : p s
  · rw [Op.require_pos hp]; exact h s hp
  · rw [Op.require_neg hp]; exact o.refl s

theorem writeHead_keeps (i : Nat) (v : BitVec 16) : Op.Keeps Inside (writeHead i v) := by
  refine Op.keeps_guarded Inside.order fun s hi => Inside.of_mem ⟨[], by simp⟩ fun m => ?_
  rw [State.memoryOk_iff] at m ⊢
  obtain ⟨⟨⟨c1, c2, c3, c4, c5⟩, ch⟩, ⟨w1, w2, w3, w4, w5⟩, wh⟩ := m
  exact ⟨⟨⟨c1, Arr.canonical_write c2 _ _, c3, c4, c5⟩, ch⟩, ⟨w1, Arr.within_write w2 hi _, w3, w4, w5⟩, wh⟩

theorem writePrev_keeps (i : Nat) (v : BitVec 16) : Op.Keeps Inside (writePrev i v) := by
  refine Op.keeps_guarded Inside.order fun s hi => Inside.of_mem ⟨[], by simp⟩ fun m => ?_
  rw [State.memoryOk_iff] at m ⊢
  obtain ⟨⟨⟨c1, c2, c3, c4, c5⟩, ch⟩, ⟨w1, w2, w3, w4, w5⟩, wh⟩ := m
  exact ⟨⟨⟨c1, c2, Arr.canonical_write c3 _ _, c4, c5⟩, ch⟩, ⟨w1, w2, Arr.within_write w3 hi _, w4, w5⟩, wh⟩

theorem writeToken_keeps (i : Nat) (dist : BitVec 16) (lc : Byte) : Op.Keeps Inside (writeToken i dist lc) := by
  refine Op.keeps_guarded Inside.order fun s hi => Inside.of_mem ⟨[], by simp⟩ fun m => ?_
  rw [State.memoryOk_iff] at m ⊢
  obtain ⟨⟨⟨c1, c2, c3, c4, c5⟩, ch⟩, ⟨w1, w2, w3, w4, w5⟩, wh⟩ := m
  exact ⟨⟨⟨c1, c2, c3, Arr.canonical_write c4 _ _, Arr.canonical_write c5 _ _⟩, ch⟩,
    ⟨w1, w2, w3, Arr.within_write w4 hi _, Arr.within_write w5 hi _⟩, wh⟩

/-- A guarded update whose test does not look at the state. -/
theorem Op.keeps_checked {R : State → State → Prop} (o : Op.Order R) {p : Prop} [Decidable p]
    {f : FaultCode} {u : State → State} (h : p → ∀ s, R s (u s)) :
    Op.Keeps R (do Op.require p f; Op.update u) := by
  constructor
  intro s
  by_cases hp : p
  · rw [Op.require_pos hp]; exact h hp s
  · rw [Op.require_neg hp]; exact o.refl s

theorem countLit_keeps (i k : Nat) : Op.Keeps Inside (countLit i k) := by
  refine Op.keeps_checked Inside.order fun hi s => Inside.of_hb fun m => ?_
  rw [State.memoryOk_iff] at m ⊢
  obtain ⟨⟨cm, c1, c⟩, wm, w1, w⟩ := m
  exact ⟨⟨cm, Arr.canonical_write c1 _ _, c⟩, wm, Arr.within_write w1 hi _, w⟩

theorem countDist_keeps (i k : Nat) : Op.Keeps Inside (countDist i k) := by
  refine Op.keeps_checked Inside.order fun hi s => Inside.of_hb fun m => ?_
  rw [State.memoryOk_iff] at m ⊢
  obtain ⟨⟨cm, c1, c2, c⟩, wm, w1, w2, w⟩ := m
  exact ⟨⟨cm, c1, Arr.canonical_write c2 _ _, c⟩, wm, w1, Arr.within_write w2 hi _, w⟩

theorem countBl_keeps (i k : Nat) : Op.Keeps Inside (countBl i k) := by
  refine Op.keeps_checked Inside.order fun hi s => Inside.of_hb fun m => ?_
  rw [State.memoryOk_iff] at m ⊢
  obtain ⟨⟨cm, c1, c2, c3, c⟩, wm, w1, w2, w3, w⟩ := m
  exact ⟨⟨cm, c1, c2, Arr.canonical_write c3 _ _, c⟩, wm, w1, w2, Arr.within_write w3 hi _, w⟩

theorem updateMf_keeps (u : State → MatchRegs) : Op.Keeps Inside (Op.update fun s => s.setMf (u s)) :=
  Op.keeps_update fun _ => Inside.of_mem_hb rfl rfl rfl rfl rfl rfl rfl

theorem updateTok_keeps (u : State → Tokens) : Op.Keeps Inside (Op.update fun s => s.setTok (u s)) :=
  Op.keeps_update fun _ => Inside.of_mem_hb rfl rfl rfl rfl rfl rfl rfl

theorem updateBp_keeps (u : State → BitAcc) : Op.Keeps Inside (Op.update fun s => s.setBp (u s)) :=
  Op.keeps_update fun _ => Inside.of_mem_hb rfl rfl rfl rfl rfl rfl rfl

theorem updateSums_keeps (u : State → Sums) : Op.Keeps Inside (Op.update fun s => s.setSums (u s)) :=
  Op.keeps_update fun _ => Inside.of_mem_hb rfl rfl rfl rfl rfl rfl rfl

theorem checkWindow_keeps : Op.Keeps Inside checkWindow :=
  Op.keeps_bind Inside.order (Op.keeps_state Inside.order) fun _ => Op.keeps_require Inside.order _ _

theorem takeLook_keeps (n : Nat) : Op.Keeps Inside (takeLook n) :=
  Op.keeps_bind Inside.order (Op.keeps_state Inside.order) fun _ =>
    Op.keeps_bind Inside.order (Op.keeps_require Inside.order _ _) fun _ => updateMf_keeps _

theorem advance_keeps (n : Nat) : Op.Keeps Inside (advance n) := updateMf_keeps _

/-! ### Output and input -/

theorem emit_keeps (b : Byte) : Op.Keeps Inside (emit b) :=
  Op.keeps_guarded Inside.order (p := fun s => s.outHasRoom = true) fun _ _ => Inside.of_mem ⟨[b], rfl⟩ id

theorem putByte_keeps (b : Byte) : Op.Keeps Inside (putByte b) := emit_keeps b

theorem putShort_keeps (w : BitVec 16) : Op.Keeps Inside (putShort w) :=
  Op.keeps_bind Inside.order (putByte_keeps _) fun _ => putByte_keeps _

/-- Everything `ReadBuf` can do (20_memory.md R116). -/
theorem readBuf_run (dst size : Nat) (s : State) :
    (readBuf dst size).run s =
      let bytes := s.mem.input.take size
      let t := s.setMem { s.mem with input := s.mem.input.drop size }
      if bytes.length = 0 then .ok 0 t
      else if dst + bytes.length ≤ s.cfg.windowBytes then
        .ok bytes.length ((t.setMem { t.mem with win := t.mem.win.writeAll dst bytes }).setSums
          { adler := adlerUpdate s.sums.adler bytes, crc := crcUpdate s.sums.crc bytes })
      else .error (.raise .bounds) t := by
  unfold readBuf
  rw [Op.state_bind]
  simp only [Op.update_bind]
  split
  · rfl
  · by_cases h : dst + (s.mem.input.take size).length ≤ s.cfg.windowBytes
    · rw [if_pos h, Op.require_pos h]; rfl
    · rw [if_neg h, Op.require_neg h]

theorem readBuf_keeps (dst size : Nat) : Op.Keeps Inside (readBuf dst size) := by
  constructor
  intro s
  rw [readBuf_run]
  have h0 : Inside s (s.setMem { s.mem with input := s.mem.input.drop size }) := Inside.of_mem ⟨[], by simp⟩ id
  simp only
  split
  · rename_i h
    split at h <;> first | (split at h <;> cases h) | cases h
    · exact h0
    · rename_i hfit
      refine Inside.order.trans h0 (Inside.order.trans (Inside.of_mem ⟨[], by simp⟩ fun m => ?_)
        (Inside.of_mem_hb rfl rfl rfl rfl rfl rfl rfl))
      rw [State.memoryOk_iff] at m ⊢
      obtain ⟨⟨⟨c1, c⟩, ch⟩, ⟨w1, w⟩, wh⟩ := m
      exact ⟨⟨⟨Arr.canonical_writeAll c1 _ _, c⟩, ch⟩, ⟨Arr.within_writeAll w1 _ hfit, w⟩, wh⟩
  · rename_i h
    split at h <;> first | (split at h <;> cases h) | cases h
    exact h0

end Sys2Proof.Machine
end

