-- ==== Sys2Proof/Laws/Tree.lean ====
section
/-! SUPPORT. A tree build stays inside its register files (42_huffman_builder.md R321, R332, R333). -/

namespace Sys2Proof.Machine

/-! ### Which symbols a build names -/

theorem foldl_max_le {xs : List Node} {m b : Int} (hm : m ≤ b) (h : ∀ n ∈ xs, (n.num : Int) ≤ b) :
    xs.foldl (fun m n => max m (n.num : Int)) m ≤ b := by
  induction xs generalizing m with
  | nil => exact hm
  | cons x rest ih =>
    exact ih (max_le hm (h x (by simp))) fun n hn => h n (by simp [hn])

/-- Phantoms raise `maxCode` to 2 at most (R323). -/
theorem addPhantoms_maxCode {fuel : Nat} {leaves : List Node} {maxCode b : Int} {phantoms : List Nat} (hb : 2 ≤ b)
    (h : maxCode ≤ b) : (addPhantoms fuel leaves maxCode phantoms).2.1 ≤ b := by
  induction fuel generalizing leaves maxCode phantoms with
  | zero => exact h
  | succ fuel ih =>
    simp only [addPhantoms]
    split
    · exact h
    · exact ih (by split <;> omega)

theorem Tree.two_lt_elems (tree : Tree) : 2 < tree.elems := by cases tree <;> decide

/-- `maxCode` is a symbol of the tree. -/
theorem buildLengths_maxCode {tree : Tree} {freq : Arr 16} (h : freq.Within tree.elems) :
    (buildLengths tree freq).maxCode < tree.elems := by
  have h2 := tree.two_lt_elems
  have : (addPhantoms 2 (seedLeaves freq)
      ((seedLeaves freq).foldl (fun m n => max m (n.num : Int)) (-1)) []).2.1 ≤ (tree.elems : Int) - 1 := by
    refine addPhantoms_maxCode (by omega) (foldl_max_le (by omega) fun n hn => ?_)
    obtain ⟨p, hp, rfl⟩ := List.mem_map.1 hn
    have := h p hp
    simp only
    omega
  simp only [buildLengths]
  omega

/-- Every leaf is at most `maxCode`. -/
theorem buildLengths_leafLens (tree : Tree) (freq : Arr 16) :
    ∀ p ∈ (buildLengths tree freq).leafLens, p.1 ≤ (buildLengths tree freq).maxCode := by
  intro p hp
  simp only [buildLengths, List.mem_map, List.mem_filter, decide_eq_true_eq] at hp ⊢
  obtain ⟨q, ⟨-, hq⟩, rfl⟩ := hp
  exact hq

/-- The reassignment changes lengths, not leaves (R328). -/
theorem reassign_keys {lengths : List Nat} {leaves after : List (Nat × Nat)} (h : reassign lengths leaves = some after) :
    after.map Prod.fst = leaves.map Prod.fst := by
  induction lengths generalizing leaves after with
  | nil => cases h; rfl
  | cons bits more ih =>
    cases leaves with
    | nil => cases h
    | cons p rest =>
      obtain ⟨n, l⟩ := p
      simp only [reassign, Option.map_eq_some_iff] at h
      obtain ⟨tail, ht, rfl⟩ := h
      simp [ih ht]

/-- The repair changes lengths, not leaves. -/
theorem repair_keys {tree : Tree} {b : Built} {blCount : List Nat} {after : List (Nat × Nat)}
    (h : b.repair tree = some (blCount, after)) : after.map Prod.fst = b.leafLens.map Prod.fst := by
  unfold Built.repair at h
  split at h
  · cases h; rfl
  · split at h
    · cases h
    · split at h
      · cases h
      · cases h; exact reassign_keys ‹_›

/-! ### The register files written -/

theorem canonical_foldl_write {w : Nat} (f : Nat → BitVec w) (xs : List (Nat × Nat)) {a : Arr w} (h : a.Canonical) :
    (xs.foldl (fun a p => a.write p.1 (f p.2)) a).Canonical := by
  induction xs generalizing a with
  | nil => exact h
  | cons x rest ih => exact ih (Arr.canonical_write h _ _)

theorem within_foldl_write {w n : Nat} (f : Nat → BitVec w) {xs : List (Nat × Nat)} (hx : ∀ p ∈ xs, p.1 < n) {a : Arr w}
    (h : a.Within n) : (xs.foldl (fun a p => a.write p.1 (f p.2)) a).Within n := by
  induction xs generalizing a with
  | nil => exact h
  | cons x rest ih =>
    exact ih (fun p hp => hx p (by simp [hp])) (Arr.within_write h (hx x (by simp)) _)

theorem canonical_lenFile (leafLens : List (Nat × Nat)) : (lenFile leafLens).Canonical :=
  canonical_foldl_write _ _ Arr.canonical_nil

theorem within_lenFile {leafLens : List (Nat × Nat)} {n : Nat} (h : ∀ p ∈ leafLens, p.1 < n) :
    (lenFile leafLens).Within n := within_foldl_write _ h (by intro p hp; cases hp)

theorem canonical_codeFile {old : Arr 15} (h : old.Canonical) (codes : List (Nat × Nat)) :
    (codeFile old codes).Canonical := canonical_foldl_write _ _ h

theorem within_codeFile {old : Arr 15} {n : Nat} (h : old.Within n) {codes : List (Nat × Nat)} (hc : ∀ p ∈ codes, p.1 < n) :
    (codeFile old codes).Within n := within_foldl_write _ hc h

/-- `GenCodes` gives codes to the symbols it is given (R333). -/
theorem mem_genCodes {nextCode : List Nat} {leaves : List (Nat × Nat)} {p : Nat × Nat}
    (h : p ∈ (genCodes nextCode leaves).1) : ∃ len, (p.1, len) ∈ leaves := by
  induction leaves generalizing nextCode with
  | nil => cases h
  | cons q rest ih =>
    obtain ⟨n, len⟩ := q
    simp only [genCodes] at h
    split at h
    · obtain ⟨l, hl⟩ := ih h
      exact ⟨l, by simp [hl]⟩
    · rcases List.mem_cons.1 h with rfl | h
      · exact ⟨len, by simp⟩
      · obtain ⟨l, hl⟩ := ih h
        exact ⟨l, by simp [hl]⟩

theorem bySymbol_lt {leafLens : List (Nat × Nat)} {n : Nat} (h : ∀ p ∈ leafLens, p.1 < n) :
    ∀ p ∈ bySymbol leafLens, p.1 < n := by
  intro p hp
  obtain ⟨q, hq, rfl⟩ := List.mem_map.1 hp
  exact within_lenFile h q hq

theorem genCodes_lt {leafLens : List (Nat × Nat)} {n : Nat} (h : ∀ p ∈ leafLens, p.1 < n) (nextCode : List Nat) :
    ∀ p ∈ (genCodes nextCode (bySymbol leafLens)).1, p.1 < n := by
  intro p hp
  obtain ⟨l, hl⟩ := mem_genCodes hp
  exact bySymbol_lt h (p.1, l) hl

theorem repaired_lt {tree : Tree} {freq : Arr 16} (h : freq.Within tree.elems) {blCount : List Nat}
    {after : List (Nat × Nat)} (hr : (buildLengths tree freq).repair tree = some (blCount, after)) :
    ∀ p ∈ after, p.1 < tree.elems := by
  intro p hp
  have hk : p.1 ∈ after.map Prod.fst := List.mem_map_of_mem hp
  rw [repair_keys hr] at hk
  obtain ⟨q, hq, he⟩ := List.mem_map.1 hk
  have h1 := buildLengths_leafLens tree freq q hq
  have h2 := buildLengths_maxCode h
  omega

/-! ### The operations -/

theorem updateHbScratch_memoryOk {s : State} {tree : Tree} {len : Arr 4} {code : Arr 15} {maxCode : Nat} {sc : Scratch}
    (h1 : len.Canonical) (h2 : code.Canonical) (h3 : len.Within tree.elems) (h4 : code.Within tree.elems)
    (m : s.MemoryOk) : (s.setHb { s.hb.setTree tree len code maxCode with scratch := sc }).MemoryOk := by
  rw [State.memoryOk_iff] at m ⊢
  obtain ⟨⟨cm, c1, c2, c3, c4, c5, c6, c7, c8, c9⟩, wm, w1, w2, w3, w4, w5, w6, w7, w8, w9⟩ := m
  cases tree
  · exact ⟨⟨cm, c1, c2, c3, h1, h2, c6, c7, c8, c9⟩, wm, w1, w2, w3, h3, h4, w6, w7, w8, w9⟩
  · exact ⟨⟨cm, c1, c2, c3, c4, c5, h1, h2, c8, c9⟩, wm, w1, w2, w3, w4, w5, h3, h4, w8, w9⟩
  · exact ⟨⟨cm, c1, c2, c3, c4, c5, c6, c7, h1, h2⟩, wm, w1, w2, w3, w4, w5, w6, w7, h3, h4⟩

theorem State.MemoryOk.freqs {s : State} (m : s.MemoryOk) (tree : Tree) : (s.hb.freqs tree).Within tree.elems := by
  rw [State.memoryOk_iff] at m
  cases tree
  · exact m.2.2.1
  · exact m.2.2.2.1
  · exact m.2.2.2.2.1

theorem State.MemoryOk.codes {s : State} (m : s.MemoryOk) (tree : Tree) :
    (s.hb.codes tree).Canonical ∧ (s.hb.codes tree).Within tree.elems := by
  rw [State.memoryOk_iff] at m
  obtain ⟨⟨-, -, -, -, -, c5, -, c7, -, c9⟩, -, -, -, -, -, w5, -, w7, -, w9⟩ := m
  cases tree
  · exact ⟨c5, w5⟩
  · exact ⟨c7, w7⟩
  · exact ⟨c9, w9⟩

/-- After a build no overflow is left: 0, or -1 where an odd count was repaired (R328). -/
theorem finalOverflow_mem (b : Built) : b.finalOverflow = 0 ∨ b.finalOverflow = -1 := by
  unfold Built.finalOverflow
  omega

theorem addCost_keeps (opt static : Int) : Op.Keeps Inside (addCost opt static) :=
  Op.keeps_update fun _ => Inside.of_same_files rfl rfl rfl rfl rfl rfl rfl rfl rfl

theorem addCost_run (opt static : Int) (s : State) : (addCost opt static).run s =
    .ok () (s.setHb { s.hb with optLen := s.hb.optLen + opt, staticLen := s.hb.staticLen + static }) := rfl

/-- Everything `BuildTree` can do (R321 to R333): the costs, then the results or a raise. -/
theorem buildTree_run (tree : Tree) (s : State) : (buildTree tree).run s =
    let b := buildLengths tree (s.hb.freqs tree)
    let t := s.setHb { s.hb with optLen := s.hb.optLen + b.optCost tree, staticLen := s.hb.staticLen + b.staticCost tree }
    match b.repair tree with
    | none => .error (.raise .bounds) t
    | some (blCount, leafLens) =>
        let u := t.setHb { t.hb with optLen := t.hb.optLen + b.repairCost b.leafLens leafLens,
                                     staticLen := t.hb.staticLen + 0 }
        if kraftHolds tree.maxLength leafLens = true then
          let coded := genCodes (firstCodes blCount) (bySymbol leafLens)
          .ok () (u.setHb { u.hb.setTree tree (lenFile leafLens) (codeFile (u.hb.codes tree) coded.1) b.maxCode with
            scratch := b.scratch blCount leafLens coded.2 })
        else .error (.raise .kraft) u := by
  unfold buildTree
  rw [Op.state_bind]
  simp only
  rw [Op.bind_ok (addCost_run _ _ s)]
  cases (buildLengths tree (s.hb.freqs tree)).repair tree with
  | none => rfl
  | some r =>
    obtain ⟨blCount, leafLens⟩ := r
    simp only
    rw [Op.bind_ok (addCost_run _ _ _), Op.require_bind]
    split <;> simp_all

theorem buildTree_keeps (tree : Tree) : Op.Keeps Inside (buildTree tree) := by
  constructor
  intro s
  rw [buildTree_run]
  simp only
  have h0 : ∀ (t : State) (o n : Int), Inside t (t.setHb { t.hb with optLen := o, staticLen := n }) :=
    fun t o n => Inside.of_same_files rfl rfl rfl rfl rfl rfl rfl rfl rfl
  cases hr : (buildLengths tree (s.hb.freqs tree)).repair tree with
  | none => exact h0 _ _ _
  | some r =>
    obtain ⟨blCount, leafLens⟩ := r
    simp only
    by_cases hk : kraftHolds tree.maxLength leafLens = true
    · rw [if_pos hk]
      generalize hu : State.setHb (State.setHb s _) _ = u
      have hsu : Inside s u := by rw [← hu, State.setHb_setHb]; exact h0 s _ _
      refine Inside.order.trans hsu ?_
      have hfreq : u.MemoryOk → (s.hb.freqs tree).Within tree.elems := fun m => by
        have := m.freqs tree
        rw [← hu] at this
        cases tree <;> exact this
      refine Inside.of_hb fun m => ?_
      have hlt := repaired_lt (hfreq m) hr
      obtain ⟨hc, hw⟩ := m.codes tree
      exact updateHbScratch_memoryOk (canonical_lenFile _) (canonical_codeFile hc _) (within_lenFile hlt)
        (within_codeFile hw (genCodes_lt hlt _)) m
    · rw [if_neg hk]
      simp only [State.setHb_setHb, State.setHb_hb]
      exact h0 s _ _

theorem countTree_keeps (tree : Tree) (maxCode : Nat) : Op.Keeps Inside (countTree tree maxCode) :=
  Op.keeps_bind Inside.order (Op.keeps_require Inside.order _ _) fun _ =>
    Op.keeps_bind Inside.order (Op.keeps_state Inside.order) fun _ =>
      Op.keeps_forEach Inside.order (fun _ => countBl_keeps _ _) _

theorem buildAll_keeps : Op.Keeps Inside buildAll := by
  refine Op.keeps_bind Inside.order (buildTree_keeps _) fun _ => ?_
  refine Op.keeps_bind Inside.order (buildTree_keeps _) fun _ => ?_
  refine Op.keeps_bind Inside.order (Op.keeps_state Inside.order) fun _ => ?_
  refine Op.keeps_bind Inside.order (countTree_keeps _ _) fun _ => ?_
  refine Op.keeps_bind Inside.order (countTree_keeps _ _) fun _ => ?_
  refine Op.keeps_bind Inside.order (buildTree_keeps _) fun _ => ?_
  refine Op.keeps_bind Inside.order ?_ fun _ => ?_
  all_goals exact Op.keeps_update fun _ => Inside.of_same_files rfl rfl rfl rfl rfl rfl rfl rfl rfl

/-- `InitBlock()` writes the builder registers and the token counters (R320). -/
theorem initBlock_run (s : State) :
    initBlock.run s = .ok () ((s.setHb s.hb.initBlock).setTok { lastLit := 0, numMatches := 0 }) := rfl

theorem initBlock_keeps : Op.Keeps Inside initBlock := by
  refine Op.keeps_update fun s => Inside.order.trans (Inside.of_hb fun m => ?_)
    (Inside.of_mem_hb rfl rfl rfl rfl rfl rfl rfl)
  rw [State.memoryOk_iff] at m ⊢
  obtain ⟨⟨cm, -, -, -, c⟩, wm, -, -, -, w⟩ := m
  refine ⟨⟨cm, (by decide : Arr.Canonical [(END_BLOCK, (1 : BitVec 16))]), Arr.canonical_nil, Arr.canonical_nil, c⟩, wm, ?_, ?_, ?_, w⟩
  · intro p hp
    simp only [State.setHb_hb, Huffman.initBlock, List.mem_singleton] at hp
    subst hp
    decide
  · intro p hp; cases hp
  · intro p hp; cases hp

end Sys2Proof.Machine
end

