-- ==== Sys2Proof/Laws/Frames.lean ====
section
/-! SUPPORT. Every sub-operation of a command stays `Inside`: what COMPRESS and the stream elements can change. -/

namespace Sys2Proof.Machine

/-! ### The bit packer -/

theorem sendBits_keeps (value length : Nat) : Op.Keeps Inside (sendBits value length) := by
  refine Op.keeps_bind Inside.order (Op.keeps_require Inside.order _ _) fun _ => ?_
  refine Op.keeps_bind Inside.order (Op.keeps_state Inside.order) fun _ => Op.keeps_ite ?_ (updateBp_keeps _)
  refine Op.keeps_bind Inside.order (updateBp_keeps _) fun _ => ?_
  refine Op.keeps_bind Inside.order (Op.keeps_state Inside.order) fun _ => ?_
  exact Op.keeps_bind Inside.order (putShort_keeps _) fun _ => updateBp_keeps _

theorem sendDiff_keeps (a b length : Nat) : Op.Keeps Inside (sendDiff a b length) :=
  Op.keeps_bind Inside.order (Op.keeps_require Inside.order _ _) fun _ => sendBits_keeps _ _

theorem windupBytes_keeps (bp : BitAcc) : Op.Keeps Inside (windupBytes bp) :=
  Op.keeps_ite (putShort_keeps _) (Op.keeps_when Inside.order (putByte_keeps _))

theorem biWindup_keeps : Op.Keeps Inside biWindup := by
  refine Op.keeps_bind Inside.order (Op.keeps_state Inside.order) fun _ => ?_
  exact Op.keeps_bind Inside.order (windupBytes_keeps _) fun _ => updateBp_keeps fun _ => _

theorem biFlushByte_keeps : Op.Keeps Inside biFlushByte := by
  refine Op.keeps_bind Inside.order (Op.keeps_state Inside.order) fun _ => ?_
  exact Op.keeps_bind Inside.order (putByte_keeps _) fun _ => updateBp_keeps _

theorem biFlushBytes_keeps : Op.Keeps Inside biFlushBytes :=
  Op.keeps_bind Inside.order (Op.keeps_state Inside.order) fun _ => Op.keeps_times Inside.order biFlushByte_keeps _

/-! ### Block emission -/

theorem sendCode_keeps (set : CodeSet) (tree : Tree) (c : Nat) : Op.Keeps Inside (sendCode set tree c) := by
  refine Op.keeps_bind Inside.order (Op.keeps_require Inside.order _ _) fun _ => ?_
  exact Op.keeps_bind Inside.order (Op.keeps_state Inside.order) fun _ => sendBits_keeps _ _

theorem sendExtra_keeps (v base n : Nat) : Op.Keeps Inside (sendExtra v base n) :=
  Op.keeps_ite (Op.keeps_pure Inside.order _) (sendDiff_keeps _ _ _)

theorem sendToken_keeps (set : CodeSet) (i : Nat) : Op.Keeps Inside (sendToken set i) := by
  refine Op.keeps_bind Inside.order (readDbuf_keeps _) fun _ => ?_
  refine Op.keeps_bind Inside.order (readLbuf_keeps _) fun _ => Op.keeps_ite (sendCode_keeps _ _ _) ?_
  refine Op.keeps_bind Inside.order (sendCode_keeps _ _ _) fun _ => ?_
  refine Op.keeps_bind Inside.order (sendExtra_keeps _ _ _) fun _ => ?_
  exact Op.keeps_bind Inside.order (sendCode_keeps _ _ _) fun _ => sendExtra_keeps _ _ _

theorem compressBlock_keeps (set : CodeSet) : Op.Keeps Inside (compressBlock set) := by
  refine Op.keeps_bind Inside.order (Op.keeps_state Inside.order) fun _ => ?_
  exact Op.keeps_bind Inside.order (Op.keeps_forEach Inside.order (sendToken_keeps set) _) fun _ => sendCode_keeps _ _ _

theorem sendClSym_keeps (c : ClSym) : Op.Keeps Inside (sendClSym c) := by
  cases c with
  | len l => exact sendCode_keeps _ _ _
  | repeatPrev n => exact Op.keeps_bind Inside.order (sendCode_keeps _ _ _) fun _ => sendDiff_keeps _ _ _
  | zeros n => exact Op.keeps_bind Inside.order (sendCode_keeps _ _ _) fun _ => sendDiff_keeps _ _ _
  | manyZeros n => exact Op.keeps_bind Inside.order (sendCode_keeps _ _ _) fun _ => sendDiff_keeps _ _ _

theorem sendTree_keeps (tree : Tree) (maxCode : Nat) : Op.Keeps Inside (sendTree tree maxCode) := by
  refine Op.keeps_bind Inside.order (Op.keeps_require Inside.order _ _) fun _ => ?_
  exact Op.keeps_bind Inside.order (Op.keeps_state Inside.order) fun _ => Op.keeps_forEach Inside.order sendClSym_keeps _

theorem sendBlLen_keeps (rank : Nat) : Op.Keeps Inside (sendBlLen rank) := by
  refine Op.keeps_bind Inside.order (Op.keeps_require Inside.order _ _) fun _ => ?_
  exact Op.keeps_bind Inside.order (Op.keeps_state Inside.order) fun _ => sendBits_keeps _ _

theorem sendAllTrees_keeps : Op.Keeps Inside sendAllTrees := by
  refine Op.keeps_bind Inside.order (Op.keeps_state Inside.order) fun _ => ?_
  refine Op.keeps_bind Inside.order (sendDiff_keeps _ _ _) fun _ => ?_
  refine Op.keeps_bind Inside.order (sendDiff_keeps _ _ _) fun _ => ?_
  refine Op.keeps_bind Inside.order (sendDiff_keeps _ _ _) fun _ => ?_
  refine Op.keeps_bind Inside.order (Op.keeps_forEach Inside.order sendBlLen_keeps _) fun _ => ?_
  exact Op.keeps_bind Inside.order (sendTree_keeps _ _) fun _ => sendTree_keeps _ _

theorem putWindowByte_keeps (i : Nat) : Op.Keeps Inside (putWindowByte i) :=
  Op.keeps_bind Inside.order (readWin_keeps _) fun _ => putByte_keeps _

theorem storedBlock_keeps (start len : Int) (eof : BitVec 1) : Op.Keeps Inside (storedBlock start len eof) := by
  refine Op.keeps_bind Inside.order (Op.keeps_require Inside.order _ _) fun _ => ?_
  refine Op.keeps_bind Inside.order (sendBits_keeps _ _) fun _ => ?_
  refine Op.keeps_bind Inside.order biWindup_keeps fun _ => ?_
  refine Op.keeps_bind Inside.order (putShort_keeps _) fun _ => ?_
  refine Op.keeps_bind Inside.order (putShort_keeps _) fun _ => ?_
  exact Op.keeps_forEach Inside.order (fun _ => putWindowByte_keeps _) _

theorem staticBlock_keeps (eof : BitVec 1) : Op.Keeps Inside (staticBlock eof) :=
  Op.keeps_bind Inside.order (sendBits_keeps _ _) fun _ => compressBlock_keeps _

theorem dynamicBlock_keeps (eof : BitVec 1) : Op.Keeps Inside (dynamicBlock eof) :=
  Op.keeps_bind Inside.order (sendBits_keeps _ _) fun _ =>
    Op.keeps_bind Inside.order sendAllTrees_keeps fun _ => compressBlock_keeps _

theorem emitBlock_keeps (mode : BlockMode) (a b : Int) (eof : BitVec 1) : Op.Keeps Inside (emitBlock mode a b eof) := by
  cases mode with
  | stored => exact storedBlock_keeps _ _ _
  | static => exact staticBlock_keeps _
  | dynamic => exact dynamicBlock_keeps _

theorem flushBlock_keeps (eof : BitVec 1) : Op.Keeps Inside (flushBlock eof) := by
  refine Op.keeps_bind Inside.order (Op.keeps_state Inside.order) fun _ => ?_
  refine Op.keeps_bind Inside.order (Op.keeps_when Inside.order buildAll_keeps) fun _ => ?_
  refine Op.keeps_bind Inside.order (Op.keeps_state Inside.order) fun _ => ?_
  refine Op.keeps_bind Inside.order (emitBlock_keeps _ _ _ _) fun _ => ?_
  refine Op.keeps_bind Inside.order initBlock_keeps fun _ => ?_
  exact Op.keeps_bind Inside.order (Op.keeps_when Inside.order biWindup_keeps) fun _ => updateMf_keeps _

theorem clearHead_keeps : Op.Keeps Inside clearHead := by
  refine Op.keeps_update fun s => Inside.of_mem ⟨[], by simp⟩ fun m => ?_
  rw [State.memoryOk_iff] at m ⊢
  obtain ⟨⟨⟨c1, -, c⟩, ch⟩, ⟨w1, -, w⟩, wh⟩ := m
  exact ⟨⟨⟨c1, Arr.canonical_nil, c⟩, ch⟩, ⟨w1, Arr.within_nil _, w⟩, wh⟩

theorem flushEpilogue_keeps (f : BitVec 3) : Op.Keeps Inside (flushEpilogue f) :=
  Op.keeps_ite biFlushBytes_keeps
    (Op.keeps_bind Inside.order (storedBlock_keeps _ _ _) fun _ => Op.keeps_when Inside.order clearHead_keeps)

theorem putHeader_keeps (cinfo : BitVec 4) (flevel : BitVec 2) (fcheck : BitVec 5) :
    Op.Keeps Inside (putHeader cinfo flevel fcheck) :=
  Op.keeps_bind Inside.order (putByte_keeps _) fun _ => putByte_keeps _

theorem zlibHeader_keeps : Op.Keeps Inside zlibHeader :=
  Op.keeps_bind Inside.order (Op.keeps_state Inside.order) fun _ => putHeader_keeps _ _ _

theorem putAdler_keeps (adler : Word) : Op.Keeps Inside (putAdler adler) :=
  Op.keeps_bind Inside.order (putByte_keeps _) fun _ =>
    Op.keeps_bind Inside.order (putByte_keeps _) fun _ =>
      Op.keeps_bind Inside.order (putByte_keeps _) fun _ => putByte_keeps _

theorem trailer_keeps : Op.Keeps Inside trailer :=
  Op.keeps_bind Inside.order (Op.keeps_state Inside.order) fun _ => putAdler_keeps _

/-! ### The match finder -/

theorem insertString_keeps (pos : Nat) : Op.Keeps Inside (insertString pos) := by
  refine Op.keeps_bind Inside.order (readWin_keeps _) fun _ => ?_
  refine Op.keeps_bind Inside.order (updateMf_keeps _) fun _ => ?_
  refine Op.keeps_bind Inside.order (Op.keeps_state Inside.order) fun _ => ?_
  refine Op.keeps_bind Inside.order (readHead_keeps _) fun _ => ?_
  refine Op.keeps_bind Inside.order (writePrev_keeps _ _) fun _ => ?_
  exact Op.keeps_bind Inside.order (writeHead_keeps _ _) fun _ => Op.keeps_pure Inside.order _

/-- Inside the register's range the compaction subtracts (R256). -/
theorem rebaseMatch_toInt {m : BitVec 32} {wSize : Nat} (h : -2147483648 ≤ m.toInt - (wSize : Int)) :
    (rebaseMatch m wSize).toInt = m.toInt - (wSize : Int) := by
  have lt := BitVec.toInt_lt (x := m)
  have bound : m.toInt < 2147483648 := by simpa using lt
  unfold rebaseMatch
  rw [if_pos h, BitVec.toInt_ofInt]
  exact Int.bmod_eq_of_le (by omega) (by omega)

/-- Everything `Slide` can do (R256, 60_exceptions.md R506): the moves, then the window check. -/
theorem slide_run (s : State) : slide.run s =
    let t := (s.setMem { s.mem with
        win := s.mem.win.compact s.cfg.wSize
        head := s.mem.head.rebase s.cfg.wSize
        prev := s.mem.prev.rebase s.cfg.wSize }).setMf
      { s.mf with
        matchStart := rebaseMatch s.mf.matchStart s.cfg.wSize
        strStart := s.mf.strStart - s.cfg.wSize
        blockStart := s.mf.blockStart - s.cfg.wSize }
    if t.mf.strStart + t.mf.lookAhead ≤ t.cfg.windowBytes ∧ t.mf.blockStart ≤ (t.mf.strStart : Int) then .ok () t
    else .error (.raise .invariant) t := by
  unfold slide checkWindow
  rw [Op.update_bind, Op.update_bind, Op.state_bind, Op.require_apply]
  rfl

theorem slide_keeps : Op.Keeps Inside slide := by
  refine Op.keeps_bind Inside.order (Op.keeps_update fun s => Inside.of_mem ⟨[], by simp⟩ fun m => ?_) fun _ => ?_
  · rw [State.memoryOk_iff] at m ⊢
    obtain ⟨⟨⟨c1, c2, c3, c⟩, ch⟩, ⟨w1, w2, w3, w⟩, wh⟩ := m
    exact ⟨⟨⟨Arr.canonical_compact c1 _, Arr.canonical_rebase c2 _, Arr.canonical_rebase c3 _, c⟩, ch⟩,
      ⟨Arr.within_compact w1, Arr.within_rebase w2 _, Arr.within_rebase w3 _, w⟩, wh⟩
  · exact Op.keeps_bind Inside.order (updateMf_keeps _) fun _ => checkWindow_keeps

theorem seedHash_keeps : Op.Keeps Inside seedHash := by
  refine Op.keeps_bind Inside.order (Op.keeps_state Inside.order) fun _ => ?_
  refine Op.keeps_bind Inside.order (readWin_keeps _) fun _ => ?_
  exact Op.keeps_bind Inside.order (readWin_keeps _) fun _ => updateMf_keeps _

theorem fillStep_keeps : Op.Keeps Inside fillStep := by
  unfold fillStep
  refine Op.keeps_bind Inside.order (Op.keeps_state Inside.order) fun _ => ?_
  refine Op.keeps_bind Inside.order (Op.keeps_when Inside.order slide_keeps) fun _ => ?_
  refine Op.keeps_bind Inside.order (Op.keeps_state Inside.order) fun _ => ?_
  refine Op.keeps_ite (Op.keeps_pure Inside.order _) ?_
  refine Op.keeps_bind Inside.order (readBuf_keeps _ _) fun _ => ?_
  refine Op.keeps_bind Inside.order (updateMf_keeps _) fun _ => ?_
  refine Op.keeps_bind Inside.order (Op.keeps_state Inside.order) fun _ => ?_
  refine Op.keeps_bind Inside.order (Op.keeps_when Inside.order seedHash_keeps) fun _ => ?_
  split <;> exact Op.keeps_pure Inside.order _

theorem fillWindow_keeps : Op.Keeps Inside fillWindow := by
  unfold fillWindow
  refine Op.keeps_bind Inside.order (Op.keeps_state Inside.order) fun _ => ?_
  exact Op.keeps_bind Inside.order (Op.keeps_iterate Inside.order fillStep_keeps _) fun _ => checkWindow_keeps

theorem commonLength_keeps (a b limit : Nat) : Op.Keeps Inside (commonLength a b limit) := by
  induction limit generalizing a b with
  | zero => exact Op.keeps_pure Inside.order _
  | succ limit ih =>
    refine Op.keeps_bind Inside.order (readWin_keeps _) fun _ => ?_
    refine Op.keeps_bind Inside.order (readWin_keeps _) fun _ => Op.keeps_ite ?_ (Op.keeps_pure Inside.order _)
    exact Op.keeps_bind Inside.order (ih _ _) fun _ => Op.keeps_pure Inside.order _

theorem walkChain_keeps (strStart maxLen nice limit chain cur best : Nat) :
    Op.Keeps Inside (walkChain strStart maxLen nice limit chain cur best) := by
  induction chain generalizing cur best with
  | zero => exact Op.keeps_pure Inside.order _
  | succ chain ih =>
    refine Op.keeps_bind Inside.order (commonLength_keeps _ _ _) fun _ => ?_
    refine Op.keeps_bind Inside.order (Op.keeps_when Inside.order (updateMf_keeps _)) fun _ => ?_
    refine Op.keeps_ite (Op.keeps_pure Inside.order _) ?_
    refine Op.keeps_bind Inside.order (Op.keeps_state Inside.order) fun _ => ?_
    refine Op.keeps_bind Inside.order (readPrev_keeps _) fun _ => ?_
    exact Op.keeps_ite (ih _ _) (Op.keeps_pure Inside.order _)

theorem longestMatch_keeps (cur : Nat) : Op.Keeps Inside (longestMatch cur) :=
  Op.keeps_bind Inside.order (Op.keeps_state Inside.order) fun _ =>
    Op.keeps_bind Inside.order (walkChain_keeps _ _ _ _ _ _ _) fun _ => Op.keeps_pure Inside.order _

theorem countToken_keeps (dist : Int) (lc : Nat) : Op.Keeps Inside (countToken dist lc) := by
  refine Op.keeps_ite (countLit_keeps _ _) ?_
  refine Op.keeps_bind Inside.order (Op.keeps_state Inside.order) fun _ => ?_
  refine Op.keeps_bind Inside.order (Op.keeps_require Inside.order _ _) fun _ => ?_
  refine Op.keeps_bind Inside.order (updateTok_keeps _) fun _ => ?_
  exact Op.keeps_bind Inside.order (countLit_keeps _ _) fun _ => countDist_keeps _ _

theorem tally_keeps (dist : Int) (lc : Nat) : Op.Keeps Inside (tally dist lc) := by
  refine Op.keeps_bind Inside.order (Op.keeps_state Inside.order) fun _ => ?_
  refine Op.keeps_bind Inside.order (Op.keeps_require Inside.order _ _) fun _ => ?_
  refine Op.keeps_bind Inside.order (writeToken_keeps _ _ _) fun _ => ?_
  refine Op.keeps_bind Inside.order (updateTok_keeps _) fun _ => ?_
  exact Op.keeps_bind Inside.order (countToken_keeps _ _) fun _ => Op.keeps_gets Inside.order _

theorem tallyLiteral_keeps (i : Nat) : Op.Keeps Inside (tallyLiteral i) :=
  Op.keeps_bind Inside.order (readWin_keeps _) fun _ => tally_keeps _ _

theorem flushIf_keeps (bflush : Bool) : Op.Keeps Inside (flushIf bflush) :=
  Op.keeps_when Inside.order (flushBlock_keeps _)

theorem endDrive_keeps (f : BitVec 3) (l : LoopStep) : Op.Keeps Inside (endDrive f l) := by
  have h : Op.Keeps Inside (do
      flushBlock (if f = FINISH then 1 else 0)
      pure (if f = FINISH then DriveResult.finishDone else .blockDone)) :=
    Op.keeps_bind Inside.order (flushBlock_keeps _) fun _ => Op.keeps_pure Inside.order _
  cases l with
  | again => exact h
  | exit => exact h
  | needMore => exact Op.keeps_pure Inside.order _

theorem driveFuel_keeps : Op.Keeps Inside driveFuel :=
  Op.keeps_bind Inside.order (Op.keeps_state Inside.order) fun _ => Op.keeps_pure Inside.order _

theorem storedStep_keeps : Op.Keeps Inside storedStep := by
  refine Op.keeps_bind Inside.order (Op.keeps_state Inside.order) fun _ => ?_
  refine Op.keeps_bind Inside.order (advance_keeps _) fun _ => ?_
  refine Op.keeps_bind Inside.order (takeLook_keeps _) fun _ => ?_
  refine Op.keeps_bind Inside.order (Op.keeps_state Inside.order) fun _ => ?_
  refine Op.keeps_bind Inside.order (Op.keeps_when Inside.order (flushBlock_keeps _)) fun _ => ?_
  exact Op.keeps_bind Inside.order checkWindow_keeps fun _ => Op.keeps_pure Inside.order _

theorem storedRound_keeps (f : BitVec 3) : Op.Keeps Inside (storedRound f) := by
  unfold storedRound
  refine Op.keeps_bind Inside.order (Op.keeps_state Inside.order) fun _ => ?_
  refine Op.keeps_bind Inside.order (Op.keeps_when Inside.order fillWindow_keeps) fun _ => ?_
  refine Op.keeps_bind Inside.order (Op.keeps_state Inside.order) fun _ => ?_
  split
  · exact Op.keeps_pure Inside.order _
  · exact storedStep_keeps

theorem matchRound_keeps (f : BitVec 3) {step : Op LoopStep} (h : Op.Keeps Inside step) :
    Op.Keeps Inside (matchRound f step) := by
  unfold matchRound
  refine Op.keeps_bind Inside.order (Op.keeps_state Inside.order) fun _ => ?_
  refine Op.keeps_bind Inside.order (Op.keeps_when Inside.order fillWindow_keeps) fun _ => ?_
  refine Op.keeps_bind Inside.order (Op.keeps_state Inside.order) fun _ => ?_
  split
  · exact Op.keeps_pure Inside.order _
  · split
    · exact Op.keeps_pure Inside.order _
    · exact h

theorem insertHere_keeps : Op.Keeps Inside insertHere := by
  refine Op.keeps_bind Inside.order (Op.keeps_state Inside.order) fun _ => ?_
  exact Op.keeps_ite (insertString_keeps _) (Op.keeps_pure Inside.order _)

theorem skipFast_keeps : Op.Keeps Inside skipFast := by
  refine Op.keeps_bind Inside.order (advance_keeps _) fun _ => ?_
  refine Op.keeps_bind Inside.order (Op.keeps_state Inside.order) fun _ => ?_
  exact Op.keeps_bind Inside.order (insertString_keeps _) fun _ => Op.keeps_pure Inside.order _

theorem fastPass_keeps (len : Nat) : Op.Keeps Inside (fastPass len) := by
  refine Op.keeps_bind Inside.order (Op.keeps_state Inside.order) fun _ => Op.keeps_ite ?_ ?_
  · exact Op.keeps_bind Inside.order (Op.keeps_times Inside.order skipFast_keeps _) fun _ => advance_keeps _
  · exact Op.keeps_bind Inside.order (advance_keeps _) fun _ => updateMf_keeps _

theorem fastMatch_keeps : Op.Keeps Inside fastMatch := by
  refine Op.keeps_bind Inside.order (Op.keeps_state Inside.order) fun _ => ?_
  refine Op.keeps_bind Inside.order (tally_keeps _ _) fun _ => ?_
  refine Op.keeps_bind Inside.order (takeLook_keeps _) fun _ => ?_
  refine Op.keeps_bind Inside.order (fastPass_keeps _) fun _ => ?_
  exact Op.keeps_bind Inside.order (updateMf_keeps _) fun _ => Op.keeps_pure Inside.order _

theorem fastLiteral_keeps : Op.Keeps Inside fastLiteral := by
  refine Op.keeps_bind Inside.order (Op.keeps_state Inside.order) fun _ => ?_
  refine Op.keeps_bind Inside.order (tallyLiteral_keeps _) fun _ => ?_
  refine Op.keeps_bind Inside.order (takeLook_keeps _) fun _ => ?_
  exact Op.keeps_bind Inside.order (advance_keeps _) fun _ => Op.keeps_pure Inside.order _

theorem searchFrom_keeps (head : Nat) : Op.Keeps Inside (searchFrom head) :=
  Op.keeps_bind Inside.order (longestMatch_keeps _) fun _ => updateMf_keeps _

theorem fastToken_keeps : Op.Keeps Inside fastToken :=
  Op.keeps_bind Inside.order (Op.keeps_state Inside.order) fun _ => Op.keeps_ite fastMatch_keeps fastLiteral_keeps

theorem fastStep_keeps : Op.Keeps Inside fastStep := by
  refine Op.keeps_bind Inside.order insertHere_keeps fun _ => ?_
  refine Op.keeps_bind Inside.order (Op.keeps_state Inside.order) fun _ => ?_
  refine Op.keeps_bind Inside.order (Op.keeps_when Inside.order (searchFrom_keeps _)) fun _ => ?_
  refine Op.keeps_bind Inside.order fastToken_keeps fun _ => ?_
  refine Op.keeps_bind Inside.order (flushIf_keeps _) fun _ => ?_
  exact Op.keeps_bind Inside.order checkWindow_keeps fun _ => Op.keeps_pure Inside.order _

theorem skipSlow_keeps (fence : Nat) : Op.Keeps Inside (skipSlow fence) := by
  refine Op.keeps_bind Inside.order (advance_keeps _) fun _ => ?_
  refine Op.keeps_bind Inside.order (Op.keeps_state Inside.order) fun _ => Op.keeps_when Inside.order ?_
  exact Op.keeps_bind Inside.order (insertString_keeps _) fun _ => Op.keeps_pure Inside.order _

theorem slowCommit_keeps : Op.Keeps Inside slowCommit := by
  refine Op.keeps_bind Inside.order (Op.keeps_state Inside.order) fun _ => ?_
  refine Op.keeps_bind Inside.order (tally_keeps _ _) fun _ => ?_
  refine Op.keeps_bind Inside.order (takeLook_keeps _) fun _ => ?_
  refine Op.keeps_bind Inside.order (Op.keeps_times Inside.order (skipSlow_keeps _) _) fun _ => ?_
  exact Op.keeps_bind Inside.order (updateMf_keeps _) fun _ => flushIf_keeps _

theorem tallyDeferred_keeps : Op.Keeps Inside tallyDeferred := by
  refine Op.keeps_bind Inside.order (Op.keeps_state Inside.order) fun _ => ?_
  exact Op.keeps_bind Inside.order (Op.keeps_require Inside.order _ _) fun _ => tallyLiteral_keeps _

theorem slowLiteral_keeps : Op.Keeps Inside slowLiteral := by
  refine Op.keeps_bind Inside.order tallyDeferred_keeps fun _ => ?_
  refine Op.keeps_bind Inside.order (flushIf_keeps _) fun _ => ?_
  exact Op.keeps_bind Inside.order (advance_keeps _) fun _ => takeLook_keeps _

theorem slowDefer_keeps : Op.Keeps Inside slowDefer :=
  Op.keeps_bind Inside.order (updateMf_keeps _) fun _ =>
    Op.keeps_bind Inside.order (advance_keeps _) fun _ => takeLook_keeps _

theorem dropShort_keeps : Op.Keeps Inside (Op.update State.dropShort) := by
  refine Op.keeps_update fun s => ?_
  unfold State.dropShort
  split
  · exact Inside.of_mem_hb rfl rfl rfl rfl rfl rfl rfl
  · exact Inside.order.refl s

theorem slowSearch_keeps (head : Nat) : Op.Keeps Inside (slowSearch head) := by
  refine Op.keeps_bind Inside.order (Op.keeps_state Inside.order) fun _ => Op.keeps_when Inside.order ?_
  exact Op.keeps_bind Inside.order (Op.keeps_when Inside.order (searchFrom_keeps _)) fun _ => dropShort_keeps

theorem slowDecide_keeps : Op.Keeps Inside slowDecide :=
  Op.keeps_bind Inside.order (Op.keeps_state Inside.order) fun _ =>
    Op.keeps_ite slowCommit_keeps (Op.keeps_ite slowLiteral_keeps slowDefer_keeps)

theorem slowStep_keeps : Op.Keeps Inside slowStep := by
  refine Op.keeps_bind Inside.order insertHere_keeps fun _ => ?_
  refine Op.keeps_bind Inside.order (updateMf_keeps _) fun _ => ?_
  refine Op.keeps_bind Inside.order (slowSearch_keeps _) fun _ => ?_
  refine Op.keeps_bind Inside.order slowDecide_keeps fun _ => ?_
  exact Op.keeps_bind Inside.order checkWindow_keeps fun _ => Op.keeps_pure Inside.order _

theorem flushDeferred_keeps : Op.Keeps Inside flushDeferred := by
  refine Op.keeps_bind Inside.order (Op.keeps_state Inside.order) fun _ => Op.keeps_when Inside.order ?_
  exact Op.keeps_bind Inside.order tallyDeferred_keeps fun _ => updateMf_keeps _

theorem driveStored_keeps (f : BitVec 3) : Op.Keeps Inside (driveStored f) :=
  Op.keeps_bind Inside.order driveFuel_keeps fun _ =>
    Op.keeps_bind Inside.order (Op.keeps_iterate Inside.order (storedRound_keeps f) _) fun _ => endDrive_keeps _ _

theorem driveFast_keeps (f : BitVec 3) : Op.Keeps Inside (driveFast f) :=
  Op.keeps_bind Inside.order driveFuel_keeps fun _ =>
    Op.keeps_bind Inside.order (Op.keeps_iterate Inside.order (matchRound_keeps f fastStep_keeps) _) fun _ =>
      endDrive_keeps _ _

theorem driveSlow_keeps (f : BitVec 3) : Op.Keeps Inside (driveSlow f) :=
  Op.keeps_bind Inside.order driveFuel_keeps fun _ =>
    Op.keeps_bind Inside.order (Op.keeps_iterate Inside.order (matchRound_keeps f slowStep_keeps) _) fun _ =>
      Op.keeps_bind Inside.order (Op.keeps_when Inside.order flushDeferred_keeps) fun _ => endDrive_keeps _ _

/-- The driver of any level stays inside the session. -/
theorem drive_keeps (f : BitVec 3) : Op.Keeps Inside (drive f) := by
  refine Op.keeps_bind Inside.order (Op.keeps_state Inside.order) fun s => ?_
  cases s.ct.driver with
  | stored => exact driveStored_keeps f
  | fast => exact driveFast_keeps f
  | slow => exact driveSlow_keeps f

end Sys2Proof.Machine
end

