-- ==== Sys2Proof/Laws/Ops.lean ====
section
/-! SUPPORT. What each shared operation can do, said once. -/

namespace Sys2Proof.Machine

/-! ### Element access (60_exceptions.md R505) -/

theorem readAt_run {w : Nat} (size : Nat) (a : Arr w) (i : Nat) (s : State) :
    (Op.readAt size a i).run s = if i < size then .ok (a.read i) s else .error (.raise .bounds) s := by
  unfold Op.readAt
  rw [Op.require_bind]
  rfl

theorem readWin_run (i : Nat) (s : State) : (readWin i).run s =
    if i < s.cfg.windowBytes then .ok (s.mem.win.read i) s else .error (.raise .bounds) s := readAt_run _ _ _ _

theorem readHead_run (i : Nat) (s : State) : (readHead i).run s =
    if i < s.cfg.hashSize then .ok (s.mem.head.read i) s else .error (.raise .bounds) s := readAt_run _ _ _ _

theorem readPrev_run (i : Nat) (s : State) : (readPrev i).run s =
    if i < s.cfg.wSize then .ok (s.mem.prev.read i) s else .error (.raise .bounds) s := readAt_run _ _ _ _

theorem readDbuf_run (i : Nat) (s : State) : (readDbuf i).run s =
    if i < s.cfg.litBufferSize then .ok (s.mem.dbuf.read i) s else .error (.raise .bounds) s := readAt_run _ _ _ _

theorem readLbuf_run (i : Nat) (s : State) : (readLbuf i).run s =
    if i < s.cfg.litBufferSize then .ok (s.mem.lbuf.read i) s else .error (.raise .bounds) s := readAt_run _ _ _ _

theorem writeHead_run (i : Nat) (v : BitVec 16) (s : State) : (writeHead i v).run s =
    if i < s.cfg.hashSize then .ok () (s.setMem { s.mem with head := s.mem.head.write i v })
    else .error (.raise .bounds) s := by
  unfold writeHead
  rw [Op.state_bind, Op.require_bind]
  rfl

theorem writePrev_run (i : Nat) (v : BitVec 16) (s : State) : (writePrev i v).run s =
    if i < s.cfg.wSize then .ok () (s.setMem { s.mem with prev := s.mem.prev.write i v })
    else .error (.raise .bounds) s := by
  unfold writePrev
  rw [Op.state_bind, Op.require_bind]
  rfl

theorem writeToken_run (i : Nat) (dist : BitVec 16) (lc : Byte) (s : State) : (writeToken i dist lc).run s =
    if i < s.cfg.litBufferSize then
      .ok () (s.setMem { s.mem with dbuf := s.mem.dbuf.write i dist, lbuf := s.mem.lbuf.write i lc })
    else .error (.raise .bounds) s := by
  unfold writeToken
  rw [Op.state_bind, Op.require_bind]
  rfl

theorem countLit_run (i k : Nat) (s : State) : (countLit i k).run s =
    if i < L_CODES then
      .ok () (s.setHb { s.hb with lfreq := s.hb.lfreq.write i (s.hb.lfreq.read i + BitVec.ofNat 16 k) })
    else .error (.raise .bounds) s := by
  unfold countLit
  rw [Op.require_bind]
  rfl

theorem countDist_run (i k : Nat) (s : State) : (countDist i k).run s =
    if i < D_CODES then
      .ok () (s.setHb { s.hb with dfreq := s.hb.dfreq.write i (s.hb.dfreq.read i + BitVec.ofNat 16 k) })
    else .error (.raise .bounds) s := by
  unfold countDist
  rw [Op.require_bind]
  rfl

theorem countBl_run (i k : Nat) (s : State) : (countBl i k).run s =
    if i < BL_CODES then
      .ok () (s.setHb { s.hb with blfreq := s.hb.blfreq.write i (s.hb.blfreq.read i + BitVec.ofNat 16 k) })
    else .error (.raise .bounds) s := by
  unfold countBl
  rw [Op.require_bind]
  rfl

/-! ### Window registers -/

theorem checkWindow_run (s : State) : checkWindow.run s =
    if s.mf.strStart + s.mf.lookAhead ≤ s.cfg.windowBytes ∧ s.mf.blockStart ≤ (s.mf.strStart : Int) then .ok () s
    else .error (.raise .invariant) s := by
  unfold checkWindow
  rw [Op.state_bind, Op.require_apply]

theorem takeLook_run (n : Nat) (s : State) : (takeLook n).run s =
    if n ≤ s.mf.lookAhead then .ok () (s.setMf { s.mf with lookAhead := s.mf.lookAhead - n })
    else .error (.raise .invariant) s := by
  unfold takeLook
  rw [Op.state_bind, Op.require_bind]
  rfl

theorem advance_run (n : Nat) (s : State) :
    (advance n).run s = .ok () (s.setMf { s.mf with strStart := s.mf.strStart + n }) := rfl

/-! ### Output (20_memory.md R105, 43_bit_packer.md R395, R396) -/

/-- `OUT` with bytes appended. -/
def State.emitted (s : State) (bytes : List Byte) : State := s.setMem { s.mem with out := s.mem.out ++ bytes }

@[simp] theorem State.emitted_emitted (s : State) (a b : List Byte) :
    (s.emitted a).emitted b = s.emitted (a ++ b) := by
  simp [State.emitted, List.append_assoc]

@[simp] theorem State.emitted_bp (s : State) (a : List Byte) : (s.emitted a).bp = s.bp := rfl

@[simp] theorem State.emitted_platform (s : State) (a : List Byte) : (s.emitted a).platform = s.platform := rfl

theorem emit_run (b : Byte) (s : State) : (emit b).run s =
    if s.outHasRoom = true then .ok () (s.emitted [b]) else .error (.raise .alloc) s := by
  unfold emit
  rw [Op.state_bind, Op.require_bind]
  rfl

theorem State.outHasRoom_of_unbounded {s : State} (h : s.unbounded) : s.outHasRoom = true := by
  simp only [State.outHasRoom, h]

theorem putByte_run {s : State} (h : s.unbounded) (b : Byte) : (putByte b).run s = .ok () (s.emitted [b]) := by
  unfold putByte
  rw [emit_run, if_pos (State.outHasRoom_of_unbounded h)]

theorem putShort_run {s : State} (h : s.unbounded) (w : BitVec 16) :
    (putShort w).run s = .ok () (s.emitted [w.extractLsb' 0 8, w.extractLsb' 8 8]) := by
  unfold putShort
  rw [Op.bind_ok (putByte_run h _), putByte_run (show (s.emitted _).unbounded from h), State.emitted_emitted]
  rfl

/-! ### Sessions, the end of a command, fault entry -/

theorem requireSession_run (s : State) : requireSession.run s =
    if s.ctl.fsm = .unconfigured then .error (.raise .notConfigured) s
    else if s.ctl.fsm = .faulted then .error (.raise .faulted) s
    else .ok () s := by
  unfold requireSession
  rw [Op.state_bind, Op.require_bind]
  by_cases h1 : s.ctl.fsm = .unconfigured
  · simp [h1]
  · rw [if_pos h1, if_neg h1, Op.require_apply]
    by_cases h2 : s.ctl.fsm = .faulted
    · simp [h2]
    · rw [if_pos h2, if_neg h2]

/-- How a command can end. -/
theorem runCommand_cases {op : Op Reply} {s t : State} (h : runCommand op s = .next t) :
    (∃ r u, op.run s = .ok r u ∧ t = u.answer r) ∨ ∃ f u, op.run s = .error (.raise f) u ∧ t = raise f u.clearInput := by
  unfold runCommand at h
  split at h
  · cases h; exact .inl ⟨_, _, ‹_›, rfl⟩
  · cases h; exact .inr ⟨_, _, ‹_›, rfl⟩
  · cases h

/-- How a stream element can end. -/
theorem runElement_cases {op : Op Unit} {s t : State} (h : runElement op s = .next t) :
    op.run s = .ok () t ∨ ∃ f u, op.run s = .error (.raise f) u ∧ t = raise f u.clearInput := by
  unfold runElement at h
  split at h
  · cases h; exact .inl ‹_›
  · cases h; exact .inr ⟨_, _, ‹_›, rfl⟩
  · cases h

/-- Fault entry writes the control register and the result, nothing else (60_exceptions.md R510). -/
theorem raise_fields (f : FaultCode) (s : State) :
    (raise f s).cfg = s.cfg ∧ (raise f s).ct = s.ct ∧ (raise f s).mf = s.mf ∧ (raise f s).tok = s.tok
    ∧ (raise f s).hb = s.hb ∧ (raise f s).bp = s.bp ∧ (raise f s).sums = s.sums ∧ (raise f s).mem = s.mem
    ∧ (raise f s).platform = s.platform ∧ (raise f s).port = { s.port with reply := some ⟨faultWord f, .none⟩ } := by
  unfold raise
  simp only
  split
  · simp
  · split <;> simp

/-- After a raise no session is open. -/
theorem raise_not_open (f : FaultCode) (s : State) : ¬ (raise f s).isOpen := by
  unfold raise State.isOpen
  simp only [State.answer_ctl]
  split
  · simp_all
  · split <;> simp

/-! ### The power-on state -/

theorem reset_memory_wf : State.reset.mem.wf = true := by decide

end Sys2Proof.Machine
end

