-- ==== Sys2Proof/Laws/PerInstr.lean ====
section
/-! SUPPORT. Per-instruction laws. Family `EncodeFixed`: the encoding of an instruction carries the fixed fields of its row
of spec/opcode_table.json. -/

namespace Sys2Proof.Laws

/-- The bits of a packet as a number. -/
def packetBits : Packet → Nat
  | .command word _ => word.toNat
  | .header bits => bits.toNat
  | .block bits => bits.toNat
  | .trailer bits => bits.toNat

/-- The row's "fixed" entries: lowest bit, width, value. -/
def fixedFields : Instr → List (Nat × Nat × Nat)
  | .configure _ _ _ _ _ => [(0, 4, 1), (22, 10, 0)]
  | .compressNoFlush _ => [(0, 32, 2)]
  | .compressPartialFlush _ => [(0, 32, 18)]
  | .compressSyncFlush _ => [(0, 32, 34)]
  | .compressFullFlush _ => [(0, 32, 50)]
  | .compressFinish _ => [(0, 32, 66)]
  | .compressFlush5 _ => [(0, 32, 82)]
  | .compressFlush6 _ => [(0, 32, 98)]
  | .compressFlush7 _ => [(0, 32, 114)]
  | .getBytes => [(0, 32, 3)]
  | .takeBytes => [(0, 32, 4)]
  | .getCrc => [(0, 32, 5)]
  | .zlibHeader _ _ _ => [(8, 4, 8), (5, 1, 0)]
  | .blockStored _ => [(1, 2, 0)]
  | .blockStatic _ => [(1, 2, 1)]
  | .blockDynamic _ => [(1, 2, 2)]
  | .blockReserved _ => [(1, 2, 3)]
  | .adlerTrailer _ => []

/-- The encoding carries the row's fixed fields. -/
def EncodeFixed.Statement (i : Instr) : Prop :=
  ∀ f ∈ fixedFields i, packetBits (encode i) / 2 ^ f.1 % 2 ^ f.2.1 = f.2.2

namespace EncodeFixed

theorem configure (level method windowBits memLevel : BitVec 4) (strategy : BitVec 2) :
    Statement (.configure level method windowBits memLevel strategy) := by
  have h1 := level.isLt
  have h2 := method.isLt
  have h3 := windowBits.isLt
  have h4 := memLevel.isLt
  have h5 := strategy.isLt
  intro f hf
  simp only [fixedFields, List.mem_cons, List.not_mem_nil, or_false] at hf
  rcases hf with rfl | rfl <;> simp only [encode, packetBits, BitVec.toNat_ofNat] <;> omega

theorem compressNoFlush (chunk : List Byte) : Statement (.compressNoFlush chunk) := by
  simp [Statement, fixedFields, encode, packetBits, compressWord]

theorem compressPartialFlush (chunk : List Byte) : Statement (.compressPartialFlush chunk) := by
  simp [Statement, fixedFields, encode, packetBits, compressWord]

theorem compressSyncFlush (chunk : List Byte) : Statement (.compressSyncFlush chunk) := by
  simp [Statement, fixedFields, encode, packetBits, compressWord]

theorem compressFullFlush (chunk : List Byte) : Statement (.compressFullFlush chunk) := by
  simp [Statement, fixedFields, encode, packetBits, compressWord]

theorem compressFinish (chunk : List Byte) : Statement (.compressFinish chunk) := by
  simp [Statement, fixedFields, encode, packetBits, compressWord]

theorem compressFlush5 (chunk : List Byte) : Statement (.compressFlush5 chunk) := by
  simp [Statement, fixedFields, encode, packetBits, compressWord]

theorem compressFlush6 (chunk : List Byte) : Statement (.compressFlush6 chunk) := by
  simp [Statement, fixedFields, encode, packetBits, compressWord]

theorem compressFlush7 (chunk : List Byte) : Statement (.compressFlush7 chunk) := by
  simp [Statement, fixedFields, encode, packetBits, compressWord]

theorem getBytes : Statement .getBytes := by unfold Statement; decide

theorem takeBytes : Statement .takeBytes := by unfold Statement; decide

theorem getCrc : Statement .getCrc := by unfold Statement; decide

theorem zlibHeader (cinfo : BitVec 4) (flevel : BitVec 2) (fcheck : BitVec 5) :
    Statement (.zlibHeader cinfo flevel fcheck) := by
  have h1 := cinfo.isLt
  have h2 := flevel.isLt
  have h3 := fcheck.isLt
  intro f hf
  simp only [fixedFields, List.mem_cons, List.not_mem_nil, or_false] at hf
  rcases hf with rfl | rfl <;> simp only [encode, packetBits, headerValue, BitVec.toNat_ofNat] <;> omega

theorem blockStored (bfinal : BitVec 1) : Statement (.blockStored bfinal) := by
  revert bfinal; unfold Statement; decide

theorem blockStatic (bfinal : BitVec 1) : Statement (.blockStatic bfinal) := by
  revert bfinal; unfold Statement; decide

theorem blockDynamic (bfinal : BitVec 1) : Statement (.blockDynamic bfinal) := by
  revert bfinal; unfold Statement; decide

theorem blockReserved (bfinal : BitVec 1) : Statement (.blockReserved bfinal) := by
  revert bfinal; unfold Statement; decide

theorem adlerTrailer (adler : Word) : Statement (.adlerTrailer adler) := by
  intro f hf
  cases hf

end EncodeFixed

end Sys2Proof.Laws
end

