-- ==== Sys2Proof/Tests/Slice0.lean ====
section
/-! SUPPORT. Tests and witnesses. The expected results are those of 95_test_vectors.md or are worked out by hand from the
rule named; a witness shows a concrete state and operands that meet all the hypotheses of a statement together. -/

namespace Sys2Proof.Tests

set_option Elab.async false

open Sys2Proof Sys2Proof.Machine Sys2Proof.Claims

/-! ### Helpers -/

/-- An outcome that is a next state with a property. -/
theorem next_of {o : Host.Outcome State Fault Refusal} {P : State → Prop} [DecidablePred P]
    (h : (nextOf o).any (fun t => decide (P t)) = true) : ∃ t, o = .next t ∧ P t := by
  cases o with
  | next t => exact ⟨t, rfl, of_decide_eq_true h⟩
  | fault f => cases h
  | refused r => cases h

/-- What an operation answers and leaves, if it comes to its end. -/
def doneOf {α : Type} (op : Op α) (s : State) : Option (α × State) :=
  match op.run s with
  | .ok a t => some (a, t)
  | .error _ _ => none

/-- The code an operation raises. -/
def raisedBy {α : Type} (op : Op α) (s : State) : Option FaultCode :=
  match op.run s with
  | .ok _ _ => none
  | .error (.raise f) _ => some f
  | .error .unbounded _ => none

/-- An operation that comes to its end with a property. -/
theorem done_of {α : Type} {op : Op α} {s : State} {P : α → State → Prop} [∀ a, DecidablePred (P a)]
    (h : (doneOf op s).any (fun r => decide (P r.1 r.2)) = true) : ∃ a t, op.run s = .ok a t ∧ P a t := by
  unfold doneOf at h
  cases e : op.run s with
  | ok a t => rw [e] at h; exact ⟨a, t, rfl, of_decide_eq_true h⟩
  | error x t => rw [e] at h; cases h

/-- The state after commands from power-on. -/
def after (cmds : List Instr) : State := (runAll cmds State.reset).getD State.reset

/-- CONFIGURE `level, 8, windowBits, memLevel, 0`. -/
def conf (level windowBits memLevel : Nat) : Instr :=
  .configure (BitVec.ofNat 4 level) 8 (BitVec.ofNat 4 windowBits) (BitVec.ofNat 4 memLevel) 0

/-- After `CONFIGURE level, 8, 9, 1, 0`, the smallest window and tables. -/
def small (level : Nat) : State := after [conf level 9 1]

/-- After `CONFIGURE level, 8, 15, 8, 0`, the configuration of 95_test_vectors.md. -/
def usual (level : Nat) : State := after [conf level 15 8]

/-- "abc". -/
def abc : List Byte := [0x61, 0x62, 0x63]

/-- `n` times "abc". -/
def abcs (n : Nat) : List Byte := (List.replicate n abc).flatten

/-- `OUT` after one instruction. -/
def outAfter (i : Instr) (s : State) : Option (List Byte) := (nextOf (exec i s)).map (·.mem.out)

/-- The result after one instruction. -/
def replyAfter (i : Instr) (s : State) : Option Reply := (nextOf (exec i s)).bind (·.port.reply)

/-- The state after power-on with a packet presented. -/
def presented (word : Nat) : State := State.reset.issue (BitVec.ofNat 32 word) []

/-! ### WellFormed refuses each ill-formed term (30_encoding.md R149, R151) -/

theorem test_illFormed_cinfo_low : (Instr.zlibHeader 0 0 29).wellFormed = false := by decide
theorem test_illFormed_cinfo_high : (Instr.zlibHeader 8 0 28).wellFormed = false := by decide
theorem test_illFormed_fcheck : (Instr.zlibHeader 7 2 27).wellFormed = false := by decide
theorem test_illFormed_reservedBlock : (Instr.blockReserved 0).wellFormed = false := by decide
theorem test_wellFormed_header : (Instr.zlibHeader 7 2 28).wellFormed = true := by decide

/-- CINFO is the only fault of the two terms above: their check bits are right. -/
theorem test_illFormed_cinfo_only : headerValue 0 0 29 % 31 = 0 ∧ headerValue 8 0 28 % 31 = 0 := by decide

/-! ### Decoding: words written out from spec/opcode_table.json and 30_encoding.md, one for every constructor -/

theorem test_decode_configure : decodeTableWord 32 0b0000000000_01_1001_1111_1000_0110_0001 =
    some (.configure 6 8 15 9 1) := by decide
theorem test_decode_compressNoFlush : decodeTableWord 32 0b000_0010 = some (.compressNoFlush []) := by decide
theorem test_decode_compressPartialFlush : decodeTableWord 32 0b001_0010 = some (.compressPartialFlush []) := by decide
theorem test_decode_compressSyncFlush : decodeTableWord 32 0b010_0010 = some (.compressSyncFlush []) := by decide
theorem test_decode_compressFullFlush : decodeTableWord 32 0b011_0010 = some (.compressFullFlush []) := by decide
theorem test_decode_compressFinish : decodeTableWord 32 0b100_0010 = some (.compressFinish []) := by decide
theorem test_decode_compressFlush5 : decodeTableWord 32 0b101_0010 = some (.compressFlush5 []) := by decide
theorem test_decode_compressFlush6 : decodeTableWord 32 0b110_0010 = some (.compressFlush6 []) := by decide
theorem test_decode_compressFlush7 : decodeTableWord 32 0b111_0010 = some (.compressFlush7 []) := by decide
theorem test_decode_getBytes : decodeTableWord 32 0b0011 = some .getBytes := by decide
theorem test_decode_takeBytes : decodeTableWord 32 0b0100 = some .takeBytes := by decide
theorem test_decode_getCrc : decodeTableWord 32 0b0101 = some .getCrc := by decide
/-- 68 DE, the header with the largest FCHECK (V-SRC-4). -/
theorem test_decode_zlibHeader : decodeTableWord 16 0b0110_1000_11_0_11110 = some (.zlibHeader 6 3 30) := by decide
theorem test_decode_blockStored : decodeTableWord 8 0b00_1 = some (.blockStored 1) := by decide
theorem test_decode_blockStatic : decodeTableWord 8 0b01_0 = some (.blockStatic 0) := by decide
theorem test_decode_blockDynamic : decodeTableWord 8 0b10_1 = some (.blockDynamic 1) := by decide
theorem test_decode_blockReserved : decodeTableWord 8 0b11_0 = some (.blockReserved 0) := by decide
theorem test_decode_adlerTrailer : decodeTableWord 32 0x024D0127 = some (.adlerTrailer 0x024D0127) := by decide

/-- V-ENC-4: the words that do not decode. -/
theorem test_decode_reserved : ∀ w ∈ [0x0, 0x6, 0xF, 0x82, 0x48F861, 0x13, 0x14, 0x80000005],
    (match decode (.command (BitVec.ofNat 32 w) []) with | .ok _ => false | .error _ => true) = true := by decide

/-- A 16-bit element with CM 7, or with FDICT 1, is no row of the table. -/
theorem test_decode_noHeader : decodeTableWord 16 0x779C = none ∧ decodeTableWord 16 0x78BC = none := by decide

/-! ### One step -/

/-- V-FLT-6: the word 0 in UNCONFIGURED. -/
theorem test_step_badCommand : (nextOf (step (presented 0))).map (fun t => (t.ctl.fsm, t.ctl.faultCode, t.port.reply)) =
    some (.unconfigured, 14, some ⟨0xE02, .none⟩) := by decide +kernel

/-- V-ENC-1, V-CMD-1: the word 0x0008F861 opens a session. -/
theorem test_step_configure : (nextOf (step (State.reset.withFetchWord 32 0x0008F861))).map
    (fun t => (t.ctl.fsm, t.mem.out)) = some (.busy, [0x78, 0x9C]) := by decide +kernel

/-! ### Commands (95_test_vectors.md section 2.2 and after) -/

/-- V-CMD-1. -/
theorem test_configure : (nextOf (exec (conf 6 15 8) State.reset)).map
    (fun t => (t.mem.out, t.sums, t.port.reply)) = some ([0x78, 0x9C], ⟨1, 0⟩, some ⟨0, .none⟩) := by decide +kernel

/-- V-ENC-5: every operand out of range. -/
theorem test_configure_illegal : ∀ w ∈ [0x0008F8A1, 0x0008F761, 0x00088861, 0x0000F861, 0x000AF861, 0x0038F861],
    (nextOf (step (presented w))).map (fun t => (t.ctl.fsm, t.ctl.faultCode, t.port.reply)) =
      some (.unconfigured, 1, some ⟨0x102, .none⟩) := by decide +kernel

/-- V-CMD-4. -/
theorem test_compressNoFlush : (nextOf (exec (.compressNoFlush abc) (usual 6))).map
    (fun t => (t.mem.out, t.mf.lookAhead, t.mf.strStart, t.mf.insH, t.sums)) =
    some ([0x78, 0x9C], 3, 0, 0x0C42, ⟨0x024D0127, 0x352441C2⟩) := by decide +kernel

/-- V-CMD-6. -/
theorem test_compressPartialFlush : (nextOf (exec (.compressPartialFlush (abcs 3)) (usual 6))).map
    (fun t => (t.mem.out, t.bp.biValid)) =
    some ([0x78, 0x9C, 0x4A, 0x4C, 0x4A, 0x4E, 0x04, 0x23], 6) := by decide +kernel

/-- V-CMD-7. -/
theorem test_compressSyncFlush : outAfter (.compressSyncFlush (abcs 3)) (usual 6) =
    some [0x78, 0x9C, 0x4A, 0x4C, 0x4A, 0x4E, 0x04, 0x23, 0, 0, 0, 0, 0xFF, 0xFF] := by decide +kernel

/-- V-CMD-8. -/
theorem test_compressFullFlush : (nextOf (exec (.compressFullFlush (abcs 3)) (usual 6))).map
    (fun t => (t.mem.out, t.mem.head)) =
    some ([0x78, 0x9C, 0x4A, 0x4C, 0x4A, 0x4E, 0x04, 0x23, 0, 0, 0, 0, 0xFF, 0xFF], []) := by decide +kernel

/-- V-MF-2, V-BC-3: chains and tokens of "abcabcabcabc", the lazy driver, a static block and the trailer. -/
theorem test_compressFinish : (nextOf (exec (.compressFinish (abcs 4)) (usual 6))).map
    (fun t => (t.mem.out, t.mem.head, t.mem.dbuf)) =
    some ([0x78, 0x9C, 0x4B, 0x4C, 0x4A, 0x4E, 0x84, 0x21, 0, 0x1D, 0xE0, 0x04, 0x99],
      [(0x42, 8), (0x401, 7), (0x823, 9)], [(4, 3)]) := by decide +kernel

/-- V-BC-3: the greedy driver at level 1. -/
theorem test_compressFinish_fast : outAfter (.compressFinish (List.replicate 10 0x61)) (usual 1) =
    some [0x78, 0x01, 0x4B, 0x4C, 0x84, 0x01, 0, 0x14, 0xE1, 0x03, 0xCB] := by decide +kernel

/-- V-CMD-9: a stored block at level 6; the result STREAM_END. -/
theorem test_compressFinish_stored : (nextOf (exec (.compressFinish abc) (usual 6))).map
    (fun t => (t.mem.out, t.ctl.fsm, t.port.reply)) =
    some ([0x78, 0x9C, 1, 3, 0, 0xFC, 0xFF, 0x61, 0x62, 0x63, 2, 0x4D, 1, 0x27], .finish, some ⟨1, .none⟩) := by
  decide +kernel

/-- V-CMD-17: level 0 with a flush. -/
theorem test_compressSyncFlush_level0 : outAfter (.compressSyncFlush abc) (usual 0) =
    some [0x78, 0x01, 0, 3, 0, 0xFC, 0xFF, 0x61, 0x62, 0x63, 0, 0, 0, 0xFF, 0xFF] := by decide +kernel

/-- V-FLT-3, and V-FLT-1: the state check comes first. -/
theorem test_compressFlush5 : replyAfter (.compressFlush5 []) (usual 6) = some ⟨0x302, .none⟩
    ∧ replyAfter (.compressFlush5 []) State.reset = some ⟨0x202, .none⟩ := by decide +kernel
theorem test_compressFlush6 : replyAfter (.compressFlush6 abc) (usual 6) = some ⟨0x302, .none⟩ := by decide +kernel
theorem test_compressFlush7 : replyAfter (.compressFlush7 abc) (usual 6) = some ⟨0x302, .none⟩ := by decide +kernel

/-- V-CMD-12, V-FLT-1. -/
theorem test_getBytes : replyAfter .getBytes (usual 6) = some ⟨0, .bytes [0x78, 0x9C]⟩
    ∧ replyAfter .getBytes State.reset = some ⟨0x202, .none⟩ := by decide +kernel

/-- V-CMD-13: TAKE_BYTES empties `OUT`. -/
theorem test_takeBytes : (nextOf (exec .takeBytes (usual 6))).map (fun t => (t.mem.out, t.port.reply)) =
    some ([], some ⟨0, .bytes [0x78, 0x9C]⟩) := by decide +kernel

/-- V-CMD-14. -/
theorem test_getCrc : replyAfter .getCrc (after [conf 6 15 8, .compressNoFlush abc]) = some ⟨0, .crc 0x352441C2⟩ := by
  decide +kernel

/-- V-FLT-7 with `OUT_CAPACITY` = 2 after CONFIGURE: F_ALLOC. -/
theorem test_alloc : replyAfter (.compressFinish abc) { usual 6 with platform := ⟨some 13⟩ } = some ⟨0xD02, .none⟩ := by
  decide +kernel

/-! ### Stream elements (30_encoding.md R149 to R159) -/

theorem test_zlibHeader : outAfter (.zlibHeader 7 2 28) State.reset = some [0x78, 0x9C] := by decide +kernel
theorem test_adlerTrailer : outAfter (.adlerTrailer 0x024D0127) State.reset = some [2, 0x4D, 1, 0x27] := by decide +kernel

/-- Level 0 with "abc" pending: the block of V-BC-2. -/
theorem test_blockStored : outAfter (.blockStored 1) (after [conf 0 15 8, .compressNoFlush abc]) =
    some [0x78, 0x01, 1, 3, 0, 0xFC, 0xFF, 0x61, 0x62, 0x63] := by decide +kernel

/-- V-BP-1 (43_bit_packer.md R399): a static block with the one literal 'a', bits 1 10 10010001 0000000, of which the first
16 stay in the accumulator. -/
theorem test_blockStatic : (nextOf (exec (.blockStatic 1)
    { State.reset with cfg := ⟨6, 8, 15, 8, 0⟩, tok := ⟨1, 0⟩, mem := { State.reset.mem with lbuf := [(0, 0x61)] } })).map
    (fun t => (t.mem.out, t.bp)) = some ([0x4B, 0x04], ⟨0, 2⟩) := by decide +kernel

/-- Trees and tokens of V-HB-4. The code-length codes are R333's for the lengths given there. -/
def dynamicState : State := { State.reset with
  cfg := ⟨6, 8, 15, 8, 0⟩
  tok := ⟨22, 7⟩
  hb := { Huffman.powerOn with
    llen := [(97, 2), (98, 1), (256, 4), (259, 3), (260, 4)], lcode := [(97, 1), (256, 7), (259, 3), (260, 15)]
    dlen := [(0, 3), (2, 3), (5, 2), (6, 2), (10, 2)], dcode := [(0, 3), (2, 7), (6, 2), (10, 1)]
    bllen := [(0, 2), (1, 4), (2, 2), (3, 3), (4, 3), (17, 4), (18, 3)]
    blcode := [(1, 7), (2, 2), (3, 1), (4, 5), (17, 15), (18, 3)]
    lMaxCode := 260, dMaxCode := 10, maxBlIndex := 17 }
  mem := { State.reset.mem with
    dbuf := [(8, 7), (12, 7), (13, 1), (14, 10), (17, 3), (18, 38), (19, 41)]
    lbuf := [(0, 98), (1, 98), (2, 98), (3, 98), (4, 97), (5, 97), (6, 98), (7, 98), (8, 2), (9, 97), (10, 98), (11, 97)]
      ++ [(12, 2), (13, 2), (14, 3), (15, 98), (16, 98), (17, 3), (18, 2), (19, 2), (20, 97), (21, 97)] } }

/-- V-HB-4: the block's 221 bits, 13 of them still in the accumulator. -/
theorem test_blockDynamic : (nextOf (exec (.blockDynamic 1) dynamicState)).map (fun t => (t.mem.out, t.bp)) =
    some ([0x25, 0xCA, 0xC1, 0x09, 0, 0, 0x0C, 0x83, 0xC0, 0x59, 0xBD, 0xFD, 0x87, 0x28, 0xA4, 0x21, 0xA0, 0x0F, 0xA1,
      0x18, 0xD2, 0xB0, 0xBD, 0xF1, 0x5F, 0xB5], ⟨0x0EB0, 13⟩) := by decide +kernel

theorem test_blockReserved : nextOf (exec (.blockReserved 0) State.reset) = none := by decide

/-! ### The sub-blocks -/

/-- V-MF-1. -/
theorem test_hash : updateHash ⟨6, 8, 15, 8, 0⟩ (updateHash ⟨6, 8, 15, 8, 0⟩ (updateHash ⟨6, 8, 15, 8, 0⟩ 0 0x61) 0x62) 0x63
    = 0x0823 := by decide
theorem test_hash_small :
    updateHash ⟨6, 8, 9, 1, 0⟩ (updateHash ⟨6, 8, 9, 1, 0⟩ (updateHash ⟨6, 8, 9, 1, 0⟩ 0 0x61) 0x62) 0x63 = 0x33 := by decide

/-- V-MF-6. -/
theorem test_lengthCodes : [3, 10, 11, 18, 19, 34, 130, 131, 257, 258].map (fun l => 257 + lcode l) =
    [257, 264, 265, 268, 269, 272, 280, 281, 284, 285] := by decide
theorem test_distCodes : [1, 4, 5, 8, 9, 33, 1024, 1025, 24577, 32506].map distCode =
    [0, 3, 4, 5, 6, 10, 19, 20, 29, 29] := by decide

/-- V-CK-1, the string of V-SRC-1. -/
theorem test_adler : adlerUpdate 1 [0x57, 0x6C, 0xE2, 0x99, 0xA5, 0, 0, 0] = 0x109102E4 := by decide +kernel
theorem test_crc : crcUpdate 0 [0x57, 0x6C, 0xE2, 0x99, 0xA5, 0, 0, 0] = 0x8BF815F8 := by decide +kernel

/-- V-HB-3. -/
theorem test_staticRom : [0, 143, 144, 255, 256, 279, 280, 287].map staticLitCode = [12, 253, 19, 511, 0, 116, 3, 227]
    ∧ [0, 1, 5, 29].map staticDistCode = [0, 16, 20, 23] := by decide

/-- V-HB-4: the literal/length tree, and its cost without the other trees. -/
def treeInput : State := { State.reset with hb :=
  { Huffman.powerOn with lfreq := [(97, 6), (98, 9), (256, 1), (259, 5), (260, 2)], dfreq := [] } }

theorem test_buildTree : (doneOf (buildTree .lit) treeInput).map (fun r => (r.2.hb.llen, r.2.hb.lcode, r.2.hb.lMaxCode)) =
    some ([(97, 2), (98, 1), (256, 4), (259, 3), (260, 4)], [(97, 1), (256, 7), (259, 3), (260, 15)], 260) := by
  decide +kernel

/-- V-HB-2: the empty distance tree. -/
theorem test_buildTree_phantoms : (doneOf (buildTree .dist) treeInput).map
    (fun r => (r.2.hb.dlen, r.2.hb.dcode, r.2.hb.dMaxCode, r.2.hb.optLen)) =
    some ([(0, 1), (1, 1)], [(1, 1)], 1, 0) := by decide +kernel

/-- V-HB-5: the length repair, with R350 item 5's `overflow` 4, 2, 0. -/
theorem test_repair : (doneOf (buildTree .bl) { State.reset with hb := { Huffman.powerOn with
    blfreq := [(0, 1), (1, 1), (2, 2), (3, 3), (4, 5), (5, 8), (6, 13), (7, 21), (8, 34), (9, 55)] } }).map
    (fun r => (r.2.hb.bllen, r.2.hb.scratch.overflow)) =
    some ([(0, 7), (1, 7), (2, 7), (3, 7), (4, 6), (5, 6), (6, 4), (7, 3), (8, 2), (9, 1)], 0) := by decide +kernel

/-- R323's examples: an empty distance tree has `dMaxCode` 1, one with code 5 alone 5; the literal/length tree always has
256. -/
theorem test_maxCodes : (doneOf buildAll (small 6)).map (fun r => (r.2.hb.lMaxCode, r.2.hb.dMaxCode)) = some (256, 1)
    ∧ (doneOf (buildTree .dist) { small 6 with hb := { (small 6).hb with dfreq := [(5, 1)] } }).map (·.2.hb.dMaxCode) = some 5 := by
  decide +kernel

/-- V-HB-6: 97 zeros, three 2s, 156 zeros, one 2. -/
theorem test_scan : scanTree (List.replicate 97 0 ++ [2, 2, 2] ++ List.replicate 156 0 ++ [2]) =
    [.manyZeros 97, .len 2, .len 2, .len 2, .manyZeros 138, .manyZeros 18, .len 2] := by decide +kernel

/-- V-BP-3: the value split across the word boundary. -/
theorem test_sendBits : (doneOf (sendBits 5 3) { State.reset with bp := ⟨0x2AAA, 14⟩ }).map
    (fun r => (r.2.mem.out, r.2.bp)) = some ([0xAA, 0x6A], ⟨1, 1⟩) := by decide +kernel

/-- V-BP-7. -/
theorem test_sendBits_raises : raisedBy (sendBits 8 3) State.reset = some .bits
    ∧ raisedBy (sendBits 0 17) State.reset = some .bits := by decide +kernel

/-- V-BP-4, V-BP-5. -/
theorem test_windup : (doneOf biWindup { State.reset with bp := ⟨0x01FF, 9⟩ }).map (fun r => (r.2.mem.out, r.2.bp)) =
    some ([0xFF, 0x01], ⟨0, 0⟩) := by decide +kernel
theorem test_flushBytes : (doneOf biFlushBytes { State.reset with bp := ⟨0x1234, 13⟩ }).map
    (fun r => (r.2.mem.out, r.2.bp)) = some ([0x34], ⟨0x12, 5⟩) := by decide +kernel

/-- R256 and R290, by hand: a match at 761 with its source at 511 (windowBits 9), compacted to strStart 250 and source -1,
is committed with its distance 250 (log 23). -/
theorem test_rebase : rebaseMatch 511 512 = BitVec.ofInt 32 (-1) := by decide
theorem test_commit_after_slide : (doneOf slowCommit { small 6 with mf := { (small 6).mf with
    strStart := 250, lookAhead := 261, prevLength := 3, prevMatch := rebaseMatch 511 512 } }).map
    (fun r => (r.2.mem.dbuf, r.2.mf.strStart)) = some ([(0, 250)], 252) := by decide +kernel

/-- V-MF-7. -/
theorem test_tally_raises : raisedBy (tally 32507 0) (usual 6) = some .matchBounds
    ∧ raisedBy (tally 0 0) { usual 6 with tok := ⟨16384, 0⟩ } = some .tokenOverflow := by decide +kernel

/-! ### Witnesses: states and operands that meet the hypotheses of the statements

`State.reset` is UNCONFIGURED; the other three values of `fsm`: -/

def busy : State := small 6
def finished : State := after [conf 6 9 1, .compressFinish abc]
def faulted : State := after [conf 6 9 1, .compressFlush5 []]

theorem witness_fsm : State.reset.ctl.fsm = .unconfigured ∧ busy.ctl.fsm = .busy ∧ finished.ctl.fsm = .finish
    ∧ faulted.ctl.fsm = .faulted := by decide +kernel

theorem getCrc_notConfigure : ¬ IsConfigure .getCrc := by rintro ⟨_, _, _, _, _, h⟩; cases h
theorem flush5_notConfigure (chunk : List Byte) : ¬ IsConfigure (.compressFlush5 chunk) := by
  rintro ⟨_, _, _, _, _, h⟩; cases h

/-! #### Encodings -/

theorem witness_CommandDecode_reserved : ∀ w ∈ [0x0, 0x6, 0xF, 0x00400001, 0x80000001, 0x82, 0x80000002, 0x13, 0x80000005],
    (presented w).port.queue = [.command (BitVec.ofNat 32 w) []] ∧ ReservedWord (BitVec.ofNat 32 w) := by decide +kernel

theorem witness_CommandDecode_command : ∀ w ∈ [0x1, 0x003FFFF1, 0x2, 0x72, 0x3, 0x4, 0x5],
    (presented w).port.queue = [.command (BitVec.ofNat 32 w) []] ∧ ¬ ReservedWord (BitVec.ofNat 32 w) := by decide +kernel

theorem witness_StepRunsDecoded : ((presented 5).port.queue = [.command 5 []] ∧ decode (.command 5 []) = .ok .getCrc)
    ∧ State.reset.port.queue = [] := ⟨⟨rfl, rfl⟩, rfl⟩

/-! #### Faults and modes -/

theorem witness_FaultEntry : faulted.ctl.fsm = .faulted ∧ State.reset.ctl.fsm = .unconfigured
    ∧ (busy.ctl.fsm = .busy ∨ busy.ctl.fsm = .finish) ∧ (finished.ctl.fsm = .busy ∨ finished.ctl.fsm = .finish) := by
  decide +kernel

theorem witness_StateChecks_session : IsCommand .getCrc ∧ ¬ IsConfigure .getCrc ∧ IsCommand (.compressFlush5 [])
    ∧ ¬ IsConfigure (.compressFlush5 []) ∧ State.reset.ctl.fsm = .unconfigured ∧ faulted.ctl.fsm = .faulted :=
  ⟨trivial, getCrc_notConfigure, trivial, flush5_notConfigure _, rfl, by decide +kernel⟩

theorem witness_StateChecks_flush : busy.isOpen ∧ finished.isOpen
    ∧ (∀ i, i = Instr.compressFlush5 [] → i = .compressFlush5 [] ∨ i = .compressFlush6 [] ∨ i = .compressFlush7 []) :=
  ⟨by decide +kernel, by decide +kernel, fun _ h => .inl h⟩

theorem witness_StateChecks_finish : ((0 : BitVec 3) ≤ 4 ∧ finished.ctl.fsm = .finish ∧ ¬ ((0 : BitVec 3) = 4 ∧ ([] : List Byte) = []))
    ∧ ((4 : BitVec 3) ≤ 4 ∧ ¬ ((4 : BitVec 3) = 4 ∧ abc = [])) := by decide +kernel

theorem witness_ModeTransitions_busy : ∃ t, exec (conf 6 9 1) State.reset = .next t ∧ t.ctl.fsm = .busy :=
  next_of (by decide +kernel)
theorem witness_ModeTransitions_finish : ∃ t, exec (.compressFinish abc) busy = .next t ∧ t.ctl.fsm = .finish :=
  next_of (by decide +kernel)
theorem witness_ModeTransitions_unconfigured : ∃ t, exec (conf 10 9 1) busy = .next t ∧ t.ctl.fsm = .unconfigured :=
  next_of (by decide +kernel)
theorem witness_ModeTransitions_faulted : (∃ t, exec .getCrc faulted = .next t ∧ faulted.ctl.fsm = .faulted)
    ∧ ¬ IsConfigure .getCrc := ⟨next_of (by decide +kernel), getCrc_notConfigure⟩

theorem witness_ResultWord : IsCommand .getBytes ∧ ∃ t, exec .getBytes busy = .next t ∧ t.port.reply.isSome = true :=
  ⟨trivial, next_of (by decide +kernel)⟩

/-! #### CONFIGURE -/

theorem witness_LegalOperands : LegalOperands 0 8 9 1 0 ∧ LegalOperands 9 8 15 9 2 ∧ LegalOperands 6 8 15 8 1 := by decide

theorem witness_ConfigureOpensSession : LegalOperands 0 8 9 1 0 ∧
    ∀ cap, ({ State.reset with platform := ⟨some 2⟩ } : State).platform.outCapacity = some cap → 2 ≤ cap :=
  ⟨by decide, fun _ h => by cases h; decide⟩

theorem witness_ConfigureRefused : ¬ LegalOperands 10 8 15 8 0 ∧ ¬ LegalOperands 6 7 15 8 0 ∧ ¬ LegalOperands 6 9 15 8 0
    ∧ ¬ LegalOperands 6 8 8 8 0 ∧ ¬ LegalOperands 6 8 15 0 0 ∧ ¬ LegalOperands 6 8 15 10 0 ∧ ¬ LegalOperands 6 8 15 8 3 := by
  decide

theorem witness_HeaderBytes : LegalOperands 9 8 15 9 2 ∧ State.reset.unbounded := by decide

/-! #### Frames -/

theorem witness_EveryInstructionFrame : (∃ t, exec .getCrc busy = .next t ∧ t.cfg = busy.cfg) ∧ ¬ IsConfigure .getCrc
    ∧ Instr.getCrc ≠ .takeBytes := ⟨next_of (by decide +kernel), getCrc_notConfigure, by decide⟩

/-- A stream element leaves a result F_ALLOC of an earlier command on the port. -/
def allocReply : State := { State.reset with port := ⟨[], some ⟨0xD02, .none⟩⟩ }

theorem witness_OutCapacity_unbounded : allocReply.unbounded
    ∧ ∃ t, exec (.adlerTrailer 0) allocReply = .next t ∧ t.port.reply = some ⟨0xD02, .none⟩ :=
  ⟨rfl, next_of (by decide +kernel)⟩

theorem witness_HasRoom (n : Nat) : HasRoom { State.reset with platform := ⟨some n⟩ } n := by
  intro cap h; cases h; simp [State.reset]

theorem witness_HasRoom_unbounded (n : Nat) : HasRoom State.reset n := fun _ h => nomatch h

theorem witness_OutCapacity_full : ¬ HasRoom { State.reset with platform := ⟨some 0⟩ } 1 := by
  intro h; exact absurd (h 0 rfl) (by decide)

/-- For GET_BYTES and for TAKE_BYTES and GET_CRC. -/
theorem witness_GetBytes : busy.isOpen ∧ finished.isOpen ∧ State.reset.ctl.fsm = .unconfigured ∧ faulted.ctl.fsm = .faulted := by
  decide +kernel

/-! #### COMPRESS -/

theorem witness_DuplicateFlush : ((0 : BitVec 3) ≤ 3 ∧ 0 ≤ busy.ctl.lastFlush ∧ busy.ctl.fsm = .busy)
    ∧ (let s := after [conf 6 9 1, .compressFullFlush []]
       (3 : BitVec 3) ≤ s.ctl.lastFlush ∧ s.ctl.fsm = .busy) := by decide +kernel

theorem witness_CompressReadsChunk : busy.ctl.fsm = .busy
    ∧ (∃ t, exec (compressWith 0 abc) busy = .next t ∧ t.ctl.fsm ≠ .faulted)
    ∧ (∃ t, exec (compressWith 4 abc) busy = .next t ∧ t.ctl.fsm ≠ .faulted) :=
  ⟨by decide +kernel, next_of (by decide +kernel), next_of (by decide +kernel)⟩

theorem witness_CompressWindow : BusyAt busy ∧ busy.mf.strStart + busy.mf.lookAhead + abc.length < busy.cfg.wSize + busy.cfg.maxDist
    ∧ ∃ t, exec (compressWith 4 abc) busy = .next t ∧ t.ctl.fsm ≠ .faulted :=
  ⟨by decide +kernel, by decide +kernel, next_of (by decide +kernel)⟩

/-- 261 bytes: the longest chunk that is only buffered. -/
theorem witness_NoFlushBuffers : BusyAt busy ∧ busy.cfg.level ≠ 0 ∧ abcs 87 ≠ []
    ∧ busy.mf.lookAhead + (abcs 87).length < 262 ∧ (abcs 87).length = 261
    ∧ busy.mf.strStart < busy.cfg.wSize + busy.cfg.maxDist ∧ busy.mf.blockStart ≤ (busy.mf.strStart : Int) := by decide +kernel

theorem witness_NoFlushNeedsMore : BusyAt busy ∧ BusyAt (small 0) ∧ abc ≠ []
    ∧ (∃ t, exec (.compressNoFlush abc) busy = .next t ∧ t.ctl.fsm ≠ .faulted)
    ∧ (∃ t, exec (.compressNoFlush abc) (small 0) = .next t ∧ t.ctl.fsm ≠ .faulted ∧ (small 0).cfg.level = 0) :=
  ⟨by decide +kernel, by decide +kernel, by decide, next_of (by decide +kernel), next_of (by decide +kernel)⟩

theorem witness_FlushEndsBlock : BusyAt busy ∧ (∀ f ∈ [(1 : BitVec 3), 2, 3, 4], 1 ≤ f ∧ f ≤ 4 ∧ ¬ Duplicate busy f abc)
    ∧ (∃ t, exec (compressWith 1 abc) busy = .next t ∧ t.ctl.fsm ≠ .faulted)
    ∧ (∃ t, exec (compressWith 2 abc) busy = .next t ∧ t.ctl.fsm ≠ .faulted)
    ∧ (∃ t, exec (compressWith 3 abc) busy = .next t ∧ t.ctl.fsm ≠ .faulted)
    ∧ (∃ t, exec (compressWith 4 abc) busy = .next t ∧ t.ctl.fsm ≠ .faulted) ∧ busy.ct.driver = .slow :=
  ⟨by decide +kernel, by decide +kernel, next_of (by decide +kernel), next_of (by decide +kernel),
   next_of (by decide +kernel), next_of (by decide +kernel), by decide +kernel⟩

theorem witness_EmptyFlush : BusyAt busy ∧ busy.cfg.level ≠ 0 ∧ (∀ f ∈ [(1 : BitVec 3), 4], 1 ≤ f ∧ f ≤ 4 ∧ ¬ Duplicate busy f [])
    ∧ busy.unbounded ∧ busy.MemoryOk ∧ busy.bp.Ok ∧ BlockFresh busy ∧ busy.mf.lookAhead = 0
    ∧ busy.mf.matchAvailable = false ∧ busy.mf.strStart ≤ busy.cfg.windowBytes
    ∧ busy.mf.blockStart = (busy.mf.strStart : Int) := by decide +kernel

theorem witness_Level0Stream : BusyAt (small 0) ∧ (small 0).cfg.level = 0 ∧ ¬ Duplicate (small 0) 0 abc
    ∧ ¬ Duplicate (small 0) 4 [] ∧ (small 0).unbounded ∧ (small 0).MemoryOk ∧ (small 0).StoredOk ∧ (small 0).WindowOk
    ∧ (small 0).bp.Ok := by decide +kernel

theorem witness_Level0Chunking : BusyAt (small 0) ∧ (small 0).cfg.level = 0 ∧ [[], abc, []].flatten ≠ []
    ∧ (small 0).unbounded ∧ (small 0).MemoryOk ∧ (small 0).StoredOk ∧ (small 0).WindowOk ∧ (small 0).bp.Ok := by decide +kernel

theorem witness_ChunkingEveryLevel : ∃ s u v, exec (.configure 6 8 9 1 0) State.reset = .next s ∧ s.ctl.fsm = .busy
    ∧ runAll ([[], abc].map .compressNoFlush ++ [compressWith 4 abc]) s = some u
    ∧ exec (compressWith 4 ([[], abc].flatten ++ abc)) s = .next v := by
  obtain ⟨s, h1, h2, h3, h4⟩ : ∃ s, exec (.configure 6 8 9 1 0) State.reset = .next s ∧ s.ctl.fsm = .busy
      ∧ (runAll ([[], abc].map .compressNoFlush ++ [compressWith 4 abc]) s).isSome = true
      ∧ (nextOf (exec (compressWith 4 ([[], abc].flatten ++ abc)) s)).any (fun _ => decide True) = true :=
    next_of (by decide +kernel)
  obtain ⟨u, h5⟩ := Option.isSome_iff_exists.mp h3
  obtain ⟨v, h6, -⟩ := next_of (P := fun _ => True) h4
  exact ⟨s, u, v, h1, h2, h5, h6⟩

/-- Split points 0, 761 (one short of the first compaction) and 1024 (two whole windows) of the smallest window; 1273 is the
last clear one of its row, 762 and 1274 are not clear. -/
theorem witness_ChunkingAtClearSplits : LegalOperands 9 8 9 1 0 ∧ (4 : BitVec 3) ≤ 4
    ∧ (∀ k, ClearSplit (2 ^ (9 : BitVec 4).toNat)
        (([[], List.replicate 761 0, List.replicate 263 0] : List (List Byte)).take k).flatten.length)
    ∧ ∃ s, exec (.configure 9 8 9 1 0) State.reset = .next s ∧ s.ctl.fsm = .busy :=
  ⟨by decide, by decide,
    fun k => match k with
      | 0 => by decide
      | 1 => by decide
      | 2 => by decide +kernel
      | k + 3 => by
        show ClearSplit _ ([] ++ (List.replicate 761 0 ++ (List.replicate 263 (0 : Byte) ++ (List.take k []).flatten))).length
        rw [List.take_nil]; decide +kernel,
    next_of (by decide +kernel)⟩

theorem test_clear_split : ClearSplit 512 1273 ∧ ¬ ClearSplit 512 762 ∧ ¬ ClearSplit 512 1274 := by decide

theorem witness_EveryCommandCompletes : IsCommand (.compressFinish abc)
    ∧ ∀ s ∈ [State.reset, busy, small 0, finished, faulted], s.ModeOk ∧ s.StoredOk := ⟨trivial, by decide +kernel⟩

/-- Fresh sessions, one with data waiting and one with bits of a PARTIAL_FLUSH still in the accumulator. -/
def sessions : List State :=
  [busy, small 0, after [conf 1 9 1, .compressNoFlush abc], after [conf 6 9 1, .compressPartialFlush (abcs 3)]]

theorem witness_CompressCompletes : ∀ s ∈ sessions, s.ctl.fsm = .busy ∧ s.unbounded ∧ s.MemoryOk ∧ s.ModeOk ∧ s.WindowOk := by
  decide +kernel
theorem witness_CompressCompletes_tokens : ∀ s ∈ sessions, s.AccOk ∧ s.TokensOk ∧ s.StoredOk := by decide +kernel
theorem witness_CompressCompletes_search : ∀ s ∈ sessions, s.SearchOk := by decide +kernel
theorem witness_CompressCompletes_counts : ∀ s ∈ sessions, s.CountsOk := by decide +kernel

theorem witness_InternalFaultsUnreachable : (∀ i ∈ [Instr.getCrc], IsCommand i)
    ∧ ∃ t, runAll [.getCrc] State.reset = some t ∧ t.port.reply = some ⟨0x202, .none⟩ :=
  ⟨List.forall_mem_singleton.mpr trivial, _, rfl, by decide +kernel⟩

/-! #### Memories, match finder -/

/-- `busy` with "abc" in `IN`. -/
def waiting : State := { busy with mem := { busy.mem with input := abc } }

theorem witness_ReadBuf : busy.MemoryOk ∧ waiting.MemoryOk ∧ busy.mem.input.take 1 = []
    ∧ (waiting.mem.input.take 3 ≠ [] ∧ waiting.cfg.windowBytes < 1022 + (waiting.mem.input.take 3).length)
    ∧ (waiting.mem.input.take 3 ≠ [] ∧ 1021 + (waiting.mem.input.take 3).length ≤ waiting.cfg.windowBytes) := by
  decide +kernel

theorem witness_Checksums : ((1 : Word).toNat % 65536 < 65521 ∧ (1 : Word).toNat / 65536 < 65521)
    ∧ ((0xFFF0FFF0 : Word).toNat % 65536 < 65521 ∧ (0xFFF0FFF0 : Word).toNat / 65536 < 65521) := by decide

theorem witness_UpdateHash : (⟨0, 8, 9, 1, 0⟩ : Settings).legal = true ∧ (⟨9, 8, 15, 9, 2⟩ : Settings).legal = true := by decide

theorem witness_InsertString : busy.cfg.legal = true ∧ busy.MemoryOk ∧ 1021 + 2 < busy.cfg.windowBytes := by decide +kernel

/-- Data up to the end of a window of 1024 bytes. -/
def atEnd : State := { busy with mf := { busy.mf with strStart := 762, lookAhead := 262, blockStart := 762 } }

theorem witness_Slide : atEnd.MemoryOk ∧ atEnd.cfg.wSize + atEnd.cfg.maxDist ≤ atEnd.mf.strStart
    ∧ atEnd.mf.strStart + atEnd.mf.lookAhead ≤ atEnd.cfg.windowBytes ∧ atEnd.mf.blockStart ≤ (atEnd.mf.strStart : Int)
    ∧ -2147483648 ≤ atEnd.mf.matchStart.toInt - atEnd.cfg.wSize := by
  decide +kernel

theorem witness_FillPostcondition : waiting.cfg.legal = true ∧ waiting.mf.strStart ≤ waiting.cfg.windowBytes
    ∧ ∃ a t, fillWindow.run waiting = .ok a t ∧ t.mem.input = [] :=
  ⟨by decide +kernel, by decide +kernel, done_of (by decide +kernel)⟩

/-- A match held back at the compaction point, its source at `wSize - 1` and the held byte `MAX_DIST` after it, and the fill
that takes `matchStart` to -1. -/
def heldAtEdge : State := { atEnd with mf := { atEnd.mf with lookAhead := 261, matchStart := 511 } }

theorem witness_FillPostcondition_held : heldAtEdge.cfg.legal = true ∧ heldAtEdge.mf.strStart ≤ heldAtEdge.cfg.windowBytes
    ∧ 0 ≤ heldAtEdge.mf.matchStart.toInt ∧ heldAtEdge.mf.matchStart.toInt + 1 < (heldAtEdge.mf.strStart : Int)
    ∧ (heldAtEdge.mf.strStart : Int) - 1 - heldAtEdge.mf.matchStart.toInt ≤ (heldAtEdge.cfg.maxDist : Int)
    ∧ ∃ a t, fillWindow.run heldAtEdge = .ok a t ∧ t.mf.matchStart.toInt = -1 :=
  ⟨by decide +kernel, by decide +kernel, by decide +kernel, by decide +kernel, by decide +kernel, done_of (by decide +kernel)⟩

/-- Level `level` with "abcabcabcabc" not yet compressed and nothing behind. -/
def start (level : Nat) : State := after [conf level 9 1, .compressNoFlush (abcs 4)]

/-- One round of the greedy driver. -/
def oneRound (s : State) : State := ((doneOf fastStep s).map (·.2)).getD s

/-- Level 1 after the literals "abca": "bcabcabc" at position 4 repeats position 1. -/
def midway : State := oneRound (oneRound (oneRound (oneRound (start 1))))

/-- From position 1 the search finds a match of the whole lookahead; at position 0 the same
candidate has nothing in common, and the answer is `prevLength`. -/
theorem witness_LongestMatchIsAMatch :
    (∃ len t, (longestMatch 1).run midway = .ok len t ∧ len = 8) ∧ (∃ len t, (longestMatch 1).run (start 1) = .ok len t ∧ len = 2) :=
  ⟨done_of (by decide +kernel), done_of (by decide +kernel)⟩

/-- The second half: from candidate 1 there is something better than `prevLength`, from candidate 2 nothing. -/
theorem witness_LongestMatchIsAMatch_finds : midway.cfg.legal = true ∧ midway.ct = ctRow midway.cfg.level
    ∧ midway.ct.driver ≠ .stored ∧ midway.mf.strStart + midway.mf.lookAhead ≤ midway.cfg.windowBytes
    ∧ 2 < midway.mf.strStart ∧ (∀ p ∈ midway.mem.prev, p.2.toNat < midway.mf.strStart)
    ∧ midway.mf.prevLength < bestOf midway 1 ∧ bestOf midway 2 = midway.mf.prevLength := by decide +kernel

/-- `busy` with `n` tokens; `litBufferSize` is 128. -/
def withTokens (n : Nat) : State := { busy with tok := ⟨n, 0⟩ }

theorem witness_Tally : (∀ n ∈ [126, 127, 128], (withTokens n).MemoryOk)
    ∧ (withTokens 128).cfg.litBufferSize ≤ (withTokens 128).tok.lastLit
    ∧ ((withTokens 127).tok.lastLit < (withTokens 127).cfg.litBufferSize ∧ (withTokens 127).cfg.maxDist < 251)
    ∧ ((withTokens 127).tok.lastLit < (withTokens 127).cfg.litBufferSize ∧ 250 ≤ (withTokens 127).cfg.maxDist)
    ∧ (withTokens 127).mf.blockStart ≤ ((withTokens 127).mf.strStart : Int) := by
  decide +kernel

/-- The 8192nd token of a session whose heuristic fires: 8191 literals and matches over 60000 bytes, fewer than half of
them matches, and 65536 + 20000 estimated bits. -/
def sparseState : State := { usual 6 with
  tok := ⟨8191, 4000⟩, mf := { (usual 6).mf with strStart := 60000 }, hb := { (usual 6).hb with dfreq := [(0, 4000)] } }

theorem witness_Tally_sparse : sparseState.MemoryOk ∧ ∃ b t, (tally 0 97).run sparseState = .ok b t
    ∧ b = true ∧ t.tok.lastLit = 8192 ∧ t.tok.lastLit + 1 ≠ t.cfg.litBufferSize :=
  ⟨by decide +kernel, done_of (by decide +kernel)⟩

/-- The last two clauses of the third case: the 127th token ends the block, the first one does not. -/
theorem witness_Tally_flush : (∃ b t, (tally 250 255).run (withTokens 126) = .ok b t ∧ t.tok.lastLit + 1 = 128)
    ∧ (∃ b t, (tally 0 255).run (withTokens 0) = .ok b t ∧ t.tok.lastLit % 8192 ≠ 0 ∧ t.tok.lastLit + 1 ≠ 128) :=
  ⟨done_of (by decide +kernel), done_of (by decide +kernel)⟩

theorem witness_FastStepIsLossless : ∀ s ∈ [start 1, midway], s.cfg.legal = true ∧ s.ct = ctRow s.cfg.level
    ∧ s.ct.driver = .fast ∧ s.MemoryOk ∧ s.mf.matchLength < 3 ∧ s.mf.prevLength = 2 ∧ 1 ≤ s.mf.lookAhead
    ∧ (∀ p ∈ s.mem.head, p.2.toNat < s.mf.strStart) ∧ (∀ p ∈ s.mem.prev, p.2.toNat < s.mf.strStart) := by decide +kernel

/-- A round that appends a literal and a round that appends a match. -/
theorem witness_FastStepIsLossless_rounds :
    (∃ l t, fastStep.run (start 1) = .ok l t ∧ l = .again ∧ (t.mem.dbuf.read (start 1).tok.lastLit).toNat = 0)
    ∧ (∃ l t, fastStep.run midway = .ok l t ∧ l = .again ∧ (t.mem.dbuf.read midway.tok.lastLit).toNat = 3) :=
  ⟨done_of (by decide +kernel), done_of (by decide +kernel)⟩

/-- The lazy driver with the byte before `strStart` held back: without a match, and with one of length 3. -/
def heldByte : State := { start 6 with mf := { (start 6).mf with strStart := 1, lookAhead := 5, matchAvailable := true } }
def heldMatch : State := { start 6 with mf := { (start 6).mf with
  strStart := 4, lookAhead := 2, matchAvailable := true, matchLength := 3, matchStart := 0 } }

theorem witness_SlowStepIsLossless_held : ∀ s ∈ [start 6, heldByte, heldMatch], DeferredOk s := by decide +kernel

theorem witness_SlowStepIsLossless : ∀ s ∈ [start 6, heldByte, heldMatch], s.cfg.legal = true ∧ s.ct = ctRow s.cfg.level
    ∧ s.ct.driver = .slow ∧ s.MemoryOk ∧ 1 ≤ s.mf.lookAhead
    ∧ (∀ p ∈ s.mem.head, p.2.toNat < s.mf.strStart) ∧ (∀ p ∈ s.mem.prev, p.2.toNat < s.mf.strStart) := by decide +kernel

/-- A round that holds a byte back, one that appends a literal and one that appends a match. -/
theorem witness_SlowStepIsLossless_rounds :
    (∃ l t, slowStep.run (start 6) = .ok l t ∧ l = .again ∧ (start 6).mf.matchAvailable = false)
    ∧ (∃ l t, slowStep.run heldByte = .ok l t ∧ l = .again ∧ heldByte.mf.matchAvailable = true
        ∧ (t.mem.dbuf.read heldByte.tok.lastLit).toNat = 0)
    ∧ (∃ l t, slowStep.run heldMatch = .ok l t ∧ l = .again ∧ heldMatch.mf.matchAvailable = true
        ∧ (t.mem.dbuf.read heldMatch.tok.lastLit).toNat = 3) :=
  ⟨done_of (by decide +kernel), done_of (by decide +kernel), done_of (by decide +kernel)⟩

/-! #### Huffman builder -/

theorem witness_SymbolTables : ((284, 5, 227, 257) ∈ lengthTable ∧ 227 ≤ 257) ∧ ((29, 13, 24577, 32768) ∈ distTable ∧ 24577 ≤ 32768) := by
  decide

theorem witness_TreeIsComplete : treeInput.MemoryOk ∧ State.reset.MemoryOk ∧ freqOf treeInput.hb .lit 98 ≠ 0 := by decide +kernel

/-- No symbol occurs. -/
theorem witness_TreeIsComplete_empty (n : Nat) : freqOf State.reset.hb .bl n = 0 := by
  simp [freqOf, State.reset, Huffman.powerOn, Huffman.freqs]

/-- One symbol occurs: 256 in a fresh block. -/
theorem witness_TreeIsComplete_one (n : Nat) :
    freqOf { Huffman.powerOn with lfreq := [(256, 1)] } .lit n ≠ 0 ↔ n = 256 := by
  by_cases h : n = 256 <;> simp [freqOf, Huffman.freqs, Arr.read, h]

/-- Symbols 256 and 260 have codes of 4 bits, symbol 98 one of 1 bit. -/
theorem witness_CodesAreCanonical : treeInput.MemoryOk ∧ ∃ a t, (buildTree .lit).run treeInput = .ok a t
    ∧ lenOf t.hb .lit 256 ≠ 0 ∧ lenOf t.hb .lit 260 ≠ 0 ∧ 256 < 260 ∧ lenOf t.hb .lit 256 = lenOf t.hb .lit 260
    ∧ lenOf t.hb .lit 98 ≠ 0 ∧ 98 ≠ 260 ∧ lenOf t.hb .lit 98 ≤ lenOf t.hb .lit 260 :=
  ⟨by decide +kernel, done_of (by decide +kernel)⟩

theorem witness_TreeCost : treeInput.MemoryOk ∧ (∃ a t, (buildTree .lit).run treeInput = .ok a t ∧ Tree.lit.hasStatic = true)
    ∧ (∃ a t, (buildTree .bl).run treeInput = .ok a t ∧ Tree.bl.hasStatic = false) :=
  ⟨by decide +kernel, done_of (by decide +kernel), done_of (by decide +kernel)⟩

theorem witness_ScanCutsRuns : ∀ l ∈ [15, 15, 15, 15, 15, 0, 0, 0], l ≤ 15 := by decide

theorem witness_StaticRoms : (143 < 288 ∧ 143 ≤ 143) ∧ (144 ≤ 144 ∧ 255 < 288 ∧ 144 ≤ 255 ∧ 255 ≤ 255)
    ∧ (256 < 288 ∧ 256 ≤ 256 ∧ 279 ≤ 279) ∧ (280 ≤ 280 ∧ 287 < 288 ∧ 280 ≤ 287) ∧ 29 < 30 := by decide

/-! #### Bit packer, block controller, elements -/

/-- 13 bits in the accumulator. -/
def packing : State := { State.reset with bp := ⟨0x1FFF, 13⟩ }

/-- Four literals pending at level 1; nothing pending at level 0. -/
theorem witness_BlockBoundary : ∀ s ∈ [midway, small 0], s.cfg.legal = true ∧ s.MemoryOk ∧ s.bp.Ok ∧ s.unbounded
    ∧ s.mf.strStart ≤ s.cfg.windowBytes ∧ s.mf.blockStart ≤ (s.mf.strStart : Int) := by decide +kernel
theorem witness_BlockBoundary_tokens : ∀ s ∈ [midway, small 0], s.tok.lastLit ≤ s.cfg.litBufferSize ∧ s.Counted := by
  decide +kernel
theorem witness_BlockBoundary_stored : midway.cfg.level ≠ 0 ∧ midway.tok.lastLit = 4 ∧ (small 0).cfg.level = 0
    ∧ 0 ≤ (small 0).mf.blockStart ∧ ((small 0).mf.strStart : Int) - (small 0).mf.blockStart ≤ 65535 := by decide +kernel

theorem witness_CostsAreLengths : midway.cfg.legal = true ∧ midway.MemoryOk ∧ midway.tok.lastLit ≤ midway.cfg.litBufferSize
    ∧ (∀ i, i < midway.tok.lastLit → (midway.mem.dbuf.read i).toNat ≤ 32768) ∧ midway.hb.optLen = 0
    ∧ midway.hb.staticLen = 0 := by decide +kernel
theorem witness_CostsAreLengths_counts : ExactCounts midway := by decide +kernel

theorem witness_SendBits : packing.bp.Ok ∧ packing.unbounded ∧ 16 < 17 ∧ 2 ^ 3 ≤ 8
    ∧ (3 ≤ 16 ∧ 7 < 2 ^ 3 ∧ packing.bp.biValid + 3 ≤ 16) ∧ (4 ≤ 16 ∧ 15 < 2 ^ 4 ∧ 16 < packing.bp.biValid + 4) := by decide

theorem witness_BitStream : packing.bp.Ok ∧ packing.unbounded ∧ (16 ≤ 16 ∧ 65535 < 2 ^ 16)
    ∧ State.reset.bp.Ok ∧ State.reset.unbounded ∧ State.reset.bp.biValid = 0 := by decide

/-- Level 0; the "abc" block (stored 8 ≤ 9); "aaaaaaaaaa" (V-BC-3); the block of V-HB-4. -/
theorem witness_ModeSelector :
    (3 + 5 ≤ min ((117 + 3 + 7) / 8) ((34 + 3 + 7) / 8) + 4 ∧ 3 ≤ 65535 ∧ (0 : Int) ≤ 0)
    ∧ (6 ≠ 0 ∧ ¬ (10 + 5 ≤ min ((117 + 3 + 7) / 8) ((35 + 3 + 7) / 8) + 4) ∧ (35 + 3 + 7) / 8 ≤ (117 + 3 + 7) / 8)
    ∧ (6 ≠ 0 ∧ ¬ (52 + 5 ≤ min ((218 + 3 + 7) / 8) ((223 + 3 + 7) / 8) + 4) ∧ (218 + 3 + 7) / 8 < (223 + 3 + 7) / 8) := by
  decide

theorem witness_HeaderAndTrailerElements : (HasRoom { State.reset with platform := ⟨some 2⟩ } 2 ∧ HasRoom State.reset 2)
    ∧ (HasRoom { State.reset with platform := ⟨some 4⟩ } 4 ∧ HasRoom State.reset 4) :=
  ⟨⟨witness_HasRoom 2, witness_HasRoom_unbounded 2⟩, witness_HasRoom 4, witness_HasRoom_unbounded 4⟩

/-- The largest window, with `strStart` and `blockStart` given. -/
def window15 (strStart : Nat) (blockStart : Int) : State :=
  { State.reset with cfg := ⟨0, 8, 15, 8, 0⟩, mf := { State.reset.mf with strStart := strStart, blockStart := blockStart } }

theorem witness_BlockStoredElement : (∀ s ∈ [window15 65535 0, window15 65536 0, window15 0 (-1)], s.bp.Ok ∧ s.unbounded
      ∧ s.mf.strStart ≤ s.cfg.windowBytes ∧ s.mf.blockStart ≤ (s.mf.strStart : Int))
    ∧ (0 ≤ (window15 65535 0).mf.blockStart ∧ ((window15 65535 0).mf.strStart : Int) - (window15 65535 0).mf.blockStart ≤ 65535)
    ∧ 65535 < ((window15 65536 0).mf.strStart : Int) - (window15 65536 0).mf.blockStart
    ∧ (window15 0 (-1)).mf.blockStart < 0 := by decide

theorem witness_BlockStaticElement : dynamicState.bp.Ok ∧ dynamicState.unbounded
    ∧ dynamicState.tok.lastLit ≤ dynamicState.cfg.litBufferSize
    ∧ ∀ i, i < dynamicState.tok.lastLit → (dynamicState.mem.dbuf.read i).toNat ≤ 32768 := by decide +kernel

/-- A bound on the entries of a register file whose lengths are in another, from its listed entries. -/
theorem codes_below {a : Arr 15} {b : Arr 4} (h : ∀ p ∈ a, p.2.toNat < 2 ^ (b.read p.1).toNat) (n : Nat) :
    (a.read n).toNat < 2 ^ (b.read n).toNat := by
  by_cases e : a.read n = 0
  · rw [e]; exact Nat.two_pow_pos _
  · exact h _ (Arr.read_ne_zero_mem e)

theorem witness_BlockDynamicElement : 256 ≤ dynamicState.hb.lMaxCode ∧ dynamicState.hb.lMaxCode < 286
    ∧ dynamicState.hb.dMaxCode < 30 ∧ 3 ≤ dynamicState.hb.maxBlIndex ∧ dynamicState.hb.maxBlIndex ≤ 18
    ∧ (∀ n, (dynamicState.hb.bllen.read n).toNat ≤ 7)
    ∧ (∀ tree n, ((dynamicState.hb.codes tree).read n).toNat < 2 ^ ((dynamicState.hb.lens tree).read n).toNat) := by
  refine ⟨by decide, by decide, by decide, by decide, by decide, fun n => ?_, fun tree n => ?_⟩
  · by_cases e : dynamicState.hb.bllen.read n = 0
    · rw [e]; decide
    · exact (by decide : ∀ p ∈ dynamicState.hb.bllen, p.2.toNat ≤ 7) _ (Arr.read_ne_zero_mem e)
  · exact codes_below (by cases tree <;> decide) n

/-! #### Invariants: a session with a COMPRESS presented, and every state of `fsm` -/

def stepping : State := busy.issue 0x42 abc

theorem witness_StepKeeps : stepping.isOpen ∧ stepping.MemoryOk ∧ stepping.mem.input = [] ∧ stepping.WindowOk
    ∧ stepping.AccOk ∧ stepping.ModeOk ∧ stepping.StoredOk ∧ stepping.TokensOk ∧ stepping.ChainsOk
    ∧ ∃ t, step stepping = .next t ∧ t.ctl.fsm = .finish :=
  ⟨by decide +kernel, by decide +kernel, by decide +kernel, by decide +kernel, by decide +kernel, by decide +kernel,
   by decide +kernel, by decide +kernel, by decide +kernel, next_of (by decide +kernel)⟩

end Sys2Proof.Tests
end

