-- ==== Sys2Proof/Proofs/Chunking.lean ====
section
/-! Chunking is visible at level 1: a refutation of R117 as the spec states it (20_memory.md R117, log 21).

The smallest window has `wSize` = 512, `MAX_DIST` = 250 and 1024 bytes, and `markedInput` is just long enough to fill it.
Its row of 250 bytes comes four times, with the mark "1 2" at positions 12, 262, 512 and 762. The token at position 762
decides: its only candidate is the mark at 512, at distance `MAX_DIST`.

* All in one command: 262 bytes are left at 762, so no fill runs (R285). The candidate is taken, a match of 250 bytes.
* Cut one byte before the end: 261 bytes are left at 762, so the fill runs, and it compacts because `strStart` is
  `wSize + MAX_DIST` (R257). The chain entry 512 becomes 0, which is NIL (R256, R262), and the token is a literal.

All other searches end at the first candidate, but for a few of the first row, so the runs stay short to evaluate. -/

namespace Sys2Proof.Proofs

open Sys2Proof.Machine Sys2Proof.Claims

/-- The next state of an outcome is the outcome itself. -/
theorem eq_next_of_nextOf {o : Host.Outcome State Fault Refusal} {t : State} (h : nextOf o = some t) : o = .next t := by
  cases o with
  | next s => exact congrArg _ (Option.some.inj h)
  | fault r => cases h
  | refused r => cases h

/-- Twelve zeros, the mark, zeros: 250 bytes. -/
def markedRow : List Byte := List.replicate 12 0 ++ [1, 2] ++ List.replicate 236 0

/-- Four rows and 23 zeros: one byte less than the window holds. -/
def markedInput : List Byte := markedRow ++ markedRow ++ markedRow ++ markedRow ++ List.replicate 23 0

/-- The last byte of the input. -/
def finalByte : List Byte := [0]

/-- After `CONFIGURE 1, 8, 9, 1, 0`: level 1 over the smallest window. -/
def smallSession : State := (nextOf (exec (.configure 1 8 9 1 0) State.reset)).getD State.reset

theorem exec_configure_reset : exec (.configure 1 8 9 1 0) State.reset = .next smallSession := rfl

theorem smallSession_busy : smallSession.ctl.fsm = .busy := rfl

/-- `OUT` after a NO_FLUSH of all but the last byte and a FINISH of that byte. -/
theorem out_of_split_input :
    (runAll ([markedInput].map .compressNoFlush ++ [compressWith 4 finalByte]) smallSession).map (·.mem.out)
      = some [24, 25, 99, 96, 64, 0, 70, 38, 8, 61, 242, 192, 168, 207, 71, 30, 96, 28, 177, 62, 71, 6, 0, 33, 212, 0, 13] := by
  decide +kernel

/-- `OUT` after one FINISH of the same bytes. -/
theorem out_of_whole_input :
    (nextOf (exec (compressWith 4 ([markedInput].flatten ++ finalByte)) smallSession)).map (·.mem.out)
      = some [24, 25, 99, 96, 64, 0, 70, 38, 8, 61, 242, 192, 168, 207, 71, 30, 24, 185, 62, 71, 6, 0, 33, 212, 0, 13] := by
  decide +kernel

/-- Refutes O25: level 1, windowBits 9 and 1024 bytes, the last of them in a command of its own. The streams part where the
compaction of the split run has turned the chain entry 512 into NIL. -/
theorem not_chunkingEveryLevel : ¬ Obligations.ChunkingEveryLevel := by
  unfold Obligations.ChunkingEveryLevel
  intro h
  obtain ⟨u, hu, split⟩ := Option.map_eq_some_iff.mp out_of_split_input
  obtain ⟨v, hv, whole⟩ := Option.map_eq_some_iff.mp out_of_whole_input
  have same : u.mem.out = v.mem.out := h 1 9 1 0 4 [markedInput] finalByte smallSession u v (by decide)
    exec_configure_reset smallSession_busy hu (eq_next_of_nextOf hv)
  rw [split, whole] at same
  exact absurd same (by decide)

end Sys2Proof.Proofs
end

