-- ==== Sys2Proof/Proofs/HeaderBytes.lean ====
section
/-! A legal CONFIGURE and the two zlib header bytes it leaves in `OUT` (30_encoding.md R149, 44_block_controller.md R424).

The run of CONFIGURE is said once, for any `OUT` with room for two bytes. The two bytes are then read as numbers. -/

namespace Sys2Proof.Proofs

open Sys2Proof.Machine Sys2Proof.Claims

/-! ### Emission with room in `OUT` -/

theorem outHasRoom_of_hasRoom {s : State} {n : Nat} (h : HasRoom s (n + 1)) : s.outHasRoom = true := by
  unfold State.outHasRoom
  split
  · rfl
  · next cap hcap =>
    have := h cap hcap
    exact decide_eq_true (by omega)

/-- A byte emitted takes one place of the room. -/
theorem hasRoom_emitted {s : State} {n : Nat} (h : HasRoom s (n + 1)) (b : Byte) : HasRoom (s.emitted [b]) n := by
  intro cap hcap
  have := h cap hcap
  simp only [State.emitted, State.setMem_mem, List.length_append, List.length_singleton]
  omega

theorem putByte_run_of_hasRoom {s : State} {n : Nat} (h : HasRoom s (n + 1)) (b : Byte) :
    (putByte b).run s = .ok () (s.emitted [b]) := by
  unfold putByte
  rw [emit_run, if_pos (outHasRoom_of_hasRoom h)]

theorem putHeader_run {s : State} (h : HasRoom s 2) (cinfo : BitVec 4) (flevel : BitVec 2) (fcheck : BitVec 5) :
    (putHeader cinfo flevel fcheck).run s = .ok () (s.emitted [cinfo ++ 8#4, flevel ++ 0#1 ++ fcheck]) := by
  unfold putHeader
  rw [Op.bind_ok (putByte_run_of_hasRoom h _), putByte_run_of_hasRoom (hasRoom_emitted h _), State.emitted_emitted]
  rfl

/-! ### The run of a legal CONFIGURE -/

/-- CMF of a session. -/
def cmfByte (c : Settings) : Byte := BitVec.ofNat 4 (c.windowBits.toNat - 8) ++ 8#4

/-- FLG of a session. -/
def flgByte (c : Settings) : Byte :=
  BitVec.ofNat 2 (flevelOf c.level.toNat c.strategy) ++ 0#1 ++ BitVec.ofNat 5 (31 - headerBase c % 31)

theorem zlibHeader_run {s : State} (h : HasRoom s 2) :
    zlibHeader.run s = .ok () (s.emitted [cmfByte s.cfg, flgByte s.cfg]) := by
  unfold zlibHeader
  rw [Op.state_bind, putHeader_run h]
  rfl

/-- The state before the header bytes: configuration latched, everything else fresh (70_reset_and_hazards.md R540). -/
def latchedFresh (c : Settings) (s : State) : State := ((s.setCfg c).setCt (ctRow c.level)).freshSession

/-- The state a legal CONFIGURE answers from. -/
def opened (c : Settings) (s : State) : State :=
  let t := (latchedFresh c s).emitted [cmfByte c, flgByte c]
  t.setCtl { t.ctl with fsm := .busy, faultCode := 0 }

theorem opened_out (c : Settings) (s : State) : (opened c s).mem.out = [cmfByte c, flgByte c] := rfl

theorem hasRoom_latchedFresh {s : State} (h : ∀ cap, s.platform.outCapacity = some cap → 2 ≤ cap) (c : Settings) :
    HasRoom (latchedFresh c s) 2 := by
  intro cap hcap
  simpa [latchedFresh, State.freshSession] using h cap hcap

theorem configure_run {c : Settings} {s : State} (hc : c.legal = true)
    (h : ∀ cap, s.platform.outCapacity = some cap → 2 ≤ cap) : (configure c).run s = .ok okReply (opened c s) := by
  have header : sessionReset.run ((s.setCfg c).setCt (ctRow c.level))
      = .ok () ((latchedFresh c s).emitted [cmfByte c, flgByte c]) := by
    unfold sessionReset
    rw [Op.update_bind]
    exact zlibHeader_run (hasRoom_latchedFresh h c)
  unfold configure latch
  rw [if_pos hc, Op.update_bind, Op.bind_ok header, Op.update_bind]
  rfl

theorem legal_of_legalOperands {level method windowBits memLevel : BitVec 4} {strategy : BitVec 2}
    (h : LegalOperands level method windowBits memLevel strategy) :
    Settings.legal ⟨level, method, windowBits, memLevel, strategy⟩ = true := by
  obtain ⟨hl, hm, hw, hm1, hm9, hs⟩ := h
  have hm8 : method = 8 := BitVec.eq_of_toNat_eq hm
  simp [Settings.legal, hl, hm8, hw, hm1, hm9, hs]

theorem exec_configure_of_legal {level method windowBits memLevel : BitVec 4} {strategy : BitVec 2} {s : State}
    (hop : LegalOperands level method windowBits memLevel strategy)
    (h : ∀ cap, s.platform.outCapacity = some cap → 2 ≤ cap) :
    exec (.configure level method windowBits memLevel strategy) s
      = .next ((opened ⟨level, method, windowBits, memLevel, strategy⟩ s).answer okReply) := by
  change runCommand (configure _) s = _
  unfold runCommand
  rw [configure_run (legal_of_legalOperands hop) h]

/-! ### The two bytes as numbers -/

theorem cmfByte_toNat (c : Settings) : (cmfByte c).toNat = (c.windowBits.toNat - 8) * 16 + 8 := by
  have hw := c.windowBits.isLt
  simp only [cmfByte, BitVec.toNat_append, BitVec.toNat_ofNat]
  rw [← Nat.shiftLeft_add_eq_or_of_lt (by decide), Nat.shiftLeft_eq]
  omega

theorem flevelOf_le (level : Nat) (strategy : BitVec 2) : flevelOf level strategy ≤ 3 := by
  unfold flevelOf
  split_ifs <;> decide

theorem flgByte_toNat (c : Settings) :
    (flgByte c).toNat = flevelOf c.level.toNat c.strategy * 64 + (31 - headerBase c % 31) := by
  have hf := flevelOf_le c.level.toNat c.strategy
  simp only [flgByte, BitVec.toNat_append, BitVec.toNat_ofNat]
  rw [← Nat.shiftLeft_add_eq_or_of_lt (by omega), ← Nat.shiftLeft_add_eq_or_of_lt (by decide), Nat.shiftLeft_eq,
    Nat.shiftLeft_eq]
  omega

/-! ### Their fields (R149) -/

theorem cmfByte_cm (c : Settings) : (cmfByte c).toNat % 16 = 8 := by
  rw [cmfByte_toNat]; omega

theorem cmfByte_cinfo (c : Settings) : (cmfByte c).toNat / 16 = c.windowBits.toNat - 8 := by
  rw [cmfByte_toNat]; omega

theorem flgByte_flevel (c : Settings) : (flgByte c).toNat / 64 = flevelOf c.level.toNat c.strategy := by
  rw [flgByte_toNat]; omega

theorem flgByte_fdict (c : Settings) : (flgByte c).toNat / 32 % 2 = 0 := by
  have upper : (flgByte c).toNat / 32 = flevelOf c.level.toNat c.strategy * 2 := by rw [flgByte_toNat]; omega
  rw [upper, Nat.mul_mod_left]

theorem flgByte_fcheck (c : Settings) : (flgByte c).toNat % 32 = 31 - headerBase c % 31 := by
  rw [flgByte_toNat]; omega

/-- The header value before the check bits is CMF and FLEVEL in their places. -/
theorem headerBase_eq_bytes (c : Settings) :
    headerBase c = (cmfByte c).toNat * 256 + (flgByte c).toNat / 64 * 64 := by
  rw [cmfByte_toNat, flgByte_flevel]; rfl

/-- No window and FLEVEL give the remainder 0: modulo 31 the value is `4 * CINFO + 2 * FLEVEL + 2`, an even number between
6 and 36, which is never 31. -/
theorem headerBase_mod_ne_zero {c : Settings} (hw : 9 ≤ c.windowBits.toNat) : headerBase c % 31 ≠ 0 := by
  have hf := flevelOf_le c.level.toNat c.strategy
  have hw' := c.windowBits.isLt
  unfold headerBase
  omega

/-- FCHECK fills the remainder of the value before it up to 31. -/
theorem headerBytes_multiple (c : Settings) : ((cmfByte c).toNat * 256 + (flgByte c).toNat) % 31 = 0 := by
  have value : (cmfByte c).toNat * 256 + (flgByte c).toNat = headerBase c + (31 - headerBase c % 31) := by
    rw [flgByte_toNat, cmfByte_toNat, headerBase]; omega
  omega

/-- Settles O11: CONFIGURE runs to the state `opened`, whose `OUT` is the two bytes, and the fields are read off them;
FCHECK is below 31 because no legal header value is a multiple of 31 before its check bits. -/
theorem headerBytes : Obligations.HeaderBytes := by
  unfold Obligations.HeaderBytes
  intro level method windowBits memLevel strategy s hop hun
  have capacity : ∀ cap, s.platform.outCapacity = some cap → 2 ≤ cap := fun cap hcap => by rw [hun] at hcap; cases hcap
  have run := exec_configure_of_legal hop capacity
  obtain ⟨-, -, hw, -, -, -⟩ := hop
  let c : Settings := ⟨level, method, windowBits, memLevel, strategy⟩
  have notMultiple : headerBase c % 31 ≠ 0 := headerBase_mod_ne_zero hw
  have fcheck := flgByte_fcheck c
  refine ⟨_, cmfByte c, flgByte c, run, opened_out c s, cmfByte_cm c, cmfByte_cinfo c,
    flgByte_fdict c, ?flevel, ?formula, headerBytes_multiple c, ?low, ?high⟩
  case flevel =>
    rw [flgByte_flevel]
    simp only [c, flevelOf, HUFFMAN_ONLY, Nat.lt_succ_iff]
  case formula => rw [← headerBase_eq_bytes, fcheck]
  case low => omega
  case high => omega

end Sys2Proof.Proofs
end

