-- ==== Sys2Proof/Proofs/HostCommands.lean ====
section
/-! The dispatch of command words, GET_BYTES and the duplicate flush (40_host_commands.md R215, R212, R206).

For the dispatch every field is read as a number first; the decoder then has one equation per `OPC`, in the terms the
statement's `namedBy` and `ReservedWord` use. -/

namespace Sys2Proof.Proofs

open Sys2Proof.Machine Sys2Proof.Claims

/-! ### The fields of a command word as numbers (30_encoding.md R140) -/

theorem field_toNat (w : Word) (start len : Nat) :
    (w.extractLsb' start len).toNat = w.toNat / 2 ^ start % 2 ^ len := by
  rw [BitVec.extractLsb'_toNat, Nat.shiftRight_eq_div_pow]

theorem field_eq_ofNat (w : Word) (start len : Nat) :
    w.extractLsb' start len = BitVec.ofNat len (w.toNat / 2 ^ start) :=
  BitVec.eq_of_toNat_eq (by rw [field_toNat, BitVec.toNat_ofNat])

theorem opc_toNat (w : Word) : (w.extractLsb' 0 4).toNat = w.toNat % 16 := by simp

/-- The bits of a word from `start` on are 0 exactly when the word is below `2 ^ start`. -/
theorem upperBits_eq_zero_iff (w : Word) {start len : Nat} (h : start + len = 32) :
    w.extractLsb' start len = 0 ↔ w.toNat / 2 ^ start = 0 := by
  have bound : w.toNat / 2 ^ start < 2 ^ len := by
    rw [Nat.div_lt_iff_lt_mul (Nat.two_pow_pos start), ← Nat.pow_add, Nat.add_comm, h]
    exact w.isLt
  rw [← BitVec.toNat_inj, field_toNat, Nat.mod_eq_of_lt bound, BitVec.ofNat_eq_ofNat, BitVec.toNat_ofNat, Nat.zero_mod]

/-! ### The decoder, one equation per `OPC` -/

/-- OPC 1: the operand fields (R140). -/
theorem namedBy_configure {w : Word} (opc : w.toNat % 16 = 1) (chunk : List Byte) :
    namedBy w chunk = .configure (w.extractLsb' 4 4) (w.extractLsb' 8 4) (w.extractLsb' 12 4) (w.extractLsb' 16 4)
      (w.extractLsb' 20 2) := by
  simp only [namedBy, opc, if_true, field_eq_ofNat]

/-- OPC 2: the `FLUSH` field picks the row (R146). -/
theorem namedBy_compress {w : Word} (opc : w.toNat % 16 = 2) (chunk : List Byte) :
    namedBy w chunk = compressInstr (w.extractLsb' 4 3) chunk := by
  have flush : (w.extractLsb' 4 3).toNat = w.toNat / 2 ^ 4 % 8 := field_toNat w 4 3
  have range : w.toNat / 2 ^ 4 % 8 < 8 := Nat.mod_lt _ (by decide)
  simp only [compressInstr, flush, namedBy, opc]
  generalize w.toNat / 2 ^ 4 % 8 = f at range ⊢
  interval_cases f <;> rfl

theorem decodeCommand_configure {w : Word} (opc : w.toNat % 16 = 1) (chunk : List Byte) :
    decodeCommand w chunk = if w.toNat / 2 ^ 22 = 0 then .ok (namedBy w chunk) else .error (.reservedBits w) := by
  simp only [decodeCommand, opc_toNat, opc, upperBits_eq_zero_iff w (show 22 + 10 = 32 from rfl),
    namedBy_configure opc]

theorem decodeCommand_compress {w : Word} (opc : w.toNat % 16 = 2) (chunk : List Byte) :
    decodeCommand w chunk = if w.toNat / 2 ^ 7 = 0 then .ok (namedBy w chunk) else .error (.reservedBits w) := by
  simp only [decodeCommand, opc_toNat, opc, upperBits_eq_zero_iff w (show 7 + 25 = 32 from rfl),
    namedBy_compress opc]

theorem decodeCommand_noOperand {w : Word} (opc : w.toNat % 16 = 3 ∨ w.toNat % 16 = 4 ∨ w.toNat % 16 = 5)
    (chunk : List Byte) :
    decodeCommand w chunk = if w.toNat / 2 ^ 4 = 0 then .ok (namedBy w chunk) else .error (.reservedBits w) := by
  have dispatch : decodeCommand w chunk = decodeNoOperand w (namedBy w chunk) := by
    rcases opc with opc | opc | opc <;> simp only [decodeCommand, opc_toNat, namedBy, opc] <;> rfl
  simp only [dispatch, decodeNoOperand, upperBits_eq_zero_iff w (show 4 + 28 = 32 from rfl)]

theorem decodeCommand_reservedOpcode {w : Word} (opc : w.toNat % 16 = 0 ∨ 6 ≤ w.toNat % 16) (chunk : List Byte) :
    decodeCommand w chunk = .error (.reservedOpcode (w.extractLsb' 0 4)) := by
  obtain opc | large := opc
  · simp only [decodeCommand, opc_toNat, opc]
  · obtain ⟨k, opc⟩ := Nat.exists_eq_add_of_le' large
    simp only [decodeCommand, opc_toNat, opc]

/-! ### The dispatch (R215) -/

/-- A word that is not reserved decodes to the command it names. -/
theorem decodeCommand_of_not_reserved {w : Word} (h : ¬ ReservedWord w) (chunk : List Byte) :
    decodeCommand w chunk = .ok (namedBy w chunk) := by
  have opcodes : w.toNat % 16 = 1 ∨ w.toNat % 16 = 2
      ∨ (w.toNat % 16 = 3 ∨ w.toNat % 16 = 4 ∨ w.toNat % 16 = 5) := by omega
  rcases opcodes with opc | opc | opc
  · rw [decodeCommand_configure opc, if_pos (by omega)]
  · rw [decodeCommand_compress opc, if_pos (by omega)]
  · rw [decodeCommand_noOperand opc, if_pos (by omega)]

/-- A reserved word decodes to nothing, for one of the two causes of F_BAD_COMMAND. -/
theorem decodeCommand_of_reserved {w : Word} (h : ReservedWord w) (chunk : List Byte) :
    decodeCommand w chunk = .error (.reservedOpcode (w.extractLsb' 0 4))
      ∨ decodeCommand w chunk = .error (.reservedBits w) := by
  by_cases reservedOpc : w.toNat % 16 = 0 ∨ 6 ≤ w.toNat % 16
  · exact .inl (decodeCommand_reservedOpcode reservedOpc chunk)
  · right
    obtain zero | large | ⟨opc, bits⟩ | ⟨opc, bits⟩ | ⟨low, bits⟩ := h
    · exact absurd (.inl zero) reservedOpc
    · exact absurd (.inr large) reservedOpc
    · rw [decodeCommand_configure opc, if_neg bits]
    · rw [decodeCommand_compress opc, if_neg bits]
    · rw [decodeCommand_noOperand (by omega), if_neg bits]

section
variable {s : State} {w : Word} {chunk : List Byte} {rest : List Packet}

/-- A command word that decodes is run with its packet taken off the port. -/
theorem step_of_decodeCommand_ok (queue : s.port.queue = .command w chunk :: rest) {i : Instr}
    (h : decodeCommand w chunk = .ok i) : step s = exec i (s.setPort { s.port with queue := rest }) := by
  simp only [step, fetch, queue, decode, h]

/-- One that does not decode is taken off the port all the same. -/
theorem step_of_decodeCommand_error (queue : s.port.queue = .command w chunk :: rest) {e : DecodeError}
    (h : decodeCommand w chunk = .error e) : step s = undecoded e (s.setPort { s.port with queue := rest }) := by
  simp only [step, fetch, queue, decode, h]

end

/-- Settles O2: the decoder refuses exactly the reserved words, for a cause that `undecoded` answers with F_BAD_COMMAND, and
gives every other one the command it names. -/
theorem commandDecode : Obligations.CommandDecode := by
  unfold Obligations.CommandDecode
  intro s w chunk rest queue t
  constructor
  · intro reserved
    obtain opcode | bits := decodeCommand_of_reserved reserved chunk
    · exact step_of_decodeCommand_error queue opcode
    · exact step_of_decodeCommand_error queue bits
  · intro valid
    exact step_of_decodeCommand_ok queue (decodeCommand_of_not_reserved valid chunk)

/-! ### How a command ends, and the session check (60_exceptions.md R511) -/

theorem runCommand_of_ok {op : Op Reply} {s t : State} {r : Reply} (h : op.run s = .ok r t) :
    runCommand op s = .next (t.answer r) := by
  unfold runCommand
  rw [h]

theorem runCommand_of_raise {op : Op Reply} {s t : State} {f : FaultCode} (h : op.run s = .error (.raise f) t) :
    runCommand op s = .next (raise f t.clearInput) := by
  unfold runCommand
  rw [h]

theorem requireSession_run_of_open {s : State} (h : s.isOpen) : requireSession.run s = .ok () s := by
  rw [requireSession_run]
  obtain busy | finish := h
  · simp [busy]
  · simp [finish]

theorem requireSession_run_of_unconfigured {s : State} (h : s.ctl.fsm = .unconfigured) :
    requireSession.run s = .error (.raise .notConfigured) s := by
  rw [requireSession_run, if_pos h]

theorem requireSession_run_of_faulted {s : State} (h : s.ctl.fsm = .faulted) :
    requireSession.run s = .error (.raise .faulted) s := by
  rw [requireSession_run, h]
  rfl

/-! ### GET_BYTES (R212) -/

/-- Settles O14: the session check decides the case; past it GET_BYTES only reads. -/
theorem getBytes : Obligations.GetBytes := by
  unfold Obligations.GetBytes
  intro s
  refine ⟨fun session => ?_, fun unconfigured => ?_, fun faulted => ?_⟩
  · exact runCommand_of_ok (Op.bind_ok (requireSession_run_of_open session))
  · exact runCommand_of_raise (Op.bind_error (requireSession_run_of_unconfigured unconfigured))
  · exact runCommand_of_raise (Op.bind_error (requireSession_run_of_faulted faulted))

/-! ### The duplicate flush (R206) -/

/-- COMPRESS with a legal mode runs the common part with that mode. -/
theorem exec_compressWith {f : BitVec 3} (hf : f ≤ 4) (chunk : List Byte) (s : State) :
    exec (compressWith f chunk) s = runCommand (compress f chunk) s := by
  have modes : f = 0 ∨ f = 1 ∨ f = 2 ∨ f = 3 ∨ f = 4 := by revert f; decide
  rcases modes with rfl | rfl | rfl | rfl | rfl <;> rfl

/-- In BUSY the checks of COMPRESS pass for a legal mode. -/
theorem compress_run_of_busy {f : BitVec 3} {s : State} (hf : f ≤ FINISH) (busy : s.ctl.fsm = .busy) (chunk : List Byte) :
    (compress f chunk).run s = (compressBusy f chunk).run s := by
  unfold compress
  rw [Op.bind_ok (requireSession_run_of_open (.inl busy)), Op.require_pos hf, Op.state_bind, if_neg (by simp [busy])]

/-- The duplicate case writes `IN` and `lastFlush` and answers OK. -/
theorem compressBusy_run_of_duplicate {f : BitVec 3} {s : State} (previous : f ≤ s.ctl.lastFlush)
    (notFinish : f ≠ FINISH) :
    (compressBusy f []).run s = .ok okReply
      ((s.setMem { s.mem with input := [] }).setCtl { s.ctl with lastFlush := f }) := by
  unfold compressBusy
  rw [Op.state_bind, Op.update_bind, Op.update_bind, if_pos ⟨rfl, previous, notFinish⟩]
  rfl

/-- Settles O16: the checks of COMPRESS pass in BUSY, and the duplicate test stops it before the driver. -/
theorem duplicateFlush : Obligations.DuplicateFlush := by
  unfold Obligations.DuplicateFlush
  intro f s mode previous busy
  have legal : f ≤ 4 := BitVec.le_trans mode (by decide)
  have notFinish : f ≠ FINISH := by rintro rfl; exact absurd mode (by decide)
  rw [exec_compressWith legal]
  exact runCommand_of_ok ((compress_run_of_busy legal busy []).trans (compressBusy_run_of_duplicate previous notFinish))

end Sys2Proof.Proofs
end

