-- ==== Sys2Proof/Proofs/RollingHash.lean ====
section
/-! The rolling hash (41_match_finder.md R250). An update is read bit by bit: it moves the bits of the old value up by
`hashShift`, and keeps `hashBits` of them. So two values that agree on their `k` lowest bits agree on `k + hashShift`
after an update, and on all of them after three. -/

namespace Sys2Proof.Proofs

open Sys2Proof.Machine Sys2Proof.Claims

/-! ### The parameters (R7) -/

theorem hashBits_le_of_legal {c : Settings} (legal : c.legal = true) : c.hashBits ≤ 16 := by
  have memLevel : c.memLevel.toNat ≤ 9 := by
    simp only [Settings.legal, Bool.and_eq_true, decide_eq_true_eq] at legal
    obtain ⟨⟨_, memLevel⟩, _⟩ := legal
    exact memLevel
  unfold Settings.hashBits
  omega

/-- Three shifts pass the whole of the hash. -/
theorem hashBits_le_hashShift (c : Settings) : c.hashBits ≤ c.hashShift + c.hashShift + c.hashShift := by
  unfold Settings.hashShift MIN_MATCH
  omega

/-! ### One update as a number -/

theorem hashMask_toNat {c : Settings} (legal : c.legal = true) :
    (BitVec.ofNat 16 c.hashMask).toNat = 2 ^ c.hashBits - 1 := by
  have size : 2 ^ c.hashBits ≤ 2 ^ 16 := Nat.pow_le_pow_right (by decide) (hashBits_le_of_legal legal)
  exact Nat.mod_eq_of_lt (Nat.lt_of_lt_of_le (Nat.sub_lt (Nat.two_pow_pos _) Nat.one_pos) size)

/-- What the 16-bit shift drops lies above the mask. -/
theorem updateHash_toNat {c : Settings} (legal : c.legal = true) (h : BitVec 16) (x : Byte) :
    (updateHash c h x).toNat = ((h.toNat * 2 ^ c.hashShift) ^^^ x.toNat) % c.hashSize := by
  have dropped : h.toNat * 2 ^ c.hashShift % 2 ^ 16 % 2 ^ c.hashBits = h.toNat * 2 ^ c.hashShift % 2 ^ c.hashBits :=
    Nat.mod_mod_of_dvd _ (Nat.pow_dvd_pow 2 (hashBits_le_of_legal legal))
  have byte : (x.zeroExtend 16).toNat = x.toNat := BitVec.toNat_setWidth_of_le (by decide)
  rw [updateHash, BitVec.toNat_and, BitVec.toNat_xor, BitVec.toNat_shiftLeft, byte, hashMask_toNat legal,
    Nat.and_two_pow_sub_one_eq_mod, Nat.shiftLeft_eq, Nat.xor_mod_two_pow, dropped, ← Nat.xor_mod_two_pow,
    Settings.hashSize]

/-! ### One update bit by bit -/

theorem updateHash_getLsbD (c : Settings) (h : BitVec 16) (x : Byte) {i : Nat} (hi : i < 16) :
    (updateHash c h x).getLsbD i
      = (((!decide (i < c.hashShift) && h.getLsbD (i - c.hashShift)) ^^ x.getLsbD i) && decide (i < c.hashBits)) := by
  have mask : (BitVec.ofNat 16 c.hashMask).getLsbD i = decide (i < c.hashBits) := by
    rw [BitVec.getLsbD_ofNat, Settings.hashMask, Settings.hashSize, Nat.testBit_two_pow_sub_one, decide_eq_true hi,
      Bool.true_and]
  rw [updateHash, BitVec.getLsbD_and, BitVec.getLsbD_xor, BitVec.getLsbD_shiftLeft, BitVec.getLsbD_setWidth, mask,
    decide_eq_true hi, Bool.true_and, Bool.true_and]

theorem updateHash_agree (c : Settings) {h g : BitVec 16} (x : Byte) {k : Nat}
    (agree : ∀ i < k, h.getLsbD i = g.getLsbD i) :
    ∀ i < k + c.hashShift, (updateHash c h x).getLsbD i = (updateHash c g x).getLsbD i := by
  intro i hi
  by_cases word : i < 16
  · rw [updateHash_getLsbD c h x word, updateHash_getLsbD c g x word]
    by_cases low : i < c.hashShift
    · simp [low]
    · rw [agree (i - c.hashShift) (by omega)]
  · rw [BitVec.getLsbD_of_ge _ _ (by omega), BitVec.getLsbD_of_ge _ _ (by omega)]

/-- An update leaves nothing at or above `hashBits`, so agreement below it is equality. -/
theorem updateHash_eq_of_agree (c : Settings) {h g : BitVec 16} (x : Byte)
    (agree : ∀ i < c.hashBits, (updateHash c h x).getLsbD i = (updateHash c g x).getLsbD i) :
    updateHash c h x = updateHash c g x := by
  refine BitVec.eq_of_getLsbD_eq fun i hi => ?_
  by_cases kept : i < c.hashBits
  · exact agree i kept
  · simp [updateHash_getLsbD c _ x hi, kept]

/-! ### Three updates -/

/-- No low bit need agree before the first update; each update adds `hashShift` of them. -/
theorem updateHash_forgets (c : Settings) (h g : BitVec 16) (x y z : Byte) :
    updateHash c (updateHash c (updateHash c h x) y) z = updateHash c (updateHash c (updateHash c g x) y) z := by
  have start : ∀ i < 0, h.getLsbD i = g.getLsbD i := fun _ hi => absurd hi (Nat.not_lt_zero _)
  have three := updateHash_agree c z (updateHash_agree c y (updateHash_agree c x start))
  have enough := hashBits_le_hashShift c
  exact updateHash_eq_of_agree c z fun i hi => three i (by omega)

/-- Settles O32: the value by `updateHash_toNat`, the forgetting by `updateHash_forgets`. Its name has a namespace of
its own, because a bare `updateHash` would hide the model's function here. -/
theorem RollingHash.updateHash : Obligations.UpdateHash := by
  unfold Obligations.UpdateHash
  intro c legal h g x y z
  exact ⟨updateHash_toNat legal h x, updateHash_forgets c h g x y z⟩

end Sys2Proof.Proofs
end

