-- ==== Sys2Proof/Proofs/StaticTables.lean ====
section
/-! The static code tables (42_huffman_builder.md R340, R341) and canonical code assignment (R333).

The 288 static symbols are four runs of consecutive symbols with one length each. Over such a run `genCodes` counts up
from `nextCode[len]` and leaves the next free code there, so the fourth run, of length 8 again, goes on where the first
one stopped. -/

namespace Sys2Proof.Proofs

open Sys2Proof.Machine

/-! ### Canonical codes of a run of symbols (R333) -/

/-- `count` consecutive symbols from `start` on, all with the length `len`. -/
def lengthRun (start count len : Nat) : List (Nat × Nat) := (List.range' start count).map fun n => (n, len)

/-- The same symbols with consecutive codes from `first` on, stored reversed. -/
def codeRun (start count len first : Nat) : List (Nat × Nat) :=
  (List.range' start count).map fun n => (n, revBits len (first + (n - start)))

theorem lengthRun_succ (start count len : Nat) :
    lengthRun start (count + 1) len = (start, len) :: lengthRun (start + 1) count len := rfl

theorem codeRun_succ (start count len first : Nat) :
    codeRun start (count + 1) len first = (start, revBits len first) :: codeRun (start + 1) count len (first + 1) := by
  have shifted : ∀ n ∈ List.range' (start + 1) count,
      (n, revBits len (first + (n - start))) = (n, revBits len (first + 1 + (n - (start + 1)))) := by
    intro n hn
    obtain ⟨above, -⟩ := List.mem_range'_1.1 hn
    rw [show first + (n - start) = first + 1 + (n - (start + 1)) by omega]
  simp only [codeRun, List.range'_succ, List.map_cons, Nat.sub_self, Nat.add_zero, List.map_congr_left shifted]

theorem genCodes_append (nextCode : List Nat) (a b : List (Nat × Nat)) :
    (genCodes nextCode (a ++ b)).1 = (genCodes nextCode a).1 ++ (genCodes (genCodes nextCode a).2 b).1 := by
  induction a generalizing nextCode with
  | nil => rfl
  | cons p rest ih =>
    obtain ⟨n, len⟩ := p
    by_cases unused : len = 0 <;> simp [genCodes, unused, ih]

/-- `GenCodes` counts up over a run of one length. -/
theorem genCodes_lengthRun {nextCode : List Nat} {len : Nat} (used : len ≠ 0) (inTable : len < nextCode.length)
    (start count : Nat) :
    genCodes nextCode (lengthRun start count len)
      = (codeRun start count len (nextCode.getD len 0), nextCode.set len (nextCode.getD len 0 + count)) := by
  induction count generalizing nextCode start with
  | zero => simp [lengthRun, codeRun, genCodes, inTable]
  | succ count ih =>
    have next : (nextCode.set len (nextCode.getD len 0 + 1)).getD len 0 = nextCode.getD len 0 + 1 := by simp [inTable]
    simp only [lengthRun_succ, genCodes, if_neg used, ih (nextCode := nextCode.set len _) (by simpa using inTable), next,
      codeRun_succ, List.set_set, Nat.add_right_comm _ 1 count, Nat.add_assoc]

/-! ### The four ranges of the static literal/length table (R340) -/

theorem staticLit_of_le_143 {n : Nat} (high : n ≤ 143) :
    staticLitLen n = 8 ∧ staticLitCode n = revBits 8 (0x30 + n) := by
  simp [staticLitCode, staticLitLen, staticLitCanonical, high]

theorem staticLit_of_le_255 {n : Nat} (low : 144 ≤ n) (high : n ≤ 255) :
    staticLitLen n = 9 ∧ staticLitCode n = revBits 9 (0x190 + (n - 144)) := by
  simp [staticLitCode, staticLitLen, staticLitCanonical, show ¬ n ≤ 143 by omega, high]

theorem staticLit_of_le_279 {n : Nat} (low : 256 ≤ n) (high : n ≤ 279) :
    staticLitLen n = 7 ∧ staticLitCode n = revBits 7 (n - 256) := by
  simp [staticLitCode, staticLitLen, staticLitCanonical, show ¬ n ≤ 143 by omega, show ¬ n ≤ 255 by omega, high]

theorem staticLit_of_ge_280 {n : Nat} (low : 280 ≤ n) :
    staticLitLen n = 8 ∧ staticLitCode n = revBits 8 (0xC0 + (n - 280)) := by
  simp [staticLitCode, staticLitLen, staticLitCanonical, show ¬ n ≤ 143 by omega, show ¬ n ≤ 255 by omega,
    show ¬ n ≤ 279 by omega]

/-- A run of symbols whose lengths and codes are known is a run of both tables. -/
theorem staticLit_runs {start count len first : Nat}
    (table : ∀ n, start ≤ n → n < start + count → staticLitLen n = len ∧ staticLitCode n = revBits len (first + (n - start))) :
    (List.range' start count).map (fun n => (n, staticLitLen n)) = lengthRun start count len
    ∧ (List.range' start count).map (fun n => (n, staticLitCode n)) = codeRun start count len first := by
  constructor <;> refine List.map_congr_left fun n hn => ?_ <;> obtain ⟨low, high⟩ := List.mem_range'_1.1 hn
  · rw [(table n low high).1]
  · rw [(table n low high).2]

theorem range_288 :
    List.range 288 = List.range' 0 144 ++ (List.range' 144 112 ++ (List.range' 256 24 ++ List.range' 280 8)) := by
  rw [List.range_eq_range', List.range'_append_1, List.range'_append_1, List.range'_append_1]

/-- Both tables as their four runs, in symbol order. -/
theorem staticLit_tables :
    (List.range 288).map (fun n => (n, staticLitLen n))
      = lengthRun 0 144 8 ++ (lengthRun 144 112 9 ++ (lengthRun 256 24 7 ++ lengthRun 280 8 8))
    ∧ (List.range 288).map (fun n => (n, staticLitCode n))
      = codeRun 0 144 8 0x30 ++ (codeRun 144 112 9 0x190 ++ (codeRun 256 24 7 0 ++ codeRun 280 8 8 0xC0)) := by
  obtain ⟨len₁, code₁⟩ := staticLit_runs (start := 0) (count := 144) (len := 8) (first := 0x30)
    fun n _ high => staticLit_of_le_143 (by omega)
  obtain ⟨len₂, code₂⟩ := staticLit_runs (start := 144) (count := 112) (len := 9) (first := 0x190)
    fun n low high => staticLit_of_le_255 low (by omega)
  obtain ⟨len₃, code₃⟩ := staticLit_runs (start := 256) (count := 24) (len := 7) (first := 0)
    fun n low high => by simpa using staticLit_of_le_279 low (by omega)
  obtain ⟨len₄, code₄⟩ := staticLit_runs (start := 280) (count := 8) (len := 8) (first := 0xC0)
    fun n low _ => staticLit_of_ge_280 low
  simp only [range_288, List.map_append, len₁, len₂, len₃, len₄, code₁, code₂, code₃, code₄, and_self]

/-! ### The codes R333 gives for the static lengths -/

theorem length_filter_lengthRun (start count len b : Nat) :
    ((lengthRun start count len).filter fun p => p.2 = b).length = if len = b then count else 0 := by
  by_cases same : len = b <;> simp [lengthRun, List.filter_map, Function.comp_def, same]

/-- `nextCode` for the static lengths: 24 codes of length 7, 152 of length 8 and 112 of length 9. -/
theorem firstCodes_staticLit :
    firstCodes (countLengths ((List.range 288).map fun n => (n, staticLitLen n)))
      = [0, 0, 0, 0, 0, 0, 0, 0, 0x30, 0x190, 0x400, 0x800, 0x1000, 0x2000, 0x4000, 0x8000] := by
  simp only [staticLit_tables.1, countLengths, List.filter_append, List.length_append, length_filter_lengthRun]
  decide

/-- Each run starts at the code `nextCode` has for its length: the fourth at 0x30 + 144, which is 0xC0. -/
theorem genCodes_staticLit :
    (genCodes (firstCodes (countLengths ((List.range 288).map fun n => (n, staticLitLen n))))
        ((List.range 288).map fun n => (n, staticLitLen n))).1
      = (List.range 288).map fun n => (n, staticLitCode n) := by
  rw [firstCodes_staticLit, staticLit_tables.1, staticLit_tables.2, genCodes_append, genCodes_append, genCodes_append]
  simp [genCodes_lengthRun]

/-- Settles O45: the ranges by the definitions, the agreement with R333 by the four runs. -/
theorem staticRoms : Obligations.StaticRoms := by
  unfold Obligations.StaticRoms
  refine ⟨fun n _ => ⟨staticLit_of_le_143, staticLit_of_le_255, staticLit_of_le_279, staticLit_of_ge_280⟩,
    genCodes_staticLit, fun n _ => ⟨rfl, rfl⟩⟩

end Sys2Proof.Proofs
end

