-- ==== Sys2Proof/Proofs/ModeSelection.lean ====
section
/-!
O48: the block mode selector (44_block_controller.md R428, R429). The model compares integers, the statement naturals. Each
branch of `selectMode` has its equation, under the condition `StoredFits` of the stored branch; `costBytes_natCast` and
`storedFits_natCast` carry the costs and that condition over to naturals.
-/
namespace Sys2Proof.Proofs
open Sys2Proof.Machine

/-! ### The branches of the selector (R429) -/

/-- The condition of R429 for a stored block above level 0: near enough in cost, legal in length, the offset valid. -/
def StoredFits (storedLen blockStart optLen staticLen : Int) : Prop :=
  storedLen + 5 ≤ min (costBytes optLen) (costBytes staticLen) + 4 ∧ storedLen ≤ (STORED_LIMIT : Int) ∧ 0 ≤ blockStart

section
variable {level : Nat} {storedLen blockStart optLen staticLen : Int}

theorem selectMode_level_zero : selectMode 0 storedLen blockStart optLen staticLen = .stored := if_pos rfl

theorem selectMode_of_storedFits (fits : StoredFits storedLen blockStart optLen staticLen) :
    selectMode level storedLen blockStart optLen staticLen = .stored := by
  by_cases zero : level = 0
  · rw [zero, selectMode_level_zero]
  · exact (if_neg zero).trans (if_pos fits)

theorem selectMode_of_not_storedFits (compressing : level ≠ 0) (unfit : ¬ StoredFits storedLen blockStart optLen staticLen) :
    selectMode level storedLen blockStart optLen staticLen
      = if costBytes staticLen ≤ costBytes optLen then .static else .dynamic :=
  (if_neg compressing).trans (if_neg unfit)

end

/-! ### Costs and lengths that are naturals (R428) -/

theorem costBytes_natCast (len : Nat) : costBytes len = ((len + 3 + 7) / 8 : Nat) := by
  simp [costBytes]

theorem storedFits_natCast (storedLen optLen staticLen : Nat) (blockStart : Int) :
    StoredFits storedLen blockStart optLen staticLen
      ↔ storedLen + 5 ≤ min ((optLen + 3 + 7) / 8) ((staticLen + 3 + 7) / 8) + 4 ∧ storedLen ≤ 65535 ∧ 0 ≤ blockStart := by
  simp only [StoredFits, costBytes_natCast, STORED_LIMIT]
  norm_cast

/-- Settles O48: one branch of the selector for each clause. -/
theorem modeSelector : Obligations.ModeSelector := by
  intro level storedLen optLen staticLen blockStart optLenB staticLenB stored
  have fits_iff : StoredFits storedLen blockStart optLen staticLen ↔ stored := storedFits_natCast ..
  have static_iff : costBytes staticLen ≤ costBytes optLen ↔ staticLenB ≤ optLenB := by
    rw [costBytes_natCast, costBytes_natCast, Nat.cast_le]
  refine ⟨?level_zero_or_stored, fun compressing unfit static => ?static, fun compressing unfit dynamic => ?dynamic⟩
  case level_zero_or_stored =>
    rintro (rfl | fits)
    · exact selectMode_level_zero
    · exact selectMode_of_storedFits (fits_iff.2 fits)
  case static =>
    rw [selectMode_of_not_storedFits compressing (mt fits_iff.1 unfit), if_pos (static_iff.2 static)]
  case dynamic =>
    rw [selectMode_of_not_storedFits compressing (mt fits_iff.1 unfit), if_neg (mt static_iff.1 dynamic.not_ge)]

end Sys2Proof.Proofs
end

