-- ==== Sys2Proof/Proofs/SessionReset.lean ====
section
/-! A legal CONFIGURE opens a fresh session (70_reset_and_hazards.md R540).

The run ends in `opened`, by `exec_configure_of_legal`. Here the registers of `opened` are read off: the CT row as
00_scope.md R9 writes it, the frequencies element by element, the header bytes as the numbers of 44_block_controller.md
R424. -/

namespace Sys2Proof.Proofs

open Sys2Proof.Machine Sys2Proof.Claims

/-! ### The CT row (R9) -/

theorem ctRow_mem_levelTable : ∀ level : BitVec 4, level.toNat ≤ 9 →
    (level.toNat, (ctRow level).goodLength.toNat, (ctRow level).maxLazy.toNat, (ctRow level).niceLength.toNat,
      (ctRow level).maxChain.toNat, (ctRow level).driver) ∈ levelTable := by
  decide

/-! ### Frequencies after the block reset (42_huffman_builder.md R320) -/

theorem initBlock_lfreq_read (h : Huffman) (n : Nat) : h.initBlock.lfreq.read n = if n = 256 then 1 else 0 := rfl

theorem initBlock_dfreq_read (h : Huffman) (n : Nat) : h.initBlock.dfreq.read n = 0 := Arr.read_nil n

theorem initBlock_blfreq_read (h : Huffman) (n : Nat) : h.initBlock.blfreq.read n = 0 := Arr.read_nil n

/-! ### The header bytes as numbers (R424) -/

theorem flevelOf_eq_flevel (level : Nat) (strategy : BitVec 2) : flevelOf level strategy = flevel level strategy.toNat := by
  have huffmanOnly : strategy = HUFFMAN_ONLY ↔ strategy.toNat = 2 := BitVec.toNat_inj.symm
  simp only [flevelOf, flevel, huffmanOnly]

theorem cmfByte_eq_ofNat (c : Settings) : cmfByte c = BitVec.ofNat 8 (cmf c.windowBits.toNat) := by
  have value : (cmfByte c).toNat = cmf c.windowBits.toNat := cmfByte_toNat c
  rw [← value, BitVec.ofNat_toNat, BitVec.setWidth_eq]

theorem flgByte_eq_ofNat (c : Settings) :
    flgByte c = BitVec.ofNat 8 (flg c.level.toNat c.windowBits.toNat c.strategy.toNat) := by
  have value : (flgByte c).toNat = flg c.level.toNat c.windowBits.toNat c.strategy.toNat := by
    rw [flgByte_toNat, headerBase, flevelOf_eq_flevel]; rfl
  rw [← value, BitVec.ofNat_toNat, BitVec.setWidth_eq]

/-- Settles O9: the state is `opened`. The CT row, the frequencies and the header bytes are read off by the lemmas above;
every other register of `opened` is the value of R540 as it stands, and the sizes are the formulas of 00_scope.md R7. -/
theorem configureOpensSession : Obligations.ConfigureOpensSession := by
  unfold Obligations.ConfigureOpensSession
  intro level method windowBits memLevel strategy s hop capacity
  let c : Settings := ⟨level, method, windowBits, memLevel, strategy⟩
  have legal : c.legal = true := legal_of_legalOperands hop
  have out : (opened c s).mem.out
      = [BitVec.ofNat 8 (cmf windowBits.toNat), BitVec.ofNat 8 (flg level.toNat windowBits.toNat strategy.toNat)] := by
    rw [opened_out, cmfByte_eq_ofNat, flgByte_eq_ofNat]
  have run := exec_configure_of_legal hop capacity
  obtain ⟨levelRange, -⟩ := hop
  exact ⟨(opened c s).answer okReply, run, rfl, rfl, rfl, ctRow_mem_levelTable level levelRange,
    ⟨legal, rfl, rfl, rfl, rfl, rfl, rfl, rfl⟩, rfl, rfl,
    ⟨rfl, rfl, initBlock_lfreq_read _, initBlock_dfreq_read _, initBlock_blfreq_read _⟩, rfl, rfl,
    ⟨Arr.read_nil, Arr.read_nil, Arr.read_nil⟩, out, rfl, rfl, rfl⟩

end Sys2Proof.Proofs
end

section
/-! Encodings (30_encoding.md R140, R149, R151, R159): the decoder undoes the encoder, sample words, and the step that runs
what the decoder reads. -/

namespace Sys2Proof.Proofs

open Sys2Proof.Machine Sys2Proof.Claims

/-! ### The decoder after the encoder -/

/-- The operands of CONFIGURE lie side by side in the word, so each field of the word is its operand (R140). -/
theorem decode_encode_configure (level method windowBits memLevel : BitVec 4) (strategy : BitVec 2) :
    decode (encode (.configure level method windowBits memLevel strategy))
      = .ok (.configure level method windowBits memLevel strategy) := by
  have levelLt := level.isLt
  have methodLt := method.isLt
  have windowLt := windowBits.isLt
  have memLt := memLevel.isLt
  have strategyLt := strategy.isLt
  simp only [encode, decode]
  generalize word : BitVec.ofNat 32 (1 + level.toNat * 2 ^ 4 + method.toNat * 2 ^ 8 + windowBits.toNat * 2 ^ 12
        + memLevel.toNat * 2 ^ 16 + strategy.toNat * 2 ^ 20) = w
  have value : w.toNat = 1 + level.toNat * 2 ^ 4 + method.toNat * 2 ^ 8 + windowBits.toNat * 2 ^ 12
      + memLevel.toNat * 2 ^ 16 + strategy.toNat * 2 ^ 20 := by
    rw [← word, BitVec.toNat_ofNat]; omega
  have opc : w.toNat % 16 = 1 := by omega
  rw [decodeCommand_configure opc, if_pos (by omega), namedBy, if_pos opc]
  have field : ∀ {n : Nat} (x : BitVec n) {v : Nat}, v % 2 ^ n = x.toNat → BitVec.ofNat n v = x := fun x v h =>
    BitVec.eq_of_toNat_eq (by rw [BitVec.toNat_ofNat, h])
  rw [field level (by omega), field method (by omega), field windowBits (by omega), field memLevel (by omega),
    field strategy (by omega)]

/-- The fields of the zlib header lie side by side in its two bytes (R149). -/
theorem decode_encode_zlibHeader (cinfo : BitVec 4) (flevel : BitVec 2) (fcheck : BitVec 5) :
    decode (encode (.zlibHeader cinfo flevel fcheck)) = .ok (.zlibHeader cinfo flevel fcheck) := by
  have cinfoLt := cinfo.isLt
  have flevelLt := flevel.isLt
  have fcheckLt := fcheck.isLt
  simp only [encode, decode, decodeHeader]
  generalize bits : BitVec.ofNat 16 (headerValue cinfo flevel fcheck) = w
  have value : w.toNat = (cinfo.toNat * 16 + 8) * 256 + flevel.toNat * 64 + fcheck.toNat := by
    rw [← bits, BitVec.toNat_ofNat, headerValue]; omega
  have field : ∀ (start : Nat) {n : Nat} (x : BitVec n), w.toNat / 2 ^ start % 2 ^ n = x.toNat → w.extractLsb' start n = x :=
    fun start n x h => BitVec.eq_of_toNat_eq (by rw [BitVec.extractLsb'_toNat, Nat.shiftRight_eq_div_pow, h])
  have cm : w.extractLsb' 8 4 = 8 := field 8 8 (by change _ = 8; omega)
  have fdict : w.extractLsb' 5 1 = 0 := field 5 0 (by change _ = 0; omega)
  rw [if_pos ⟨cm, fdict⟩, field 12 cinfo (by omega), field 6 flevel (by omega), field 0 fcheck (by omega)]

theorem decode_encode_block : ∀ bfinal : BitVec 1,
    decode (encode (.blockStored bfinal)) = .ok (.blockStored bfinal)
    ∧ decode (encode (.blockStatic bfinal)) = .ok (.blockStatic bfinal)
    ∧ decode (encode (.blockDynamic bfinal)) = .ok (.blockDynamic bfinal)
    ∧ decode (encode (.blockReserved bfinal)) = .ok (.blockReserved bfinal) := by
  decide

/-- Settles O1: one case for each row; the commands without fields and the `FLUSH` words have constant words, and a chunk is
carried beside its word. -/
theorem decodeEncode : Obligations.DecodeEncode := by
  intro i
  cases i with
  | configure level method windowBits memLevel strategy => exact decode_encode_configure ..
  | compressNoFlush chunk => rfl
  | compressPartialFlush chunk => rfl
  | compressSyncFlush chunk => rfl
  | compressFullFlush chunk => rfl
  | compressFinish chunk => rfl
  | compressFlush5 chunk => rfl
  | compressFlush6 chunk => rfl
  | compressFlush7 chunk => rfl
  | getBytes => rfl
  | takeBytes => rfl
  | getCrc => rfl
  | zlibHeader cinfo flevel fcheck => exact decode_encode_zlibHeader ..
  | blockStored bfinal => exact (decode_encode_block bfinal).1
  | blockStatic bfinal => exact (decode_encode_block bfinal).2.1
  | blockDynamic bfinal => exact (decode_encode_block bfinal).2.2.1
  | blockReserved bfinal => exact (decode_encode_block bfinal).2.2.2
  | adlerTrailer adler => rfl

/-- Settles O3: each packet is one evaluation of the decoder. -/
theorem sampleWords : Obligations.SampleWords := by
  unfold Obligations.SampleWords
  decide

/-! ### The step -/

/-- A packet that decodes is taken off the port and its instruction run. -/
theorem step_of_decode_ok {s : State} {p : Packet} {rest : List Packet} {i : Instr} (queue : s.port.queue = p :: rest)
    (h : decode p = .ok i) : step s = exec i (s.setPort { s.port with queue := rest }) := by
  simp only [step, fetch, queue, h]

theorem step_of_decode_error {s : State} {p : Packet} {rest : List Packet} {e : DecodeError}
    (queue : s.port.queue = p :: rest) (h : decode p = .error e) :
    step s = undecoded e (s.setPort { s.port with queue := rest }) := by
  simp only [step, fetch, queue, h]

theorem step_of_idle {s : State} (queue : s.port.queue = []) : step s = .next s := by
  simp only [step, fetch, queue]

/-- Everything a step can do: nothing, an instruction, or a packet that is none. -/
theorem step_cases {s t : State} (h : step s = .next t) :
    t = s ∨ ∃ rest, (∃ i, exec i (s.setPort { s.port with queue := rest }) = .next t)
      ∨ t = raise .badCommand (s.setPort { s.port with queue := rest }) := by
  cases queue : s.port.queue with
  | nil => rw [step_of_idle queue] at h; cases h; exact .inl rfl
  | cons p rest =>
    refine .inr ⟨rest, ?_⟩
    cases decoded : decode p with
    | ok i => rw [step_of_decode_ok queue decoded] at h; exact .inl ⟨i, h⟩
    | error e =>
      rw [step_of_decode_error queue decoded] at h
      cases e <;> cases h <;> exact .inr rfl

/-- Settles O4: the two cases of the port. -/
theorem stepRunsDecoded : Obligations.StepRunsDecoded := fun _ =>
  ⟨fun _ _ _ queue decoded => step_of_decode_ok queue decoded, step_of_idle⟩

/-- Settles O55: the arm of the reserved block type. -/
theorem blockReservedStops : Obligations.BlockReservedStops := fun _ _ => rfl

end Sys2Proof.Proofs
end

section
/-! Fault entry and the state checks (60_exceptions.md R500, R510, R511), the refused CONFIGURE (R200), TAKE_BYTES and
GET_CRC (R213, R214), the header and trailer elements (30_encoding.md R149, R159), and the power-on state. -/

namespace Sys2Proof.Proofs

open Sys2Proof.Machine Sys2Proof.Claims

/-! ### Fault entry (R510) -/

theorem code_mem_faultTable : ∀ f : FaultCode, (f, f.code.toNat) ∈ faultTable := by
  intro f; cases f <;> decide

theorem faultWord_eq : ∀ f : FaultCode, faultWord f = BitVec.ofNat 32 (2 + 256 * f.code.toNat) := by
  intro f; cases f <;> decide

theorem raise_of_faulted (f : FaultCode) {s : State} (h : s.ctl.fsm = .faulted) :
    raise f s = s.answer ⟨faultWord f, .none⟩ := by
  simp [raise, h]

theorem raise_of_unconfigured (f : FaultCode) {s : State} (h : s.ctl.fsm = .unconfigured) :
    raise f s = (s.setCtl { s.ctl with faultCode := f.code }).answer ⟨faultWord f, .none⟩ := by
  simp [raise, h]

theorem raise_of_open (f : FaultCode) {s : State} (h : s.isOpen) :
    raise f s = (s.setCtl { s.ctl with faultCode := f.code, fsm := if f = .config then .unconfigured else .faulted }).answer
      ⟨faultWord f, .none⟩ := by
  have unfaulted : s.ctl.fsm ≠ .faulted := by obtain h | h := h <;> simp [h]
  have configured : s.ctl.fsm ≠ .unconfigured := by obtain h | h := h <;> simp [h]
  by_cases hf : f = .config <;> simp [raise, unfaulted, configured, hf]

/-- Settles O5: the codes row by row, fault entry by its equation in each state of `fsm`. -/
theorem faultEntry : Obligations.FaultEntry := by
  refine ⟨code_mem_faultTable, fun f s => ?_⟩
  refine ⟨fun faulted => ?_, fun unconfigured => ?_, fun session => ?_⟩
  · rw [raise_of_faulted f faulted, faultWord_eq]; rfl
  · rw [raise_of_unconfigured f unconfigured, faultWord_eq]; rfl
  · rw [raise_of_open f session, faultWord_eq]; rfl

/-! ### The common part of COMPRESS, check by check (R511) -/

section
variable {s : State} {f : BitVec 3} {chunk : List Byte}

theorem compress_run_of_unconfigured (h : s.ctl.fsm = .unconfigured) :
    (compress f chunk).run s = .error (.raise .notConfigured) s :=
  Op.bind_error (requireSession_run_of_unconfigured h)

theorem compress_run_of_faulted (h : s.ctl.fsm = .faulted) : (compress f chunk).run s = .error (.raise .faulted) s :=
  Op.bind_error (requireSession_run_of_faulted h)

theorem compress_run_of_bad_flush (h : s.isOpen) (hf : ¬ f ≤ FINISH) :
    (compress f chunk).run s = .error (.raise .badFlush) s := by
  unfold compress
  rw [Op.bind_ok (requireSession_run_of_open h), Op.require_neg hf]

theorem compress_run_of_finish (h : s.ctl.fsm = .finish) (hf : f ≤ FINISH) :
    (compress f chunk).run s
      = if f = FINISH ∧ chunk = [] then .ok streamEndReply s else .error (.raise .afterFinish) s := by
  unfold compress
  rw [Op.bind_ok (requireSession_run_of_open (.inr h)), Op.require_pos hf, Op.state_bind, if_pos h]
  split <;> rfl

end

/-- Every host command but CONFIGURE is one of four operations, each of which begins with the session check. -/
theorem exec_of_command {i : Instr} (command : IsCommand i) (notConfigure : ¬ IsConfigure i) :
    ∃ op : Op Reply, (∀ s, exec i s = runCommand op s)
      ∧ ((∃ f chunk, op = compress f chunk) ∨ op = Machine.getBytes ∨ op = takeBytes ∨ op = getCrc) := by
  cases i with
  | configure a b c d e => exact absurd ⟨a, b, c, d, e, rfl⟩ notConfigure
  | compressNoFlush chunk => exact ⟨_, fun _ => rfl, .inl ⟨_, _, rfl⟩⟩
  | compressPartialFlush chunk => exact ⟨_, fun _ => rfl, .inl ⟨_, _, rfl⟩⟩
  | compressSyncFlush chunk => exact ⟨_, fun _ => rfl, .inl ⟨_, _, rfl⟩⟩
  | compressFullFlush chunk => exact ⟨_, fun _ => rfl, .inl ⟨_, _, rfl⟩⟩
  | compressFinish chunk => exact ⟨_, fun _ => rfl, .inl ⟨_, _, rfl⟩⟩
  | compressFlush5 chunk => exact ⟨_, fun _ => rfl, .inl ⟨_, _, rfl⟩⟩
  | compressFlush6 chunk => exact ⟨_, fun _ => rfl, .inl ⟨_, _, rfl⟩⟩
  | compressFlush7 chunk => exact ⟨_, fun _ => rfl, .inl ⟨_, _, rfl⟩⟩
  | getBytes => exact ⟨_, fun _ => rfl, .inr (.inl rfl)⟩
  | takeBytes => exact ⟨_, fun _ => rfl, .inr (.inr (.inl rfl))⟩
  | getCrc => exact ⟨_, fun _ => rfl, .inr (.inr (.inr rfl))⟩
  | zlibHeader _ _ _ => exact command.elim
  | blockStored _ => exact command.elim
  | blockStatic _ => exact command.elim
  | blockDynamic _ => exact command.elim
  | blockReserved _ => exact command.elim
  | adlerTrailer _ => exact command.elim

/-- Without a session such an operation ends in the session check. -/
theorem command_run_of_no_session {op : Op Reply}
    (h : (∃ f chunk, op = compress f chunk) ∨ op = Machine.getBytes ∨ op = takeBytes ∨ op = getCrc) {s : State} {e : Abort}
    (check : requireSession.run s = .error e s) : op.run s = .error e s := by
  obtain ⟨f, chunk, rfl⟩ | rfl | rfl | rfl := h <;> exact Op.bind_error check

/-- Settles O6: without a session the session check ends every command; in a session the checks of COMPRESS follow in the
order of R511. -/
theorem stateChecks : Obligations.StateChecks := by
  intro s
  refine ⟨fun i command notConfigure unconfigured => ?_, fun i command notConfigure faulted => ?_,
    fun i chunk row session => ?_, fun f chunk mode finish notAgain => ?_, fun finish => ?_⟩
  · obtain ⟨op, run, kind⟩ := exec_of_command command notConfigure
    rw [run, runCommand_of_raise (command_run_of_no_session kind (requireSession_run_of_unconfigured unconfigured)),
      raise_of_unconfigured (s := s.clearInput) .notConfigured unconfigured]
    rfl
  · obtain ⟨op, run, kind⟩ := exec_of_command command notConfigure
    rw [run, runCommand_of_raise (command_run_of_no_session kind (requireSession_run_of_faulted faulted)),
      raise_of_faulted (s := s.clearInput) .faulted faulted]
    rfl
  · have badFlush : ∀ f : BitVec 3, ¬ f ≤ FINISH → runCommand (compress f chunk) s = .next (faultedWith 3 s) := by
      intro f illegal
      rw [runCommand_of_raise (compress_run_of_bad_flush session illegal), raise_of_open (s := s.clearInput) .badFlush session]
      rfl
    obtain rfl | rfl | rfl := row
    · exact badFlush 5 (by decide)
    · exact badFlush 6 (by decide)
    · exact badFlush 7 (by decide)
  · rw [exec_compressWith mode]
    have run := compress_run_of_finish (chunk := chunk) finish mode
    rw [if_neg (show ¬ (f = FINISH ∧ chunk = []) from notAgain)] at run
    rw [runCommand_of_raise run, raise_of_open (s := s.clearInput) .afterFinish (.inr finish)]
    rfl
  · have run := compress_run_of_finish (f := FINISH) (chunk := []) finish (by decide)
    rw [if_pos ⟨rfl, rfl⟩] at run
    exact runCommand_of_ok run

/-! ### The refused CONFIGURE (R200) -/

theorem legal_iff (level method windowBits memLevel : BitVec 4) (strategy : BitVec 2) :
    Settings.legal ⟨level, method, windowBits, memLevel, strategy⟩ = true
      ↔ LegalOperands level method windowBits memLevel strategy := by
  have method_iff : method = 8 ↔ method.toNat = 8 := BitVec.toNat_inj.symm
  simp only [Settings.legal, LegalOperands, Bool.and_eq_true, decide_eq_true_eq, method_iff, and_assoc]

/-- Settles O10: the session is discarded, then F_CONFIG is taken in UNCONFIGURED. -/
theorem configureRefused : Obligations.ConfigureRefused := by
  intro level method windowBits memLevel strategy s illegal
  have refused : (configure ⟨level, method, windowBits, memLevel, strategy⟩).run s
      = .error (.raise .config) s.discardSession := by
    unfold configure
    rw [if_neg (mt (legal_iff ..).1 illegal)]
    rfl
  change runCommand (configure _) s = _
  rw [runCommand_of_raise refused]
  rfl

/-! ### TAKE_BYTES and GET_CRC (R213, R214) -/

theorem takeBytes_run_of_open {s : State} (h : s.isOpen) :
    takeBytes.run s = .ok ⟨okWord, .bytes s.mem.out⟩ (s.setMem { s.mem with out := [] }) :=
  Op.bind_ok (requireSession_run_of_open h)

theorem getCrc_run_of_open {s : State} (h : s.isOpen) : getCrc.run s = .ok ⟨okWord, .crc s.sums.crc⟩ s :=
  Op.bind_ok (requireSession_run_of_open h)

theorem getBytes_run_of_open {s : State} (h : s.isOpen) : Machine.getBytes.run s = .ok ⟨okWord, .bytes s.mem.out⟩ s :=
  Op.bind_ok (requireSession_run_of_open h)

/-- Settles O15: the session check decides the case. -/
theorem takeBytesAndGetCrc : Obligations.TakeBytesAndGetCrc := by
  refine ⟨fun s => ⟨fun session => ?_, fun unconfigured => ?_, fun faulted => ?_⟩,
    fun s => ⟨fun session => ?_, fun unconfigured => ?_, fun faulted => ?_⟩⟩
  · exact runCommand_of_ok (takeBytes_run_of_open session)
  · exact runCommand_of_raise (Op.bind_error (requireSession_run_of_unconfigured unconfigured))
  · exact runCommand_of_raise (Op.bind_error (requireSession_run_of_faulted faulted))
  · exact runCommand_of_ok (getCrc_run_of_open session)
  · exact runCommand_of_raise (Op.bind_error (requireSession_run_of_unconfigured unconfigured))
  · exact runCommand_of_raise (Op.bind_error (requireSession_run_of_faulted faulted))

/-! ### STREAM.ZLIB_HEADER and STREAM.ADLER_TRAILER (30_encoding.md R149, R159) -/

theorem runElement_of_ok {op : Op Unit} {s t : State} (h : op.run s = .ok () t) : runElement op s = .next t := by
  unfold runElement
  rw [h]

theorem runElement_of_raise {op : Op Unit} {s t : State} {f : FaultCode} (h : op.run s = .error (.raise f) t) :
    runElement op s = .next (raise f t.clearInput) := by
  unfold runElement
  rw [h]

theorem cmf_append (cinfo : BitVec 4) : cinfo ++ 8#4 = BitVec.ofNat 8 (cinfo.toNat * 16 + 8) := by
  revert cinfo; decide

theorem flg_append (flevel : BitVec 2) (fcheck : BitVec 5) :
    flevel ++ 0#1 ++ fcheck = BitVec.ofNat 8 (flevel.toNat * 64 + fcheck.toNat) := by
  have fcheckLt := fcheck.isLt
  apply BitVec.eq_of_toNat_eq
  simp only [BitVec.toNat_append, BitVec.toNat_ofNat]
  rw [← Nat.shiftLeft_add_eq_or_of_lt (by omega), ← Nat.shiftLeft_add_eq_or_of_lt (by decide), Nat.shiftLeft_eq,
    Nat.shiftLeft_eq]
  omega

theorem byte_of_word (w : Word) (start : Nat) : w.extractLsb' start 8 = BitVec.ofNat 8 (w.toNat / 2 ^ start) :=
  field_eq_ofNat w start 8

theorem putAdler_run {s : State} (h : HasRoom s 4) (adler : Word) :
    (putAdler adler).run s = .ok () (s.emitted (trailerBytes adler)) := by
  have low : BitVec.ofNat 8 (adler.toNat / 2 ^ 0) = BitVec.ofNat 8 adler.toNat := by rw [Nat.pow_zero, Nat.div_one]
  unfold putAdler
  have h3 := hasRoom_emitted h (adler.extractLsb' 24 8)
  have h2 := hasRoom_emitted h3 (adler.extractLsb' 16 8)
  have h1 := hasRoom_emitted h2 (adler.extractLsb' 8 8)
  rw [Op.bind_ok (putByte_run_of_hasRoom h _), Op.bind_ok (putByte_run_of_hasRoom h3 _),
    Op.bind_ok (putByte_run_of_hasRoom h2 _), putByte_run_of_hasRoom h1]
  simp only [State.emitted_emitted, byte_of_word, trailerBytes, low, List.cons_append, List.nil_append]

/-- Settles O51: the bytes of both elements go out one by one, and there is room for each. -/
theorem headerAndTrailerElements : Obligations.HeaderAndTrailerElements := by
  refine ⟨fun cinfo fl fcheck s room => ?_, fun adler s room => ?_⟩
  · have run := putHeader_run room cinfo fl fcheck
    rw [cmf_append, flg_append] at run
    exact runElement_of_ok run
  · exact runElement_of_ok (putAdler_run room adler)

/-! ### Power-on (70_reset_and_hazards.md R541) -/

theorem reset_not_open : ¬ State.reset.isOpen := by
  rintro (h | h) <;> cases h

theorem reset_modeOk : State.reset.ModeOk := by
  refine ⟨fun h => absurd h reset_not_open, fun h => ?_, by decide⟩
  cases h

/-- Settles O56: the memories are empty and no session is open. -/
theorem resetIsGood : Obligations.ResetIsGood :=
  ⟨rfl, rfl, rfl, by decide, reset_modeOk, fun h => absurd h reset_not_open, fun h => absurd h reset_not_open,
    fun h => absurd h reset_not_open, fun h => absurd h reset_not_open, fun h => absurd h reset_not_open,
    fun h => absurd h reset_not_open, fun h => absurd h reset_not_open⟩

end Sys2Proof.Proofs
end

section
/-! How an operation can fail. No sub-operation of a command raises F_CONFIG, and none raises F_ALLOC while `OUT` is
unbounded; only a loop can outlast its bound (60_exceptions.md R500, 20_memory.md R105, log 10). -/

namespace Sys2Proof.Proofs

open Sys2Proof.Machine Sys2Proof.Claims

/-! ### Failures of compound operations -/

/-- However `x` fails, the failure and the state it leaves are as `E` allows. -/
def Fails {α : Type} (E : Abort → State → Prop) (x : Op α) : Prop := ∀ s e t, x.run s = .error e t → E e t

section
variable {α β : Type} {E : Abort → State → Prop}

theorem Fails.mono {E' : Abort → State → Prop} {x : Op α} (h : Fails E x) (le : ∀ e t, E e t → E' e t) : Fails E' x :=
  fun s e t run => le e t (h s e t run)

theorem fails_pure (a : α) : Fails E (pure a : Op α) := fun _ _ _ h => nomatch h

theorem fails_state : Fails E Op.state := fun _ _ _ h => nomatch h

theorem fails_gets (g : State → α) : Fails E (Op.gets g) := fun _ _ _ h => nomatch h

theorem fails_update (u : State → State) : Fails E (Op.update u) := fun _ _ _ h => nomatch h

theorem fails_raise {f : FaultCode} (h : ∀ t, E (.raise f) t) : Fails E (Op.raise f : Op α) := fun _ _ _ run => by
  cases run; exact h _

theorem fails_require {p : Prop} [Decidable p] {f : FaultCode} (h : ∀ t, E (.raise f) t) : Fails E (Op.require p f) := by
  unfold Op.require
  split
  · exact fails_pure ()
  · exact fails_raise h

theorem fails_bind {x : Op α} {k : α → Op β} (hx : Fails E x) (hk : ∀ a, Fails E (k a)) : Fails E (x >>= k) := by
  intro s e t run
  rw [Op.bind_apply] at run
  cases first : x.run s with
  | ok a u => rw [first] at run; exact hk a u e t run
  | error e' u => rw [first] at run; cases run; exact hx s _ _ first

/-- An operation after a read of the state. -/
theorem fails_read {k : State → Op β} (hk : ∀ s, Fails E (k s)) : Fails E (Op.state >>= k) := fails_bind fails_state hk

theorem fails_ite {p : Prop} [Decidable p] {x y : Op α} (hx : Fails E x) (hy : Fails E y) :
    Fails E (if p then x else y) := by
  split <;> assumption

theorem fails_when {p : Prop} [Decidable p] {x : Op Unit} (hx : Fails E x) : Fails E (Op.when p x) :=
  fails_ite hx (fails_pure ())

theorem fails_times {x : Op Unit} (hx : Fails E x) (k : Nat) : Fails E (Op.times k x) := by
  induction k with
  | zero => exact fails_pure ()
  | succ k ih => rw [Op.times_succ]; exact fails_bind hx fun _ => ih

theorem fails_forEach {x : α → Op Unit} (hx : ∀ a, Fails E (x a)) (as : List α) : Fails E (Op.forEach x as) := by
  induction as with
  | nil => exact fails_pure ()
  | cons a rest ih => rw [Op.forEach_cons]; exact fails_bind (hx a) fun _ => ih

/-- A loop fails as its rounds do, or by outlasting its bound. -/
theorem fails_iterate {body : Op LoopStep} (h : Fails E body) (fuel : Nat) :
    Fails (fun e t => e = .unbounded ∨ E e t) (Op.iterate body fuel) := by
  induction fuel with
  | zero => intro s e t run; cases run; exact .inl rfl
  | succ fuel ih =>
    rw [Op.iterate_succ]
    refine fails_bind (h.mono fun _ _ => .inr) fun l => ?_
    cases l with
    | again => exact ih
    | exit => exact fails_pure _
    | needMore => exact fails_pure _

end

/-- What a loop may add to the failures of its rounds. -/
abbrev OrUnbounded (E : Abort → State → Prop) (e : Abort) (t : State) : Prop := e = .unbounded ∨ E e t

theorem fails_iterate_again {E : Abort → State → Prop} {body : Op LoopStep} (h : Fails (OrUnbounded E) body) (fuel : Nat) :
    Fails (OrUnbounded E) (Op.iterate body fuel) :=
  (fails_iterate h fuel).mono fun _ _ => or_self_left.1

/-! ### The faults of a command that has come past its checks -/

/-- A raise, but not of F_CONFIG, and of F_ALLOC only from a finite `OUT`. -/
abbrev MildFault (e : Abort) (t : State) : Prop :=
  e ≠ .unbounded ∧ e ≠ .raise .config ∧ (e = .raise .alloc → ¬ t.unbounded)

/-- No mild operation outlasts a bound. -/
abbrev Mild {α : Type} (x : Op α) : Prop := Fails MildFault x

/-- A loop of mild rounds. -/
abbrev MildLoop {α : Type} (x : Op α) : Prop := Fails (OrUnbounded MildFault) x

section
variable {α : Type}

theorem Mild.loop {x : Op α} (h : Mild x) : MildLoop x := h.mono fun _ _ => .inr

theorem mild_require {p : Prop} [Decidable p] {f : FaultCode} (config : f ≠ .config) (alloc : f ≠ .alloc) :
    Mild (Op.require p f) :=
  fails_require fun _ => ⟨nofun, fun h => config (Abort.raise.inj h), fun h => absurd (Abort.raise.inj h) alloc⟩

theorem mild_raise {f : FaultCode} (config : f ≠ .config) (alloc : f ≠ .alloc) : Mild (Op.raise f : Op α) :=
  fails_raise fun _ => ⟨nofun, fun h => config (Abort.raise.inj h), fun h => absurd (Abort.raise.inj h) alloc⟩

end

/-! ### Element access -/

theorem readAt_mild {w : Nat} (size : Nat) (a : Arr w) (i : Nat) : Mild (Op.readAt size a i) :=
  fails_bind (mild_require (by decide) (by decide)) fun _ => fails_pure _

theorem readWin_mild (i : Nat) : Mild (readWin i) := fails_read fun _ => readAt_mild _ _ _
theorem readHead_mild (i : Nat) : Mild (readHead i) := fails_read fun _ => readAt_mild _ _ _
theorem readPrev_mild (i : Nat) : Mild (readPrev i) := fails_read fun _ => readAt_mild _ _ _
theorem readDbuf_mild (i : Nat) : Mild (readDbuf i) := fails_read fun _ => readAt_mild _ _ _
theorem readLbuf_mild (i : Nat) : Mild (readLbuf i) := fails_read fun _ => readAt_mild _ _ _

/-- A check, then a write. -/
theorem mild_checked {p : Prop} [Decidable p] {f : FaultCode} (config : f ≠ .config) (alloc : f ≠ .alloc)
    (u : State → State) : Mild (do Op.require p f; Op.update u) :=
  fails_bind (mild_require config alloc) fun _ => fails_update _

theorem writeHead_mild (i : Nat) (v : BitVec 16) : Mild (writeHead i v) :=
  fails_read fun _ => mild_checked (by decide) (by decide) _
theorem writePrev_mild (i : Nat) (v : BitVec 16) : Mild (writePrev i v) :=
  fails_read fun _ => mild_checked (by decide) (by decide) _
theorem writeToken_mild (i : Nat) (dist : BitVec 16) (lc : Byte) : Mild (writeToken i dist lc) :=
  fails_read fun _ => mild_checked (by decide) (by decide) _
theorem countLit_mild (i k : Nat) : Mild (countLit i k) := mild_checked (by decide) (by decide) _
theorem countDist_mild (i k : Nat) : Mild (countDist i k) := mild_checked (by decide) (by decide) _
theorem countBl_mild (i k : Nat) : Mild (countBl i k) := mild_checked (by decide) (by decide) _
theorem checkWindow_mild : Mild checkWindow := fails_read fun _ => mild_require (by decide) (by decide)
theorem takeLook_mild (n : Nat) : Mild (takeLook n) := fails_read fun _ => mild_checked (by decide) (by decide) _
theorem advance_mild (n : Nat) : Mild (advance n) := fails_update _

/-! ### Output and input -/

theorem emit_mild (b : Byte) : Mild (emit b) := by
  intro s e t run
  rw [emit_run] at run
  split at run
  · cases run
  · next full =>
    cases run
    exact ⟨nofun, nofun, fun _ unbounded => full (State.outHasRoom_of_unbounded unbounded)⟩

theorem putByte_mild (b : Byte) : Mild (putByte b) := emit_mild b
theorem putShort_mild (w : BitVec 16) : Mild (putShort w) := fails_bind (putByte_mild _) fun _ => putByte_mild _

theorem readBuf_mild (dst size : Nat) : Mild (readBuf dst size) := by
  refine fails_read fun s => fails_bind (fails_update _) fun _ => fails_ite (fails_pure _) ?_
  exact fails_bind (mild_require (by decide) (by decide)) fun _ =>
    fails_bind (fails_update _) fun _ => fails_bind (fails_update _) fun _ => fails_pure _

/-! ### The bit packer -/

theorem sendBits_mild (value length : Nat) : Mild (sendBits value length) := by
  refine fails_bind (mild_require (by decide) (by decide)) fun _ => fails_read fun _ => fails_ite ?_ (fails_update _)
  exact fails_bind (fails_update _) fun _ => fails_read fun _ => fails_bind (putShort_mild _) fun _ => fails_update _

theorem sendDiff_mild (a b length : Nat) : Mild (sendDiff a b length) :=
  fails_bind (mild_require (by decide) (by decide)) fun _ => sendBits_mild _ _

theorem biWindup_mild : Mild biWindup :=
  fails_read fun _ => fails_bind (fails_ite (putShort_mild _) (fails_when (putByte_mild _))) fun _ => fails_update _

theorem biFlushBytes_mild : Mild biFlushBytes :=
  fails_read fun _ => fails_times (fails_read fun _ => fails_bind (putByte_mild _) fun _ => fails_update _) _

/-! ### The Huffman builder -/

theorem buildTree_mild (tree : Tree) : Mild (buildTree tree) := by
  refine fails_read fun s => fails_bind (fails_update _) fun _ => ?_
  split
  · exact mild_raise (by decide) (by decide)
  · exact fails_bind (fails_update _) fun _ => fails_bind (mild_require (by decide) (by decide)) fun _ => fails_update _

theorem countTree_mild (tree : Tree) (maxCode : Nat) : Mild (countTree tree maxCode) :=
  fails_bind (mild_require (by decide) (by decide)) fun _ => fails_read fun _ => fails_forEach (fun _ => countBl_mild _ _) _

theorem buildAll_mild : Mild buildAll := by
  refine fails_bind (buildTree_mild _) fun _ => fails_bind (buildTree_mild _) fun _ => fails_read fun _ => ?_
  refine fails_bind (countTree_mild _ _) fun _ => fails_bind (countTree_mild _ _) fun _ => ?_
  exact fails_bind (buildTree_mild _) fun _ => fails_bind (fails_update _) fun _ => fails_update _

/-! ### Block emission -/

theorem sendCode_mild (set : CodeSet) (tree : Tree) (c : Nat) : Mild (sendCode set tree c) :=
  fails_bind (mild_require (by decide) (by decide)) fun _ => fails_read fun _ => sendBits_mild _ _

theorem sendExtra_mild (v base n : Nat) : Mild (sendExtra v base n) := fails_ite (fails_pure _) (sendDiff_mild _ _ _)

theorem sendToken_mild (set : CodeSet) (i : Nat) : Mild (sendToken set i) := by
  refine fails_bind (readDbuf_mild _) fun _ => fails_bind (readLbuf_mild _) fun _ => fails_ite (sendCode_mild _ _ _) ?_
  exact fails_bind (sendCode_mild _ _ _) fun _ => fails_bind (sendExtra_mild _ _ _) fun _ =>
    fails_bind (sendCode_mild _ _ _) fun _ => sendExtra_mild _ _ _

theorem compressBlock_mild (set : CodeSet) : Mild (compressBlock set) :=
  fails_read fun _ => fails_bind (fails_forEach (sendToken_mild set) _) fun _ => sendCode_mild _ _ _

theorem sendClSym_mild (c : ClSym) : Mild (sendClSym c) := by
  cases c with
  | len l => exact sendCode_mild _ _ _
  | repeatPrev n => exact fails_bind (sendCode_mild _ _ _) fun _ => sendDiff_mild _ _ _
  | zeros n => exact fails_bind (sendCode_mild _ _ _) fun _ => sendDiff_mild _ _ _
  | manyZeros n => exact fails_bind (sendCode_mild _ _ _) fun _ => sendDiff_mild _ _ _

theorem sendTree_mild (tree : Tree) (maxCode : Nat) : Mild (sendTree tree maxCode) :=
  fails_bind (mild_require (by decide) (by decide)) fun _ => fails_read fun _ => fails_forEach sendClSym_mild _

theorem sendAllTrees_mild : Mild sendAllTrees := by
  refine fails_read fun _ => fails_bind (sendDiff_mild _ _ _) fun _ => fails_bind (sendDiff_mild _ _ _) fun _ => ?_
  refine fails_bind (sendDiff_mild _ _ _) fun _ => fails_bind (fails_forEach (fun _ => ?_) _) fun _ =>
    fails_bind (sendTree_mild _ _) fun _ => sendTree_mild _ _
  exact fails_bind (mild_require (by decide) (by decide)) fun _ => fails_read fun _ => sendBits_mild _ _

theorem storedBlock_mild (start len : Int) (eof : BitVec 1) : Mild (storedBlock start len eof) := by
  refine fails_bind (mild_require (by decide) (by decide)) fun _ => fails_bind (sendBits_mild _ _) fun _ => ?_
  refine fails_bind biWindup_mild fun _ => fails_bind (putShort_mild _) fun _ => fails_bind (putShort_mild _) fun _ => ?_
  exact fails_forEach (fun _ => fails_bind (readWin_mild _) fun _ => putByte_mild _) _

theorem staticBlock_mild (eof : BitVec 1) : Mild (staticBlock eof) :=
  fails_bind (sendBits_mild _ _) fun _ => compressBlock_mild _

theorem dynamicBlock_mild (eof : BitVec 1) : Mild (dynamicBlock eof) :=
  fails_bind (sendBits_mild _ _) fun _ => fails_bind sendAllTrees_mild fun _ => compressBlock_mild _

theorem emitBlock_mild (mode : BlockMode) (a b : Int) (eof : BitVec 1) : Mild (emitBlock mode a b eof) := by
  cases mode with
  | stored => exact storedBlock_mild _ _ _
  | static => exact staticBlock_mild _
  | dynamic => exact dynamicBlock_mild _

theorem flushBlock_mild (eof : BitVec 1) : Mild (flushBlock eof) := by
  refine fails_read fun _ => fails_bind (fails_when buildAll_mild) fun _ => fails_read fun _ => ?_
  refine fails_bind (emitBlock_mild _ _ _ _) fun _ => fails_bind (fails_update _) fun _ => ?_
  exact fails_bind (fails_when biWindup_mild) fun _ => fails_update _

theorem flushEpilogue_mild (f : BitVec 3) : Mild (flushEpilogue f) :=
  fails_ite biFlushBytes_mild (fails_bind (storedBlock_mild _ _ _) fun _ => fails_when (fails_update _))

theorem putHeader_mild (cinfo : BitVec 4) (flevel : BitVec 2) (fcheck : BitVec 5) : Mild (putHeader cinfo flevel fcheck) :=
  fails_bind (putByte_mild _) fun _ => putByte_mild _

theorem putAdler_mild (adler : Word) : Mild (putAdler adler) :=
  fails_bind (putByte_mild _) fun _ => fails_bind (putByte_mild _) fun _ =>
    fails_bind (putByte_mild _) fun _ => putByte_mild _

theorem trailer_mild : Mild trailer := fails_read fun _ => putAdler_mild _

/-! ### The match finder -/

theorem insertString_mild (pos : Nat) : Mild (insertString pos) := by
  refine fails_bind (readWin_mild _) fun _ => fails_bind (fails_update _) fun _ => fails_read fun _ => ?_
  exact fails_bind (readHead_mild _) fun _ => fails_bind (writePrev_mild _ _) fun _ =>
    fails_bind (writeHead_mild _ _) fun _ => fails_pure _

theorem slide_mild : Mild slide :=
  fails_bind (fails_update _) fun _ => fails_bind (fails_update _) fun _ => checkWindow_mild

theorem seedHash_mild : Mild seedHash :=
  fails_read fun _ => fails_bind (readWin_mild _) fun _ => fails_bind (readWin_mild _) fun _ => fails_update _

theorem fillStep_mild : Mild fillStep := by
  unfold fillStep
  refine fails_read fun _ => fails_bind (fails_when slide_mild) fun _ => fails_read fun _ => fails_ite (fails_pure _) ?_
  refine fails_bind (readBuf_mild _ _) fun _ => fails_bind (fails_update _) fun _ => fails_read fun _ => ?_
  exact fails_bind (fails_when seedHash_mild) fun _ => fails_ite (fails_pure _) (fails_pure _)

theorem fillWindow_mildLoop : MildLoop fillWindow :=
  fails_read fun _ => fails_bind (fails_iterate fillStep_mild _) fun _ => checkWindow_mild.loop

theorem commonLength_mild (a b limit : Nat) : Mild (commonLength a b limit) := by
  induction limit generalizing a b with
  | zero => exact fails_pure _
  | succ limit ih =>
    refine fails_bind (readWin_mild _) fun _ => fails_bind (readWin_mild _) fun _ => fails_ite ?_ (fails_pure _)
    exact fails_bind (ih _ _) fun _ => fails_pure _

theorem walkChain_mild (strStart maxLen nice limit chain cur best : Nat) :
    Mild (walkChain strStart maxLen nice limit chain cur best) := by
  induction chain generalizing cur best with
  | zero => exact fails_pure _
  | succ chain ih =>
    refine fails_bind (commonLength_mild _ _ _) fun _ => fails_bind (fails_when (fails_update _)) fun _ => ?_
    refine fails_ite (fails_pure _) (fails_read fun _ => fails_bind (readPrev_mild _) fun _ => ?_)
    exact fails_ite (ih _ _) (fails_pure _)

theorem searchFrom_mild (head : Nat) : Mild (searchFrom head) :=
  fails_bind (fails_read fun _ => fails_bind (walkChain_mild _ _ _ _ _ _ _) fun _ => fails_pure _) fun _ => fails_update _

theorem countToken_mild (dist : Int) (lc : Nat) : Mild (countToken dist lc) := by
  refine fails_ite (countLit_mild _ _) (fails_read fun _ => fails_bind (mild_require (by decide) (by decide)) fun _ => ?_)
  exact fails_bind (fails_update _) fun _ => fails_bind (countLit_mild _ _) fun _ => countDist_mild _ _

theorem tally_mild (dist : Int) (lc : Nat) : Mild (tally dist lc) := by
  refine fails_read fun _ => fails_bind (mild_require (by decide) (by decide)) fun _ => ?_
  refine fails_bind (writeToken_mild _ _ _) fun _ => fails_bind (fails_update _) fun _ => ?_
  exact fails_bind (countToken_mild _ _) fun _ => fails_gets _

theorem tallyLiteral_mild (i : Nat) : Mild (tallyLiteral i) := fails_bind (readWin_mild _) fun _ => tally_mild _ _

theorem flushIf_mild (bflush : Bool) : Mild (flushIf bflush) := fails_when (flushBlock_mild _)

theorem endDrive_mild (f : BitVec 3) (l : LoopStep) : Mild (endDrive f l) := by
  cases l with
  | needMore => exact fails_pure _
  | again => exact fails_bind (flushBlock_mild _) fun _ => fails_pure _
  | exit => exact fails_bind (flushBlock_mild _) fun _ => fails_pure _

theorem insertHere_mild : Mild insertHere := fails_read fun _ => fails_ite (insertString_mild _) (fails_pure _)

theorem skipFast_mild : Mild skipFast :=
  fails_bind (advance_mild _) fun _ => fails_read fun _ => fails_bind (insertString_mild _) fun _ => fails_pure _

theorem fastPass_mild (len : Nat) : Mild (fastPass len) :=
  fails_read fun _ => fails_ite (fails_bind (fails_times skipFast_mild _) fun _ => advance_mild _)
    (fails_bind (advance_mild _) fun _ => fails_update _)

theorem fastMatch_mild : Mild fastMatch := by
  refine fails_read fun _ => fails_bind (tally_mild _ _) fun _ => fails_bind (takeLook_mild _) fun _ => ?_
  exact fails_bind (fastPass_mild _) fun _ => fails_bind (fails_update _) fun _ => fails_pure _

theorem fastLiteral_mild : Mild fastLiteral :=
  fails_read fun _ => fails_bind (tallyLiteral_mild _) fun _ => fails_bind (takeLook_mild _) fun _ =>
    fails_bind (advance_mild _) fun _ => fails_pure _

theorem fastStep_mild : Mild fastStep := by
  refine fails_bind insertHere_mild fun _ => fails_read fun _ => fails_bind (fails_when (searchFrom_mild _)) fun _ => ?_
  refine fails_bind (fails_read fun _ => fails_ite fastMatch_mild fastLiteral_mild) fun _ => ?_
  exact fails_bind (flushIf_mild _) fun _ => fails_bind checkWindow_mild fun _ => fails_pure _

theorem skipSlow_mild (fence : Nat) : Mild (skipSlow fence) :=
  fails_bind (advance_mild _) fun _ => fails_read fun _ =>
    fails_when (fails_bind (insertString_mild _) fun _ => fails_pure _)

theorem slowCommit_mild : Mild slowCommit := by
  refine fails_read fun _ => fails_bind (tally_mild _ _) fun _ => fails_bind (takeLook_mild _) fun _ => ?_
  exact fails_bind (fails_times (skipSlow_mild _) _) fun _ => fails_bind (fails_update _) fun _ => flushIf_mild _

theorem tallyDeferred_mild : Mild tallyDeferred :=
  fails_read fun _ => fails_bind (mild_require (by decide) (by decide)) fun _ => tallyLiteral_mild _

theorem slowLiteral_mild : Mild slowLiteral :=
  fails_bind tallyDeferred_mild fun _ => fails_bind (flushIf_mild _) fun _ =>
    fails_bind (advance_mild _) fun _ => takeLook_mild _

theorem slowDefer_mild : Mild slowDefer :=
  fails_bind (fails_update _) fun _ => fails_bind (advance_mild _) fun _ => takeLook_mild _

theorem slowSearch_mild (head : Nat) : Mild (slowSearch head) :=
  fails_read fun _ => fails_when (fails_bind (fails_when (searchFrom_mild _)) fun _ => fails_update _)

theorem slowStep_mild : Mild slowStep := by
  refine fails_bind insertHere_mild fun _ => fails_bind (fails_update _) fun _ => fails_bind (slowSearch_mild _) fun _ => ?_
  refine fails_bind (fails_read fun _ => fails_ite slowCommit_mild (fails_ite slowLiteral_mild slowDefer_mild)) fun _ => ?_
  exact fails_bind checkWindow_mild fun _ => fails_pure _

theorem flushDeferred_mild : Mild flushDeferred :=
  fails_read fun _ => fails_when (fails_bind tallyDeferred_mild fun _ => fails_update _)

theorem storedStep_mild : Mild storedStep := by
  refine fails_read fun _ => fails_bind (advance_mild _) fun _ => fails_bind (takeLook_mild _) fun _ => ?_
  exact fails_read fun _ => fails_bind (fails_when (flushBlock_mild _)) fun _ => fails_bind checkWindow_mild fun _ => fails_pure _

theorem storedRound_mildLoop (f : BitVec 3) : MildLoop (storedRound f) :=
  fails_read fun _ => fails_bind (fails_when fillWindow_mildLoop) fun _ => fails_read fun _ =>
    fails_ite (fails_pure _) storedStep_mild.loop

theorem matchRound_mildLoop (f : BitVec 3) {step : Op LoopStep} (h : Mild step) : MildLoop (matchRound f step) := by
  unfold matchRound
  exact fails_read fun _ => fails_bind (fails_when fillWindow_mildLoop) fun _ => fails_read fun _ =>
    fails_ite (fails_pure _) (fails_ite (fails_pure _) h.loop)

/-! ### The drivers and the commands -/

theorem drive_mildLoop (f : BitVec 3) : MildLoop (drive f) := by
  have fuel : MildLoop driveFuel := fails_read fun _ => fails_pure _
  refine fails_read fun s => ?_
  cases s.ct.driver with
  | stored =>
    exact fails_bind fuel fun _ => fails_bind (fails_iterate_again (storedRound_mildLoop f) _) fun _ => (endDrive_mild _ _).loop
  | fast =>
    exact fails_bind fuel fun _ =>
      fails_bind (fails_iterate_again (matchRound_mildLoop f fastStep_mild) _) fun _ => (endDrive_mild _ _).loop
  | slow =>
    exact fails_bind fuel fun _ => fails_bind (fails_iterate_again (matchRound_mildLoop f slowStep_mild) _) fun _ =>
      fails_bind (Mild.loop (fails_when flushDeferred_mild)) fun _ => (endDrive_mild _ _).loop

theorem afterDrive_mild (f : BitVec 3) (r : DriveResult) : Mild (afterDrive f r) := by
  cases r with
  | finishDone => exact fails_update _
  | blockDone => exact flushEpilogue_mild f
  | needMore => exact fails_pure _

theorem runDriver_mildLoop (f : BitVec 3) : MildLoop (runDriver f) :=
  fails_bind (drive_mildLoop f) fun _ => (afterDrive_mild _ _).loop

theorem compressBusy_mildLoop (f : BitVec 3) (c : List Byte) : MildLoop (compressBusy f c) := by
  refine fails_read fun _ => fails_bind (fails_update _) fun _ => fails_bind (fails_update _) fun _ => ?_
  refine fails_ite (fails_pure _) (fails_bind (fails_when (runDriver_mildLoop f)) fun _ => ?_)
  exact fails_ite (fails_pure _) (fails_bind trailer_mild.loop fun _ => fails_pure _)

end Sys2Proof.Proofs
end

section
/-! Weakest preconditions of operations, and what a round and a driver can answer (41_match_finder.md R275 to R290). -/

namespace Sys2Proof.Proofs

open Sys2Proof.Machine Sys2Proof.Claims

/-! ### Weakest preconditions -/

/-- Run from `s`, `x` ends with an answer and a state as in `Q`, or fails as `E` allows. `E` is `True` for what holds if `x`
comes to its end, `False` for what it comes to. It is used through its rules: unfolding it would run `x`. -/
@[irreducible] def Wp {α : Type} (x : Op α) (E : Abort → Prop) (Q : α → State → Prop) (s : State) : Prop :=
  match x.run s with
  | .ok a t => Q a t
  | .error e _ => E e

section
variable {α β : Type} {E : Abort → Prop} {Q : α → State → Prop} {s : State}

theorem wp_of_ok {x : Op α} {a : α} {t : State} (h : x.run s = .ok a t) : Wp x E Q s ↔ Q a t := by
  unfold Wp; rw [h]

theorem wp_of_error {x : Op α} {e : Abort} {t : State} (h : x.run s = .error e t) : Wp x E Q s ↔ E e := by
  unfold Wp; rw [h]

theorem Wp.ok {x : Op α} (h : Wp x E Q s) {a : α} {t : State} (run : x.run s = .ok a t) : Q a t := (wp_of_ok run).1 h

theorem Wp.error {x : Op α} (h : Wp x E Q s) {e : Abort} {t : State} (run : x.run s = .error e t) : E e :=
  (wp_of_error run).1 h

/-- What holds if the operation comes to its end. -/
theorem wp_true_iff {x : Op α} : Wp x (fun _ => True) Q s ↔ ∀ a t, x.run s = .ok a t → Q a t := by
  unfold Wp
  cases h : x.run s with
  | ok a t => exact ⟨fun q _ _ e => (by cases e; exact q), fun q => q a t rfl⟩
  | error e t => exact ⟨fun _ _ _ e => (nomatch e), fun _ => trivial⟩

/-- What the operation comes to. -/
theorem wp_false_iff {x : Op α} : Wp x (fun _ => False) Q s ↔ ∃ a t, x.run s = .ok a t ∧ Q a t := by
  unfold Wp
  cases h : x.run s with
  | ok a t => exact ⟨fun q => ⟨a, t, rfl, q⟩, fun ⟨_, _, e, q⟩ => (by cases e; exact q)⟩
  | error e t => exact ⟨False.elim, fun ⟨_, _, e, _⟩ => nomatch e⟩

theorem Wp.mono {x : Op α} {E' : Abort → Prop} {Q' : α → State → Prop} (h : Wp x E Q s) (he : ∀ e, E e → E' e)
    (hq : ∀ a t, Q a t → Q' a t) : Wp x E' Q' s := by
  unfold Wp at h ⊢
  cases run : x.run s with
  | ok a t => rw [run] at h; exact hq a t h
  | error e t => rw [run] at h; exact he e h

theorem Wp.post {x : Op α} {Q' : α → State → Prop} (h : Wp x E Q s) (hq : ∀ a t, x.run s = .ok a t → Q a t → Q' a t) :
    Wp x E Q' s := by
  unfold Wp at h ⊢
  cases run : x.run s with
  | ok a t => rw [run] at h; exact hq a t run h
  | error e t => rw [run] at h; exact h

theorem wp_pure {a : α} : Wp (pure a : Op α) E Q s ↔ Q a s := wp_of_ok rfl

theorem wp_bind {x : Op β} {k : β → Op α} :
    Wp (x >>= k) E Q s ↔ Wp x E (fun b t => Wp (k b) E Q t) s := by
  unfold Wp
  rw [Op.bind_apply]
  cases x.run s <;> exact Iff.rfl

theorem wp_state {k : State → Op α} : Wp (Op.state >>= k) E Q s ↔ Wp (k s) E Q s := by
  unfold Wp; exact Iff.rfl

theorem wp_update {u : State → State} {Q : Unit → State → Prop} : Wp (Op.update u) E Q s ↔ Q () (u s) := wp_of_ok rfl

theorem wp_gets {g : State → α} : Wp (Op.gets g) E Q s ↔ Q (g s) s := wp_of_ok rfl

theorem wp_raise {f : FaultCode} : Wp (Op.raise f : Op α) E Q s ↔ E (.raise f) := wp_of_error rfl

theorem wp_require {p : Prop} [Decidable p] {f : FaultCode} {Q : Unit → State → Prop} :
    Wp (Op.require p f) E Q s ↔ (p → Q () s) ∧ (¬ p → E (.raise f)) := by
  by_cases h : p
  · simp [Op.require, h, wp_pure]
  · simp [Op.require, h, wp_raise]

theorem wp_ite {p : Prop} [Decidable p] {x y : Op α} :
    Wp (if p then x else y) E Q s ↔ (p → Wp x E Q s) ∧ (¬ p → Wp y E Q s) := by
  by_cases h : p <;> simp [h]

theorem wp_when {p : Prop} [Decidable p] {x : Op Unit} {Q : Unit → State → Prop} :
    Wp (Op.when p x) E Q s ↔ (p → Wp x E Q s) ∧ (¬ p → Q () s) := by
  rw [Op.when, wp_ite, wp_pure]

/-- A loop keeps an invariant `P` round by round. With a measure that falls in every round that goes on, and a bound above
it, the loop ends before its bound. -/
theorem wp_iterate {body : Op LoopStep} {P : State → Prop} {m : State → Nat} {Q : LoopStep → State → Prop}
    (round : ∀ s, P s → Wp body E (fun l t => if l = .again then P t ∧ m t < m s else Q l t) s)
    {fuel : Nat} (start : P s) (enough : m s < fuel) : Wp (Op.iterate body fuel) E Q s := by
  induction fuel generalizing s with
  | zero => omega
  | succ fuel ih =>
    rw [Op.iterate_succ, wp_bind]
    refine (round s start).mono (fun _ => id) fun l t h => ?_
    cases l with
    | again => exact ih h.1 (by have := h.2; omega)
    | exit => exact wp_pure.2 h
    | needMore => exact wp_pure.2 h

theorem wp_times {x : Op Unit} {P : Nat → State → Prop} {k : Nat} {Q : Unit → State → Prop}
    (step : ∀ j, j < k → ∀ s, P j s → Wp x E (fun _ t => P (j + 1) t) s) (start : P 0 s)
    (done : ∀ t, P k t → Q () t) : Wp (Op.times k x) E Q s := by
  induction k generalizing P s with
  | zero => exact wp_pure.2 (done s start)
  | succ k ih =>
    rw [Op.times_succ, wp_bind]
    refine (step 0 (by omega) s start).mono (fun _ => id) fun _ t h => ?_
    exact ih (P := fun j => P (j + 1)) (fun j hj => step (j + 1) (by omega)) h done

end

/-! ### Partial correctness of compound operations -/

/-- If `x` comes to its end, the state before and the state after are related by `R`. -/
def Leads {α : Type} (R : State → State → Prop) (x : Op α) : Prop := ∀ s a t, x.run s = .ok a t → R s t

section
variable {α β : Type} {R : State → State → Prop}

theorem Leads.mono {R' : State → State → Prop} {x : Op α} (h : Leads R x) (le : ∀ s t, R s t → R' s t) : Leads R' x :=
  fun s a t run => le s t (h s a t run)

theorem leads_pure (o : Op.Order R) (a : α) : Leads R (pure a : Op α) := fun s _ _ h => by cases h; exact o.refl s

theorem leads_gets (o : Op.Order R) (g : State → α) : Leads R (Op.gets g) := fun s _ _ h => by cases h; exact o.refl s

theorem leads_update {u : State → State} (h : ∀ s, R s (u s)) : Leads R (Op.update u) := fun s _ _ run => by
  cases run; exact h s

theorem leads_raise {f : FaultCode} : Leads R (Op.raise f : Op α) := fun _ _ _ run => nomatch run

theorem leads_require (o : Op.Order R) {p : Prop} [Decidable p] {f : FaultCode} : Leads R (Op.require p f) := by
  unfold Op.require
  split
  · exact leads_pure o ()
  · exact leads_raise

theorem leads_bind (o : Op.Order R) {x : Op α} {k : α → Op β} (hx : Leads R x) (hk : ∀ a, Leads R (k a)) :
    Leads R (x >>= k) := by
  intro s b u run
  obtain ⟨a, t, first, rest⟩ := Op.bind_inv run
  exact o.trans (hx s a t first) (hk a t b u rest)

theorem leads_read {k : State → Op β} (hk : ∀ s, Leads R (k s)) : Leads R (Op.state >>= k) :=
  fun s b u run => hk s s b u run

theorem leads_ite {p : Prop} [Decidable p] {x y : Op α} (hx : Leads R x) (hy : Leads R y) :
    Leads R (if p then x else y) := by
  split <;> assumption

theorem leads_when (o : Op.Order R) {p : Prop} [Decidable p] {x : Op Unit} (hx : Leads R x) : Leads R (Op.when p x) :=
  leads_ite hx (leads_pure o ())

theorem leads_times (o : Op.Order R) {x : Op Unit} (hx : Leads R x) (k : Nat) : Leads R (Op.times k x) := by
  induction k with
  | zero => exact leads_pure o ()
  | succ k ih => rw [Op.times_succ]; exact leads_bind o hx fun _ => ih

theorem leads_forEach (o : Op.Order R) {x : α → Op Unit} (hx : ∀ a, Leads R (x a)) (as : List α) :
    Leads R (Op.forEach x as) := by
  induction as with
  | nil => exact leads_pure o ()
  | cons a rest ih => rw [Op.forEach_cons]; exact leads_bind o (hx a) fun _ => ih

end

/-! ### What the steps and rounds answer -/

/-- A step goes round again. -/
def GoesOn (step : Op LoopStep) : Prop := ∀ s l t, step.run s = .ok l t → l = .again

theorem goesOn_bind {α : Type} {x : Op α} {k : α → Op LoopStep} (h : ∀ a, GoesOn (k a)) : GoesOn (x >>= k) := by
  intro s l u run
  obtain ⟨a, t, -, rest⟩ := Op.bind_inv run
  exact h a t l u rest

theorem goesOn_pure : GoesOn (pure .again) := fun _ _ _ run => by cases run; rfl

theorem fastStep_goesOn : GoesOn fastStep :=
  goesOn_bind fun _ => goesOn_bind fun _ => goesOn_bind fun _ => goesOn_bind fun _ => goesOn_bind fun _ =>
    goesOn_bind fun _ => goesOn_pure

theorem slowStep_goesOn : GoesOn slowStep :=
  goesOn_bind fun _ => goesOn_bind fun _ => goesOn_bind fun _ => goesOn_bind fun _ => goesOn_bind fun _ => goesOn_pure

theorem storedStep_goesOn : GoesOn storedStep :=
  goesOn_bind fun _ => goesOn_bind fun _ => goesOn_bind fun _ => goesOn_bind fun _ => goesOn_bind fun _ =>
    goesOn_bind fun _ => goesOn_pure

/-- The fill at the top of a round, if one is due. -/
def FilledBelow (bound : Nat) (s t : State) : Prop :=
  (bound ≤ s.mf.lookAhead ∧ t = s) ∨ (s.mf.lookAhead < bound ∧ fillWindow.run s = .ok () t)

theorem filledBelow_of_when {p : Prop} [Decidable p] {bound : Nat} {s t : State} (due : p ↔ s.mf.lookAhead < bound)
    (run : (Op.when p fillWindow).run s = .ok () t) : FilledBelow bound s t := by
  by_cases h : p
  · rw [Op.when_pos h] at run; exact .inr ⟨due.1 h, run⟩
  · rw [Op.when_neg h] at run; cases run; exact .inl ⟨by have := mt due.2 h; omega, rfl⟩

/-- Everything a round of FAST or SLOW can do (R285, R290): after the fill it asks for more, leaves the loop, or steps. -/
theorem matchRound_cases {f : BitVec 3} {step : Op LoopStep} {s u : State} {l : LoopStep}
    (run : (matchRound f step).run s = .ok l u) : ∃ t, FilledBelow MIN_LOOKAHEAD s t
      ∧ ((l = .needMore ∧ u = t ∧ s.mf.lookAhead < MIN_LOOKAHEAD ∧ t.mf.lookAhead < MIN_LOOKAHEAD ∧ f = NO_FLUSH)
        ∨ (l = .exit ∧ u = t ∧ s.mf.lookAhead < MIN_LOOKAHEAD ∧ t.mf.lookAhead = 0 ∧ f ≠ NO_FLUSH)
        ∨ (t.mf.lookAhead ≠ 0 ∧ step.run t = .ok l u)) := by
  unfold matchRound at run
  rw [Op.state_bind] at run
  obtain ⟨⟨⟩, t, fill, run⟩ := Op.bind_inv run
  have filled := filledBelow_of_when Iff.rfl fill
  refine ⟨t, filled, ?_⟩
  rw [Op.state_bind] at run
  split at run
  · next more => cases run; exact .inl ⟨rfl, rfl, more⟩
  · next noMore =>
    split at run
    · next done =>
      cases run
      refine .inr (.inl ⟨rfl, rfl, done.1, done.2, fun noFlush => noMore ⟨done.1, ?_, noFlush⟩⟩)
      have := done.2
      have : (0 : Nat) < MIN_LOOKAHEAD := by decide
      omega
    · next work =>
      refine .inr (.inr ⟨fun empty => work ⟨?_, empty⟩, run⟩)
      obtain ⟨full, rfl⟩ | ⟨due, -⟩ := filled
      · have : (0 : Nat) < MIN_LOOKAHEAD := by decide
        omega
      · exact due

/-- Everything a round of STORED can do (R280). -/
theorem storedRound_cases {f : BitVec 3} {s u : State} {l : LoopStep} (run : (storedRound f).run s = .ok l u) :
    ∃ t, FilledBelow 1 s t
      ∧ ((l = (if f = NO_FLUSH then .needMore else .exit) ∧ u = t ∧ s.mf.lookAhead = 0 ∧ t.mf.lookAhead = 0)
        ∨ (t.mf.lookAhead ≠ 0 ∧ storedStep.run t = .ok l u)) := by
  unfold storedRound at run
  rw [Op.state_bind] at run
  obtain ⟨⟨⟩, t, fill, run⟩ := Op.bind_inv run
  have filled : FilledBelow 1 s t := filledBelow_of_when Nat.lt_one_iff.symm fill
  refine ⟨t, filled, ?_⟩
  rw [Op.state_bind] at run
  split at run
  · next empty =>
    cases run
    refine .inl ⟨rfl, rfl, ?_, empty⟩
    obtain ⟨some, rfl⟩ | ⟨due, -⟩ := filled
    · exact empty
    · omega
  · next work => exact .inr ⟨work, run⟩

end Sys2Proof.Proofs
end

section
/-! The bit packer (43_bit_packer.md R390 to R396). An accumulator that is well formed is a field of `biValid` bits, so the
abstract stream of R394 is a list of fields, and every operation is a fact about splitting and joining fields. -/

namespace Sys2Proof.Proofs

open Sys2Proof.Machine Sys2Proof.Claims

/-! ### Fields -/

@[simp] theorem fieldBits_zero (v : Nat) : fieldBits 0 v = [] := rfl

@[simp] theorem length_fieldBits (n v : Nat) : (fieldBits n v).length = n := by simp [fieldBits]

/-- The low `a` bits of a field, then the rest. -/
theorem fieldBits_add (a b v : Nat) : fieldBits (a + b) v = fieldBits a v ++ fieldBits b (v / 2 ^ a) := by
  simp only [fieldBits, List.range_add, List.map_append, List.map_map, Nat.testBit_div_two_pow]
  congr 1
  exact List.map_congr_left fun k _ => by rw [Function.comp_apply, Nat.add_comm]

/-- A field looks at no higher bits. -/
theorem fieldBits_mod (n v : Nat) : fieldBits n (v % 2 ^ n) = fieldBits n v :=
  List.map_congr_left fun k hk => by simp [Nat.testBit_mod_two_pow, List.mem_range.1 hk]

/-- Two fields side by side. -/
theorem fieldBits_join {a x : Nat} (hx : x < 2 ^ a) (b v : Nat) :
    fieldBits (a + b) (x + v * 2 ^ a) = fieldBits a x ++ fieldBits b v := by
  have low : (x + v * 2 ^ a) % 2 ^ a = x := by rw [Nat.add_mul_mod_self_right, Nat.mod_eq_of_lt hx]
  have high : (x + v * 2 ^ a) / 2 ^ a = v := by
    rw [Nat.add_mul_div_right _ _ (Nat.two_pow_pos a), Nat.div_eq_of_lt hx, Nat.zero_add]
  rw [fieldBits_add, high, ← fieldBits_mod a (x + _), low]

theorem fieldBits_of_zero (n : Nat) : fieldBits n 0 = List.replicate n false := by
  simp [fieldBits, List.map_const']

/-- A value below `2 ^ a` is followed by zeros. -/
theorem fieldBits_pad {a x : Nat} (hx : x < 2 ^ a) (b : Nat) :
    fieldBits (a + b) x = fieldBits a x ++ List.replicate b false := by
  rw [fieldBits_add, Nat.div_eq_of_lt hx, fieldBits_of_zero]

theorem byteBits_eq (b : Byte) : byteBits b = fieldBits 8 b.toNat := rfl

theorem byteBits_ofNat (v : Nat) : byteBits (BitVec.ofNat 8 v) = fieldBits 8 v := by
  rw [byteBits_eq, BitVec.toNat_ofNat, fieldBits_mod]

@[simp] theorem bytesBits_nil : bytesBits [] = [] := rfl

@[simp] theorem bytesBits_cons (b : Byte) (bytes : List Byte) : bytesBits (b :: bytes) = byteBits b ++ bytesBits bytes := rfl

theorem bytesBits_append (a b : List Byte) : bytesBits (a ++ b) = bytesBits a ++ bytesBits b := List.flatMap_append

theorem length_byteBits (b : Byte) : (byteBits b).length = 8 := by simp [byteBits]

theorem length_bytesBits (bytes : List Byte) : (bytesBits bytes).length = 8 * bytes.length := by
  induction bytes with
  | nil => rfl
  | cons b rest ih => rw [bytesBits_cons, List.length_append, length_byteBits, ih, List.length_cons]; omega

/-- Sixteen bits go out low byte first. -/
theorem bytesBits_word (v : Nat) : bytesBits [BitVec.ofNat 8 v, BitVec.ofNat 8 (v / 256)] = fieldBits 16 v := by
  rw [bytesBits_cons, bytesBits_cons, bytesBits_nil, List.append_nil, byteBits_ofNat, byteBits_ofNat,
    show 256 = 2 ^ 8 from rfl, ← fieldBits_add]

theorem pending_eq (bp : BitAcc) : bp.pending = fieldBits bp.biValid bp.biBuf.toNat := rfl

theorem pending_of_aligned {bp : BitAcc} (h : bp.biValid = 0) : bp.pending = [] := by rw [pending_eq, h, fieldBits_zero]

@[simp] theorem emitted_nil (s : State) : s.emitted [] = s := by
  simp only [State.emitted, List.append_nil]; rfl

theorem stream_emitted (s : State) (bytes : List Byte) :
    (s.emitted bytes).stream = bytesBits s.mem.out ++ bytesBits bytes ++ s.bp.pending := by
  simp [State.stream, State.emitted, bytesBits_append]

/-! ### Emission and the accumulator alone -/

/-- An operation that emits: `OUT` and the accumulator alone change, and the accumulator stays well formed. -/
structure Emits (s t : State) : Prop where
  frame : OnlyEmitted s t
  acc : s.bp.Ok → t.bp.Ok

theorem onlyEmitted_trans {s t u : State} (h : OnlyEmitted s t) (k : OnlyEmitted t u) : OnlyEmitted s u :=
  k.trans (congrArg (fun x : State => { x with bp := u.bp, mem := { x.mem with out := u.mem.out } }) h)

theorem Emits.order : Op.Order Emits where
  refl _ := ⟨rfl, id⟩
  trans h k := ⟨onlyEmitted_trans h.frame k.frame, fun ok => k.acc (h.acc ok)⟩

theorem emits_emitted (s : State) (bytes : List Byte) : Emits s (s.emitted bytes) := ⟨rfl, id⟩

theorem leads_emit (b : Byte) : Leads Emits (emit b) := by
  intro s a t run
  rw [emit_run] at run
  split at run
  · cases run; exact emits_emitted s [b]
  · cases run

theorem leads_putByte (b : Byte) : Leads Emits (putByte b) := leads_emit b

theorem leads_putShort (w : BitVec 16) : Leads Emits (putShort w) :=
  leads_bind Emits.order (leads_putByte _) fun _ => leads_putByte _

/-! ### The word of `SendBits` (R390) -/

/-- The accumulator with a field put above the pending bits, as far as 16 bits go. -/
theorem merged_toNat {bp : BitAcc} (h : bp.Ok) (v : Nat) :
    (bp.biBuf ||| (BitVec.ofNat 16 v <<< bp.biValid)).toNat = (bp.biBuf.toNat + v * 2 ^ bp.biValid) % 2 ^ 16 := by
  obtain ⟨count, low⟩ := h
  have count16 : bp.biValid ≤ 16 := count
  have split16 : 2 ^ 16 = 2 ^ bp.biValid * 2 ^ (16 - bp.biValid) := by rw [← Nat.pow_add]; congr 1; omega
  have field : (BitVec.ofNat 16 v <<< bp.biValid).toNat = v % 2 ^ (16 - bp.biValid) * 2 ^ bp.biValid := by
    rw [BitVec.toNat_shiftLeft, BitVec.toNat_ofNat, Nat.shiftLeft_eq, Nat.mod_mul_mod, split16,
      Nat.mul_comm v, Nat.mul_mod_mul_left, Nat.mul_comm]
  have sum : (bp.biBuf.toNat + v * 2 ^ bp.biValid) % 2 ^ 16
      = bp.biBuf.toNat + v % 2 ^ (16 - bp.biValid) * 2 ^ bp.biValid := by
    rw [split16, Nat.mod_mul, Nat.add_mul_mod_self_right, Nat.mod_eq_of_lt low,
      Nat.add_mul_div_right _ _ (Nat.two_pow_pos _), Nat.div_eq_of_lt low, Nat.zero_add, Nat.mul_comm (2 ^ _)]
  rw [BitVec.toNat_or, field, sum, Nat.or_comm, ← Nat.shiftLeft_eq, ← Nat.shiftLeft_add_eq_or_of_lt low, Nat.shiftLeft_eq,
    Nat.add_comm]

/-- The accumulator after `SendBits`. -/
def accAfter (bp : BitAcc) (value length : Nat) : BitAcc :=
  if BUF_SIZE - length < bp.biValid then
    { biBuf := BitVec.ofNat 16 (value >>> (BUF_SIZE - bp.biValid)), biValid := bp.biValid + length - BUF_SIZE }
  else { biBuf := bp.biBuf ||| (BitVec.ofNat 16 value <<< bp.biValid), biValid := bp.biValid + length }

/-- The bytes `SendBits` emits. -/
def bytesSent (bp : BitAcc) (value length : Nat) : List Byte :=
  if BUF_SIZE - length < bp.biValid then
    [(bp.biBuf ||| (BitVec.ofNat 16 value <<< bp.biValid)).extractLsb' 0 8,
      (bp.biBuf ||| (BitVec.ofNat 16 value <<< bp.biValid)).extractLsb' 8 8]
  else []

/-- The state after `SendBits`. -/
def sent (s : State) (value length : Nat) : State :=
  (s.emitted (bytesSent s.bp value length)).setBp (accAfter s.bp value length)

theorem emit_ok {b : Byte} {s t : State} (run : (emit b).run s = .ok () t) : t = s.emitted [b] := by
  rw [emit_run] at run
  split at run <;> cases run
  rfl

theorem putShort_ok {w : BitVec 16} {s t : State} (run : (putShort w).run s = .ok () t) :
    t = s.emitted [w.extractLsb' 0 8, w.extractLsb' 8 8] := by
  obtain ⟨⟨⟩, u, first, second⟩ := Op.bind_inv run
  rw [emit_ok second, emit_ok first, State.emitted_emitted]
  rfl

/-- `SendBits` that comes to its end: the check held, and the state is `sent`. -/
theorem sendBits_ok {value length : Nat} {s t : State} (run : (sendBits value length).run s = .ok () t) :
    (length ≤ BUF_SIZE ∧ value < 2 ^ length) ∧ t = sent s value length := by
  unfold sendBits at run
  by_cases fits : length ≤ BUF_SIZE ∧ value < 2 ^ length
  · refine ⟨fits, ?_⟩
    rw [Op.require_pos fits, Op.state_bind] at run
    by_cases spills : BUF_SIZE - length < s.bp.biValid
    · rw [if_pos spills, Op.update_bind, Op.state_bind] at run
      obtain ⟨⟨⟩, u, put, upd⟩ := Op.bind_inv run
      cases upd
      rw [putShort_ok put]
      simp only [sent, accAfter, bytesSent, if_pos spills]
      rfl
    · rw [if_neg spills] at run
      cases run
      simp only [sent, accAfter, bytesSent, if_neg spills, State.emitted, List.append_nil]
      rfl
  · rw [Op.require_neg fits] at run; cases run

theorem sendBits_run {value length : Nat} {s : State} (unbounded : s.unbounded) (fits : length ≤ BUF_SIZE ∧ value < 2 ^ length) :
    (sendBits value length).run s = .ok () (sent s value length) := by
  unfold sendBits
  rw [Op.require_pos fits, Op.state_bind]
  by_cases spills : BUF_SIZE - length < s.bp.biValid
  · rw [if_pos spills, Op.update_bind, Op.state_bind]
    refine (Op.bind_ok (putShort_run ?_ _)).trans ?_
    · exact unbounded
    · simp only [sent, accAfter, bytesSent, if_pos spills]; rfl
  · rw [if_neg spills]
    simp only [sent, accAfter, bytesSent, if_neg spills, State.emitted, List.append_nil]
    rfl

theorem sendBits_run_of_unfit {value length : Nat} (s : State) (unfit : ¬ (length ≤ BUF_SIZE ∧ value < 2 ^ length)) :
    (sendBits value length).run s = .error (.raise .bits) s := Op.require_neg unfit _ _ _

section
variable {bp : BitAcc} {value length : Nat}

/-- The first branch of R390: the field goes above the pending bits. -/
theorem accAfter_of_room (h : bp.Ok) (fits : length ≤ BUF_SIZE ∧ value < 2 ^ length) (room : bp.biValid + length ≤ BUF_SIZE) :
    bytesSent bp value length = [] ∧ (accAfter bp value length).biValid = bp.biValid + length
      ∧ (accAfter bp value length).biBuf.toNat = bp.biBuf.toNat + value * 2 ^ bp.biValid := by
  have stays : ¬ BUF_SIZE - length < bp.biValid := by omega
  have below : bp.biBuf.toNat + value * 2 ^ bp.biValid < 2 ^ 16 := by
    calc bp.biBuf.toNat + value * 2 ^ bp.biValid < 2 ^ bp.biValid + value * 2 ^ bp.biValid := by have := h.2; omega
      _ = (value + 1) * 2 ^ bp.biValid := by ring
      _ ≤ 2 ^ length * 2 ^ bp.biValid := Nat.mul_le_mul_right _ fits.2
      _ = 2 ^ (length + bp.biValid) := (Nat.pow_add ..).symm
      _ ≤ 2 ^ 16 := Nat.pow_le_pow_right (by decide) (by have : BUF_SIZE = 16 := rfl; omega)
  simp only [bytesSent, accAfter, if_neg stays, true_and]
  rw [merged_toNat h, Nat.mod_eq_of_lt below]

/-- The second branch: the 16 low bits go out, what the field has above them stays. -/
theorem accAfter_of_full (h : bp.Ok) (fits : length ≤ BUF_SIZE ∧ value < 2 ^ length) (full : BUF_SIZE < bp.biValid + length) :
    bytesSent bp value length = [BitVec.ofNat 8 (bp.biBuf.toNat + value * 2 ^ bp.biValid),
        BitVec.ofNat 8 ((bp.biBuf.toNat + value * 2 ^ bp.biValid) / 256)]
      ∧ (accAfter bp value length).biValid = bp.biValid + length - BUF_SIZE
      ∧ (accAfter bp value length).biBuf.toNat = value / 2 ^ (BUF_SIZE - bp.biValid) := by
  have spills : BUF_SIZE - length < bp.biValid := by have := fits.1; omega
  have low : (bp.biBuf ||| (BitVec.ofNat 16 value <<< bp.biValid)).extractLsb' 0 8
      = BitVec.ofNat 8 (bp.biBuf.toNat + value * 2 ^ bp.biValid) := by
    apply BitVec.eq_of_toNat_eq
    rw [BitVec.extractLsb'_toNat, merged_toNat h, BitVec.toNat_ofNat, Nat.shiftRight_zero]
    exact Nat.mod_mod_of_dvd _ (by decide)
  have high : (bp.biBuf ||| (BitVec.ofNat 16 value <<< bp.biValid)).extractLsb' 8 8
      = BitVec.ofNat 8 ((bp.biBuf.toNat + value * 2 ^ bp.biValid) / 256) := by
    apply BitVec.eq_of_toNat_eq
    rw [BitVec.extractLsb'_toNat, merged_toNat h, BitVec.toNat_ofNat, Nat.shiftRight_eq_div_pow]
    omega
  have below : value / 2 ^ (BUF_SIZE - bp.biValid) < 2 ^ 16 := by
    refine Nat.lt_of_le_of_lt (Nat.div_le_self _ _) (Nat.lt_of_lt_of_le fits.2 ?_)
    exact Nat.pow_le_pow_right (by decide) fits.1
  simp only [bytesSent, accAfter, if_pos spills, low, high, BitVec.toNat_ofNat, Nat.shiftRight_eq_div_pow, true_and,
    Nat.mod_eq_of_lt below]

theorem accAfter_ok (h : bp.Ok) (fits : length ≤ BUF_SIZE ∧ value < 2 ^ length) : (accAfter bp value length).Ok := by
  have size : BUF_SIZE = 16 := rfl
  by_cases room : bp.biValid + length ≤ BUF_SIZE
  · obtain ⟨-, count, bits⟩ := accAfter_of_room h fits room
    refine ⟨by omega, ?_⟩
    rw [count, bits]
    calc bp.biBuf.toNat + value * 2 ^ bp.biValid < 2 ^ bp.biValid + value * 2 ^ bp.biValid := by have := h.2; omega
      _ = (value + 1) * 2 ^ bp.biValid := by ring
      _ ≤ 2 ^ length * 2 ^ bp.biValid := Nat.mul_le_mul_right _ fits.2
      _ = 2 ^ (bp.biValid + length) := by rw [Nat.add_comm, Nat.pow_add]
  · obtain ⟨-, count, bits⟩ := accAfter_of_full h fits (by omega)
    have valid := h.1
    refine ⟨by have := fits.1; omega, ?_⟩
    rw [count, bits, Nat.div_lt_iff_lt_mul (Nat.two_pow_pos _), ← Nat.pow_add,
      show bp.biValid + length - BUF_SIZE + (BUF_SIZE - bp.biValid) = length by omega]
    exact fits.2

end

theorem emits_sent {s : State} {value length : Nat} (fits : length ≤ BUF_SIZE ∧ value < 2 ^ length) :
    Emits s (sent s value length) := ⟨rfl, fun ok => accAfter_ok ok fits⟩

theorem leads_sendBits (value length : Nat) : Leads Emits (sendBits value length) := by
  rintro s ⟨⟩ t run
  obtain ⟨fits, rfl⟩ := sendBits_ok run
  exact emits_sent fits

/-- Settles O46: the check decides between the raise and `sent`; the two branches are those of the accumulator. -/
theorem BitPacker.sendBits : Obligations.SendBits := by
  intro value length s ok unbounded
  refine ⟨fun unfit => sendBits_run_of_unfit s (by have : BUF_SIZE = 16 := rfl; omega), fun short fits => ?_⟩
  have check : length ≤ BUF_SIZE ∧ value < 2 ^ length := ⟨short, fits⟩
  refine ⟨sent s value length, sendBits_run unbounded check, rfl, accAfter_ok ok check, fun room => ?_, fun full => ?_⟩
  · obtain ⟨bytes, count, bits⟩ := accAfter_of_room ok check room
    exact ⟨by simp [sent, State.emitted, bytes], count, bits⟩
  · obtain ⟨bytes, count, bits⟩ := accAfter_of_full ok check full
    exact ⟨by simp [sent, State.emitted, bytes], count, bits⟩

/-! ### The abstract stream (R394) -/

theorem stream_sent {s : State} {value length : Nat} (ok : s.bp.Ok) (fits : length ≤ BUF_SIZE ∧ value < 2 ^ length) :
    (sent s value length).stream = s.stream ++ fieldBits length value := by
  have size : BUF_SIZE = 16 := rfl
  have stream : (sent s value length).stream
      = bytesBits s.mem.out ++ (bytesBits (bytesSent s.bp value length) ++ (accAfter s.bp value length).pending) := by
    simp [State.stream, sent, State.emitted, bytesBits_append]
  rw [stream, State.stream, List.append_assoc, pending_eq s.bp, ← fieldBits_join ok.2, pending_eq]
  congr 1
  by_cases room : s.bp.biValid + length ≤ BUF_SIZE
  · obtain ⟨bytes, count, bits⟩ := accAfter_of_room ok fits room
    rw [bytes, count, bits, bytesBits_nil, List.nil_append]
  · obtain ⟨bytes, count, bits⟩ := accAfter_of_full ok fits (by omega)
    have total : s.bp.biValid + length = 16 + (s.bp.biValid + length - 16) := by omega
    have upper : (s.bp.biBuf.toNat + value * 2 ^ s.bp.biValid) / 2 ^ 16 = value / 2 ^ (16 - s.bp.biValid) := by
      have split16 : 2 ^ 16 = 2 ^ s.bp.biValid * 2 ^ (16 - s.bp.biValid) := by
        rw [← Nat.pow_add]; congr 1; have := ok.1; omega
      rw [split16, ← Nat.div_div_eq_div_mul, Nat.add_mul_div_right _ _ (Nat.two_pow_pos _), Nat.div_eq_of_lt ok.2,
        Nat.zero_add]
    rw [bytes, count, bits, bytesBits_word, size, total, fieldBits_add 16, upper, ← total]

/-! ### `BiWindup` (R392) -/

/-- The bytes of the pending bits, filled up with zeros. -/
def windup (bp : BitAcc) : List Byte :=
  if 8 < bp.biValid then [bp.biBuf.extractLsb' 0 8, bp.biBuf.extractLsb' 8 8]
  else if 0 < bp.biValid then [bp.biBuf.extractLsb' 0 8] else []

/-- The state after `BiWindup`. -/
def wound (s : State) : State := (s.emitted (windup s.bp)).setBp { biBuf := 0, biValid := 0 }

theorem aligned_ok : BitAcc.Ok { biBuf := 0, biValid := 0 } := ⟨by decide, by decide⟩

theorem biWindup_run {s : State} (unbounded : s.unbounded) : biWindup.run s = .ok () (wound s) := by
  have bytes : (windupBytes s.bp).run s = .ok () (s.emitted (windup s.bp)) := by
    unfold windupBytes windup
    split
    · exact putShort_run unbounded _
    · unfold Op.when
      split
      · exact putByte_run unbounded _
      · rw [emitted_nil]; rfl
  exact Op.bind_ok bytes

theorem biWindup_ok {s t : State} (run : biWindup.run s = .ok () t) : t = wound s := by
  unfold biWindup at run
  rw [Op.state_bind] at run
  obtain ⟨⟨⟩, u, bytes, upd⟩ := Op.bind_inv run
  cases upd
  have : u = s.emitted (windup s.bp) := by
    unfold windupBytes at bytes
    unfold windup
    split at bytes
    · next h => rw [if_pos h]; exact putShort_ok bytes
    · next h =>
      rw [if_neg h]
      by_cases some : 0 < s.bp.biValid
      · rw [Op.when_pos some] at bytes; rw [if_pos some]; exact emit_ok bytes
      · rw [Op.when_neg some] at bytes; cases bytes; rw [if_neg some, emitted_nil]
  rw [this]
  rfl

theorem leads_biWindup : Leads Emits biWindup := by
  rintro s ⟨⟩ t run
  rw [biWindup_ok run]
  exact ⟨rfl, fun _ => aligned_ok⟩

theorem extract_low (w : BitVec 16) : w.extractLsb' 0 8 = BitVec.ofNat 8 w.toNat := by
  apply BitVec.eq_of_toNat_eq
  rw [BitVec.extractLsb'_toNat, BitVec.toNat_ofNat, Nat.shiftRight_zero]

theorem extract_high (w : BitVec 16) : w.extractLsb' 8 8 = BitVec.ofNat 8 (w.toNat / 256) := by
  apply BitVec.eq_of_toNat_eq
  rw [BitVec.extractLsb'_toNat, BitVec.toNat_ofNat, Nat.shiftRight_eq_div_pow]

theorem length_stream (s : State) : s.stream.length = 8 * s.mem.out.length + s.bp.biValid := by
  rw [State.stream, List.length_append, length_bytesBits, pending_eq, length_fieldBits]

theorem stream_wound {s : State} (ok : s.bp.Ok) : (wound s).stream = padToByte s.stream := by
  obtain ⟨count, low⟩ := ok
  have size : BUF_SIZE = 16 := rfl
  have stream : (wound s).stream = bytesBits s.mem.out ++ bytesBits (windup s.bp) := by
    simp [State.stream, wound, State.emitted, bytesBits_append, BitAcc.pending]
  have short : (8 - s.stream.length % 8) % 8 = (8 - s.bp.biValid % 8) % 8 := by rw [length_stream]; omega
  rw [stream, padToByte, short, State.stream, List.append_assoc, pending_eq]
  congr 1
  unfold windup
  split
  · rw [extract_low, extract_high, bytesBits_word, ← fieldBits_pad low]; congr 1; omega
  · split
    · rw [extract_low, bytesBits_cons, bytesBits_nil, List.append_nil, byteBits_ofNat, ← fieldBits_pad low]
      congr 1; omega
    · rw [show s.bp.biValid = 0 by omega]; rfl

/-! ### `BiFlushBytes` (R393) -/

/-- One byte of the accumulator sent. -/
def byteFlushed (s : State) : State :=
  (s.emitted [s.bp.biBuf.extractLsb' 0 8]).setBp { biBuf := s.bp.biBuf >>> 8, biValid := s.bp.biValid - 8 }

theorem biFlushByte_run {s : State} (unbounded : s.unbounded) : biFlushByte.run s = .ok () (byteFlushed s) := by
  unfold biFlushByte
  rw [Op.state_bind, Op.bind_ok (putByte_run unbounded _)]
  rfl

theorem biFlushByte_ok {s t : State} (run : biFlushByte.run s = .ok () t) : t = byteFlushed s := by
  unfold biFlushByte at run
  rw [Op.state_bind] at run
  obtain ⟨⟨⟩, u, put, upd⟩ := Op.bind_inv run
  cases upd
  rw [emit_ok put]
  rfl

theorem byteFlushed_ok {s : State} (ok : s.bp.Ok) : (byteFlushed s).bp.Ok := by
  obtain ⟨count, low⟩ := ok
  refine ⟨Nat.le_trans (Nat.sub_le _ _) count, ?_⟩
  change (s.bp.biBuf >>> 8).toNat < 2 ^ (s.bp.biValid - 8)
  rw [BitVec.toNat_ushiftRight, Nat.shiftRight_eq_div_pow, Nat.div_lt_iff_lt_mul (by decide), ← Nat.pow_add]
  exact Nat.lt_of_lt_of_le low (Nat.pow_le_pow_right (by decide) (by omega))

theorem leads_biFlushByte : Leads Emits biFlushByte := by
  rintro s ⟨⟩ t run
  rw [biFlushByte_ok run]
  exact ⟨rfl, byteFlushed_ok⟩

theorem leads_biFlushBytes : Leads Emits biFlushBytes := leads_read fun _ => leads_times Emits.order leads_biFlushByte _

theorem stream_byteFlushed {s : State} (full : 8 ≤ s.bp.biValid) : (byteFlushed s).stream = s.stream := by
  have stream : (byteFlushed s).stream = bytesBits s.mem.out ++ (byteBits (s.bp.biBuf.extractLsb' 0 8)
      ++ fieldBits (s.bp.biValid - 8) (s.bp.biBuf >>> 8).toNat) := by
    simp [State.stream, byteFlushed, State.emitted, bytesBits_append, pending_eq]
  have count : s.bp.biValid = 8 + (s.bp.biValid - 8) := by omega
  rw [stream, State.stream, pending_eq s.bp, count, fieldBits_add, extract_low, byteBits_ofNat, BitVec.toNat_ushiftRight,
    Nat.shiftRight_eq_div_pow, ← count]

/-- `k` bytes leave an accumulator that holds that many. -/
theorem times_biFlushByte_run (k : Nat) {s : State} (unbounded : s.unbounded) (ok : s.bp.Ok) (full : 8 * k ≤ s.bp.biValid) :
    ∃ t, (Op.times k biFlushByte).run s = .ok () t ∧ t.stream = s.stream ∧ t.bp.biValid = s.bp.biValid - 8 * k
      ∧ OnlyEmitted s t ∧ t.bp.Ok := by
  induction k generalizing s with
  | zero => exact ⟨s, rfl, rfl, rfl, rfl, ok⟩
  | succ k ih =>
    have flushed : (byteFlushed s).bp.biValid = s.bp.biValid - 8 := rfl
    obtain ⟨t, run, stream, count, frame, tok⟩ := ih (s := byteFlushed s) unbounded (byteFlushed_ok ok) (by omega)
    refine ⟨t, ?_, stream.trans (stream_byteFlushed (by omega)), by omega, onlyEmitted_trans rfl frame, tok⟩
    rw [Op.times_succ, Op.bind_ok (biFlushByte_run unbounded)]
    exact run

theorem biFlushBytes_run {s : State} (unbounded : s.unbounded) (ok : s.bp.Ok) :
    ∃ t, biFlushBytes.run s = .ok () t ∧ t.stream = s.stream ∧ t.bp.biValid ≤ 7 ∧ OnlyEmitted s t ∧ t.bp.Ok := by
  obtain ⟨t, run, stream, count, frame, tok⟩ := times_biFlushByte_run (s.bp.biValid / 8) unbounded ok (by omega)
  exact ⟨t, run, stream, by omega, frame, tok⟩

/-! ### Direct bytes (R395, R396) -/

theorem stream_emitted_of_aligned {s : State} (aligned : s.bp.biValid = 0) (bytes : List Byte) :
    (s.emitted bytes).stream = s.stream ++ bytesBits bytes := by
  rw [stream_emitted, State.stream, pending_of_aligned aligned, List.append_nil, List.append_nil]

theorem bytesBits_short (w : BitVec 16) : bytesBits [w.extractLsb' 0 8, w.extractLsb' 8 8] = fieldBits 16 w.toNat := by
  rw [extract_low, extract_high, bytesBits_word]

/-- Settles O47: one lemma about the stream for each operation. -/
theorem bitStream : Obligations.BitStream := by
  intro s ok unbounded
  refine ⟨fun value length short fits => ?_, ?_, ?_, fun aligned b => ?_, fun aligned w => ?_⟩
  · have check : length ≤ BUF_SIZE ∧ value < 2 ^ length := ⟨short, fits⟩
    exact ⟨_, sendBits_run unbounded check, stream_sent ok check⟩
  · obtain ⟨t, run, stream, count, frame, -⟩ := biFlushBytes_run unbounded ok
    exact ⟨t, run, stream, count, frame⟩
  · exact ⟨wound s, biWindup_run unbounded, stream_wound ok, rfl, rfl⟩
  · refine ⟨_, putByte_run unbounded b, ?_⟩
    rw [stream_emitted_of_aligned aligned, bytesBits_cons, bytesBits_nil, List.append_nil]
  · exact ⟨_, putShort_run unbounded w, by rw [stream_emitted_of_aligned aligned, bytesBits_short]⟩

end Sys2Proof.Proofs
end

section
/-! The symbol tables (30_encoding.md R154 to R158) and the run-length coding of code lengths (42_huffman_builder.md
R335). -/

namespace Sys2Proof.Proofs

open Sys2Proof.Machine Sys2Proof.Claims

/-! ### Looking up a row -/

/-- The row a value is found in: the last one whose base is not above it. -/
theorem lastRow_mem_row (v i best : Nat) : ∀ rows : List (Nat × Nat), rows ≠ [] → (rows.getD 0 (0, 0)).1 ≤ v →
    ∃ k, k < rows.length ∧ lastRow v rows i best = i + k ∧ (rows.getD k (0, 0)).1 ≤ v
      ∧ (k + 1 < rows.length → v < (rows.getD (k + 1) (0, 0)).1)
  | [], nonempty, _ => absurd rfl nonempty
  | [p], _, first => ⟨0, by simp, by simp only [List.getD_cons_zero] at first; simp [lastRow, first], first, by simp⟩
  | p :: q :: rest, _, first => by
    have step : lastRow v (p :: q :: rest) i best = lastRow v (q :: rest) (i + 1) i := by
      simp only [List.getD_cons_zero] at first
      simp [lastRow, first]
    by_cases second : q.1 ≤ v
    · obtain ⟨k, inside, row, low, high⟩ := lastRow_mem_row v (i + 1) i (q :: rest) (by simp) (by simpa using second)
      refine ⟨k + 1, by simpa using inside, by rw [step, row]; omega, by simpa using low, fun more => ?_⟩
      simpa using high (by simpa using more)
    · exact ⟨0, by simp, by rw [step]; simp [lastRow, second], first, fun _ => by simpa using Nat.lt_of_not_le second⟩

/-- In a table with rising bases there is one such row. -/
theorem lastRow_eq {rows : List (Nat × Nat)} (rising : ∀ j k, j < k → k < rows.length →
      (rows.getD j (0, 0)).1 < (rows.getD k (0, 0)).1) {v k : Nat} (inside : k < rows.length)
    (low : (rows.getD k (0, 0)).1 ≤ v) (high : k + 1 < rows.length → v < (rows.getD (k + 1) (0, 0)).1) :
    lastRow v rows 0 0 = k := by
  have monotone : ∀ i j, i ≤ j → j < rows.length → (rows.getD i (0, 0)).1 ≤ (rows.getD j (0, 0)).1 := fun i j le lt =>
    (Nat.eq_or_lt_of_le le).elim (fun e => e ▸ Nat.le_refl _) fun less => Nat.le_of_lt (rising i j less lt)
  have nonempty : rows ≠ [] := by rintro rfl; simp at inside
  obtain ⟨m, mInside, row, mLow, mHigh⟩ :=
    lastRow_mem_row v 0 0 rows nonempty (Nat.le_trans (monotone 0 k (Nat.zero_le _) inside) low)
  rw [row, Nat.zero_add]
  rcases Nat.lt_trichotomy m k with less | same | more
  · have := mHigh (by omega)
    have := monotone (m + 1) k less inside
    omega
  · exact same
  · have := high (by omega)
    have := monotone (k + 1) m more mInside
    omega

theorem lengthRows_rising : ∀ k, k < lengthRows.length → ∀ j, j < k →
    (lengthRows.getD j (0, 0)).1 < (lengthRows.getD k (0, 0)).1 := by
  decide

theorem distRows_rising : ∀ k, k < distRows.length → ∀ j, j < k →
    (distRows.getD j (0, 0)).1 < (distRows.getD k (0, 0)).1 := by
  decide

theorem lcode_eq {len k : Nat} (inside : k < 29) (low : baseLength k ≤ len) (high : k + 1 < 29 → len < baseLength (k + 1)) :
    lcode len = k :=
  lastRow_eq (fun j k less lt => lengthRows_rising k lt j less) inside low high

theorem distCode_eq {d k : Nat} (inside : k < 30) (low : baseDist k ≤ d) (high : k + 1 < 30 → d < baseDist (k + 1)) :
    distCode d = k :=
  lastRow_eq (fun j k less lt => distRows_rising k lt j less) inside low high

/-! ### Bounds of the codes -/

theorem lcode_bounds {len : Nat} (low : 3 ≤ len) (high : len ≤ 258) :
    lcode len < 29 ∧ baseLength (lcode len) ≤ len ∧ len - baseLength (lcode len) < 2 ^ extraLBits (lcode len) := by
  obtain ⟨k, inside, row, base, next⟩ := lastRow_mem_row len 0 0 lengthRows (by decide) low
  have code : lcode len = k := by rw [lcode, row, Nat.zero_add]
  have width : ∀ k, k < 29 → k + 1 < 29 → baseLength (k + 1) ≤ baseLength k + 2 ^ extraLBits k := by decide
  have last : baseLength 28 = 258 := by decide
  have base' : baseLength k ≤ len := base
  rw [code]
  refine ⟨inside, base', ?_⟩
  by_cases more : k + 1 < 29
  · have h1 : len < baseLength (k + 1) := next more
    have h2 := width k inside more
    omega
  · have inside29 : k < 29 := inside
    obtain rfl : k = 28 := by omega
    have : 0 < 2 ^ extraLBits 28 := Nat.two_pow_pos _
    omega

theorem distCode_bounds {d : Nat} (low : 1 ≤ d) (high : d ≤ 32768) :
    distCode d < 30 ∧ baseDist (distCode d) ≤ d ∧ d - baseDist (distCode d) < 2 ^ extraDBits (distCode d) := by
  obtain ⟨k, inside, row, base, next⟩ := lastRow_mem_row d 0 0 distRows (by decide) low
  have code : distCode d = k := by rw [distCode, row, Nat.zero_add]
  have width : ∀ k, k < 30 → k + 1 < 30 → baseDist (k + 1) ≤ baseDist k + 2 ^ extraDBits k := by decide
  have last : baseDist 29 = 24577 ∧ extraDBits 29 = 13 := by decide
  have base' : baseDist k ≤ d := base
  rw [code]
  refine ⟨inside, base', ?_⟩
  by_cases more : k + 1 < 30
  · have h1 : d < baseDist (k + 1) := next more
    have h2 := width k inside more
    omega
  · have inside30 : k < 30 := inside
    obtain rfl : k = 29 := by omega
    rw [last.1, last.2]
    omega

theorem extraLBits_le : ∀ k, k < 29 → extraLBits k ≤ 5 := by decide

theorem extraDBits_le : ∀ k, k < 30 → extraDBits k ≤ 13 := by decide

/-! ### The tables (R154, R155, R157, R158, R321) -/

theorem lengthTable_rows : ∀ row ∈ lengthTable, 257 ≤ row.1 ∧ row.1 - 257 < 29 ∧ extraLBits (row.1 - 257) = row.2.1
    ∧ baseLength (row.1 - 257) = row.2.2.1
    ∧ (row.1 - 257 + 1 < 29 → row.2.2.2 < baseLength (row.1 - 257 + 1)) := by
  decide

theorem distTable_rows : ∀ row ∈ distTable, row.1 < 30 ∧ extraDBits row.1 = row.2.1 ∧ baseDist row.1 = row.2.2.1
    ∧ (row.1 + 1 < 30 → row.2.2.2 < baseDist (row.1 + 1)) := by
  decide

theorem lit_xbits_of_lt {n : Nat} (h : n < 257) : Tree.lit.xbits n = 0 := if_neg (by omega)

/-- Settles O40: the model's rows are the table's rows, and a value between two bases has the lower row's code. -/
theorem symbolTables : Obligations.SymbolTables := by
  refine ⟨fun row mem => ?_, fun row mem => ?_, rfl, by decide, fun n => ⟨rfl, rfl⟩, fun n => lit_xbits_of_lt,
    fun row mem => ?_, fun row mem => (distTable_rows row mem).2.1, by decide⟩
  · obtain ⟨sym, inside, extra, base, next⟩ := lengthTable_rows row mem
    refine ⟨extra, base, fun len low high => ?_⟩
    have code : lcode len = row.1 - 257 := lcode_eq inside (by omega) fun more => by have := next more; omega
    omega
  · obtain ⟨inside, extra, base, next⟩ := distTable_rows row mem
    exact ⟨extra, base, fun d low high => distCode_eq inside (by omega) fun more => by have := next more; omega⟩
  · obtain ⟨sym, -, extra, -⟩ := lengthTable_rows row mem
    exact (if_pos sym).trans extra

/-! ### Runs -/

/-- A list that is not empty is its first run and a rest that begins with another length. -/
theorem runsOf_first {lens : List Nat} (nonempty : lens ≠ []) : ∃ l r rest, lens = List.replicate (r + 1) l ++ rest
    ∧ rest.head? ≠ some l ∧ runsOf lens = (l, r + 1) :: runsOf rest := by
  induction lens with
  | nil => exact absurd rfl nonempty
  | cons l tail ih =>
    by_cases empty : tail = []
    · subst empty
      exact ⟨l, 0, [], rfl, by simp, rfl⟩
    · obtain ⟨m, r, rest, split, other, runs⟩ := ih empty
      by_cases same : l = m
      · subst same
        refine ⟨l, r + 1, rest, by rw [split]; rfl, other, ?_⟩
        simp [runsOf, runs]
      · refine ⟨l, 0, tail, rfl, ?_, ?_⟩
        · rw [split]; simpa [List.replicate_succ] using Ne.symm same
        · rw [runsOf, runs]; simp [same]

/-- An induction over the runs of a list. -/
theorem runs_induction {P : List Nat → Prop} (empty : P [])
    (run : ∀ l r rest, rest.head? ≠ some l → P rest → P (List.replicate (r + 1) l ++ rest)) : ∀ lens, P lens := by
  intro lens
  induction size : lens.length using Nat.strong_induction_on generalizing lens with
  | _ n ih =>
    by_cases none : lens = []
    · rw [none]; exact empty
    · obtain ⟨l, r, rest, split, other, -⟩ := runsOf_first none
      have shorter : rest.length < n := by rw [← size, split]; simp
      rw [split]
      exact run l r rest other (ih _ shorter rest rfl)

theorem runsOf_run {l r : Nat} {rest : List Nat} (other : rest.head? ≠ some l) :
    runsOf (List.replicate (r + 1) l ++ rest) = (l, r + 1) :: runsOf rest := by
  induction r with
  | zero =>
    by_cases empty : rest = []
    · subst empty; rfl
    · obtain ⟨m, k, more, split, -, runs⟩ := runsOf_first empty
      have differ : l ≠ m := by rintro rfl; exact other (by rw [split]; simp [List.replicate_succ])
      change runsOf (l :: rest) = _
      rw [runsOf, runs]
      simp [differ]
  | succ r ih =>
    rw [List.replicate_succ, List.cons_append, runsOf, ih]
    simp

/-! ### The scan, segment by segment (R335) -/

/-- The limits for the first segment of a run: by its length, if it has one. -/
def startLimits (next : Option Nat) : Nat × Nat := if next = some 0 then (138, 3) else (7, 4)

theorem runLimits_of_other {l : Nat} {next : Option Nat} (other : next ≠ some l) : runLimits l next = startLimits next := by
  simp [runLimits, startLimits, other]

/-- A segment ends where the count reaches its limit or the run ends. -/
theorem scanLens_segment {l most least : Nat} {prev : Option Nat} (r : Nat) {count : Nat} {rest : List Nat}
    (short : count + (r + 1) ≤ most) (ends : rest.head? ≠ some l ∨ count + (r + 1) = most) :
    scanLens (List.replicate (r + 1) l ++ rest) prev count (most, least)
      = runSymbols l (count + (r + 1)) least prev ++ scanLens rest (some l) 0 (runLimits l rest.head?) := by
  induction r generalizing count with
  | zero =>
    have stop : ¬ (count + 1 < most ∧ rest.head? = some l) := fun h => ends.elim (· h.2) fun full => by omega
    change scanLens (l :: rest) prev count (most, least) = _
    rw [scanLens, if_neg stop]
  | succ r ih =>
    have goOn : count + 1 < most ∧ (List.replicate (r + 1) l ++ rest).head? = some l := ⟨by omega, rfl⟩
    rw [List.replicate_succ, List.cons_append, scanLens, if_pos goOn, ih (by omega) (by rwa [Nat.add_assoc, Nat.add_comm 1]),
      Nat.add_assoc, Nat.add_comm 1]

/-- The symbols of `r` zeros. -/
def cutZeros (r : Nat) : List ClSym :=
  List.replicate (r / 138) (.manyZeros 138)
    ++ (if r % 138 < 3 then List.replicate (r % 138) (.len 0)
        else if r % 138 ≤ 10 then [.zeros (r % 138)] else [.manyZeros (r % 138)])

/-- The symbols of the `r` lengths `l` of a run that come after its first segment. -/
def cutRest (l r : Nat) : List ClSym :=
  List.replicate (r / 6) (.repeatPrev 6)
    ++ (if r % 6 < 3 then List.replicate (r % 6) (.len l) else [.repeatPrev (r % 6)])

theorem cutZeros_step (r : Nat) : cutZeros (r + 138) = .manyZeros 138 :: cutZeros r := by
  rw [cutZeros, Nat.add_div_right _ (by decide), Nat.add_mod_right, List.replicate_succ, List.cons_append]
  rfl

theorem cutRest_step (l r : Nat) : cutRest l (r + 6) = .repeatPrev 6 :: cutRest l r := by
  rw [cutRest, Nat.add_div_right _ (by decide), Nat.add_mod_right, List.replicate_succ, List.cons_append]
  rfl

theorem runSymbols_zeros {r : Nat} (positive : 0 < r) (short : r ≤ 138) (prev : Option Nat) :
    runSymbols 0 r 3 prev = cutZeros r := by
  by_cases full : r = 138
  · subst full; rfl
  · rw [cutZeros, Nat.div_eq_of_lt (by omega), Nat.mod_eq_of_lt (by omega)]
    simp [runSymbols]

theorem runSymbols_rest {l r : Nat} (nonzero : l ≠ 0) (positive : 0 < r) (short : r ≤ 6) :
    runSymbols l r 3 (some l) = cutRest l r := by
  by_cases full : r = 6
  · subst full; simp [runSymbols, nonzero, cutRest]
  · rw [cutRest, Nat.div_eq_of_lt (by omega), Nat.mod_eq_of_lt (by omega)]
    simp [runSymbols, nonzero]

/-- Zeros go 138 at a time. -/
theorem scanLens_zeros (r : Nat) {rest : List Nat} (other : rest.head? ≠ some 0) (prev : Option Nat) :
    scanLens (List.replicate (r + 1) 0 ++ rest) prev 0 (138, 3)
      = cutZeros (r + 1) ++ scanLens rest (some 0) 0 (startLimits rest.head?) := by
  induction r using Nat.strong_induction_on generalizing prev with
  | _ r ih =>
    by_cases short : r + 1 ≤ 138
    · rw [scanLens_segment r (by omega) (.inl other), Nat.zero_add, runSymbols_zeros (by omega) short,
        runLimits_of_other other]
    · obtain ⟨k, rfl⟩ : ∃ k, r = 138 + k := ⟨r - 138, by omega⟩
      have split : List.replicate (138 + k + 1) 0 ++ rest = List.replicate (137 + 1) 0 ++ (List.replicate (k + 1) 0 ++ rest) := by
        rw [← List.append_assoc, List.replicate_append_replicate]; congr 2
      have limits : runLimits 0 (List.replicate (k + 1) 0 ++ rest).head? = (138, 3) := rfl
      rw [split, scanLens_segment 137 (by decide) (.inr rfl), limits, ih k (by omega) (some 0),
        show 138 + k + 1 = k + 1 + 138 by omega, cutZeros_step]
      rfl

/-- What follows the first segment of a run goes 6 at a time. -/
theorem scanLens_rest {l : Nat} (nonzero : l ≠ 0) (r : Nat) {rest : List Nat} (other : rest.head? ≠ some l) :
    scanLens (List.replicate (r + 1) l ++ rest) (some l) 0 (6, 3)
      = cutRest l (r + 1) ++ scanLens rest (some l) 0 (startLimits rest.head?) := by
  induction r using Nat.strong_induction_on with
  | _ r ih =>
    by_cases short : r + 1 ≤ 6
    · rw [scanLens_segment r (by omega) (.inl other), Nat.zero_add, runSymbols_rest nonzero (by omega) short,
        runLimits_of_other other]
    · obtain ⟨k, rfl⟩ : ∃ k, r = 6 + k := ⟨r - 6, by omega⟩
      have split : List.replicate (6 + k + 1) l ++ rest = List.replicate (5 + 1) l ++ (List.replicate (k + 1) l ++ rest) := by
        rw [← List.append_assoc, List.replicate_append_replicate]; congr 2
      have limits : runLimits l (List.replicate (k + 1) l ++ rest).head? = (6, 3) := by
        simp [runLimits, List.replicate_succ, nonzero]
      have symbols : runSymbols l (0 + (5 + 1)) 3 (some l) = [.repeatPrev 6] := by simp [runSymbols, nonzero]
      rw [split, scanLens_segment 5 (by decide) (.inr rfl), limits, ih k (by omega), symbols,
        show 6 + k + 1 = k + 1 + 6 by omega, cutRest_step]
      rfl

theorem cutRun_zeros (r : Nat) : cutRun (0, r) = cutZeros r := rfl

theorem cutRun_short {l r : Nat} (nonzero : l ≠ 0) (short : r < 4) : cutRun (l, r) = List.replicate r (.len l) := by
  simp [cutRun, nonzero, short]

theorem cutRun_long {l r : Nat} (nonzero : l ≠ 0) (long : ¬ r < 4) :
    cutRun (l, r) = [.len l, .repeatPrev (min r 7 - 1)] ++ cutRest l (r - 7) := by
  simp [cutRun, nonzero, long, cutRest]

/-- A run of a nonzero length: its first segment has up to 7, one length and a repeat. -/
theorem scanLens_nonzero {l : Nat} (nonzero : l ≠ 0) (r : Nat) {rest : List Nat} (other : rest.head? ≠ some l)
    {prev : Option Nat} (fresh : prev ≠ some l) :
    scanLens (List.replicate (r + 1) l ++ rest) prev 0 (7, 4)
      = cutRun (l, r + 1) ++ scanLens rest (some l) 0 (startLimits rest.head?) := by
  by_cases short : r + 1 < 4
  · rw [scanLens_segment r (by omega) (.inl other), runLimits_of_other other, cutRun_short nonzero short]
    simp [runSymbols, short]
  · rw [cutRun_long nonzero short]
    by_cases one : r + 1 ≤ 7
    · rw [scanLens_segment r (by omega) (.inl other), runLimits_of_other other, show r + 1 - 7 = 0 by omega,
        show min (r + 1) 7 = r + 1 by omega]
      simp [runSymbols, nonzero, fresh, cutRest, show ¬ r + 1 < 4 by omega]
    · obtain ⟨k, rfl⟩ : ∃ k, r = 7 + k := ⟨r - 7, by omega⟩
      have split : List.replicate (7 + k + 1) l ++ rest = List.replicate (6 + 1) l ++ (List.replicate (k + 1) l ++ rest) := by
        rw [← List.append_assoc, List.replicate_append_replicate]; congr 2
      have limits : runLimits l (List.replicate (k + 1) l ++ rest).head? = (6, 3) := by
        simp [runLimits, List.replicate_succ, nonzero]
      have symbols : runSymbols l (0 + (6 + 1)) 4 prev = [.len l, .repeatPrev 6] := by simp [runSymbols, nonzero, fresh]
      rw [split, scanLens_segment 6 (by decide) (.inr rfl), limits, scanLens_rest nonzero k other, symbols,
        show 7 + k + 1 - 7 = k + 1 by omega, show min (7 + k + 1) 7 = 7 by omega]
      simp

/-- The scan cuts every run by itself. -/
theorem scanLens_eq_cut (lens : List Nat) {prev : Option Nat} (fresh : ∀ l, lens.head? = some l → prev ≠ some l) :
    scanLens lens prev 0 (startLimits lens.head?) = (runsOf lens).flatMap cutRun := by
  induction lens using runs_induction generalizing prev with
  | empty => rfl
  | run l r rest other ih =>
    have ahead : (List.replicate (r + 1) l ++ rest).head? = some l := rfl
    have later := ih (prev := some l) fun m head => by rintro ⟨⟩; exact other head
    rw [runsOf_run other, List.flatMap_cons, ← later, ahead]
    by_cases zero : l = 0
    · subst zero
      exact scanLens_zeros r other prev
    · have limits : startLimits (some l) = (7, 4) := by simp [startLimits, zero]
      rw [limits]
      exact scanLens_nonzero zero r other (fresh l ahead)

theorem scanTree_eq_cut (lens : List Nat) : scanTree lens = (runsOf lens).flatMap cutRun :=
  scanLens_eq_cut lens fun _ _ => nofun

/-! ### Nothing is lost, and the counts are ones the alphabet admits (30_encoding.md R157) -/

theorem expandCl_lens (p l r : Nat) (more : List ClSym) :
    expandCl p (List.replicate r (.len l) ++ more) = List.replicate r l ++ expandCl (if r = 0 then p else l) more := by
  induction r generalizing p with
  | zero => rfl
  | succ r ih => simp [List.replicate_succ, expandCl, ih]

theorem expandCl_zeros (r p : Nat) (more : List ClSym) (positive : 0 < r) :
    expandCl p (cutZeros r ++ more) = List.replicate r 0 ++ expandCl 0 more := by
  induction r using Nat.strong_induction_on generalizing p with
  | _ r ih =>
    by_cases short : r < 138
    · rw [cutZeros, Nat.div_eq_of_lt short, Nat.mod_eq_of_lt short, List.replicate_zero, List.nil_append]
      split
      · rw [expandCl_lens, if_neg (by omega)]
      · split <;> rfl
    · obtain ⟨k, rfl⟩ : ∃ k, r = k + 138 := ⟨r - 138, by omega⟩
      rw [cutZeros_step, List.cons_append, expandCl, Nat.add_comm k, List.replicate_add, List.append_assoc]
      by_cases none : k = 0
      · subst none; rfl
      · rw [ih k (by omega) 0 (by omega)]

theorem expandCl_rest (l r : Nat) (more : List ClSym) :
    expandCl l (cutRest l r ++ more) = List.replicate r l ++ expandCl l more := by
  induction r using Nat.strong_induction_on with
  | _ r ih =>
    by_cases short : r < 6
    · rw [cutRest, Nat.div_eq_of_lt short, Nat.mod_eq_of_lt short, List.replicate_zero, List.nil_append]
      split
      · rw [expandCl_lens, ite_self]
      · rfl
    · obtain ⟨k, rfl⟩ : ∃ k, r = k + 6 := ⟨r - 6, by omega⟩
      rw [cutRest_step, List.cons_append, expandCl, ih k (by omega), Nat.add_comm k, List.replicate_add, List.append_assoc]

theorem expandCl_cutRun (l r p : Nat) (more : List ClSym) :
    expandCl p (cutRun (l, r + 1) ++ more) = List.replicate (r + 1) l ++ expandCl l more := by
  by_cases zero : l = 0
  · subst zero
    rw [cutRun_zeros, expandCl_zeros _ _ _ (by omega)]
  · by_cases short : r + 1 < 4
    · rw [cutRun_short zero short, expandCl_lens, if_neg (by omega)]
    · rw [cutRun_long zero short, List.append_assoc, List.cons_append, expandCl, List.cons_append, expandCl, List.nil_append,
        expandCl_rest, ← List.append_assoc, List.replicate_append_replicate, ← List.cons_append, ← List.replicate_succ]
      congr 2; omega

theorem expandCl_cut (lens : List Nat) (p : Nat) : expandCl p ((runsOf lens).flatMap cutRun) = lens := by
  induction lens using runs_induction generalizing p with
  | empty => rfl
  | run l r rest other ih => rw [runsOf_run other, List.flatMap_cons, expandCl_cutRun, ih]

theorem clOk_cutZeros (r : Nat) : ∀ c ∈ cutZeros r, ClOk c := by
  intro c mem
  rw [cutZeros, List.mem_append] at mem
  rcases mem with mem | mem
  · obtain ⟨-, rfl⟩ := List.mem_replicate.1 mem
    exact ⟨by omega, by omega⟩
  · have below : r % 138 < 138 := Nat.mod_lt _ (by decide)
    split at mem
    · obtain ⟨-, rfl⟩ := List.mem_replicate.1 mem
      exact Nat.zero_le _
    · split at mem
      · rw [List.mem_singleton] at mem; subst mem; exact ⟨by omega, by omega⟩
      · rw [List.mem_singleton] at mem; subst mem; exact ⟨by omega, by omega⟩

theorem clOk_cutRest {l : Nat} (small : l ≤ 15) (r : Nat) : ∀ c ∈ cutRest l r, ClOk c := by
  intro c mem
  rw [cutRest, List.mem_append] at mem
  rcases mem with mem | mem
  · obtain ⟨-, rfl⟩ := List.mem_replicate.1 mem
    exact ⟨by omega, by omega⟩
  · have below : r % 6 < 6 := Nat.mod_lt _ (by decide)
    split at mem
    · obtain ⟨-, rfl⟩ := List.mem_replicate.1 mem
      exact small
    · rw [List.mem_singleton] at mem; subst mem; exact ⟨by omega, by omega⟩

theorem clOk_cutRun {l : Nat} (small : l ≤ 15) (r : Nat) : ∀ c ∈ cutRun (l, r), ClOk c := by
  intro c mem
  by_cases zero : l = 0
  · subst zero; exact clOk_cutZeros r c mem
  · by_cases short : r < 4
    · rw [cutRun_short zero short] at mem
      obtain ⟨-, rfl⟩ := List.mem_replicate.1 mem
      exact small
    · rw [cutRun_long zero short, List.mem_append] at mem
      rcases mem with mem | mem
      · simp only [List.mem_cons, List.not_mem_nil, or_false] at mem
        rcases mem with rfl | rfl
        · exact small
        · exact ⟨by omega, by omega⟩
      · exact clOk_cutRest small _ c mem

theorem clOk_cut {lens : List Nat} (small : ∀ l ∈ lens, l ≤ 15) : ∀ c ∈ (runsOf lens).flatMap cutRun, ClOk c := by
  induction lens using runs_induction with
  | empty => intro c mem; cases mem
  | run l r rest other ih =>
    intro c mem
    rw [runsOf_run other, List.flatMap_cons, List.mem_append] at mem
    rcases mem with mem | mem
    · exact clOk_cutRun (small l (by simp)) _ c mem
    · exact ih (fun m hm => small m (by simp [hm])) c mem

/-- Settles O44: the scan is the cut of the runs, and both other clauses are facts about the cut of one run. -/
theorem scanCutsRuns : Obligations.ScanCutsRuns := by
  intro lens small
  rw [scanTree_eq_cut]
  exact ⟨rfl, expandCl_cut lens 0, clOk_cut small⟩

end Sys2Proof.Proofs
end

section
/-! The emission of blocks (30_encoding.md R151 to R158, 44_block_controller.md R431 to R443). `Sends s₀ op bits` says that
`op` appends `bits` to the stream from every state that differs from `s₀` in what has been emitted; it composes, and the
three block elements are read off it. -/

namespace Sys2Proof.Proofs

open Sys2Proof.Machine Sys2Proof.Claims

/-! ### Emission changes nothing else -/

theorem leads_readAt {w : Nat} (size : Nat) (a : Arr w) (i : Nat) : Leads Emits (Op.readAt size a i) :=
  leads_bind Emits.order (leads_require Emits.order) fun _ => leads_pure Emits.order _

theorem leads_sendDiff (a b length : Nat) : Leads Emits (sendDiff a b length) :=
  leads_bind Emits.order (leads_require Emits.order) fun _ => leads_sendBits _ _

theorem leads_sendCode (set : CodeSet) (tree : Tree) (c : Nat) : Leads Emits (sendCode set tree c) :=
  leads_bind Emits.order (leads_require Emits.order) fun _ => leads_read fun _ => leads_sendBits _ _

theorem leads_sendExtra (v base n : Nat) : Leads Emits (sendExtra v base n) :=
  leads_ite (leads_pure Emits.order _) (leads_sendDiff _ _ _)

theorem leads_sendToken (set : CodeSet) (i : Nat) : Leads Emits (sendToken set i) := by
  refine leads_bind Emits.order (leads_read fun _ => leads_readAt _ _ _) fun _ => ?_
  refine leads_bind Emits.order (leads_read fun _ => leads_readAt _ _ _) fun _ => leads_ite (leads_sendCode _ _ _) ?_
  refine leads_bind Emits.order (leads_sendCode _ _ _) fun _ => leads_bind Emits.order (leads_sendExtra _ _ _) fun _ => ?_
  exact leads_bind Emits.order (leads_sendCode _ _ _) fun _ => leads_sendExtra _ _ _

theorem leads_compressBlock (set : CodeSet) : Leads Emits (compressBlock set) :=
  leads_read fun _ => leads_bind Emits.order (leads_forEach Emits.order (leads_sendToken set) _) fun _ =>
    leads_sendCode _ _ _

theorem leads_sendClSym (c : ClSym) : Leads Emits (sendClSym c) := by
  cases c with
  | len l => exact leads_sendCode _ _ _
  | repeatPrev n => exact leads_bind Emits.order (leads_sendCode _ _ _) fun _ => leads_sendDiff _ _ _
  | zeros n => exact leads_bind Emits.order (leads_sendCode _ _ _) fun _ => leads_sendDiff _ _ _
  | manyZeros n => exact leads_bind Emits.order (leads_sendCode _ _ _) fun _ => leads_sendDiff _ _ _

theorem leads_sendTree (tree : Tree) (maxCode : Nat) : Leads Emits (sendTree tree maxCode) :=
  leads_bind Emits.order (leads_require Emits.order) fun _ => leads_read fun _ =>
    leads_forEach Emits.order leads_sendClSym _

theorem leads_sendAllTrees : Leads Emits sendAllTrees := by
  refine leads_read fun _ => leads_bind Emits.order (leads_sendDiff _ _ _) fun _ => ?_
  refine leads_bind Emits.order (leads_sendDiff _ _ _) fun _ => leads_bind Emits.order (leads_sendDiff _ _ _) fun _ => ?_
  refine leads_bind Emits.order (leads_forEach Emits.order (fun _ => ?_) _) fun _ =>
    leads_bind Emits.order (leads_sendTree _ _) fun _ => leads_sendTree _ _
  exact leads_bind Emits.order (leads_require Emits.order) fun _ => leads_read fun _ => leads_sendBits _ _

theorem leads_storedBlock (start len : Int) (eof : BitVec 1) : Leads Emits (storedBlock start len eof) := by
  refine leads_bind Emits.order (leads_require Emits.order) fun _ => leads_bind Emits.order (leads_sendBits _ _) fun _ => ?_
  refine leads_bind Emits.order leads_biWindup fun _ => leads_bind Emits.order (leads_putShort _) fun _ => ?_
  refine leads_bind Emits.order (leads_putShort _) fun _ => leads_forEach Emits.order (fun _ => ?_) _
  exact leads_bind Emits.order (leads_read fun _ => leads_readAt _ _ _) fun _ => leads_putByte _

theorem leads_emitBlock (mode : BlockMode) (a b : Int) (eof : BitVec 1) : Leads Emits (emitBlock mode a b eof) := by
  cases mode with
  | stored => exact leads_storedBlock _ _ _
  | static => exact leads_bind Emits.order (leads_sendBits _ _) fun _ => leads_compressBlock _
  | dynamic =>
    exact leads_bind Emits.order (leads_sendBits _ _) fun _ =>
      leads_bind Emits.order leads_sendAllTrees fun _ => leads_compressBlock _

theorem leads_putHeader (cinfo : BitVec 4) (flevel : BitVec 2) (fcheck : BitVec 5) :
    Leads Emits (putHeader cinfo flevel fcheck) :=
  leads_bind Emits.order (leads_putByte _) fun _ => leads_putByte _

theorem leads_putAdler (adler : Word) : Leads Emits (putAdler adler) :=
  leads_bind Emits.order (leads_putByte _) fun _ => leads_bind Emits.order (leads_putByte _) fun _ =>
    leads_bind Emits.order (leads_putByte _) fun _ => leads_putByte _

/-! ### Operations that append bits -/

/-- From every state that has emitted more or less than `s₀` and is otherwise the same, `op` appends `bits`. -/
def Sends (s₀ : State) (op : Op Unit) (bits : List Bool) : Prop :=
  ∀ s, OnlyEmitted s₀ s → s.bp.Ok → ∃ t, op.run s = .ok () t ∧ OnlyEmitted s₀ t ∧ t.bp.Ok ∧ t.stream = s.stream ++ bits

section
variable {s₀ : State}

theorem onlyEmitted_platform {s t : State} (h : OnlyEmitted s t) : t.platform = s.platform := by rw [h]
theorem onlyEmitted_cfg {s t : State} (h : OnlyEmitted s t) : t.cfg = s.cfg := by rw [h]
theorem onlyEmitted_hb {s t : State} (h : OnlyEmitted s t) : t.hb = s.hb := by rw [h]
theorem onlyEmitted_tok {s t : State} (h : OnlyEmitted s t) : t.tok = s.tok := by rw [h]
theorem onlyEmitted_dbuf {s t : State} (h : OnlyEmitted s t) : t.mem.dbuf = s.mem.dbuf := by rw [h]
theorem onlyEmitted_lbuf {s t : State} (h : OnlyEmitted s t) : t.mem.lbuf = s.mem.lbuf := by rw [h]

theorem sends_pure : Sends s₀ (pure ()) [] := fun s frame ok => ⟨s, rfl, frame, ok, (List.append_nil _).symm⟩

theorem sends_sendBits (unbounded : s₀.unbounded) {value length : Nat} (short : length ≤ 16) (fits : value < 2 ^ length) :
    Sends s₀ (sendBits value length) (fieldBits length value) := fun s frame ok =>
  have unbounded' : s.unbounded := (congrArg Config.Platform.outCapacity (onlyEmitted_platform frame)).trans unbounded
  ⟨_, sendBits_run unbounded' ⟨short, fits⟩, onlyEmitted_trans frame (emits_sent ⟨short, fits⟩).frame,
    accAfter_ok ok ⟨short, fits⟩, stream_sent ok ⟨short, fits⟩⟩

theorem sends_bind {x y : Op Unit} {a b : List Bool} (hx : Sends s₀ x a) (hy : Sends s₀ y b) :
    Sends s₀ (x >>= fun _ => y) (a ++ b) := by
  intro s frame ok
  obtain ⟨t, first, frame, ok, stream⟩ := hx s frame ok
  obtain ⟨u, second, frame, ok, stream'⟩ := hy t frame ok
  exact ⟨u, by rw [Op.bind_ok first]; exact second, frame, ok, by rw [stream', stream, List.append_assoc]⟩

theorem sends_read {k : State → Op Unit} {bits : List Bool} (h : ∀ s, OnlyEmitted s₀ s → Sends s₀ (k s) bits) :
    Sends s₀ (Op.state >>= k) bits := fun s frame ok => h s frame s frame ok

theorem sends_require {p : Prop} [Decidable p] (holds : p) {f : FaultCode} {y : Op Unit} {bits : List Bool}
    (hy : Sends s₀ y bits) : Sends s₀ (Op.require p f >>= fun _ => y) bits := fun s frame ok => by
  rw [Op.require_pos holds]
  exact hy s frame ok

theorem sends_forEach {α : Type} {body : α → Op Unit} {bits : α → List Bool} {xs : List α}
    (h : ∀ x ∈ xs, Sends s₀ (body x) (bits x)) : Sends s₀ (Op.forEach body xs) (xs.flatMap bits) := by
  induction xs with
  | nil => exact sends_pure
  | cons x rest ih =>
    rw [Op.forEach_cons, List.flatMap_cons]
    exact sends_bind (h x (by simp)) (ih fun y hy => h y (by simp [hy]))

theorem sends_sendDiff (unbounded : s₀.unbounded) {a b length : Nat} (short : length ≤ 16) (le : b ≤ a)
    (fits : a - b < 2 ^ length) : Sends s₀ (sendDiff a b length) (fieldBits length (a - b)) :=
  sends_require le (sends_sendBits unbounded short fits)

/-! ### Codes (43_bit_packer.md R391) -/

/-- A symbol's code fits its length. -/
abbrev CodeFits (h : Huffman) (set : CodeSet) (tree : Tree) (c : Nat) : Prop := set.code h tree c < 2 ^ set.len h tree c

/-- A symbol's bits. -/
def symbolBits (h : Huffman) (set : CodeSet) (tree : Tree) (c : Nat) : List Bool :=
  fieldBits (set.len h tree c) (set.code h tree c)

theorem staticLitLen_le (n : Nat) : staticLitLen n ≤ 9 := by
  unfold staticLitLen; split_ifs <;> decide

theorem codeSet_len_le (h : Huffman) (set : CodeSet) (tree : Tree) (c : Nat) : set.len h tree c ≤ 16 := by
  have register : ((h.lens tree).read c).toNat < 16 := BitVec.isLt _
  cases set with
  | dynamic => exact Nat.le_of_lt register
  | static =>
    cases tree with
    | lit => exact Nat.le_trans (staticLitLen_le c) (by decide)
    | dist => show 5 ≤ 16; decide
    | bl => exact Nat.le_of_lt register

theorem sends_sendCode (unbounded : s₀.unbounded) {set : CodeSet} {tree : Tree} {c : Nat} (known : c < set.size tree)
    (fits : CodeFits s₀.hb set tree c) : Sends s₀ (sendCode set tree c) (symbolBits s₀.hb set tree c) := by
  refine sends_require known (sends_read fun s frame => ?_)
  rw [onlyEmitted_hb frame]
  exact sends_sendBits unbounded (codeSet_len_le _ _ _ _) fits

theorem revBits_lt (n c : Nat) : revBits n c < 2 ^ n := by
  induction n generalizing c with
  | zero => exact Nat.one_pos
  | succ n ih =>
    have low : c % 2 ≤ 1 := by omega
    have := Nat.mul_le_mul_right (2 ^ n) low
    have := ih (c / 2)
    rw [revBits, Nat.pow_succ]
    omega

theorem static_codeFits (h : Huffman) (c : Nat) : CodeFits h .static .lit c ∧ CodeFits h .static .dist c :=
  ⟨revBits_lt _ _, revBits_lt _ _⟩

/-! ### Block bodies (R440) -/

/-- The distance symbol of token `i`. -/
abbrev distSymbol (s : State) (i : Nat) : Nat := distCode (s.mem.dbuf.read i).toNat

/-- The tokens of a block can be sent: their distances are in the table and the codes of their symbols fit. -/
structure Sendable (s : State) (set : CodeSet) : Prop where
  inside : s.tok.lastLit ≤ s.cfg.litBufferSize
  reach : ∀ i, i < s.tok.lastLit → (s.mem.dbuf.read i).toNat ≤ 32768
  lit : ∀ i, i < s.tok.lastLit → CodeFits s.hb set .lit (litSymbol s i)
  dist : ∀ i, i < s.tok.lastLit → s.mem.dbuf.read i ≠ 0 → CodeFits s.hb set .dist (distSymbol s i)
  stop : CodeFits s.hb set .lit 256

theorem elems_le_size (set : CodeSet) (tree : Tree) : tree.elems ≤ set.size tree := by
  cases set <;> cases tree <;> decide

/-- Extra bits, where a code has some. -/
theorem sends_sendExtra (unbounded : s₀.unbounded) {v base n : Nat} (short : n ≤ 16) (le : base ≤ v) (fits : v - base < 2 ^ n) :
    Sends s₀ (sendExtra v base n) (fieldBits n (v - base)) := by
  unfold sendExtra
  split
  · next none => subst none; exact sends_pure
  · exact sends_sendDiff unbounded short le fits

theorem sends_sendToken (unbounded : s₀.unbounded) {set : CodeSet} (sendable : Sendable s₀ set) {i : Nat}
    (hi : i < s₀.tok.lastLit) : Sends s₀ (sendToken set i)
      (tokenBits (symbolBits s₀.hb set .lit) (symbolBits s₀.hb set .dist) (s₀.mem.dbuf.read i).toNat
        (s₀.mem.lbuf.read i).toNat) := by
  have inside : i < s₀.cfg.litBufferSize := Nat.lt_of_lt_of_le hi sendable.inside
  have lc : (s₀.mem.lbuf.read i).toNat < 256 := BitVec.isLt _
  have litSize := elems_le_size set .lit
  have distSize := elems_le_size set .dist
  have litElems : Tree.lit.elems = 286 := rfl
  have distElems : Tree.dist.elems = 30 := rfl
  have litFits := sendable.lit i hi
  intro s frame ok
  have readD : (readDbuf i).run s = .ok (s₀.mem.dbuf.read i) s := by
    rw [readDbuf_run, onlyEmitted_cfg frame, onlyEmitted_dbuf frame, if_pos inside]
  have readL : (readLbuf i).run s = .ok (s₀.mem.lbuf.read i) s := by
    rw [readLbuf_run, onlyEmitted_cfg frame, onlyEmitted_lbuf frame, if_pos inside]
  unfold sendToken
  rw [Op.bind_ok readD, Op.bind_ok readL]
  by_cases literal : s₀.mem.dbuf.read i = 0
  · rw [if_pos literal, tokenBits, if_pos (by rw [literal]; rfl)]
    rw [litSymbol, if_pos literal] at litFits
    exact sends_sendCode unbounded (by omega) litFits s frame ok
  · have positive : 1 ≤ (s₀.mem.dbuf.read i).toNat :=
      Nat.pos_of_ne_zero fun zero => literal (BitVec.eq_of_toNat_eq zero)
    have distFits := sendable.dist i hi literal
    obtain ⟨lcode29, lbase, lextra⟩ := lcode_bounds (len := (s₀.mem.lbuf.read i).toNat + 3) (by omega) (by omega)
    obtain ⟨dcode30, dbase, dextra⟩ := distCode_bounds positive (sendable.reach i hi)
    have dknown : distCode (s₀.mem.dbuf.read i).toNat < set.size .dist := by omega
    have lshort := extraLBits_le _ lcode29
    have dshort := extraDBits_le _ dcode30
    rw [if_neg literal, tokenBits, if_neg (by omega)]
    rw [litSymbol, if_neg literal] at litFits
    rw [List.append_assoc, List.append_assoc]
    exact sends_bind (sends_sendCode unbounded (by omega) litFits)
      (sends_bind (sends_sendExtra unbounded (by omega) lbase lextra)
        (sends_bind (sends_sendCode unbounded dknown distFits) (sends_sendExtra unbounded (by omega) dbase dextra)))
      s frame ok

theorem sends_compressBlock (unbounded : s₀.unbounded) {set : CodeSet} (sendable : Sendable s₀ set) :
    Sends s₀ (compressBlock set) (bodyBits (symbolBits s₀.hb set .lit) (symbolBits s₀.hb set .dist) s₀) := by
  have stop : 256 < set.size .lit := Nat.lt_of_lt_of_le (by decide) (elems_le_size set .lit)
  refine sends_read fun s frame => ?_
  rw [onlyEmitted_tok frame]
  exact sends_bind (sends_forEach fun i hi => sends_sendToken unbounded sendable (List.mem_range.1 hi))
    (sends_sendCode unbounded stop sendable.stop)

/-! ### The tree description (R442, R443) -/

theorem sends_sendClSym (unbounded : s₀.unbounded) {c : ClSym} (ok : ClOk c) (fits : CodeFits s₀.hb .dynamic .bl (clNumber c)) :
    Sends s₀ (sendClSym c) (clBits s₀.hb c) := by
  have code : ∀ n, n < 19 → CodeFits s₀.hb .dynamic .bl n → Sends s₀ (sendCode .dynamic .bl n) (dynBits s₀.hb .bl n) :=
    fun n hn hf => sends_sendCode unbounded hn hf
  cases c with
  | len l => exact code l (Nat.lt_of_le_of_lt ok (by decide)) fits
  | repeatPrev count =>
    obtain ⟨low, high⟩ := ok
    exact sends_bind (code 16 (by decide) fits) (sends_sendDiff unbounded (by decide) low (by omega))
  | zeros count =>
    obtain ⟨low, high⟩ := ok
    exact sends_bind (code 17 (by decide) fits) (sends_sendDiff unbounded (by decide) low (by omega))
  | manyZeros count =>
    obtain ⟨low, high⟩ := ok
    exact sends_bind (code 18 (by decide) fits) (sends_sendDiff unbounded (by decide) low (by omega))

theorem lensUpTo_le (lens : Arr 4) (maxCode : Nat) : ∀ l ∈ lensUpTo lens maxCode, l ≤ 15 := by
  intro l mem
  obtain ⟨n, -, rfl⟩ := List.mem_map.1 mem
  have := (lens.read n).isLt
  omega

theorem clOk_scanTree (lens : Arr 4) (maxCode : Nat) : ∀ c ∈ scanTree (lensUpTo lens maxCode), ClOk c := by
  rw [scanTree_eq_cut]
  exact clOk_cut (lensUpTo_le lens maxCode)

theorem sends_sendTree (unbounded : s₀.unbounded) {tree : Tree} {maxCode : Nat} (known : maxCode < tree.elems)
    (fits : ∀ c ∈ scanTree (lensUpTo (s₀.hb.lens tree) maxCode), CodeFits s₀.hb .dynamic .bl (clNumber c)) :
    Sends s₀ (sendTree tree maxCode) ((scanTree (lensUpTo (s₀.hb.lens tree) maxCode)).flatMap (clBits s₀.hb)) := by
  refine sends_require known (sends_read fun s frame => ?_)
  rw [onlyEmitted_hb frame]
  exact sends_forEach fun c mem => sends_sendClSym unbounded (clOk_scanTree _ _ c mem) (fits c mem)

theorem sends_sendBlLen (unbounded : s₀.unbounded) {rank : Nat} (known : rank < 19) (short : ∀ n, (s₀.hb.bllen.read n).toNat ≤ 7) :
    Sends s₀ (sendBlLen rank) (fieldBits 3 (s₀.hb.bllen.read (codeLengthOrder.getD rank 0)).toNat) := by
  refine sends_require known (sends_read fun s frame => ?_)
  rw [onlyEmitted_hb frame]
  exact sends_sendBits unbounded (by decide) (Nat.lt_of_le_of_lt (short _) (by decide))

/-- The trees in the registers can be described: sizes in the ranges of the header, and codes for the code-length symbols
of both scans. -/
structure Describable (h : Huffman) : Prop where
  lit : 256 ≤ h.lMaxCode ∧ h.lMaxCode < 286
  dist : h.dMaxCode < 30
  blIndex : 3 ≤ h.maxBlIndex ∧ h.maxBlIndex ≤ 18
  short : ∀ n, (h.bllen.read n).toNat ≤ 7
  litScan : ∀ c ∈ scanTree (lensUpTo h.llen h.lMaxCode), CodeFits h .dynamic .bl (clNumber c)
  distScan : ∀ c ∈ scanTree (lensUpTo h.dlen h.dMaxCode), CodeFits h .dynamic .bl (clNumber c)

theorem sends_sendAllTrees (unbounded : s₀.unbounded) (d : Describable s₀.hb) : Sends s₀ sendAllTrees (treesBits s₀.hb) := by
  obtain ⟨⟨litLow, litHigh⟩, distHigh, ⟨blLow, blHigh⟩, short, litScan, distScan⟩ := d
  refine sends_read fun s frame => ?_
  rw [onlyEmitted_hb frame]
  have lit := sends_sendDiff unbounded (a := s₀.hb.lMaxCode + 1) (b := 257) (length := 5) (by decide) (by omega) (by omega)
  have dist := sends_sendDiff unbounded (a := s₀.hb.dMaxCode + 1) (b := 1) (length := 5) (by decide) (by omega) (by omega)
  have count := sends_sendDiff unbounded (a := s₀.hb.maxBlIndex + 1) (b := 4) (length := 4) (by decide) (by omega) (by omega)
  have lengths := sends_forEach (body := sendBlLen) (xs := List.range (s₀.hb.maxBlIndex + 1)) fun rank mem =>
    sends_sendBlLen unbounded (rank := rank) (by have := List.mem_range.1 mem; omega) short
  have bits : treesBits s₀.hb = fieldBits 5 (s₀.hb.lMaxCode + 1 - 257) ++ (fieldBits 5 (s₀.hb.dMaxCode + 1 - 1)
      ++ (fieldBits 4 (s₀.hb.maxBlIndex + 1 - 4) ++ ((List.range (s₀.hb.maxBlIndex + 1)).flatMap
        (fun rank => fieldBits 3 (s₀.hb.bllen.read (codeLengthOrder.getD rank 0)).toNat)
      ++ ((scanTree (lensUpTo s₀.hb.llen s₀.hb.lMaxCode)).flatMap (clBits s₀.hb)
        ++ (scanTree (lensUpTo s₀.hb.dlen s₀.hb.dMaxCode)).flatMap (clBits s₀.hb))))) := by
    simp only [treesBits, List.append_assoc, Nat.add_sub_cancel,
      show s₀.hb.lMaxCode + 1 - 257 = s₀.hb.lMaxCode - 256 by omega,
      show s₀.hb.maxBlIndex + 1 - 4 = s₀.hb.maxBlIndex - 3 by omega]
  rw [bits]
  exact sends_bind lit (sends_bind dist (sends_bind count (sends_bind lengths
    (sends_bind (sends_sendTree unbounded litHigh litScan) (sends_sendTree unbounded distHigh distScan)))))

/-! ### Whole blocks (R431) -/

theorem headerBits_stored : ∀ eof : BitVec 1, fieldBits 3 (0 * 2 + eof.toNat) = [decide (eof = 1), false, false] := by decide
theorem headerBits_static : ∀ eof : BitVec 1, fieldBits 3 (1 * 2 + eof.toNat) = [decide (eof = 1), true, false] := by decide
theorem headerBits_dynamic : ∀ eof : BitVec 1, fieldBits 3 (2 * 2 + eof.toNat) = [decide (eof = 1), false, true] := by decide

theorem header_fits (kind : Nat) (small : kind < 3) (eof : BitVec 1) : kind * 2 + eof.toNat < 2 ^ 3 := by
  have := eof.isLt
  omega

theorem sends_staticBlock (unbounded : s₀.unbounded) (sendable : Sendable s₀ .static) (eof : BitVec 1) :
    Sends s₀ (staticBlock eof) ([decide (eof = 1), true, false] ++ bodyBits staticLitBits staticDistBits s₀) := by
  rw [← headerBits_static]
  exact sends_bind (sends_sendBits unbounded (by decide) (header_fits 1 (by decide) eof)) (sends_compressBlock unbounded sendable)

theorem sends_dynamicBlock (unbounded : s₀.unbounded) (sendable : Sendable s₀ .dynamic) (describable : Describable s₀.hb)
    (eof : BitVec 1) : Sends s₀ (dynamicBlock eof)
      ([decide (eof = 1), false, true] ++ (treesBits s₀.hb ++ bodyBits (dynBits s₀.hb .lit) (dynBits s₀.hb .dist) s₀)) := by
  rw [← headerBits_dynamic]
  exact sends_bind (sends_sendBits unbounded (by decide) (header_fits 2 (by decide) eof))
    (sends_bind (sends_sendAllTrees unbounded describable) (sends_compressBlock unbounded sendable))

end

theorem sendable_static {s : State} (inside : s.tok.lastLit ≤ s.cfg.litBufferSize)
    (reach : ∀ i, i < s.tok.lastLit → (s.mem.dbuf.read i).toNat ≤ 32768) : Sendable s .static :=
  ⟨inside, reach, fun _ _ => (static_codeFits _ _).1, fun _ _ _ => (static_codeFits _ _).2, (static_codeFits _ _).1⟩

/-- Settles O53: the block is sent, from the state itself. -/
theorem blockStaticElement : Obligations.BlockStaticElement := by
  intro bfinal s ok unbounded inside reach
  obtain ⟨t, run, frame, tok, stream⟩ := sends_staticBlock unbounded (sendable_static inside reach) bfinal s rfl ok
  exact ⟨t, runElement_of_ok run, frame, tok, by rw [stream, List.append_assoc]⟩

/-- Settles O54: all codes fit, so the trees can be described and the tokens sent. -/
theorem blockDynamicElement : Obligations.BlockDynamicElement := by
  intro bfinal s ok unbounded inside reach litLow litHigh distHigh blLow blHigh short fits
  have sendable : Sendable s .dynamic :=
    ⟨inside, reach, fun _ _ => fits .lit _, fun _ _ _ => fits .dist _, fits .lit _⟩
  have describable : Describable s.hb :=
    ⟨⟨litLow, litHigh⟩, distHigh, ⟨blLow, blHigh⟩, short, fun _ _ => fits .bl _, fun _ _ => fits .bl _⟩
  obtain ⟨t, run, frame, tok, stream⟩ := sends_dynamicBlock unbounded sendable describable bfinal s rfl ok
  exact ⟨t, runElement_of_ok run, frame, tok, by rw [stream, List.append_assoc, List.append_assoc]⟩

/-! ### The stored block (R152, R432) -/

/-- `LEN`, `NLEN` and the bytes of a stored block. -/
def storedBody (data : List Byte) : List Byte :=
  [(BitVec.ofNat 16 data.length).extractLsb' 0 8, (BitVec.ofNat 16 data.length).extractLsb' 8 8,
    (~~~ BitVec.ofNat 16 data.length).extractLsb' 0 8, (~~~ BitVec.ofNat 16 data.length).extractLsb' 8 8] ++ data

/-- The state after a stored block with the bytes `data`. -/
def storedSent (s : State) (eof : BitVec 1) (data : List Byte) : State :=
  (wound (sent s (0 * 2 + eof.toNat) 3)).emitted (storedBody data)

/-- The bytes `WIN[start ..]`. -/
def windowBytes (s : State) (start len : Nat) : List Byte := (List.range len).map fun k => s.mem.win.read (start + k)

@[simp] theorem length_windowBytes (s : State) (start len : Nat) : (windowBytes s start len).length = len := by
  simp [windowBytes]

theorem pendingBytes_eq (s : State) :
    pendingBytes s = windowBytes s s.mf.blockStart.toNat ((s.mf.strStart : Int) - s.mf.blockStart).toNat := rfl

theorem putWindowBytes_run {s : State} (unbounded : s.unbounded) {start : Nat} {ks : List Nat}
    (inside : ∀ k ∈ ks, start + k < s.cfg.windowBytes) :
    (Op.forEach (fun i => putWindowByte (start + i)) ks).run s
      = .ok () (s.emitted (ks.map fun k => s.mem.win.read (start + k))) := by
  induction ks generalizing s with
  | nil => rw [List.map_nil, emitted_nil]; rfl
  | cons k rest ih =>
    have first : (putWindowByte (start + k)).run s = .ok () (s.emitted [s.mem.win.read (start + k)]) := by
      have read : (readWin (start + k)).run s = .ok (s.mem.win.read (start + k)) s := by
        rw [readWin_run, if_pos (inside k (by simp))]
      unfold putWindowByte
      rw [Op.bind_ok read, putByte_run unbounded]
    rw [Op.forEach_cons, Op.bind_ok first]
    refine (ih (s := s.emitted _) unbounded fun m hm => inside m (by simp [hm])).trans ?_
    rw [State.emitted_emitted]
    rfl

/-- `LEN`, `NLEN` and the window bytes go straight to `OUT`. -/
theorem storedBody_run {s : State} (unbounded : s.unbounded) {start len : Nat} (inside : start + len ≤ s.cfg.windowBytes) :
    (putShort (BitVec.ofNat 16 len) >>= fun _ => putShort (~~~ BitVec.ofNat 16 len) >>= fun _ =>
        Op.forEach (fun i => putWindowByte (start + i)) (List.range len)).run s
      = .ok () (s.emitted (storedBody (windowBytes s start len))) := by
  have bytes : ∀ k ∈ List.range len, start + k < s.cfg.windowBytes := fun k mem => by
    have := List.mem_range.1 mem
    omega
  rw [Op.bind_ok (putShort_run unbounded _), Op.bind_ok (putShort_run (s := s.emitted _) unbounded _),
    State.emitted_emitted, putWindowBytes_run (s := s.emitted _) unbounded bytes, State.emitted_emitted, storedBody,
    length_windowBytes]
  rfl

theorem sent_unbounded {s : State} (unbounded : s.unbounded) (value length : Nat) : (sent s value length).unbounded :=
  unbounded

theorem wound_unbounded {s : State} (unbounded : s.unbounded) : (wound s).unbounded := unbounded

theorem storedBlock_run {s : State} (unbounded : s.unbounded) {start len : Nat} (eof : BitVec 1) (limit : len ≤ 65535)
    (inside : start + len ≤ s.cfg.windowBytes) :
    (storedBlock start len eof).run s = .ok () (storedSent s eof (windowBytes s start len)) := by
  have check : (0 : Int) ≤ start ∧ (0 : Int) ≤ len ∧ (len : Int) ≤ (STORED_LIMIT : Int) := by
    refine ⟨Int.natCast_nonneg _, Int.natCast_nonneg _, ?_⟩
    have : STORED_LIMIT = 65535 := rfl
    omega
  have fits : 3 ≤ BUF_SIZE ∧ 0 * 2 + eof.toNat < 2 ^ 3 := ⟨by decide, header_fits 0 (by decide) eof⟩
  have unbounded' := sent_unbounded unbounded (0 * 2 + eof.toNat) 3
  unfold storedBlock
  rw [Op.require_pos check, Op.bind_ok (sendBits_run unbounded fits), Op.bind_ok (biWindup_run unbounded'),
    Int.toNat_natCast, Int.toNat_natCast]
  exact storedBody_run (wound_unbounded unbounded') inside

theorem storedBlock_run_of_invalid {s : State} {start len : Int} (eof : BitVec 1)
    (bad : ¬ (0 ≤ start ∧ 0 ≤ len ∧ len ≤ (STORED_LIMIT : Int))) :
    (storedBlock start len eof).run s = .error (.raise .storedNoOffset) s := by
  unfold storedBlock
  rw [Op.require_neg bad]

theorem storedSent_frame (s : State) (eof : BitVec 1) (data : List Byte) : OnlyEmitted s (storedSent s eof data) := rfl

theorem storedSent_bp (s : State) (eof : BitVec 1) (data : List Byte) :
    (storedSent s eof data).bp = { biBuf := 0, biValid := 0 } := rfl

theorem storedSent_stream {s : State} (ok : s.bp.Ok) (eof : BitVec 1) {data : List Byte} (limit : data.length ≤ 65535) :
    (storedSent s eof data).stream = storedBlockBits s.stream (decide (eof = 1)) data := by
  have fits : 3 ≤ BUF_SIZE ∧ 0 * 2 + eof.toNat < 2 ^ 3 := ⟨by decide, header_fits 0 (by decide) eof⟩
  have len : (BitVec.ofNat 16 data.length).toNat = data.length := by
    rw [BitVec.toNat_ofNat]; exact Nat.mod_eq_of_lt (by omega)
  have nlen : (~~~ BitVec.ofNat 16 data.length).toNat = 65535 - data.length := by
    rw [BitVec.toNat_not, len]
  have lenBits := bytesBits_short (BitVec.ofNat 16 data.length)
  have nlenBits := bytesBits_short (~~~ BitVec.ofNat 16 data.length)
  rw [len] at lenBits
  rw [nlen] at nlenBits
  have header : (wound (sent s (0 * 2 + eof.toNat) 3)).stream = padToByte (s.stream ++ [decide (eof = 1), false, false]) := by
    rw [stream_wound (s := sent s _ 3) (accAfter_ok ok fits), stream_sent ok fits, headerBits_stored]
  have body : bytesBits (storedBody data)
      = fieldBits 16 data.length ++ (fieldBits 16 (65535 - data.length) ++ bytesBits data) := by
    rw [← lenBits, ← nlenBits, ← bytesBits_append, ← bytesBits_append]; rfl
  rw [storedSent, stream_emitted_of_aligned (show (wound _).bp.biValid = 0 from rfl), header, body, storedBlockBits]
  simp only [List.append_assoc]

theorem length_pendingBytes (s : State) : (pendingBytes s).length = ((s.mf.strStart : Int) - s.mf.blockStart).toNat :=
  length_windowBytes _ _ _

/-- The pending block is in the window and fits a stored block. -/
structure Storable (s : State) : Prop where
  start : 0 ≤ s.mf.blockStart
  order : s.mf.blockStart ≤ (s.mf.strStart : Int)
  limit : (s.mf.strStart : Int) - s.mf.blockStart ≤ 65535
  window : s.mf.strStart ≤ s.cfg.windowBytes

theorem Storable.run {s : State} (h : Storable s) (unbounded : s.unbounded) (eof : BitVec 1) :
    (storedBlock s.mf.blockStart ((s.mf.strStart : Int) - s.mf.blockStart) eof).run s = .ok () (storedSent s eof (pendingBytes s)) := by
  obtain ⟨offset, order, limit, window⟩ := h
  obtain ⟨start, hstart⟩ := Int.eq_ofNat_of_zero_le offset
  obtain ⟨len, hlen⟩ := Int.eq_ofNat_of_zero_le (Int.sub_nonneg_of_le order)
  rw [pendingBytes_eq, hlen, hstart, Int.toNat_natCast, Int.toNat_natCast]
  exact storedBlock_run unbounded eof (by omega) (by omega)

theorem Storable.stream {s : State} (h : Storable s) (ok : s.bp.Ok) (eof : BitVec 1) :
    (storedSent s eof (pendingBytes s)).stream = storedBlockBits s.stream (decide (eof = 1)) (pendingBytes s) := by
  refine storedSent_stream ok eof ?_
  rw [length_pendingBytes]
  have := h.limit
  omega

/-- Settles O52: the check of R432 decides; past it the block is sent. -/
theorem blockStoredElement : Obligations.BlockStoredElement := by
  intro bfinal s ok unbounded windowEnd order
  refine ⟨fun offset limit => ?_, fun bad => ?_⟩
  · have storable : Storable s := ⟨offset, order, limit, windowEnd⟩
    exact ⟨_, runElement_of_ok (storable.run unbounded bfinal), rfl, rfl, storable.stream ok bfinal⟩
  · have limit : STORED_LIMIT = 65535 := rfl
    exact runElement_of_raise (storedBlock_run_of_invalid bfinal (by omega))

end Sys2Proof.Proofs
end

section
/-! What COMPRESS leaves if it comes to its end: the frame of a block boundary, the checksums over the chunk, the end of
the drivers (40_host_commands.md R205, 20_memory.md R116 to R119, 41_match_finder.md R275, 44_block_controller.md R431 to
R437). -/

namespace Sys2Proof.Proofs

open Sys2Proof.Machine Sys2Proof.Claims

/-! ### One block boundary (R431) -/

/-- Only the Huffman registers change. -/
abbrev OnlyHuffman (s t : State) : Prop := t = { s with hb := t.hb }

theorem onlyHuffman_trans {s t u : State} (h : OnlyHuffman s t) (k : OnlyHuffman t u) : OnlyHuffman s u :=
  k.trans (congrArg (fun x : State => { x with hb := u.hb }) h)

theorem onlyHuffman_order : Op.Order OnlyHuffman where
  refl _ := rfl
  trans := onlyHuffman_trans

theorem leads_buildTree (tree : Tree) : Leads OnlyHuffman (buildTree tree) := by
  intro s a t run
  rw [buildTree_run] at run
  dsimp only at run
  split at run
  · cases run
  · split at run
    · cases run; rfl
    · cases run

theorem leads_countTree (tree : Tree) (maxCode : Nat) : Leads OnlyHuffman (countTree tree maxCode) :=
  leads_bind onlyHuffman_order (leads_require onlyHuffman_order) fun _ => leads_read fun _ =>
    leads_forEach onlyHuffman_order (fun _ => leads_bind onlyHuffman_order (leads_require onlyHuffman_order) fun _ =>
      leads_update fun _ => rfl) _

theorem leads_buildAll : Leads OnlyHuffman buildAll := by
  refine leads_bind onlyHuffman_order (leads_buildTree _) fun _ => leads_bind onlyHuffman_order (leads_buildTree _) fun _ => ?_
  refine leads_read fun _ => leads_bind onlyHuffman_order (leads_countTree _ _) fun _ => ?_
  refine leads_bind onlyHuffman_order (leads_countTree _ _) fun _ => leads_bind onlyHuffman_order (leads_buildTree _) fun _ => ?_
  exact leads_bind onlyHuffman_order (leads_update fun _ => rfl) fun _ => leads_update fun _ => rfl

/-- What `FlushBlock` leaves if it comes to its end: a fresh block that starts at `strStart`, more in `OUT`, and otherwise
new Huffman registers alone. -/
structure Flushed (s t : State) : Prop where
  frame : t = { s with
    mf := { s.mf with blockStart := (s.mf.strStart : Int) }, tok := { lastLit := 0, numMatches := 0 }
    hb := t.hb, bp := t.bp, mem := { s.mem with out := t.mem.out } }
  fresh : ∃ h : Huffman, t.hb = h.initBlock
  acc : s.bp.Ok → t.bp.Ok

theorem flushBlock_ok {eof : BitVec 1} {s t : State} (run : (flushBlock eof).run s = .ok () t) :
    Flushed s t ∧ (eof = 1 → t.bp = { biBuf := 0, biValid := 0 }) := by
  unfold flushBlock at run
  rw [Op.state_bind] at run
  obtain ⟨⟨⟩, u, build, run⟩ := Op.bind_inv run
  have built : OnlyHuffman s u := leads_when onlyHuffman_order leads_buildAll s () u build
  rw [Op.state_bind] at run
  obtain ⟨⟨⟩, v, emission, run⟩ := Op.bind_inv run
  obtain ⟨sentFrame, sentAcc⟩ := leads_emitBlock _ _ _ _ u () v emission
  obtain ⟨⟨⟩, w, init, run⟩ := Op.bind_inv run
  cases init
  obtain ⟨⟨⟩, x, pad, last⟩ := Op.bind_inv run
  obtain ⟨padFrame, padAcc⟩ := leads_when Emits.order leads_biWindup _ () x pad
  cases last
  have aligned : eof = 1 → x.bp = { biBuf := 0, biValid := 0 } := fun eof1 => by
    rw [Op.when_pos eof1] at pad
    rw [biWindup_ok pad]
    rfl
  have acc : u.bp.Ok → x.bp.Ok := fun ok => padAcc (sentAcc ok)
  clear pad padAcc emission sentAcc run build
  obtain ⟨hb, rfl⟩ : ∃ hb, u = { s with hb := hb } := ⟨_, built⟩
  obtain ⟨bp, out, rfl⟩ : ∃ bp out, v = State.mk s.ctl s.cfg s.ct s.mf s.tok hb bp s.sums { s.mem with out := out }
    s.platform s.port := ⟨_, _, sentFrame⟩
  obtain ⟨bp', out', rfl⟩ : ∃ bp out, x = State.mk s.ctl s.cfg s.ct s.mf { lastLit := 0, numMatches := 0 } hb.initBlock bp
    s.sums { s.mem with out := out } s.platform s.port := ⟨_, _, padFrame⟩
  exact ⟨⟨rfl, ⟨hb, rfl⟩, acc⟩, aligned⟩

theorem Flushed.blockFresh {s t : State} (h : Flushed s t) : BlockFresh t := by
  obtain ⟨old, fresh⟩ := h.fresh
  have tok : t.tok = { lastLit := 0, numMatches := 0 } := by rw [h.frame]
  rw [BlockFresh, tok, fresh]
  exact ⟨rfl, rfl, rfl, rfl, rfl, rfl, rfl⟩

/-! ### The work of a step -/

/-- What a driver step may change: everything but the window, the input, the checksums and what belongs to the session. -/
structure Works (s t : State) : Prop where
  frame : t = { s with mf := t.mf, tok := t.tok, hb := t.hb, bp := t.bp, mem := { t.mem with win := s.mem.win, input := s.mem.input } }
  acc : s.bp.Ok → t.bp.Ok

theorem Works.order : Op.Order Works where
  refl _ := ⟨rfl, id⟩
  trans {s t u} h k := by
    refine ⟨?_, fun ok => k.acc (h.acc ok)⟩
    exact k.frame.trans (congrArg (fun x : State => { x with
      mf := u.mf, tok := u.tok, hb := u.hb, bp := u.bp, mem := { u.mem with win := x.mem.win, input := x.mem.input } }) h.frame)

theorem Flushed.works {s t : State} (h : Flushed s t) : Works s t := by
  obtain ⟨frame, -, acc⟩ := h
  refine ⟨?_, acc⟩
  clear acc
  generalize t.hb = hb, t.bp = bp, t.mem.out = out at frame
  subst frame
  rfl

/-- A register of the match finder or a token is written. -/
theorem works_of_registers {s t : State} (frame : t = { s with
      mf := t.mf, tok := t.tok, hb := t.hb, mem := { t.mem with win := s.mem.win, input := s.mem.input } }) : Works s t := by
  have bp : t.bp = s.bp := by rw [frame]
  refine ⟨?_, fun ok => bp ▸ ok⟩
  rw [bp]
  exact frame

/-- What a tally may change: the token buffer, its counters and the frequencies. -/
def Tallies (s t : State) : Prop :=
  t = { s with tok := t.tok, hb := t.hb, mem := { s.mem with dbuf := t.mem.dbuf, lbuf := t.mem.lbuf } }

theorem Tallies.order : Op.Order Tallies where
  refl _ := rfl
  trans {_ _ u} h k := k.trans (congrArg (fun x : State => { x with
    tok := u.tok, hb := u.hb, mem := { x.mem with dbuf := u.mem.dbuf, lbuf := u.mem.lbuf } }) h)

theorem Tallies.works {s t : State} (h : Tallies s t) : Works s t := by
  have mf : t.mf = s.mf := by rw [show t = _ from h]
  refine works_of_registers ?_
  rw [mf]
  unfold Tallies at h
  generalize t.tok = tok, t.hb = hb, t.mem.dbuf = dbuf, t.mem.lbuf = lbuf at h
  subst h
  rfl

theorem Tallies.mf {s t : State} (h : Tallies s t) : t.mf = s.mf := by rw [show t = _ from h]

theorem Tallies.input {s t : State} (h : Tallies s t) : t.mem.input = s.mem.input := by rw [show t = _ from h]

section
variable {α : Type}

theorem works_read {w : Nat} (size : Nat) (a : Arr w) (i : Nat) : Leads Works (Op.readAt size a i) :=
  leads_bind Works.order (leads_require Works.order) fun _ => leads_pure Works.order _

theorem works_readWin (i : Nat) : Leads Works (readWin i) := leads_read fun _ => works_read _ _ _

theorem works_mf (u : State → MatchRegs) : Leads Works (Op.update fun s => s.setMf (u s)) :=
  leads_update fun _ => works_of_registers rfl

theorem works_writeHead (i : Nat) (v : BitVec 16) : Leads Works (writeHead i v) :=
  leads_read fun _ => leads_bind Works.order (leads_require Works.order) fun _ => leads_update fun _ => works_of_registers rfl

theorem works_writePrev (i : Nat) (v : BitVec 16) : Leads Works (writePrev i v) :=
  leads_read fun _ => leads_bind Works.order (leads_require Works.order) fun _ => leads_update fun _ => works_of_registers rfl

theorem works_insertString (pos : Nat) : Leads Works (insertString pos) := by
  refine leads_bind Works.order (works_readWin _) fun _ => leads_bind Works.order (works_mf _) fun _ => leads_read fun _ => ?_
  refine leads_bind Works.order (leads_read fun _ => works_read _ _ _) fun _ => ?_
  exact leads_bind Works.order (works_writePrev _ _) fun _ =>
    leads_bind Works.order (works_writeHead _ _) fun _ => leads_pure Works.order _

theorem works_commonLength (a b limit : Nat) : Leads Works (commonLength a b limit) := by
  induction limit generalizing a b with
  | zero => exact leads_pure Works.order _
  | succ limit ih =>
    refine leads_bind Works.order (works_readWin _) fun _ => leads_bind Works.order (works_readWin _) fun _ => ?_
    exact leads_ite (leads_bind Works.order (ih _ _) fun _ => leads_pure Works.order _) (leads_pure Works.order _)

theorem works_walkChain (strStart maxLen nice limit chain cur best : Nat) :
    Leads Works (walkChain strStart maxLen nice limit chain cur best) := by
  induction chain generalizing cur best with
  | zero => exact leads_pure Works.order _
  | succ chain ih =>
    refine leads_bind Works.order (works_commonLength _ _ _) fun _ => ?_
    refine leads_bind Works.order (leads_when Works.order (works_mf _)) fun _ => leads_ite (leads_pure Works.order _) ?_
    refine leads_read fun _ => leads_bind Works.order (leads_read fun _ => works_read _ _ _) fun _ => ?_
    exact leads_ite (ih _ _) (leads_pure Works.order _)

theorem works_searchFrom (head : Nat) : Leads Works (searchFrom head) :=
  leads_bind Works.order (leads_read fun _ => leads_bind Works.order (works_walkChain _ _ _ _ _ _ _) fun _ =>
    leads_pure Works.order _) fun _ => works_mf _

theorem tallies_countToken (dist : Int) (lc : Nat) : Leads Tallies (countToken dist lc) := by
  have count : ∀ i k, Leads Tallies (countLit i k) := fun i k =>
    leads_bind Tallies.order (leads_require Tallies.order) fun _ => leads_update fun _ => rfl
  refine leads_ite (count _ _) (leads_read fun _ => leads_bind Tallies.order (leads_require Tallies.order) fun _ => ?_)
  refine leads_bind Tallies.order (leads_update fun _ => rfl) fun _ => leads_bind Tallies.order (count _ _) fun _ => ?_
  exact leads_bind Tallies.order (leads_require Tallies.order) fun _ => leads_update fun _ => rfl

theorem tallies_tally (dist : Int) (lc : Nat) : Leads Tallies (tally dist lc) := by
  refine leads_read fun _ => leads_bind Tallies.order (leads_require Tallies.order) fun _ => ?_
  refine leads_bind Tallies.order (leads_read fun _ => leads_bind Tallies.order (leads_require Tallies.order) fun _ =>
    leads_update fun _ => rfl) fun _ => ?_
  exact leads_bind Tallies.order (leads_update fun _ => rfl) fun _ =>
    leads_bind Tallies.order (tallies_countToken _ _) fun _ => leads_gets Tallies.order _

theorem tallies_tallyLiteral (i : Nat) : Leads Tallies (tallyLiteral i) :=
  leads_bind Tallies.order (leads_read fun _ => leads_bind Tallies.order (leads_require Tallies.order) fun _ =>
    leads_pure Tallies.order _) fun _ => tallies_tally _ _

theorem tallies_tallyDeferred : Leads Tallies tallyDeferred :=
  leads_read fun _ => leads_bind Tallies.order (leads_require Tallies.order) fun _ => tallies_tallyLiteral _

theorem works_tally (dist : Int) (lc : Nat) : Leads Works (tally dist lc) :=
  (tallies_tally dist lc).mono fun _ _ => Tallies.works

theorem works_tallyLiteral (i : Nat) : Leads Works (tallyLiteral i) :=
  (tallies_tallyLiteral i).mono fun _ _ => Tallies.works

theorem works_flushBlock (eof : BitVec 1) : Leads Works (flushBlock eof) := fun _ _ _ run => (flushBlock_ok run).1.works

theorem works_flushIf (bflush : Bool) : Leads Works (flushIf bflush) := leads_when Works.order (works_flushBlock _)

theorem works_takeLook (n : Nat) : Leads Works (takeLook n) :=
  leads_read fun _ => leads_bind Works.order (leads_require Works.order) fun _ => works_mf _

theorem works_checkWindow : Leads Works checkWindow := leads_read fun _ => leads_require Works.order

theorem works_insertHere : Leads Works insertHere :=
  leads_read fun _ => leads_ite (works_insertString _) (leads_pure Works.order _)

theorem works_fastPass (len : Nat) : Leads Works (fastPass len) := by
  refine leads_read fun _ => leads_ite ?_ (leads_bind Works.order (works_mf _) fun _ => works_mf _)
  refine leads_bind Works.order (leads_times Works.order ?_ _) fun _ => works_mf _
  exact leads_bind Works.order (works_mf _) fun _ => leads_read fun _ =>
    leads_bind Works.order (works_insertString _) fun _ => leads_pure Works.order _

theorem works_fastToken : Leads Works fastToken := by
  refine leads_read fun _ => leads_ite (leads_read fun _ => ?_) (leads_read fun _ => ?_)
  · refine leads_bind Works.order (works_tally _ _) fun _ => leads_bind Works.order (works_takeLook _) fun _ => ?_
    exact leads_bind Works.order (works_fastPass _) fun _ => leads_bind Works.order (works_mf _) fun _ =>
      leads_pure Works.order _
  · refine leads_bind Works.order (works_tallyLiteral _) fun _ => leads_bind Works.order (works_takeLook _) fun _ => ?_
    exact leads_bind Works.order (works_mf _) fun _ => leads_pure Works.order _

theorem works_fastStep : Leads Works fastStep := by
  refine leads_bind Works.order works_insertHere fun _ => leads_read fun _ => ?_
  refine leads_bind Works.order (leads_when Works.order (works_searchFrom _)) fun _ => ?_
  refine leads_bind Works.order works_fastToken fun _ => leads_bind Works.order (works_flushIf _) fun _ => ?_
  exact leads_bind Works.order works_checkWindow fun _ => leads_pure Works.order _

theorem works_slowCommit : Leads Works slowCommit := by
  refine leads_read fun _ => leads_bind Works.order (works_tally _ _) fun _ => ?_
  refine leads_bind Works.order (works_takeLook _) fun _ => leads_bind Works.order (leads_times Works.order ?_ _) fun _ => ?_
  · refine leads_bind Works.order (works_mf _) fun _ => leads_read fun _ => leads_when Works.order ?_
    exact leads_bind Works.order (works_insertString _) fun _ => leads_pure Works.order _
  · exact leads_bind Works.order (works_mf _) fun _ => works_flushIf _

theorem works_tallyDeferred : Leads Works tallyDeferred := tallies_tallyDeferred.mono fun _ _ => Tallies.works

theorem works_dropShort (s : State) : Works s s.dropShort := by
  unfold State.dropShort
  split
  · exact works_of_registers rfl
  · exact Works.order.refl s

theorem works_slowSearch (head : Nat) : Leads Works (slowSearch head) :=
  leads_read fun _ => leads_when Works.order (leads_bind Works.order (leads_when Works.order (works_searchFrom _)) fun _ =>
    leads_update works_dropShort)

theorem works_slowDecide : Leads Works slowDecide := by
  refine leads_read fun _ => leads_ite works_slowCommit (leads_ite ?_ ?_)
  · refine leads_bind Works.order works_tallyDeferred fun _ => leads_bind Works.order (works_flushIf _) fun _ => ?_
    exact leads_bind Works.order (works_mf _) fun _ => works_takeLook _
  · exact leads_bind Works.order (works_mf _) fun _ => leads_bind Works.order (works_mf _) fun _ => works_takeLook _

theorem works_slowStep : Leads Works slowStep := by
  refine leads_bind Works.order works_insertHere fun _ => leads_bind Works.order (works_mf _) fun _ => ?_
  refine leads_bind Works.order (works_slowSearch _) fun _ => leads_bind Works.order works_slowDecide fun _ => ?_
  exact leads_bind Works.order works_checkWindow fun _ => leads_pure Works.order _

theorem works_storedStep : Leads Works storedStep := by
  refine leads_read fun _ => leads_bind Works.order (works_mf _) fun _ => leads_bind Works.order (works_takeLook _) fun _ => ?_
  refine leads_read fun _ => leads_bind Works.order (leads_when Works.order (works_flushBlock _)) fun _ => ?_
  exact leads_bind Works.order works_checkWindow fun _ => leads_pure Works.order _

theorem works_flushDeferred : Leads Works flushDeferred :=
  leads_read fun _ => leads_when Works.order (leads_bind Works.order works_tallyDeferred fun _ => works_mf _)

end

/-! ### Checksums over chunks (20_memory.md R118, R119) -/

theorem adlerUpdate_append (v : Word) (xs ys : List Byte) : adlerUpdate v (xs ++ ys) = adlerUpdate (adlerUpdate v xs) ys :=
  List.foldl_append

/-- Between two updates the inversions cancel. -/
theorem crcUpdate_append (v : Word) (xs ys : List Byte) : crcUpdate v (xs ++ ys) = crcUpdate (crcUpdate v xs) ys := by
  simp only [crcUpdate, List.foldl_append, BitVec.xor_assoc, BitVec.xor_self, BitVec.xor_zero]

@[simp] theorem adlerUpdate_nil (v : Word) : adlerUpdate v [] = v := rfl

@[simp] theorem crcUpdate_nil (v : Word) : crcUpdate v [] = v := by
  simp only [crcUpdate, List.foldl_nil, BitVec.xor_assoc, BitVec.xor_self, BitVec.xor_zero]

/-- The checksums of all input, what is still in `IN` included. -/
def finalSums (s : State) : Sums :=
  { adler := adlerUpdate s.sums.adler s.mem.input, crc := crcUpdate s.sums.crc s.mem.input }

/-- What stays through the whole of a driver: the checksums of all input, and a well-formed accumulator. -/
structure Drives (s t : State) : Prop where
  sums : finalSums t = finalSums s
  acc : s.bp.Ok → t.bp.Ok

theorem Drives.order : Op.Order Drives where
  refl _ := ⟨rfl, id⟩
  trans h k := ⟨k.sums.trans h.sums, fun ok => k.acc (h.acc ok)⟩

theorem Works.drives {s t : State} (h : Works s t) : Drives s t := ⟨by rw [h.frame]; rfl, h.acc⟩

/-- Only match registers, or only the window's side of the memories, are written. -/
theorem drives_of_same {s t : State} (sums : t.sums = s.sums) (input : t.mem.input = s.mem.input) (bp : t.bp = s.bp) :
    Drives s t := ⟨by rw [finalSums, finalSums, sums, input], fun ok => bp ▸ ok⟩

theorem drives_mf (u : State → MatchRegs) : Leads Drives (Op.update fun s => s.setMf (u s)) :=
  leads_update fun _ => drives_of_same rfl rfl rfl

theorem drives_readBuf (dst size : Nat) : Leads Drives (readBuf dst size) := by
  intro s n t run
  rw [readBuf_run] at run
  dsimp only at run
  split at run
  · next none =>
    cases run
    have empty : s.mem.input.take size = [] := List.eq_nil_of_length_eq_zero none
    have same : s.mem.input.drop size = s.mem.input := by
      conv_rhs => rw [← List.take_append_drop size s.mem.input, empty, List.nil_append]
    exact drives_of_same rfl same rfl
  · split at run
    · cases run
      refine ⟨?_, id⟩
      change Sums.mk (adlerUpdate (adlerUpdate s.sums.adler (s.mem.input.take size)) (s.mem.input.drop size))
        (crcUpdate (crcUpdate s.sums.crc (s.mem.input.take size)) (s.mem.input.drop size)) = finalSums s
      rw [← adlerUpdate_append, ← crcUpdate_append, List.take_append_drop]
      rfl
    · cases run

theorem drives_slide : Leads Drives slide :=
  leads_bind Drives.order (leads_update fun _ => drives_of_same rfl rfl rfl) fun _ =>
    leads_bind Drives.order (drives_mf _) fun _ => works_checkWindow.mono fun _ _ => Works.drives

theorem drives_fillStep : Leads Drives fillStep := by
  unfold fillStep
  refine leads_read fun _ => leads_bind Drives.order (leads_when Drives.order drives_slide) fun _ => leads_read fun _ => ?_
  refine leads_ite (leads_pure Drives.order _) (leads_bind Drives.order (drives_readBuf _ _) fun _ => ?_)
  refine leads_bind Drives.order (drives_mf _) fun _ => leads_read fun _ => ?_
  refine leads_bind Drives.order (leads_when Drives.order (leads_read fun _ => ?_)) fun _ =>
    leads_ite (leads_pure Drives.order _) (leads_pure Drives.order _)
  exact ((leads_bind Works.order (works_readWin _) fun _ => leads_bind Works.order (works_readWin _) fun _ =>
    works_mf _).mono fun _ _ => Works.drives)

theorem leads_iterate {R : State → State → Prop} (o : Op.Order R) {body : Op LoopStep} (h : Leads R body) (fuel : Nat) :
    Leads R (Op.iterate body fuel) := by
  induction fuel with
  | zero => intro s a t run; cases run
  | succ fuel ih =>
    rw [Op.iterate_succ]
    refine leads_bind o h fun l => ?_
    cases l with
    | again => exact ih
    | exit => exact leads_pure o _
    | needMore => exact leads_pure o _

theorem drives_fillWindow : Leads Drives fillWindow :=
  leads_read fun _ => leads_bind Drives.order (leads_iterate Drives.order drives_fillStep _) fun _ =>
    works_checkWindow.mono fun _ _ => Works.drives

theorem drives_filled {bound : Nat} {s t : State} (h : FilledBelow bound s t) : Drives s t := by
  obtain ⟨-, rfl⟩ | ⟨-, run⟩ := h
  · exact Drives.order.refl _
  · exact drives_fillWindow s () t run

theorem drives_matchRound (f : BitVec 3) {step : Op LoopStep} (h : Leads Works step) : Leads Drives (matchRound f step) := by
  intro s l u run
  obtain ⟨t, fill, ⟨-, rfl, -⟩ | ⟨-, rfl, -⟩ | ⟨-, work⟩⟩ := matchRound_cases run
  · exact drives_filled fill
  · exact drives_filled fill
  · exact Drives.order.trans (drives_filled fill) (h t l u work).drives

theorem drives_storedRound (f : BitVec 3) : Leads Drives (storedRound f) := by
  intro s l u run
  obtain ⟨t, fill, ⟨-, rfl, -⟩ | ⟨-, work⟩⟩ := storedRound_cases run
  · exact drives_filled fill
  · exact Drives.order.trans (drives_filled fill) (works_storedStep t l u work).drives

/-! ### The end of a fill (R257) -/

/-- After a fill there is enough lookahead or nothing more to read, and the window registers are in order. -/
theorem fillWindow_ok {s t : State} (run : fillWindow.run s = .ok () t) :
    (MIN_LOOKAHEAD ≤ t.mf.lookAhead ∨ t.mem.input = [])
      ∧ t.mf.strStart + t.mf.lookAhead ≤ t.cfg.windowBytes ∧ t.mf.blockStart ≤ (t.mf.strStart : Int) := by
  unfold fillWindow at run
  rw [Op.state_bind] at run
  obtain ⟨l, u, loop, check⟩ := Op.bind_inv run
  have last : ∀ s t, fillStep.run s = .ok l t → l ≠ .again → MIN_LOOKAHEAD ≤ t.mf.lookAhead ∨ t.mem.input = [] := by
    intro s t step stop
    unfold fillStep at step
    rw [Op.state_bind] at step
    obtain ⟨⟨⟩, u, -, step⟩ := Op.bind_inv step
    rw [Op.state_bind] at step
    split at step
    · next empty => cases step; exact .inr empty
    · obtain ⟨n, v, -, step⟩ := Op.bind_inv step
      rw [Op.update_bind, Op.state_bind] at step
      obtain ⟨⟨⟩, w, seed, step⟩ := Op.bind_inv step
      have seeded : w.mf.lookAhead = v.mf.lookAhead + n ∧ w.mem.input = v.mem.input := by
        unfold Op.when at seed
        split at seed
        · unfold seedHash at seed
          rw [Op.state_bind] at seed
          obtain ⟨x, v1, first, seed⟩ := Op.bind_inv seed
          obtain ⟨y, v2, second, seed⟩ := Op.bind_inv seed
          rw [readWin_run] at first second
          split at first <;> cases first
          split at second <;> cases second
          cases seed
          exact ⟨rfl, rfl⟩
        · cases seed; exact ⟨rfl, rfl⟩
      split at step
      · next done =>
        cases step
        rw [seeded.1, seeded.2]
        exact done
      · cases step; exact absurd rfl stop
  have filled := (Op.iterate_inv (P := fun _ => True) (fun _ _ _ _ => trivial) (fun s t _ => last s t) trivial loop).2
  rw [checkWindow_run] at check
  split at check
  · next order => cases check; exact ⟨filled, order⟩
  · cases check

/-! ### The end of a driver (R275) -/

/-- What a driver's loop leaves: nothing to read, and the lookahead short of `MIN_LOOKAHEAD` (NO_FLUSH) or used up. -/
structure LoopDone (f : BitVec 3) (stored : Bool) (l : LoopStep) (t : State) : Prop where
  input : t.mem.input = []
  answer : l = if f = NO_FLUSH then .needMore else .exit
  look : t.mf.lookAhead < MIN_LOOKAHEAD
  used : f ≠ NO_FLUSH ∨ stored = true → t.mf.lookAhead = 0

theorem matchRound_done {f : BitVec 3} {step : Op LoopStep} (goesOn : GoesOn step) {s u : State} {l : LoopStep}
    (run : (matchRound f step).run s = .ok l u) (stop : l ≠ .again) : LoopDone f false l u := by
  have size : MIN_LOOKAHEAD = 262 := rfl
  obtain ⟨t, fill, cases⟩ := matchRound_cases run
  have drained : s.mf.lookAhead < MIN_LOOKAHEAD → t.mf.lookAhead < MIN_LOOKAHEAD → t.mem.input = [] := fun due short => by
    obtain ⟨full, -⟩ | ⟨-, fill⟩ := fill
    · omega
    · exact (fillWindow_ok fill).1.resolve_left (by omega)
  rcases cases with ⟨rfl, rfl, due, short, noFlush⟩ | ⟨rfl, rfl, due, empty, flush⟩ | ⟨-, work⟩
  · exact ⟨drained due short, by rw [if_pos noFlush], short, fun h => h.elim (absurd noFlush) nofun⟩
  · exact ⟨drained due (by omega), by rw [if_neg flush], by omega, fun _ => empty⟩
  · exact absurd (goesOn t l u work) stop

theorem storedRound_done {f : BitVec 3} {s u : State} {l : LoopStep} (run : (storedRound f).run s = .ok l u)
    (stop : l ≠ .again) : LoopDone f true l u := by
  have size : MIN_LOOKAHEAD = 262 := rfl
  obtain ⟨t, fill, ⟨rfl, rfl, due, empty⟩ | ⟨-, work⟩⟩ := storedRound_cases run
  · refine ⟨?_, rfl, by omega, fun _ => empty⟩
    obtain ⟨full, -⟩ | ⟨-, fill⟩ := fill
    · omega
    · exact (fillWindow_ok fill).1.resolve_left (by omega)
  · exact absurd (storedStep_goesOn t l u work) stop

/-- What a driver leaves if it comes to its end. -/
structure DriveDone (f : BitVec 3) (driver : Driver) (r : DriveResult) (t : State) : Prop where
  input : t.mem.input = []
  answer : r = if f = NO_FLUSH then .needMore else if f = FINISH then .finishDone else .blockDone
  look : t.mf.lookAhead < MIN_LOOKAHEAD
  used : f ≠ NO_FLUSH ∨ driver = .stored → t.mf.lookAhead = 0
  boundary : f ≠ NO_FLUSH → t.mf.blockStart = (t.mf.strStart : Int) ∧ BlockFresh t
  aligned : f = FINISH → t.bp = { biBuf := 0, biValid := 0 }

theorem endDrive_done {f : BitVec 3} {driver : Driver} {l : LoopStep} {s t : State} {r : DriveResult}
    (loop : LoopDone f (driver = .stored) l s) (run : (endDrive f l).run s = .ok r t) : DriveDone f driver r t := by
  obtain ⟨input, answer, look, used⟩ := loop
  simp only [decide_eq_true_eq] at used
  by_cases noFlush : f = NO_FLUSH
  · have notFinish : f ≠ FINISH := by rw [noFlush]; decide
    rw [if_pos noFlush] at answer
    subst answer
    cases run
    exact ⟨input, by rw [if_pos noFlush], look, used, fun h => absurd noFlush h, fun h => absurd h notFinish⟩
  · rw [if_neg noFlush] at answer
    subst answer
    obtain ⟨⟨⟩, u, flush, last⟩ := Op.bind_inv (x := flushBlock (if f = FINISH then 1 else 0)) run
    cases last
    obtain ⟨flushed, aligned⟩ := flushBlock_ok flush
    have mf : t.mf = { s.mf with blockStart := (s.mf.strStart : Int) } := by rw [flushed.frame]
    have kept : t.mem.input = s.mem.input := by rw [flushed.frame]
    have empty := used (.inl noFlush)
    refine ⟨kept.trans input, by rw [if_neg noFlush], by rw [mf]; exact look, fun _ => by rw [mf]; exact empty,
      fun _ => ⟨by rw [mf], flushed.blockFresh⟩, fun finish => aligned (if_pos finish)⟩

/-- Everything a driver leaves if it comes to its end: nothing held back by SLOW after a flush beside what all drivers
have. -/
theorem drive_done {f : BitVec 3} {s t : State} {r : DriveResult} (run : (drive f).run s = .ok r t) :
    DriveDone f s.ct.driver r t ∧ (s.ct.driver = .slow → f ≠ NO_FLUSH → t.mf.matchAvailable = false) := by
  unfold drive at run
  rw [Op.state_bind] at run
  cases driver : s.ct.driver with
  | stored =>
    rw [driver] at run
    obtain ⟨fuel, s, -, run⟩ := Op.bind_inv (x := driveFuel) run
    obtain ⟨l, u, loop, run⟩ := Op.bind_inv (x := Op.iterate (storedRound f) fuel) run
    have done := (Op.iterate_inv (P := fun _ => True) (Q := LoopDone f true l) (fun _ _ _ _ => trivial)
      (fun s t _ => storedRound_done) trivial loop).2
    exact ⟨endDrive_done (driver := .stored) done run, nofun⟩
  | fast =>
    rw [driver] at run
    obtain ⟨fuel, s, -, run⟩ := Op.bind_inv (x := driveFuel) run
    obtain ⟨l, u, loop, run⟩ := Op.bind_inv (x := Op.iterate (matchRound f fastStep) fuel) run
    have done := (Op.iterate_inv (P := fun _ => True) (Q := LoopDone f false l) (fun _ _ _ _ => trivial)
      (fun s t _ => matchRound_done fastStep_goesOn) trivial loop).2
    exact ⟨endDrive_done (driver := .fast) done run, nofun⟩
  | slow =>
    rw [driver] at run
    obtain ⟨fuel, s, -, run⟩ := Op.bind_inv (x := driveFuel) run
    obtain ⟨l, u, loop, run⟩ := Op.bind_inv (x := Op.iterate (matchRound f slowStep) fuel) run
    obtain ⟨⟨⟩, v, deferred, run⟩ := Op.bind_inv (x := Op.when (l = .exit) flushDeferred) run
    have done := (Op.iterate_inv (P := fun _ => True) (Q := LoopDone f false l) (fun _ _ _ _ => trivial)
      (fun s t _ => matchRound_done slowStep_goesOn) trivial loop).2
    obtain ⟨input, answer, look, used⟩ := done
    by_cases noFlush : f = NO_FLUSH
    · rw [if_pos noFlush] at answer
      subst answer
      cases deferred
      exact ⟨endDrive_done (driver := .slow) ⟨input, by rw [if_pos noFlush], look, used⟩ run, fun _ h => absurd noFlush h⟩
    · rw [if_neg noFlush] at answer
      subst answer
      have given : v.mem.input = u.mem.input ∧ v.mf.lookAhead = u.mf.lookAhead ∧ v.mf.matchAvailable = false := by
        change flushDeferred.run u = _ at deferred
        unfold flushDeferred at deferred
        rw [Op.state_bind] at deferred
        by_cases held : u.mf.matchAvailable = true
        · rw [Op.when_pos held] at deferred
          obtain ⟨b, w, tallied, last⟩ := Op.bind_inv deferred
          cases last
          have tallies := tallies_tallyDeferred u b w tallied
          exact ⟨tallies.input, (congrArg MatchRegs.lookAhead tallies.mf : w.mf.lookAhead = u.mf.lookAhead), rfl⟩
        · rw [Op.when_neg held] at deferred
          cases deferred
          exact ⟨rfl, rfl, by simpa using held⟩
      obtain ⟨inputKept, lookKept, given⟩ := given
      have ended := endDrive_done (driver := .slow) (s := v)
        ⟨inputKept.trans input, by rw [if_neg noFlush], lookKept ▸ look, fun h => lookKept ▸ used (h.imp_right nofun)⟩ run
      refine ⟨ended, fun _ _ => ?_⟩
      obtain ⟨⟨⟩, w, flush, last⟩ := Op.bind_inv (x := flushBlock (if f = FINISH then 1 else 0)) run
      cases last
      rw [(flushBlock_ok flush).1.frame]
      exact given

end Sys2Proof.Proofs
end

section
/-! How an instruction ends: a stream element's emission, an answer, a COMPRESS that came to its end, or a fault that was
taken (60_exceptions.md R510, R512, 40_host_commands.md R205). -/

namespace Sys2Proof.Proofs

open Sys2Proof.Machine Sys2Proof.Claims

/-! ### What a command leaves of a session -/

/-- What no command but CONFIGURE and TAKE_BYTES changes, however it ends; an open session stays open. -/
structure Session (s t : State) : Prop where
  cfg : t.cfg = s.cfg
  ct : t.ct = s.ct
  platform : t.platform = s.platform
  port : t.port = s.port
  faultCode : t.ctl.faultCode = s.ctl.faultCode
  out : ∃ bytes, t.mem.out = s.mem.out ++ bytes
  memory : s.MemoryOk → t.MemoryOk
  session : s.isOpen → t.isOpen
  mode : s.ctl.lastFlush ≤ FINISH → t.ctl.lastFlush ≤ FINISH

theorem Session.order : Op.Order Session where
  refl _ := ⟨rfl, rfl, rfl, rfl, rfl, ⟨[], by simp⟩, id, id, id⟩
  trans {s t u} h k := by
    refine ⟨k.cfg.trans h.cfg, k.ct.trans h.ct, k.platform.trans h.platform, k.port.trans h.port,
      k.faultCode.trans h.faultCode, ?_, fun m => k.memory (h.memory m), fun m => k.session (h.session m),
      fun m => k.mode (h.mode m)⟩
    obtain ⟨a, ha⟩ := h.out
    obtain ⟨b, hb⟩ := k.out
    exact ⟨a ++ b, by rw [hb, ha, List.append_assoc]⟩

theorem inside_session {s t : State} (h : Inside s t) : Session s t :=
  ⟨h.cfg, h.ct, h.platform, h.port, by rw [h.ctl], h.out, h.memory, by rw [State.isOpen, State.isOpen, h.ctl]; exact id,
    by rw [h.ctl]; exact id⟩

theorem keeps_mono {α : Type} {R R' : State → State → Prop} {x : Op α} (h : Op.Keeps R x) (le : ∀ s t, R s t → R' s t) :
    Op.Keeps R' x := by
  constructor
  intro s
  cases run : x.run s with
  | ok a t => exact le s t (h.ok run)
  | error e t => exact le s t (h.error run)

theorem session_of_inside {α : Type} {x : Op α} (h : Op.Keeps Inside x) : Op.Keeps Session x :=
  keeps_mono h fun _ _ => inside_session

theorem afterDrive_session (f : BitVec 3) (r : DriveResult) : Op.Keeps Session (afterDrive f r) := by
  cases r with
  | needMore => exact Op.keeps_pure Session.order ()
  | blockDone => exact session_of_inside (flushEpilogue_keeps f)
  | finishDone => exact Op.keeps_update fun _ => ⟨rfl, rfl, rfl, rfl, rfl, ⟨[], by simp⟩, id, fun _ => .inr rfl, id⟩

theorem compressBusy_session {f : BitVec 3} (mode : f ≤ FINISH) (c : List Byte) : Op.Keeps Session (compressBusy f c) := by
  refine Op.keeps_bind Session.order (Op.keeps_state Session.order) fun _ => ?_
  refine Op.keeps_bind Session.order
    (Op.keeps_update fun _ => ⟨rfl, rfl, rfl, rfl, rfl, ⟨[], by simp⟩, id, id, id⟩) fun _ => ?_
  refine Op.keeps_bind Session.order
    (Op.keeps_update fun _ => ⟨rfl, rfl, rfl, rfl, rfl, ⟨[], by simp⟩, id, id, fun _ => mode⟩) fun _ => ?_
  refine Op.keeps_ite (Op.keeps_pure Session.order _) (Op.keeps_bind Session.order (Op.keeps_when Session.order ?_) fun _ => ?_)
  · exact Op.keeps_bind Session.order (session_of_inside (drive_keeps f)) fun r => afterDrive_session f r
  · exact Op.keeps_ite (Op.keeps_pure Session.order _)
      (Op.keeps_bind Session.order (session_of_inside trailer_keeps) fun _ => Op.keeps_pure Session.order _)

/-! ### COMPRESS in BUSY that is no duplicate -/

/-- The state the driver starts from: the chunk in `IN`, the mode latched. -/
def started (f : BitVec 3) (c : List Byte) (s : State) : State :=
  (s.setMem { s.mem with input := c }).setCtl { s.ctl with lastFlush := f }

/-- What follows the checks: the driver, what its result calls for, and the trailer of FINISH. -/
def driven (f : BitVec 3) : Op Reply := do
  runDriver f
  if f ≠ FINISH then pure okReply
  else do
    trailer
    pure streamEndReply

theorem compressBusy_run_of_driven {f : BitVec 3} {c : List Byte} {s : State} (h : ¬ Duplicate s f c) :
    (compressBusy f c).run s = (driven f).run (started f c s) := by
  have finish : FINISH = 4 := rfl
  have busy : c ≠ [] ∨ s.mf.lookAhead ≠ 0 ∨ f ≠ NO_FLUSH := by
    by_cases empty : c = []
    · refine .inr (.inr fun noFlush => h ⟨empty, ?_, by rw [noFlush]; decide⟩)
      rw [noFlush, BitVec.le_def]
      exact Nat.zero_le _
    · exact .inl empty
  unfold compressBusy
  rw [Op.state_bind, Op.update_bind, Op.update_bind, if_neg (show ¬ (c = [] ∧ f ≤ s.ctl.lastFlush ∧ f ≠ FINISH) from h),
    Op.when_pos busy]
  rfl

/-- What a driven COMPRESS does once the driver has left `u`. -/
structure Ending (f : BitVec 3) (u : State) (r : Reply) (t : State) : Prop where
  noFlush : f = NO_FLUSH → t = u
  flush : f ≠ NO_FLUSH → f ≠ FINISH → (flushEpilogue f).run u = .ok () t
  finish : f = FINISH → t = (u.setCtl { u.ctl with fsm := .finish }).emitted (trailerBytes u.sums.adler)
  reply : r = if f = FINISH then streamEndReply else okReply

theorem putAdler_ok {adler : Word} {s t : State} (run : (putAdler adler).run s = .ok () t) :
    t = s.emitted (trailerBytes adler) := by
  obtain ⟨⟨⟩, a, first, run⟩ := Op.bind_inv run
  obtain ⟨⟨⟩, b, second, run⟩ := Op.bind_inv run
  obtain ⟨⟨⟩, c, third, last⟩ := Op.bind_inv run
  have low : BitVec.ofNat 8 (adler.toNat / 2 ^ 0) = BitVec.ofNat 8 adler.toNat := by rw [Nat.pow_zero, Nat.div_one]
  rw [emit_ok last, emit_ok third, emit_ok second, emit_ok first]
  simp only [State.emitted_emitted, byte_of_word, trailerBytes, low, List.cons_append, List.nil_append]

theorem driven_inv {f : BitVec 3} {s t : State} {r : Reply} (run : (driven f).run s = .ok r t) :
    ∃ d u, (drive f).run s = .ok d u ∧ Ending f u r t := by
  obtain ⟨⟨⟩, v, driver, tail⟩ := Op.bind_inv run
  obtain ⟨d, u, drv, after⟩ := Op.bind_inv driver
  refine ⟨d, u, drv, ?_⟩
  have answer := (drive_done drv).1.answer
  subst answer
  by_cases noFlush : f = NO_FLUSH
  · subst noFlush
    cases after
    cases tail
    exact ⟨fun _ => rfl, fun h => absurd rfl h, fun h => (nomatch h), rfl⟩
  · rw [if_neg noFlush] at after
    by_cases finish : f = FINISH
    · rw [if_pos finish] at after
      cases after
      rw [if_neg (not_not.2 finish)] at tail
      obtain ⟨⟨⟩, w, bytes, last⟩ := Op.bind_inv tail
      cases last
      exact ⟨fun h => absurd h noFlush, fun _ h => absurd finish h, fun _ => putAdler_ok bytes, by rw [if_pos finish]⟩
    · rw [if_neg finish] at after
      rw [if_pos finish] at tail
      cases tail
      exact ⟨fun h => absurd h noFlush, fun _ _ => after, fun h => absurd h finish, by rw [if_neg finish]⟩

/-! ### Every instruction but CONFIGURE -/

/-- How an instruction that is no CONFIGURE can end. -/
inductive Ends (i : Instr) (s : State) : State → Prop
  /-- A stream element came to its end. -/
  | emitted {t : State} (element : ¬ IsCommand i) (emits : Emits s t) (inside : Inside s t) : Ends i s t
  /-- Output and status access. -/
  | getBytes (kind : i = .getBytes) (session : s.isOpen) : Ends i s (answered 0 (.bytes s.mem.out) s)
  | takeBytes (kind : i = .takeBytes) (session : s.isOpen) :
      Ends i s (answered 0 (.bytes s.mem.out) (s.setMem { s.mem with out := [] }))
  | getCrc (kind : i = .getCrc) (session : s.isOpen) : Ends i s (answered 0 (.crc s.sums.crc) s)
  /-- FINISH once more. -/
  | finished (kind : i = .compressFinish []) (mode : s.ctl.fsm = .finish) : Ends i s (answered 1 .none s)
  /-- COMPRESS in BUSY came to its end. -/
  | compressed {f : BitVec 3} {c : List Byte} {r : Reply} {u : State} (kind : i = compressWith f c) (mode : f ≤ FINISH)
      (busy : s.ctl.fsm = .busy) (run : (compressBusy f c).run s = .ok r u) : Ends i s (u.answer r)
  /-- A fault was taken in the state `u`. -/
  | fault {f : FaultCode} {u : State} (config : f ≠ .config) (alloc : f = .alloc → ¬ u.unbounded)
      (kept : Session s u) (control : s.isOpen ∨ u.ctl = s.ctl) : Ends i s (raise f u.clearInput)

theorem ends_element {i : Instr} {s t : State} {op : Op Unit} (element : ¬ IsCommand i) (emits : Leads Emits op)
    (keeps : Op.Keeps Inside op) (mild : Mild op) (run : runElement op s = .next t) : Ends i s t := by
  obtain ok | ⟨f, u, raised, rfl⟩ := runElement_cases run
  · exact .emitted element (emits s () t ok) (keeps.ok ok)
  · obtain ⟨-, config, alloc⟩ := mild s _ u raised
    have inside := keeps.error raised
    exact .fault (fun h => config (by rw [h])) (fun h => alloc (by rw [h])) (inside_session inside) (.inr inside.ctl)

/-- An access that the session check turns away. -/
theorem ends_access {i : Instr} {s t : State} {op : Op Reply} {r : Reply} {u : State}
    (kind : op = Machine.getBytes ∨ op = takeBytes ∨ op = getCrc)
    (session : s.isOpen → op.run s = .ok r u) (ends : s.isOpen → Ends i s (u.answer r)) (run : runCommand op s = .next t) :
    Ends i s t := by
  by_cases isOpen : s.isOpen
  · rw [runCommand_of_ok (session isOpen)] at run
    cases run
    exact ends isOpen
  · have refused : ∃ f : FaultCode, requireSession.run s = .error (.raise f) s ∧ f ≠ .config ∧ f ≠ .alloc := by
      rw [requireSession_run]
      cases fsm : s.ctl.fsm with
      | unconfigured => exact ⟨.notConfigured, rfl, by decide, by decide⟩
      | faulted => exact ⟨.faulted, rfl, by decide, by decide⟩
      | busy => exact absurd (.inl fsm) isOpen
      | finish => exact absurd (.inr fsm) isOpen
    obtain ⟨f, check, config, alloc⟩ := refused
    rw [runCommand_of_raise (command_run_of_no_session (.inr kind) check)] at run
    cases run
    exact .fault config (fun h => absurd h alloc) (Session.order.refl s) (.inr rfl)

theorem ends_compress {i : Instr} {f : BitVec 3} {c : List Byte} {s t : State} (kind : f ≤ FINISH → i = compressWith f c)
    (run : runCommand (compress f c) s = .next t) : Ends i s t := by
  have turned : ∀ g : FaultCode, g ≠ .config → g ≠ .alloc → (compress f c).run s = .error (.raise g) s → Ends i s t := by
    intro g config alloc check
    rw [runCommand_of_raise check] at run
    cases run
    exact .fault config (fun h => absurd h alloc) (Session.order.refl s) (.inr rfl)
  by_cases mode : f ≤ FINISH
  · cases fsm : s.ctl.fsm with
    | unconfigured => exact turned _ (by decide) (by decide) (compress_run_of_unconfigured fsm)
    | faulted => exact turned _ (by decide) (by decide) (compress_run_of_faulted fsm)
    | finish =>
      have ended := compress_run_of_finish (chunk := c) fsm mode
      split at ended
      · next again =>
        obtain ⟨rfl, rfl⟩ := again
        rw [runCommand_of_ok ended] at run
        cases run
        exact .finished (kind mode) fsm
      · exact turned _ (by decide) (by decide) ended
    | busy =>
      obtain ⟨r, u, ok, rfl⟩ | ⟨g, u, raised, rfl⟩ := runCommand_cases run
      · rw [compress_run_of_busy mode fsm] at ok
        exact .compressed (kind mode) mode fsm ok
      · rw [compress_run_of_busy mode fsm] at raised
        obtain unbounded | ⟨-, config, alloc⟩ := compressBusy_mildLoop f c s _ u raised
        · cases unbounded
        · exact .fault (fun h => config (by rw [h])) (fun h => alloc (by rw [h])) ((compressBusy_session mode c).error raised)
            (.inl (.inl fsm))
  · cases fsm : s.ctl.fsm with
    | unconfigured => exact turned _ (by decide) (by decide) (compress_run_of_unconfigured fsm)
    | faulted => exact turned _ (by decide) (by decide) (compress_run_of_faulted fsm)
    | busy => exact turned _ (by decide) (by decide) (compress_run_of_bad_flush (.inl fsm) mode)
    | finish => exact turned _ (by decide) (by decide) (compress_run_of_bad_flush (.inr fsm) mode)

theorem exec_cases {i : Instr} {s t : State} (notConfigure : ¬ IsConfigure i) (run : exec i s = .next t) : Ends i s t := by
  cases i with
  | configure a b c d e => exact absurd ⟨a, b, c, d, e, rfl⟩ notConfigure
  | compressNoFlush chunk => exact ends_compress (fun _ => rfl) run
  | compressPartialFlush chunk => exact ends_compress (fun _ => rfl) run
  | compressSyncFlush chunk => exact ends_compress (fun _ => rfl) run
  | compressFullFlush chunk => exact ends_compress (fun _ => rfl) run
  | compressFinish chunk => exact ends_compress (fun _ => rfl) run
  | compressFlush5 chunk => exact ends_compress (fun h => absurd h (by decide)) run
  | compressFlush6 chunk => exact ends_compress (fun h => absurd h (by decide)) run
  | compressFlush7 chunk => exact ends_compress (fun h => absurd h (by decide)) run
  | getBytes => exact ends_access (.inl rfl) getBytes_run_of_open (.getBytes rfl) run
  | takeBytes => exact ends_access (.inr (.inl rfl)) takeBytes_run_of_open (.takeBytes rfl) run
  | getCrc => exact ends_access (.inr (.inr rfl)) getCrc_run_of_open (.getCrc rfl) run
  | zlibHeader a b c => exact ends_element id (leads_putHeader _ _ _) (putHeader_keeps _ _ _) (putHeader_mild _ _ _) run
  | blockStored b => exact ends_element id (leads_storedBlock _ _ _) (storedBlock_keeps _ _ _) (storedBlock_mild _ _ _) run
  | blockStatic b => exact ends_element id (leads_emitBlock .static 0 0 _) (staticBlock_keeps _) (staticBlock_mild _) run
  | blockDynamic b => exact ends_element id (leads_emitBlock .dynamic 0 0 _) (dynamicBlock_keeps _) (dynamicBlock_mild _) run
  | blockReserved b => cases run
  | adlerTrailer adler => exact ends_element id (leads_putAdler _) (putAdler_keeps _) (putAdler_mild _) run

/-! ### COMPRESS in BUSY -/

/-- The control registers after COMPRESS came to its end. -/
def endCtl (f : BitVec 3) (s : State) : Control :=
  { s.ctl with lastFlush := f, fsm := if f = FINISH then .finish else s.ctl.fsm }

/-- What COMPRESS in BUSY leaves if it comes to its end, the duplicate included. -/
structure Compressed (f : BitVec 3) (c : List Byte) (s : State) (r : Reply) (t : State) : Prop where
  ctl : t.ctl = endCtl f s
  input : t.mem.input = []
  sums : t.sums = { adler := adlerUpdate s.sums.adler c, crc := crcUpdate s.sums.crc c }
  acc : s.bp.Ok → t.bp.Ok
  reply : r = if f = FINISH then streamEndReply else okReply

/-- What follows the driver: control, emission and the chain heads alone. -/
theorem Ending.frame {f : BitVec 3} {u : State} {r : Reply} {t : State} (h : Ending f u r t) :
    t = { u with ctl := if f = FINISH then { u.ctl with fsm := .finish } else u.ctl, bp := t.bp,
                 mem := { u.mem with out := t.mem.out, head := if f = FULL_FLUSH then [] else u.mem.head } }
      ∧ (u.bp.Ok → t.bp.Ok) := by
  by_cases noFlush : f = NO_FLUSH
  · obtain rfl := h.noFlush noFlush
    subst noFlush
    exact ⟨rfl, id⟩
  · by_cases finish : f = FINISH
    · obtain rfl := h.finish finish
      subst finish
      exact ⟨rfl, id⟩
    · have run := h.flush noFlush finish
      unfold flushEpilogue at run
      rw [if_neg finish]
      split at run
      · next partialFlush =>
        obtain ⟨frame, acc⟩ := leads_biFlushBytes u () t run
        subst partialFlush
        exact ⟨frame, acc⟩
      · obtain ⟨⟨⟩, v, block, clear⟩ := Op.bind_inv run
        obtain ⟨frame, acc⟩ := leads_storedBlock _ _ _ u () v block
        obtain ⟨bp, out, rfl⟩ : ∃ bp out, v = { u with bp := bp, mem := { u.mem with out := out } } := ⟨_, _, frame⟩
        by_cases full : f = FULL_FLUSH
        · rw [Op.when_pos full] at clear
          cases clear
          rw [if_pos full]
          exact ⟨rfl, acc⟩
        · rw [Op.when_neg full] at clear
          cases clear
          rw [if_neg full]
          exact ⟨rfl, acc⟩

theorem drive_drives (f : BitVec 3) : Leads Drives (drive f) := by
  have ended : ∀ l, Leads Drives (endDrive f l) := fun l => by
    cases l with
    | needMore => exact leads_pure Drives.order _
    | again =>
      exact leads_bind Drives.order ((works_flushBlock _).mono fun _ _ => Works.drives) fun _ => leads_pure Drives.order _
    | exit =>
      exact leads_bind Drives.order ((works_flushBlock _).mono fun _ _ => Works.drives) fun _ => leads_pure Drives.order _
  have fuel : Leads Drives driveFuel := leads_read fun _ => leads_pure Drives.order _
  refine leads_read fun s => ?_
  cases s.ct.driver with
  | stored =>
    exact leads_bind Drives.order fuel fun _ =>
      leads_bind Drives.order (leads_iterate Drives.order (drives_storedRound f) _) ended
  | fast =>
    exact leads_bind Drives.order fuel fun _ =>
      leads_bind Drives.order (leads_iterate Drives.order (drives_matchRound f works_fastStep) _) ended
  | slow =>
    exact leads_bind Drives.order fuel fun _ =>
      leads_bind Drives.order (leads_iterate Drives.order (drives_matchRound f works_slowStep) _) fun _ =>
        leads_bind Drives.order (leads_when Drives.order (works_flushDeferred.mono fun _ _ => Works.drives)) fun _ => ended _

theorem compressBusy_ok {f : BitVec 3} {c : List Byte} {s t : State} {r : Reply}
    (run : (compressBusy f c).run s = .ok r t) : Compressed f c s r t := by
  by_cases dup : Duplicate s f c
  · obtain ⟨rfl, previous, notFinish⟩ := dup
    rw [compressBusy_run_of_duplicate previous notFinish] at run
    cases run
    have finish : ¬ f = FINISH := notFinish
    exact ⟨by rw [endCtl, if_neg finish]; rfl, rfl, by rw [adlerUpdate_nil, crcUpdate_nil]; rfl, id, by rw [if_neg finish]⟩
  · rw [compressBusy_run_of_driven dup] at run
    obtain ⟨d, u, drv, ending⟩ := driven_inv run
    have done := (drive_done drv).1
    have drives := drive_drives f _ _ _ drv
    have inside := (drive_keeps f).ok drv
    obtain ⟨frame, acc⟩ := ending.frame
    have ctl : u.ctl = { s.ctl with lastFlush := f } := inside.ctl
    have sums : t.sums = u.sums := by rw [frame]
    have input : t.mem.input = u.mem.input := by rw [frame]
    have control : t.ctl = if f = FINISH then { u.ctl with fsm := .finish } else u.ctl := by rw [frame]
    refine ⟨?_, input.trans done.input, ?_, fun ok => acc (drives.acc ok), ending.reply⟩
    · rw [control, ctl, endCtl]
      split <;> rfl
    · have := drives.sums
      rw [finalSums, done.input, adlerUpdate_nil, crcUpdate_nil] at this
      rw [sums]
      exact this

end Sys2Proof.Proofs
end

section
/-! CONFIGURE in all its cases, and what every instruction keeps: mode transitions, the result word, the frame, the
checksums, what each flush mode leaves (10_state.md R31 to R35, 30_encoding.md R142, 40_host_commands.md R205 to R211). -/

namespace Sys2Proof.Proofs

open Sys2Proof.Machine Sys2Proof.Claims

/-! ### CONFIGURE (R200) -/

/-- How a CONFIGURE can end: a session opened, the operands refused, or no room for the header bytes. -/
inductive Configured (c : Settings) (s : State) : State → Prop
  | opened (legal : c.legal = true) : Configured c s ((opened c s).answer okReply)
  | refused (illegal : ¬ c.legal = true) : Configured c s (raise .config s.discardSession)
  | fault {f : FaultCode} {u : State} (legal : c.legal = true) (config : f ≠ .config) (alloc : f = .alloc → ¬ u.unbounded)
      (inside : Inside (latchedFresh c s) u) : Configured c s (raise f u.clearInput)

theorem putHeader_ok {cinfo : BitVec 4} {flevel : BitVec 2} {fcheck : BitVec 5} {s t : State}
    (run : (putHeader cinfo flevel fcheck).run s = .ok () t) :
    t = s.emitted [cinfo ++ 8#4, flevel ++ 0#1 ++ fcheck] := by
  obtain ⟨⟨⟩, u, first, second⟩ := Op.bind_inv run
  rw [emit_ok second, emit_ok first, State.emitted_emitted]
  rfl

theorem zlibHeader_ok {s t : State} (run : zlibHeader.run s = .ok () t) :
    t = s.emitted [cmfByte s.cfg, flgByte s.cfg] := by
  unfold zlibHeader at run
  rw [Op.state_bind] at run
  exact putHeader_ok run

theorem zlibHeader_mild : Mild zlibHeader := fails_read fun _ => putHeader_mild _ _ _

theorem configure_run_of_legal {c : Settings} (legal : c.legal = true) (s : State) :
    (configure c).run s = (zlibHeader >>= fun _ => Op.update (fun s => s.setCtl { s.ctl with fsm := .busy, faultCode := 0 })
      >>= fun _ => pure okReply).run (latchedFresh c s) := by
  unfold configure
  rw [if_pos legal]
  rfl

theorem configure_cases {level method windowBits memLevel : BitVec 4} {strategy : BitVec 2} {s t : State}
    (run : exec (.configure level method windowBits memLevel strategy) s = .next t) :
    Configured ⟨level, method, windowBits, memLevel, strategy⟩ s t := by
  change runCommand (configure _) s = _ at run
  generalize (⟨level, method, windowBits, memLevel, strategy⟩ : Settings) = c at run
  by_cases legal : c.legal = true
  · have ran := configure_run_of_legal legal s
    cases header : zlibHeader.run (latchedFresh c s) with
    | ok a u =>
      have bytes : u = (latchedFresh c s).emitted [cmfByte c, flgByte c] := zlibHeader_ok header
      subst bytes
      rw [Op.bind_ok header, Op.update_bind] at ran
      rw [runCommand_of_ok ran] at run
      cases run
      exact .opened legal
    | error e u =>
      obtain ⟨bound, config, alloc⟩ := zlibHeader_mild _ _ _ header
      rw [Op.bind_error header] at ran
      cases e with
      | unbounded => exact absurd rfl bound
      | raise f =>
        rw [runCommand_of_raise ran] at run
        cases run
        exact .fault legal (fun h => config (by rw [h])) (fun h => alloc (by rw [h])) (zlibHeader_keeps.error header)
  · have refused : (configure c).run s = .error (.raise .config) s.discardSession := by
      unfold configure
      rw [if_neg legal]
      rfl
    rw [runCommand_of_raise refused] at run
    cases run
    exact .refused legal

/-! ### Fault entry, field by field -/

section
variable (f : FaultCode) (s : State)

@[simp] theorem raise_cfg : (raise f s).cfg = s.cfg := (raise_fields f s).1
@[simp] theorem raise_ct : (raise f s).ct = s.ct := (raise_fields f s).2.1
@[simp] theorem raise_hb : (raise f s).hb = s.hb := (raise_fields f s).2.2.2.2.1
@[simp] theorem raise_mem : (raise f s).mem = s.mem := (raise_fields f s).2.2.2.2.2.2.2.1
@[simp] theorem raise_platform : (raise f s).platform = s.platform := (raise_fields f s).2.2.2.2.2.2.2.2.1
@[simp] theorem raise_port : (raise f s).port = { s.port with reply := some ⟨faultWord f, .none⟩ } :=
  (raise_fields f s).2.2.2.2.2.2.2.2.2

end

theorem raise_fsm_ne_busy (f : FaultCode) (s : State) : (raise f s).ctl.fsm ≠ .busy := fun h => raise_not_open f s (.inl h)

theorem raise_fsm_ne_finish (f : FaultCode) (s : State) : (raise f s).ctl.fsm ≠ .finish := fun h => raise_not_open f s (.inr h)

theorem raise_ctl_of_faulted (f : FaultCode) {s : State} (h : s.ctl.fsm = .faulted) : (raise f s).ctl = s.ctl := by
  rw [raise_of_faulted f h]
  rfl

/-- Only F_CONFIG discards a session. -/
theorem unconfigured_of_raise {f : FaultCode} {s : State} (config : f ≠ .config)
    (after : (raise f s).ctl.fsm = .unconfigured) : s.ctl.fsm = .unconfigured := by
  unfold raise at after
  simp only [State.answer_ctl] at after
  split at after
  · next faulted => rw [faulted] at after; cases after
  · split at after
    · next h => exact h.resolve_right config
    · cases after

theorem faulted_of_raise_open {f : FaultCode} {s : State} (config : f ≠ .config) (session : s.isOpen) :
    (raise f s).ctl.fsm = .faulted := by
  rw [raise_of_open f session]
  simp [config]

/-! ### Mode transitions (10_state.md R31, 60_exceptions.md R512) -/

theorem Configured.not_finish {c : Settings} {s t : State} (h : Configured c s t) : t.ctl.fsm ≠ .finish := by
  cases h with
  | opened => exact nofun
  | refused => exact raise_fsm_ne_finish _ _
  | fault => exact raise_fsm_ne_finish _ _

/-- Settles O7, by the ways an instruction ends. -/
theorem modeTransitions : Obligations.ModeTransitions := by
  intro i s t run
  by_cases configure : IsConfigure i
  · refine ⟨fun _ => .inr configure, fun finish => ?_, fun _ => .inr configure, fun _ h => absurd configure h⟩
    obtain ⟨level, method, windowBits, memLevel, strategy, rfl⟩ := configure
    exact absurd finish (configure_cases run).not_finish
  · cases exec_cases configure run with
    | emitted element emits inside =>
      rw [inside.ctl]
      exact ⟨.inl, .inl, .inl, fun _ _ => rfl⟩
    | getBytes kind session => exact ⟨.inl, .inl, .inl, fun _ _ => rfl⟩
    | takeBytes kind session => exact ⟨.inl, .inl, .inl, fun _ _ => rfl⟩
    | getCrc kind session => exact ⟨.inl, .inl, .inl, fun _ _ => rfl⟩
    | finished kind mode => exact ⟨.inl, .inl, .inl, fun _ _ => rfl⟩
    | @compressed f c r u kind mode busy ended =>
      have ctl : (u.answer r).ctl = endCtl f s := (compressBusy_ok ended).ctl
      rw [ctl]
      by_cases finish : f = FINISH
      · subst finish
        exact ⟨nofun, fun _ => .inr ⟨busy, c, kind⟩, nofun, fun faulted => by rw [busy] at faulted; cases faulted⟩
      · rw [endCtl, if_neg finish]
        exact ⟨.inl, .inl, .inl, fun faulted => by rw [busy] at faulted; cases faulted⟩
    | @fault f u config alloc kept control =>
      refine ⟨fun h => absurd h (raise_fsm_ne_busy _ _), fun h => absurd h (raise_fsm_ne_finish _ _), fun h => ?_,
        fun faulted _ => ?_⟩
      · have unconfigured : u.ctl.fsm = .unconfigured := unconfigured_of_raise (s := u.clearInput) config h
        obtain session | same := control
        · obtain busy | finish := kept.session session
          · rw [busy] at unconfigured; cases unconfigured
          · rw [finish] at unconfigured; cases unconfigured
        · rw [same] at unconfigured
          exact .inl unconfigured
      · obtain (busy | finish) | same := control
        · rw [busy] at faulted; cases faulted
        · rw [finish] at faulted; cases faulted
        · rw [raise_ctl_of_faulted f (s := u.clearInput) (same ▸ faulted)]
          exact same

/-! ### The result word (30_encoding.md R142) -/

/-- A COMPRESS is none of the accesses. -/
theorem compressWith_ne (f : BitVec 3) (c : List Byte) :
    IsCommand (compressWith f c) ∧ compressWith f c ≠ .getBytes ∧ compressWith f c ≠ .takeBytes
      ∧ compressWith f c ≠ .getCrc := by
  unfold compressWith
  repeat' split
  all_goals exact ⟨trivial, nofun, nofun, nofun⟩

/-- Settles O8, by the ways an instruction ends. -/
theorem resultWord : Obligations.ResultWord := by
  intro i s t command run
  have fault : ∀ (f : FaultCode) (u : State), (raise f u).port.reply = some ⟨faultWord f, .none⟩
      ∧ ∃ g : FaultCode, faultWord f = BitVec.ofNat 32 (2 + 256 * g.code.toNat) ∧ ReplyData.none = .none :=
    fun f u => ⟨by rw [raise_port], f, faultWord_eq f, rfl⟩
  by_cases configure : IsConfigure i
  · obtain ⟨level, method, windowBits, memLevel, strategy, rfl⟩ := configure
    cases configure_cases run with
    | opened => exact ⟨okReply, rfl, .inl ⟨rfl, .inr (.inr ⟨nofun, nofun, nofun, rfl⟩)⟩⟩
    | refused => exact ⟨_, (fault _ _).1, .inr (.inr (fault .config s).2)⟩
    | fault => exact ⟨_, (fault _ _).1, .inr (.inr (fault _ s).2)⟩
  · cases exec_cases configure run with
    | emitted element => exact absurd command element
    | getBytes kind => exact ⟨_, rfl, .inl ⟨rfl, .inl ⟨.inl kind, rfl⟩⟩⟩
    | takeBytes kind => exact ⟨_, rfl, .inl ⟨rfl, .inl ⟨.inr kind, rfl⟩⟩⟩
    | getCrc kind => exact ⟨_, rfl, .inl ⟨rfl, .inr (.inl ⟨kind, rfl⟩)⟩⟩
    | finished kind => exact ⟨_, rfl, .inr (.inl ⟨rfl, rfl, [], kind⟩)⟩
    | @compressed f c r u kind mode busy ended =>
      refine ⟨r, rfl, ?_⟩
      rw [(compressBusy_ok ended).reply]
      by_cases finish : f = FINISH
      · subst finish
        exact .inr (.inl ⟨rfl, rfl, c, kind⟩)
      · rw [if_neg finish]
        subst kind
        obtain ⟨-, notGet, notTake, notCrc⟩ := compressWith_ne f c
        exact .inl ⟨rfl, .inr (.inr ⟨notGet, notTake, notCrc, rfl⟩)⟩
    | fault => exact ⟨_, (fault _ _).1, .inr (.inr (fault _ s).2)⟩

/-! ### The frame of every instruction (20_memory.md R105, 10_state.md R34, R35) -/

theorem Configured.frame {c : Settings} {s t : State} (h : Configured c s t) :
    t.platform = s.platform ∧ t.port.queue = s.port.queue := by
  cases h with
  | opened => exact ⟨rfl, rfl⟩
  | refused => exact ⟨by rw [raise_platform]; rfl, by rw [raise_port]; rfl⟩
  | fault legal config alloc inside =>
    have port := congrArg Port.queue inside.port
    exact ⟨by rw [raise_platform]; exact inside.platform, by rw [raise_port]; exact port⟩

theorem Ends.frame {i : Instr} {s t : State} (h : Ends i s t) :
    t.platform = s.platform ∧ t.port.queue = s.port.queue ∧ t.cfg = s.cfg ∧ t.ct = s.ct
      ∧ (i ≠ .takeBytes → ∃ bytes, t.mem.out = s.mem.out ++ bytes) := by
  cases h with
  | emitted element emits inside =>
    exact ⟨inside.platform, congrArg Port.queue inside.port, inside.cfg, inside.ct, fun _ => inside.out⟩
  | getBytes => exact ⟨rfl, rfl, rfl, rfl, fun _ => ⟨[], (List.append_nil _).symm⟩⟩
  | takeBytes kind => exact ⟨rfl, rfl, rfl, rfl, fun h => absurd kind h⟩
  | getCrc => exact ⟨rfl, rfl, rfl, rfl, fun _ => ⟨[], (List.append_nil _).symm⟩⟩
  | finished => exact ⟨rfl, rfl, rfl, rfl, fun _ => ⟨[], (List.append_nil _).symm⟩⟩
  | compressed kind mode busy run =>
    have kept := (compressBusy_session mode _).ok run
    have port := congrArg Port.queue kept.port
    exact ⟨kept.platform, port, kept.cfg, kept.ct, fun _ => kept.out⟩
  | fault config alloc kept control =>
    have port := congrArg Port.queue kept.port
    refine ⟨?_, ?_, ?_, ?_, fun _ => ?_⟩
    · rw [raise_platform]; exact kept.platform
    · rw [raise_port]; exact port
    · rw [raise_cfg]; exact kept.cfg
    · rw [raise_ct]; exact kept.ct
    · rw [raise_mem]; exact kept.out

/-- Settles O12, by the ways an instruction ends. -/
theorem everyInstructionFrame : Obligations.EveryInstructionFrame := by
  intro i s t run
  by_cases configure : IsConfigure i
  · refine ⟨?_, ?_, fun h => absurd configure h, fun h => absurd configure h⟩
    all_goals
      obtain ⟨level, method, windowBits, memLevel, strategy, rfl⟩ := configure
      obtain ⟨platform, queue⟩ := (configure_cases run).frame
      assumption
  · obtain ⟨platform, queue, cfg, ct, out⟩ := (exec_cases configure run).frame
    exact ⟨platform, queue, fun _ => ⟨cfg, ct⟩, fun _ => out⟩

/-! ### F_ALLOC (20_memory.md R105) -/

theorem alloc_of_faultWord : ∀ f : FaultCode, faultWord f = 0xD02 → f = .alloc := by
  intro f; cases f <;> decide

theorem emit_run_of_no_room {b : Byte} {s : State} (full : ¬ HasRoom s 1) : (emit b).run s = .error (.raise .alloc) s := by
  rw [emit_run, if_neg fun room => full fun cap finite => ?_]
  simpa [State.outHasRoom, finite, Nat.succ_le_iff] using room

/-- Settles O13: of the ways an instruction ends only a fault could answer F_ALLOC, and none raises it from an unbounded
`OUT`. -/
theorem outCapacity : Obligations.OutCapacity := by
  refine ⟨fun i s t r unbounded run reply word => ?_,
    fun b s => ⟨fun room => putByte_run_of_hasRoom room b, emit_run_of_no_room⟩⟩
  have noAlloc : ∀ (f : FaultCode) (u : State), u.platform = s.platform → (f = .alloc → ¬ u.unbounded) →
      (raise f u.clearInput).port.reply = some r → False := fun f u platform alloc answer => by
    rw [raise_port, Option.some.injEq] at answer
    subst answer
    exact alloc (alloc_of_faultWord f word) (by rw [State.unbounded, platform]; exact unbounded)
  have otherWord : ∀ (w : Word) (data : ReplyData), w ≠ 0xD02 → some (Reply.mk w data) = some r → False :=
    fun w data differs answer => by cases answer; exact differs word
  by_cases configure : IsConfigure i
  · obtain ⟨level, method, windowBits, memLevel, strategy, rfl⟩ := configure
    cases configure_cases run with
    | opened => exact (otherWord 0 .none (by decide) reply).elim
    | refused => exact (noAlloc .config s.discardSession rfl nofun reply).elim
    | fault legal config alloc inside => exact (noAlloc _ _ inside.platform alloc reply).elim
  · cases exec_cases configure run with
    | emitted element emits inside => exact ⟨inside.port ▸ reply, element⟩
    | getBytes => exact (otherWord 0 _ (by decide) reply).elim
    | takeBytes => exact (otherWord 0 _ (by decide) reply).elim
    | getCrc => exact (otherWord 0 _ (by decide) reply).elim
    | finished => exact (otherWord 1 _ (by decide) reply).elim
    | compressed kind mode busy ended =>
      have answer := (compressBusy_ok ended).reply
      split at answer <;> subst answer
      · exact (otherWord 1 .none (by decide) reply).elim
      · exact (otherWord 0 .none (by decide) reply).elim
    | fault config alloc kept control => exact (noAlloc _ _ kept.platform alloc reply).elim

/-! ### COMPRESS in BUSY that does not fault (R106, R116 to R119, R207) -/

theorem compress_next_cases {f : BitVec 3} {c : List Byte} {s t : State} (mode : f ≤ 4) (busy : s.ctl.fsm = .busy)
    (run : exec (compressWith f c) s = .next t) (noFault : t.ctl.fsm ≠ .faulted) :
    ∃ r u, (compressBusy f c).run s = .ok r u ∧ t = u.answer r := by
  rw [exec_compressWith mode] at run
  obtain ⟨r, u, ok, rfl⟩ | ⟨g, u, raised, rfl⟩ := runCommand_cases run
  · exact ⟨r, u, (compress_run_of_busy mode busy c).symm.trans ok, rfl⟩
  · rw [compress_run_of_busy mode busy] at raised
    obtain unbounded | ⟨-, config, -⟩ := compressBusy_mildLoop f c s _ u raised
    · cases unbounded
    · have session := ((compressBusy_session mode c).error raised).session (.inl busy)
      exact absurd (faulted_of_raise_open (s := u.clearInput) (fun h => config (by rw [h])) session) noFault

/-- Settles O17: what is still in `IN` and what the checksums cover make up the chunk all along, and in the end `IN` is
empty. -/
theorem compressReadsChunk : Obligations.CompressReadsChunk := by
  intro f chunk s t mode busy run noFault
  obtain ⟨r, u, ok, rfl⟩ := compress_next_cases mode busy run noFault
  obtain ⟨ctl, input, sums, -, -⟩ := compressBusy_ok ok
  have mode := congrArg Control.lastFlush ctl
  have code := congrArg Control.faultCode ctl
  exact ⟨input, mode, code, sums⟩

/-- Settles O20: the loop of a driver leaves a NO_FLUSH only by asking for more. -/
theorem noFlushNeedsMore : Obligations.NoFlushNeedsMore := by
  intro chunk s t ⟨busy, legal, row⟩ some run noFault
  obtain ⟨r, u, ok, rfl⟩ := compress_next_cases (f := NO_FLUSH) (by decide) busy run noFault
  have ctl := (compressBusy_ok ok).ctl
  rw [compressBusy_run_of_driven fun dup => some dup.1] at ok
  obtain ⟨d, v, drv, ending⟩ := driven_inv ok
  obtain rfl := ending.noFlush rfl
  have done := (drive_done drv).1
  refine ⟨?_, done.look, fun stored => done.used (.inr ?_)⟩
  · exact (congrArg Control.fsm ctl).trans busy
  · change s.ct.driver = .stored
    rw [row, stored]
    rfl

/-! ### What each flush mode leaves (R208 to R211, R433 to R437) -/

theorem times_biFlushByte_biValid {k : Nat} {s t : State} (run : (Op.times k biFlushByte).run s = .ok () t) :
    t.bp.biValid = s.bp.biValid - 8 * k := by
  induction k generalizing s with
  | zero => cases run; rfl
  | succ k ih =>
    obtain ⟨⟨⟩, u, first, rest⟩ := Op.bind_inv (x := biFlushByte) run
    rw [ih rest, biFlushByte_ok first]
    change s.bp.biValid - 8 - 8 * k = _
    omega

theorem biFlushBytes_biValid {s t : State} (run : biFlushBytes.run s = .ok () t) : t.bp.biValid < 8 := by
  rw [times_biFlushByte_biValid (k := s.bp.biValid / 8) run]
  omega

/-- An empty stored block ends in its `LEN` and `NLEN`, and nothing is pending after it. -/
theorem emptyStored_ok {s t : State} (run : (storedBlock 0 0 0).run s = .ok () t) :
    OnlyEmitted s t ∧ t.bp = { biBuf := 0, biValid := 0 } ∧ ∃ out, t.mem.out = out ++ [0, 0, 0xFF, 0xFF] := by
  refine ⟨(leads_storedBlock 0 0 0 s () t run).frame, ?_⟩
  unfold storedBlock at run
  rw [Op.require_pos (by decide)] at run
  obtain ⟨⟨⟩, u, -, run⟩ := Op.bind_inv run
  obtain ⟨⟨⟩, v, pad, run⟩ := Op.bind_inv run
  obtain ⟨⟨⟩, w, len, run⟩ := Op.bind_inv run
  obtain ⟨⟨⟩, x, nlen, last⟩ := Op.bind_inv run
  cases last
  rw [putShort_ok nlen, putShort_ok len, biWindup_ok pad]
  refine ⟨rfl, (wound u).mem.out, ?_⟩
  rw [State.emitted_emitted]
  rfl

theorem blockFresh_of_same {s t : State} (tok : t.tok = s.tok) (hb : t.hb = s.hb) (h : BlockFresh s) : BlockFresh t := by
  rw [BlockFresh, tok, hb]
  exact h

/-- Settles O21: the driver has ended the block, and the epilogue or the trailer follows. -/
theorem flushEndsBlock : Obligations.FlushEndsBlock := by
  intro f chunk s t low mode ⟨busy, legal, row⟩ fresh run noFault
  have noFlush : f ≠ NO_FLUSH := by rintro rfl; exact absurd low (by decide)
  obtain ⟨r, u, ok, rfl⟩ := compress_next_cases mode busy run noFault
  have ctl := (compressBusy_ok ok).ctl
  rw [compressBusy_run_of_driven fresh] at ok
  obtain ⟨d, v, drv, ending⟩ := driven_inv ok
  obtain ⟨done, held⟩ := drive_done drv
  have stays : f ≠ FINISH → u.ctl.fsm = .busy := fun notFinish => by rw [ctl, endCtl, if_neg notFinish]; exact busy
  have frame := ending.frame.1
  have mf : u.mf = v.mf := by rw [frame]
  obtain ⟨boundary, block⟩ := done.boundary noFlush
  refine ⟨?_, ?_, blockFresh_of_same (s := v) ?_ ?_ block, fun slow => ?_, ?_, ?_, ?_, ?_⟩
  · exact (congrArg MatchRegs.lookAhead mf).trans (done.used (.inl noFlush))
  · change u.mf.blockStart = _
    rw [mf]
    exact boundary.trans (congrArg (fun m : MatchRegs => (m.strStart : Int)) mf.symm)
  · change u.tok = v.tok
    rw [frame]
  · change u.hb = v.hb
    rw [frame]
  · exact (congrArg MatchRegs.matchAvailable mf).trans (held slow noFlush)
  · rintro rfl
    have epilogue := ending.flush noFlush (by decide)
    have short := biFlushBytes_biValid (s := v) (t := u) epilogue
    exact ⟨stays (by decide), short⟩
  · rintro marker
    have notFinish : f ≠ FINISH := by obtain rfl | rfl := marker <;> decide
    have epilogue := ending.flush noFlush notFinish
    have notPartial : f ≠ PARTIAL_FLUSH := by obtain rfl | rfl := marker <;> decide
    unfold flushEpilogue at epilogue
    rw [if_neg notPartial] at epilogue
    obtain ⟨⟨⟩, w, block, clear⟩ := Op.bind_inv epilogue
    obtain ⟨-, aligned, bytes⟩ := emptyStored_ok block
    have same : u.bp = w.bp ∧ u.mem.out = w.mem.out := by
      unfold Op.when at clear
      split at clear <;> cases clear <;> exact ⟨rfl, rfl⟩
    refine ⟨stays notFinish, ?_, ?_⟩
    · change u.bp.biValid = 0
      rw [same.1, aligned]
    · change ∃ out, u.mem.out = _
      rw [same.2]
      exact bytes
  · rintro rfl
    change u.mem.head = []
    rw [frame]
    rfl
  · rintro rfl
    obtain rfl := ending.finish rfl
    refine ⟨congrArg Control.fsm ctl, congrArg BitAcc.biValid (done.aligned rfl), ⟨v.mem.out, rfl⟩, ?_⟩
    rw [ending.reply]
    rfl

/-! ### The form of the memories (20_memory.md R101 to R104, R106) -/

/-- Empty memories, and the register files of power-on or of a fresh block. -/
theorem memoryOk_of_empty {s : State} (mem : s.mem = State.reset.mem)
    (hb : s.hb = Huffman.powerOn ∨ s.hb = Huffman.powerOn.initBlock) : s.MemoryOk := by
  rw [State.MemoryOk, mem]
  obtain hb | hb := hb <;> rw [hb] <;> exact ⟨by decide, ⟨nofun, nofun, nofun, nofun, nofun⟩, by decide⟩

theorem latchedFresh_memoryOk (c : Settings) (s : State) : (latchedFresh c s).MemoryOk := memoryOk_of_empty rfl (.inr rfl)

theorem discardSession_memoryOk (s : State) : s.discardSession.MemoryOk := memoryOk_of_empty rfl (.inl rfl)

theorem raise_memoryOk {f : FaultCode} {s : State} (h : s.MemoryOk) : (raise f s.clearInput).MemoryOk := by
  rw [State.MemoryOk, raise_mem, raise_hb, raise_cfg]
  exact h

theorem exec_keeps_memoryForm {i : Instr} {s t : State} (run : exec i s = .next t) :
    (s.MemoryOk → t.MemoryOk) ∧ (s.mem.input = [] → t.mem.input = []) := by
  by_cases configure : IsConfigure i
  · obtain ⟨level, method, windowBits, memLevel, strategy, rfl⟩ := configure
    cases configure_cases run with
    | opened => exact ⟨fun _ => latchedFresh_memoryOk _ s, fun _ => rfl⟩
    | refused => exact ⟨fun _ => raise_memoryOk (discardSession_memoryOk s), fun _ => by rw [raise_mem]; rfl⟩
    | fault legal config alloc inside =>
      exact ⟨fun _ => raise_memoryOk (inside.memory (latchedFresh_memoryOk _ s)), fun _ => by rw [raise_mem]; rfl⟩
  · cases exec_cases configure run with
    | emitted element emits inside =>
      refine ⟨inside.memory, fun empty => ?_⟩
      rw [emits.frame]
      exact empty
    | getBytes => exact ⟨id, id⟩
    | takeBytes => exact ⟨id, id⟩
    | getCrc => exact ⟨id, id⟩
    | finished => exact ⟨id, id⟩
    | compressed kind mode busy ended =>
      exact ⟨((compressBusy_session mode _).ok ended).memory, fun _ => (compressBusy_ok ended).input⟩
    | fault config alloc kept control =>
      exact ⟨fun h => raise_memoryOk (kept.memory h), fun _ => by rw [raise_mem]; rfl⟩

/-- Settles O57, by the ways a step ends. -/
theorem stepKeepsMemoryForm : Obligations.StepKeepsMemoryForm := by
  intro s t run
  obtain rfl | ⟨rest, ⟨i, run⟩ | rfl⟩ := step_cases run
  · exact ⟨id, id⟩
  · exact exec_keeps_memoryForm (s := s.setPort { s.port with queue := rest }) run
  · refine ⟨fun h => ?_, fun h => by rw [raise_mem]; exact h⟩
    rw [State.MemoryOk, raise_mem, raise_hb, raise_cfg]
    exact h

end Sys2Proof.Proofs
end

section
/-! The checksums against their rules (20_memory.md R118, R119): a shift of the CRC is linear, so a table look-up and the
rest of the word can be shifted apart; Adler-32 is two sums modulo 65521. -/

namespace Sys2Proof.Proofs

open Sys2Proof.Machine Sys2Proof.Claims

/-! ### CRC-32 -/

theorem low_bit_iff (v : Word) : v.extractLsb' 0 1 = 1 ↔ v.getLsbD 0 = true := by
  rw [← BitVec.toNat_inj, BitVec.extractLsb'_toNat]
  simp only [Nat.shiftRight_zero, BitVec.getLsbD, Nat.testBit_zero, decide_eq_true_eq]
  exact Iff.rfl

theorem crcShift_eq (v : Word) : crcShift v = (v >>> 1) ^^^ (if v.getLsbD 0 = true then 0xEDB88320#32 else 0#32) := by
  unfold crcShift
  by_cases low : v.getLsbD 0 = true
  · rw [if_pos ((low_bit_iff v).2 low), if_pos low]
  · rw [if_neg (mt (low_bit_iff v).1 low), if_neg low, BitVec.xor_zero]

/-- A shift is linear. -/
theorem crcShift_xor (a b : Word) : crcShift (a ^^^ b) = crcShift a ^^^ crcShift b := by
  have swap : ∀ p q x y : Word, (p ^^^ q) ^^^ (x ^^^ y) = (p ^^^ x) ^^^ (q ^^^ y) := fun p q x y => by
    rw [BitVec.xor_assoc, BitVec.xor_assoc, ← BitVec.xor_assoc q, BitVec.xor_comm q x, BitVec.xor_assoc]
  rw [crcShift_eq, crcShift_eq a, crcShift_eq b, swap, ← BitVec.ushiftRight_xor_distrib, BitVec.getLsbD_xor]
  cases a.getLsbD 0 <;> cases b.getLsbD 0 <;> simp

theorem repeat_crcShift_xor (k : Nat) (a b : Word) :
    Nat.repeat crcShift k (a ^^^ b) = Nat.repeat crcShift k a ^^^ Nat.repeat crcShift k b := by
  induction k with
  | zero => rfl
  | succ k ih => rw [Nat.repeat, ih, crcShift_xor]; rfl

/-- While zeros drop out a shift is only a shift. -/
theorem repeat_crcShift_of_zeros {k : Nat} {v : Word} (zeros : ∀ i, i < k → v.getLsbD i = false) :
    Nat.repeat crcShift k v = v >>> k := by
  induction k with
  | zero => rw [BitVec.ushiftRight_zero]; rfl
  | succ k ih =>
    have low : (v >>> k).getLsbD 0 = false := by rw [BitVec.getLsbD_ushiftRight]; exact zeros k (by omega)
    rw [Nat.repeat, ih fun i hi => zeros i (by omega), crcShift_eq, low, if_neg (by decide), BitVec.xor_zero,
      ← BitVec.shiftRight_add]

theorem repeat_eight (f : Word → Word) (v : Word) : Nat.repeat f 8 v = f (f (f (f (f (f (f (f v))))))) := rfl

theorem crcTable_eq (n : Byte) : crcTable n = Nat.repeat crcShift 8 (n.zeroExtend 32) := by
  rw [crcTable, repeat_eight]

theorem low_byte_apart (c : Word) (x : Byte) :
    c ^^^ x.zeroExtend 32 = (c.extractLsb' 0 8 ^^^ x).zeroExtend 32 ^^^ ((c >>> 8) <<< 8) := by
  ext i hi
  by_cases low : i < 8
  · simp [low, hi]
  · have high : x.getLsbD i = false := BitVec.getLsbD_of_ge x i (by omega)
    simp [low, hi, high, show 8 + (i - 8) = i by omega]

theorem repeat_crcShift_high (c : Word) : Nat.repeat crcShift 8 ((c >>> 8) <<< 8) = c >>> 8 := by
  rw [repeat_crcShift_of_zeros fun i hi => by simp [hi]]
  ext i hi
  simpa using fun set => BitVec.lt_of_getLsbD set

/-- One byte: eight shifts of the word with the byte in its low bits. -/
theorem crcByte_eq (c : Word) (x : Byte) : crcByte c x = Nat.repeat crcShift 8 (c ^^^ x.zeroExtend 32) := by
  have table := crcTable_eq (c.extractLsb' 0 8 ^^^ x)
  have high := repeat_crcShift_high c
  have apart := repeat_crcShift_xor 8 ((c.extractLsb' 0 8 ^^^ x).zeroExtend 32) ((c >>> 8) <<< 8)
  rw [← low_byte_apart] at apart
  exact (congrArg₂ (· ^^^ ·) table high.symm).trans apart.symm

theorem crcShift_toNat (v : Word) : (crcShift v).toNat = crcBit v.toNat := by
  have low : v.getLsbD 0 = true ↔ v.toNat % 2 = 1 := by simp [BitVec.getLsbD]
  rw [crcShift_eq, crcBit]
  by_cases odd : v.toNat % 2 = 1
  · rw [if_pos odd, if_pos (low.2 odd), BitVec.toNat_xor, BitVec.toNat_ushiftRight, Nat.shiftRight_one]
    rfl
  · rw [if_neg odd, if_neg (mt low.1 odd), BitVec.xor_zero, BitVec.toNat_ushiftRight, Nat.shiftRight_one]

theorem repeat_crcShift_toNat (k : Nat) (v : Word) : (Nat.repeat crcShift k v).toNat = Nat.repeat crcBit k v.toNat := by
  induction k with
  | zero => rfl
  | succ k ih => rw [Nat.repeat, crcShift_toNat, ih]; rfl

theorem crcUpdate_toNat (v : Word) (xs : List Byte) : (crcUpdate v xs).toNat = crcOf v.toNat xs := by
  have bytes : ∀ c : Word, (xs.foldl crcByte c).toNat
      = xs.foldl (fun c x => Nat.repeat crcBit 8 (c ^^^ x.toNat)) c.toNat := by
    induction xs with
    | nil => exact fun _ => rfl
    | cons x rest ih =>
      intro c
      rw [List.foldl_cons, List.foldl_cons, ih, crcByte_eq, repeat_crcShift_toNat, BitVec.toNat_xor]
      simp only [BitVec.truncate_eq_setWidth, BitVec.toNat_setWidth]
      rw [Nat.mod_eq_of_lt (by have := x.isLt; omega)]
  rw [crcUpdate, crcOf, BitVec.toNat_xor, bytes, BitVec.toNat_xor]
  rfl

/-! ### Adler-32 -/

/-- The low half of the word. -/
def adlerLow (v : Word) : Nat := v.toNat % 65536

/-- The high half. -/
def adlerHigh (v : Word) : Nat := v.toNat / 65536

theorem adlerByte_halves (v : Word) (x : Byte) :
    adlerLow (adlerByte v x) = (adlerLow v + x.toNat) % 65521
      ∧ adlerHigh (adlerByte v x) = (adlerHigh v + (adlerLow v + x.toNat) % 65521) % 65521 := by
  have halves : ∀ a b : Nat, a < 65521 → b < 65521 →
      (BitVec.ofNat 16 b ++ BitVec.ofNat 16 a : Word).toNat = b * 65536 + a := fun a b ha hb => by
    rw [BitVec.toNat_append, BitVec.toNat_ofNat, BitVec.toNat_ofNat, Nat.mod_eq_of_lt (by omega),
      Nat.mod_eq_of_lt (by omega), ← Nat.shiftLeft_add_eq_or_of_lt (by omega), Nat.shiftLeft_eq]
  have word := v.isLt
  unfold adlerByte adlerLow adlerHigh
  rw [field_toNat, field_toNat, Nat.pow_zero, Nat.div_one, halves _ _ (Nat.mod_lt _ (by decide)) (Nat.mod_lt _ (by decide))]
  rw [show 2 ^ 16 = 65536 from rfl, Nat.mod_eq_of_lt (show v.toNat / 65536 < 65536 by omega)]
  constructor <;> omega

/-- `Σ (n - i) xs[i]`, the weight of every byte in the sum of the sums. -/
def weightedSum (xs : List Byte) : Nat :=
  ((List.range xs.length).map fun i => (xs.length - i) * (xs.getD i 0).toNat).sum

theorem weightedSum_cons (x : Byte) (xs : List Byte) :
    weightedSum (x :: xs) = (xs.length + 1) * x.toNat + weightedSum xs := by
  simp only [weightedSum, List.length_cons, List.range_succ_eq_map, List.map_cons, List.map_map, List.sum_cons]
  congr 2
  refine List.map_congr_left fun i _ => ?_
  simp

theorem adlerUpdate_halves (xs : List Byte) : ∀ v : Word, adlerLow v < 65521 → adlerHigh v < 65521 →
    adlerLow (adlerUpdate v xs) = (adlerLow v + (xs.map fun x => x.toNat).sum) % 65521
      ∧ adlerHigh (adlerUpdate v xs) = (adlerHigh v + xs.length * adlerLow v + weightedSum xs) % 65521 := by
  induction xs with
  | nil =>
    intro v low high
    simp only [adlerUpdate_nil, List.map_nil, List.sum_nil, List.length_nil, weightedSum, List.range_zero]
    constructor <;> omega
  | cons x rest ih =>
    intro v low high
    obtain ⟨byteLow, byteHigh⟩ := adlerByte_halves v x
    obtain ⟨restLow, restHigh⟩ := ih (adlerByte v x) (by rw [byteLow]; omega) (by rw [byteHigh]; omega)
    have step : adlerUpdate v (x :: rest) = adlerUpdate (adlerByte v x) rest := rfl
    rw [step, restLow, restHigh, byteLow, byteHigh, weightedSum_cons, List.map_cons, List.sum_cons, List.length_cons]
    constructor
    · omega
    · have low : (adlerLow v + x.toNat) % 65521 ≡ adlerLow v + x.toNat [MOD 65521] := Nat.mod_modEq _ _
      have high : (adlerHigh v + (adlerLow v + x.toNat) % 65521) % 65521 ≡ adlerHigh v + (adlerLow v + x.toNat)
          [MOD 65521] := (Nat.mod_modEq _ _).trans (low.add_left _)
      have total := ((high.add (low.mul_left rest.length)).add_right (weightedSum rest))
      rw [total]
      congr 1
      ring

/-- Settles O31. -/
theorem checksums : Obligations.Checksums :=
  ⟨crcUpdate_toNat, fun v xs low high => adlerUpdate_halves xs v low high, adlerUpdate_append, crcUpdate_append⟩

end Sys2Proof.Proofs
end

section
/-! The operations of the match finder as functions of the state: insertion, compaction, the fill, the tally
(41_match_finder.md R250 to R258, R270 to R272, 20_memory.md R116). -/

namespace Sys2Proof.Proofs

open Sys2Proof.Machine Sys2Proof.Claims

/-! ### The sizes of a legal configuration (00_scope.md R7) -/

/-- The derived parameters of a legal configuration, as bounds for arithmetic. -/
structure Sizes (c : Settings) : Prop where
  wSize_low : 512 ≤ c.wSize
  wSize_high : c.wSize ≤ 32768
  window : c.windowBytes = 2 * c.wSize
  maxDist : c.maxDist + 262 = c.wSize
  storedMax : c.storedMax = c.maxDist
  litBuffer_low : 128 ≤ c.litBufferSize
  litBuffer_high : c.litBufferSize ≤ 32768
  hashSize_high : c.hashSize ≤ 65536

theorem sizes_of_legal {c : Settings} (legal : c.legal = true) : Sizes c := by
  have hash := hashBits_le_of_legal legal
  simp only [Settings.legal, Bool.and_eq_true, decide_eq_true_eq] at legal
  obtain ⟨⟨⟨⟨⟨-, -⟩, windowLow⟩, memLow⟩, memHigh⟩, -⟩ := legal
  have windowHigh : c.windowBits.toNat ≤ 15 := Nat.le_of_lt_succ c.windowBits.isLt
  have low : 2 ^ 9 ≤ 2 ^ c.windowBits.toNat := Nat.pow_le_pow_right (by decide) windowLow
  have high : 2 ^ c.windowBits.toNat ≤ 2 ^ 15 := Nat.pow_le_pow_right (by decide) windowHigh
  have litLow : 2 ^ 7 ≤ 2 ^ (c.memLevel.toNat + 6) := Nat.pow_le_pow_right (by decide) (by omega)
  have litHigh : 2 ^ (c.memLevel.toNat + 6) ≤ 2 ^ 15 := Nat.pow_le_pow_right (by decide) (by omega)
  have hashHigh : 2 ^ c.hashBits ≤ 2 ^ 16 := Nat.pow_le_pow_right (by decide) hash
  refine ⟨low, high, rfl, ?_, rfl, litLow, litHigh, hashHigh⟩
  change 2 ^ c.windowBits.toNat - 262 + 262 = 2 ^ c.windowBits.toNat
  omega

theorem updateHash_lt {c : Settings} (legal : c.legal = true) (h : BitVec 16) (x : Byte) :
    (updateHash c h x).toNat < c.hashSize := by
  rw [updateHash_toNat legal]
  exact Nat.mod_lt _ (Nat.two_pow_pos _)

/-! ### ReadBuf (20_memory.md R116) -/

theorem drop_of_take_eq_nil {α : Type} {xs : List α} {n : Nat} (h : xs.take n = []) : xs.drop n = xs := by
  conv_rhs => rw [← List.take_append_drop n xs, h, List.nil_append]

/-- Settles O30: the three cases of `readBuf_run`. -/
theorem InputBuffer.readBuf : Obligations.ReadBuf := by
  intro dst size s memory
  rw [State.memoryOk_iff] at memory
  obtain ⟨⟨⟨win, -⟩, -⟩, -⟩ := memory
  refine ⟨fun empty => ?_, fun some past => ?_, fun some fits => ?_⟩
  · rw [readBuf_run]
    dsimp only
    rw [if_pos (by rw [empty]; rfl), drop_of_take_eq_nil empty]
    rfl
  · rw [readBuf_run]
    dsimp only
    rw [if_neg (mt List.eq_nil_of_length_eq_zero some), if_neg (Nat.not_le.2 past)]
    exact ⟨_, rfl, rfl⟩
  · rw [readBuf_run]
    dsimp only
    rw [if_neg (mt List.eq_nil_of_length_eq_zero some), if_pos fits]
    exact ⟨_, rfl, fun i => Arr.read_writeAll win dst i _⟩

/-! ### InsertString (R251) -/

/-- The hash after the string at `pos`. -/
def hashAt (s : State) (pos : Nat) : BitVec 16 := updateHash s.cfg s.mf.insH (s.mem.win.read (pos + 2))

/-- The state after `InsertString(pos)`. -/
def inserted (pos : Nat) (s : State) : State :=
  { s with
    mf := { s.mf with insH := hashAt s pos }
    mem := { s.mem with
      prev := s.mem.prev.write (pos % s.cfg.wSize) (s.mem.head.read (hashAt s pos).toNat)
      head := s.mem.head.write (hashAt s pos).toNat (BitVec.ofNat 16 pos) } }

/-- Everything `InsertString` can do. -/
theorem insertString_run (pos : Nat) (s : State) (hash : (hashAt s pos).toNat < s.cfg.hashSize) (slots : 0 < s.cfg.wSize) :
    (insertString pos).run s =
      if pos + 2 < s.cfg.windowBytes then .ok (s.mem.head.read (hashAt s pos).toNat).toNat (inserted pos s)
      else .error (.raise .bounds) s := by
  unfold insertString
  by_cases inside : pos + 2 < s.cfg.windowBytes
  · have read : (readWin (pos + 2)).run s = .ok (s.mem.win.read (pos + 2)) s := by rw [readWin_run, if_pos inside]
    rw [if_pos inside, Op.bind_ok read, Op.update_bind, Op.state_bind]
    rw [Op.bind_ok (by rw [readHead_run]; exact if_pos hash), Op.bind_ok (by rw [writePrev_run]; exact if_pos (Nat.mod_lt _ slots)),
      Op.bind_ok (by rw [writeHead_run]; exact if_pos hash)]
    rfl
  · have read : (readWin (pos + 2)).run s = .error (.raise .bounds) s := by rw [readWin_run, if_neg inside]
    rw [if_neg inside, Op.bind_error read]

theorem insertString_run_of_legal {pos : Nat} {s : State} (legal : s.cfg.legal = true) (inside : pos + 2 < s.cfg.windowBytes) :
    (insertString pos).run s = .ok (s.mem.head.read (hashAt s pos).toNat).toNat (inserted pos s) := by
  have sizes := sizes_of_legal legal
  rw [insertString_run pos s (updateHash_lt legal _ _) (by have := sizes.wSize_low; omega), if_pos inside]

/-- Settles O33. -/
theorem HashChains.insertString : Obligations.InsertString := by
  intro pos s legal memory inside
  rw [State.memoryOk_iff] at memory
  obtain ⟨⟨⟨-, head, prev, -⟩, -⟩, -⟩ := memory
  exact ⟨_, _, insertString_run_of_legal legal inside, fun i => Arr.read_write head _ _ _, fun i => Arr.read_write prev _ _ _⟩

/-! ### Slide (R256) -/

/-- The state after `Slide()`. -/
def slid (s : State) : State :=
  { s with
    mf := { s.mf with
      matchStart := rebaseMatch s.mf.matchStart s.cfg.wSize
      strStart := s.mf.strStart - s.cfg.wSize
      blockStart := s.mf.blockStart - s.cfg.wSize }
    mem := { s.mem with
      win := s.mem.win.compact s.cfg.wSize
      head := s.mem.head.rebase s.cfg.wSize
      prev := s.mem.prev.rebase s.cfg.wSize } }

/-- What the window check asks for (60_exceptions.md R506). -/
abbrev WindowOrder (s : State) : Prop :=
  s.mf.strStart + s.mf.lookAhead ≤ s.cfg.windowBytes ∧ s.mf.blockStart ≤ (s.mf.strStart : Int)

theorem slide_run_eq (s : State) :
    slide.run s = if WindowOrder (slid s) then .ok () (slid s) else .error (.raise .invariant) (slid s) := slide_run s

theorem slid_order {s : State} (due : s.cfg.wSize ≤ s.mf.strStart) (order : WindowOrder s) : WindowOrder (slid s) := by
  obtain ⟨window, block⟩ := order
  refine ⟨?_, ?_⟩
  · change s.mf.strStart - s.cfg.wSize + s.mf.lookAhead ≤ s.cfg.windowBytes
    omega
  · change s.mf.blockStart - (s.cfg.wSize : Int) ≤ ((s.mf.strStart - s.cfg.wSize : Nat) : Int)
    omega

theorem slide_run_of_order {s : State} (due : s.cfg.wSize ≤ s.mf.strStart) (order : WindowOrder s) :
    slide.run s = .ok () (slid s) := by
  rw [slide_run_eq, if_pos (slid_order due order)]

/-- An entry rebased: `v - wSize`, or NIL below. -/
theorem rebase_value (v w : Nat) : BitVec.ofNat 16 (v - w) = if w ≤ v then BitVec.ofNat 16 (v - w) else 0 := by
  by_cases low : w ≤ v
  · rw [if_pos low]
  · rw [if_neg low, Nat.sub_eq_zero_of_le (by omega)]
    rfl

/-- Settles O34. -/
theorem Window.slide : Obligations.Slide := by
  intro s memory due window block
  rw [State.memoryOk_iff] at memory
  obtain ⟨⟨⟨-, head, prev, -⟩, -⟩, ⟨win, -⟩, -⟩ := memory
  refine ⟨slid s, slide_run_of_order (by omega) ⟨window, block⟩, Arr.read_compact win, fun h => ?_, fun i => ?_, rfl,
    rebaseMatch_toInt⟩
  · exact (Arr.read_rebase head s.cfg.wSize h).trans (rebase_value _ _)
  · exact (Arr.read_rebase prev s.cfg.wSize i).trans (rebase_value _ _)

/-! ### The fill (R257) -/

/-- The state after the compaction a fill begins with, if it is due. It is used through its lemmas: unfolding it would
evaluate the test. -/
@[irreducible] def slidIf (s : State) : State := if s.mustSlide = true then slid s else s

/-- The hash seeded from the two bytes at `strStart`. -/
def seeded (s : State) : State :=
  s.setMf { s.mf with
    insH := updateHash s.cfg ((s.mem.win.read s.mf.strStart).zeroExtend 16) (s.mem.win.read (s.mf.strStart + 1)) }

/-- `bytes` read from the front of `IN` to the end of the data. -/
def taken (bytes : List Byte) (rest : List Byte) (s : State) : State :=
  { s with
    mf := { s.mf with lookAhead := s.mf.lookAhead + bytes.length }
    sums := { adler := adlerUpdate s.sums.adler bytes, crc := crcUpdate s.sums.crc bytes }
    mem := { s.mem with win := s.mem.win.writeAll (s.mf.strStart + s.mf.lookAhead) bytes, input := rest } }

/-- The state after `FillWindow()`, one round of it. -/
def filled (s : State) : State :=
  if s.mem.input = [] then slidIf s
  else
    let t := taken (s.mem.input.take s.fillRoom) (s.mem.input.drop s.fillRoom) (slidIf s)
    if MIN_MATCH ≤ t.mf.lookAhead then seeded t else t

theorem slidIf_input (s : State) : (slidIf s).mem.input = s.mem.input := by
  unfold slidIf; split <;> rfl

theorem slidIf_cfg (s : State) : (slidIf s).cfg = s.cfg := by
  unfold slidIf; split <;> rfl

theorem slidIf_lookAhead (s : State) : (slidIf s).mf.lookAhead = s.mf.lookAhead := by
  unfold slidIf; split <;> rfl

/-- The space behind the data after the compaction. -/
theorem slidIf_strStart (s : State) :
    (slidIf s).mf.strStart = if s.mustSlide = true then s.mf.strStart - s.cfg.wSize else s.mf.strStart := by
  unfold slidIf; split <;> rfl

theorem readBuf_taken {dst size : Nat} {s : State} (some : s.mem.input.take size ≠ []) :
    (readBuf dst size).run s =
      if dst + (s.mem.input.take size).length ≤ s.cfg.windowBytes then
        .ok (s.mem.input.take size).length ((s.setMem { s.mem with
            win := s.mem.win.writeAll dst (s.mem.input.take size), input := s.mem.input.drop size }).setSums
          { adler := adlerUpdate s.sums.adler (s.mem.input.take size), crc := crcUpdate s.sums.crc (s.mem.input.take size) })
      else .error (.raise .bounds) (s.setMem { s.mem with input := s.mem.input.drop size }) := by
  rw [readBuf_run]
  dsimp only
  rw [if_neg (mt List.eq_nil_of_length_eq_zero some)]
  rfl

/-- The compaction of a fill, if it is due. -/
theorem slideIf_ok {s t : State} (run : (Op.when (s.mustSlide = true) slide).run s = .ok () t) :
    t = slidIf s ∧ (s.mustSlide = true → WindowOrder t) := by
  unfold slidIf
  by_cases due : s.mustSlide = true
  · rw [Op.when_pos due, slide_run_eq] at run
    split at run
    · next order => cases run; exact ⟨(if_pos due).symm, fun _ => order⟩
    · cases run
  · rw [Op.when_neg due] at run
    cases run
    exact ⟨(if_neg due).symm, fun h => absurd h due⟩

theorem mustSlide_iff (s : State) : s.mustSlide = true ↔ s.cfg.wSize + s.cfg.maxDist ≤ s.mf.strStart := decide_eq_true_iff

theorem slideIf_run {s : State} (order : WindowOrder s) :
    (Op.when (s.mustSlide = true) slide).run s = .ok () (slidIf s) := by
  unfold slidIf
  by_cases due : s.mustSlide = true
  · rw [Op.when_pos due, if_pos due]
    exact slide_run_of_order (by have := (mustSlide_iff s).1 due; omega) order
  · rw [Op.when_neg due, if_neg due]
    rfl

theorem seedHash_run {s : State} (inside : s.mf.strStart + 1 < s.cfg.windowBytes) : seedHash.run s = .ok () (seeded s) := by
  unfold seedHash
  rw [Op.state_bind, Op.bind_ok (by rw [readWin_run]; exact if_pos (by omega)), Op.bind_ok (by rw [readWin_run]; exact if_pos inside)]
  rfl

theorem seedHash_ok {s t : State} (run : seedHash.run s = .ok () t) : t = seeded s := by
  unfold seedHash at run
  rw [Op.state_bind] at run
  obtain ⟨x, u, first, run⟩ := Op.bind_inv run
  obtain ⟨y, v, second, run⟩ := Op.bind_inv run
  rw [readWin_run] at first second
  split at first <;> cases first
  split at second <;> cases second
  cases run
  rfl

/-- A round of the fill has room for a byte, or for one more than it needs. -/
theorem fillRoom_enough {s : State} (legal : s.cfg.legal = true)
    (short : s.mf.lookAhead < MIN_LOOKAHEAD) : MIN_LOOKAHEAD ≤ s.mf.lookAhead + s.fillRoom ∧ 0 < s.fillRoom := by
  have sizes := sizes_of_legal legal
  obtain ⟨low, -, window, maxDist, -⟩ := sizes
  have size : MIN_LOOKAHEAD = 262 := rfl
  have due := mustSlide_iff s
  unfold State.fillRoom
  by_cases slides : s.mustSlide = true
  · rw [if_pos slides]; omega
  · rw [if_neg slides]
    have : ¬ s.cfg.wSize + s.cfg.maxDist ≤ s.mf.strStart := fun h => slides (due.2 h)
    omega

/-- What is read, if there is enough room. -/
theorem enough_or_drained {s : State} (legal : s.cfg.legal = true) :
    MIN_LOOKAHEAD ≤ s.mf.lookAhead + (s.mem.input.take s.fillRoom).length ∨ s.mem.input.drop s.fillRoom = [] := by
  by_cases short : s.mf.lookAhead < MIN_LOOKAHEAD
  · have room := (fillRoom_enough legal short).1
    by_cases all : s.mem.input.length ≤ s.fillRoom
    · exact .inr (List.drop_eq_nil_of_le all)
    · rw [List.length_take, Nat.min_eq_left (by omega)]
      exact .inl room
  · exact .inl (by omega)

/-- `ReadBuf` to the end of the data, and the lookahead that grows by what it read. -/
theorem readBuf_ok {size n : Nat} {s t : State} (read : (readBuf (s.mf.strStart + s.mf.lookAhead) size).run s = .ok n t) :
    t.setMf { t.mf with lookAhead := t.mf.lookAhead + n } = taken (s.mem.input.take size) (s.mem.input.drop size) s
      ∧ n = (s.mem.input.take size).length := by
  by_cases none : s.mem.input.take size = []
  · rw [readBuf_run] at read
    dsimp only at read
    rw [if_pos (by rw [none]; rfl)] at read
    cases read
    rw [none, taken, adlerUpdate_nil, crcUpdate_nil]
    exact ⟨rfl, rfl⟩
  · rw [readBuf_taken none] at read
    split at read <;> cases read
    exact ⟨rfl, rfl⟩

/-- In a legal configuration one round is enough. -/
theorem fillStep_ok {s t : State} {l : LoopStep} (legal : s.cfg.legal = true) (run : fillStep.run s = .ok l t) :
    l = .exit ∧ t = filled s := by
  have enough := enough_or_drained legal
  unfold fillStep at run
  rw [Op.state_bind] at run
  obtain ⟨⟨⟩, u, slides, run⟩ := Op.bind_inv run
  obtain ⟨rfl, -⟩ := slideIf_ok slides
  rw [Op.state_bind, slidIf_input] at run
  unfold filled
  rw [← slidIf_lookAhead, ← slidIf_input s] at enough
  rw [← slidIf_input s] at run ⊢
  generalize s.fillRoom = room at *
  generalize slidIf s = v at *
  by_cases empty : v.mem.input = []
  · rw [if_pos empty] at run ⊢
    cases run
    exact ⟨rfl, rfl⟩
  · rw [if_neg empty] at run ⊢
    obtain ⟨n, w, read, run⟩ := Op.bind_inv run
    rw [Op.update_bind, (readBuf_ok read).1, Op.state_bind] at run
    obtain ⟨⟨⟩, x, seed, run⟩ := Op.bind_inv run
    rw [if_pos (show MIN_LOOKAHEAD ≤ (taken _ _ v).mf.lookAhead ∨ (taken _ _ v).mem.input = [] from enough)] at run
    cases run
    refine ⟨rfl, ?_⟩
    dsimp only
    by_cases three : MIN_MATCH ≤ (taken (v.mem.input.take room) (v.mem.input.drop room) v).mf.lookAhead
    · rw [Op.when_pos three] at seed
      rw [if_pos three]
      exact seedHash_ok seed
    · rw [Op.when_neg three] at seed
      cases seed
      rw [if_neg three]

/-- What a fill leaves if it comes to its end. -/
theorem fillWindow_eq_filled {s t : State} (legal : s.cfg.legal = true)
    (run : fillWindow.run s = .ok () t) : t = filled s := by
  unfold fillWindow State.fillFuel at run
  rw [Op.state_bind, Op.iterate_succ] at run
  obtain ⟨l, u, loop, check⟩ := Op.bind_inv run
  obtain ⟨l', v, first, rest⟩ := Op.bind_inv loop
  obtain ⟨rfl, rfl⟩ := fillStep_ok legal first
  cases rest
  rw [checkWindow_run] at check
  split at check <;> cases check
  rfl

theorem filled_registers (s : State) : (filled s).mf.strStart = (slidIf s).mf.strStart
    ∧ (filled s).mf.blockStart = (slidIf s).mf.blockStart ∧ (filled s).cfg = s.cfg
    ∧ (filled s).mf.lookAhead = s.mf.lookAhead + (s.mem.input.take s.fillRoom).length := by
  unfold filled
  generalize s.fillRoom = room
  split
  · next empty => rw [empty, List.take_nil]; exact ⟨rfl, rfl, slidIf_cfg s, slidIf_lookAhead s⟩
  · have look : (taken (s.mem.input.take room) (s.mem.input.drop room) (slidIf s)).mf.lookAhead
        = s.mf.lookAhead + (s.mem.input.take room).length := congrArg (· + _) (slidIf_lookAhead s)
    dsimp only
    split <;> exact ⟨rfl, rfl, slidIf_cfg s, look⟩

theorem slidIf_order {s : State} (order : WindowOrder s) : WindowOrder (slidIf s) := by
  unfold slidIf
  split
  · next due => exact slid_order (by have := (mustSlide_iff s).1 due; omega) order
  · exact order

/-- Behind the data there is exactly the room a fill may use. -/
theorem slidIf_room {s : State} (order : WindowOrder s) :
    (slidIf s).mf.strStart + (slidIf s).mf.lookAhead + s.fillRoom = s.cfg.windowBytes := by
  have due := mustSlide_iff s
  obtain ⟨window, -⟩ := order
  rw [slidIf_strStart, slidIf_lookAhead]
  unfold State.fillRoom
  split
  · next slides => have := due.1 slides; omega
  · omega

theorem filled_order {s : State} (order : WindowOrder s) : WindowOrder (filled s) := by
  obtain ⟨start, block, cfg, look⟩ := filled_registers s
  obtain ⟨window, blockOrder⟩ := slidIf_order order
  have room := slidIf_room order
  rw [slidIf_lookAhead] at room
  have read := List.length_take_le s.fillRoom s.mem.input
  rw [WindowOrder, start, block, cfg, look]
  exact ⟨by omega, blockOrder⟩

theorem fillStep_run {s : State} (legal : s.cfg.legal = true) (order : WindowOrder s) :
    fillStep.run s = .ok .exit (filled s) := by
  suffices ends : ∃ l t, fillStep.run s = .ok l t by
    obtain ⟨l, t, run⟩ := ends
    obtain ⟨rfl, rfl⟩ := fillStep_ok legal run
    exact run
  have room := slidIf_room order
  rw [← slidIf_cfg s] at room
  unfold fillStep
  rw [Op.state_bind, Op.bind_ok (slideIf_run order), Op.state_bind]
  generalize s.fillRoom = size at *
  generalize slidIf s = v at *
  split
  · exact ⟨_, _, rfl⟩
  · have read := List.length_take_le size v.mem.input
    have ends : ∃ n w, (readBuf (v.mf.strStart + v.mf.lookAhead) size).run v = .ok n w ∧ w.mf = v.mf ∧ w.cfg = v.cfg := by
      rw [readBuf_run]
      dsimp only
      split
      · exact ⟨_, _, rfl, rfl, rfl⟩
      · rw [if_pos (by omega)]
        exact ⟨_, _, rfl, rfl, rfl⟩
    obtain ⟨n, w, run, mf, cfg⟩ := ends
    obtain ⟨after, count⟩ := readBuf_ok run
    rw [Op.bind_ok run, Op.update_bind, after, Op.state_bind]
    have three : MIN_MATCH = 3 := rfl
    generalize reads : taken (v.mem.input.take size) (v.mem.input.drop size) v = x at *
    have start : x.mf.strStart = v.mf.strStart ∧ x.mf.lookAhead = v.mf.lookAhead + (v.mem.input.take size).length
        ∧ x.cfg = v.cfg := by rw [← reads]; exact ⟨rfl, rfl, rfl⟩
    obtain ⟨start, look, cfg⟩ := start
    have seeds : ∃ y, (Op.when (MIN_MATCH ≤ x.mf.lookAhead) seedHash).run x = .ok () y := by
      by_cases some : MIN_MATCH ≤ x.mf.lookAhead
      · rw [Op.when_pos some]
        exact ⟨_, seedHash_run (by rw [cfg]; omega)⟩
      · rw [Op.when_neg some]
        exact ⟨_, rfl⟩
    obtain ⟨y, seed⟩ := seeds
    rw [Op.bind_ok seed]
    split <;> exact ⟨_, _, rfl⟩

theorem fillWindow_run {s : State} (legal : s.cfg.legal = true) (order : WindowOrder s) :
    fillWindow.run s = .ok () (filled s) := by
  unfold fillWindow State.fillFuel
  have loop : (Op.iterate fillStep (s.mem.input.length + 1)).run s = .ok .exit (filled s) := by
    rw [Op.iterate_succ, Op.bind_ok (fillStep_run legal order)]
    rfl
  rw [Op.state_bind, Op.bind_ok loop, checkWindow_run, if_pos (filled_order order)]

/-- Settles O35: the fill compacts at most once, and a compaction moves `strStart` and `matchStart` together. -/
theorem fillPostcondition : Obligations.FillPostcondition := by
  intro s t legal inside run
  obtain ⟨enough, window, -⟩ := fillWindow_ok run
  have sizes := sizes_of_legal legal
  obtain ⟨low, high, windowBytes, maxDist, -⟩ := sizes
  cases fillWindow_eq_filled legal run
  obtain ⟨start, -, cfg, -⟩ := filled_registers s
  have due := mustSlide_iff s
  refine ⟨enough, window, ?_, fun source before near => ?_⟩
  · rw [start, cfg, slidIf_strStart]
    split
    · omega
    · next stays => have := mt due.2 stays; omega
  · have held : (filled s).mf.matchStart = (slidIf s).mf.matchStart := by
      unfold filled
      generalize s.fillRoom = room
      split
      · rfl
      · dsimp only; split <;> rfl
    rw [held, start]
    unfold slidIf
    split
    · next slides =>
      have reach := due.1 slides
      have rebased : (slid s).mf.matchStart.toInt = s.mf.matchStart.toInt - (s.cfg.wSize : Int) :=
        rebaseMatch_toInt (by omega)
      rw [rebased]
      change (((s.mf.strStart - s.cfg.wSize : Nat) : Int) - _ = _) ∧ _
      constructor <;> omega
    · exact ⟨rfl, .inl source⟩

/-! ### Tally (R270 to R272) -/

/-- One more occurrence of a symbol. -/
def bump (a : Arr 16) (i : Nat) : Arr 16 := a.write i (a.read i + 1)

/-- The literal/length symbol of a token. -/
def tokenSymbol (dist lc : Nat) : Nat := if dist = 0 then lc else 257 + lcode (lc + 3)

/-- The state after `Tally(dist, lc)`. -/
def tallied (dist lc : Nat) (s : State) : State :=
  { s with
    tok := { lastLit := s.tok.lastLit + 1, numMatches := s.tok.numMatches + (if dist = 0 then 0 else 1) }
    hb := { s.hb with
      lfreq := bump s.hb.lfreq (tokenSymbol dist lc)
      dfreq := if dist = 0 then s.hb.dfreq else bump s.hb.dfreq (distCode dist) }
    mem := { s.mem with
      dbuf := s.mem.dbuf.write s.tok.lastLit (BitVec.ofNat 16 dist)
      lbuf := s.mem.lbuf.write s.tok.lastLit (BitVec.ofNat 8 lc) } }

theorem tokenSymbol_lt {dist lc : Nat} (byte : lc ≤ 255) : tokenSymbol dist lc < L_CODES := by
  have codes : L_CODES = 286 := rfl
  have code := (lcode_bounds (len := lc + 3) (by omega) (by omega)).1
  unfold tokenSymbol
  split <;> omega

theorem countToken_run {dist lc : Nat} {s : State} (near : dist ≤ s.cfg.maxDist) (reach : dist ≤ 32768) (byte : lc ≤ 255) :
    (countToken dist lc).run s = .ok ()
      { s with
        tok := { s.tok with numMatches := s.tok.numMatches + (if dist = 0 then 0 else 1) }
        hb := { s.hb with
          lfreq := bump s.hb.lfreq (tokenSymbol dist lc)
          dfreq := if dist = 0 then s.hb.dfreq else bump s.hb.dfreq (distCode dist) } } := by
  have symbol := tokenSymbol_lt (dist := dist) byte
  unfold countToken
  by_cases literal : dist = 0
  · subst literal
    rw [if_pos (by simp), countLit_run]
    exact if_pos symbol
  · have code : distCode dist < D_CODES := (distCode_bounds (by omega) reach).1
    have range : 1 ≤ (dist : Int) ∧ (dist : Int) ≤ (s.cfg.maxDist : Int) ∧ lc ≤ 255 := ⟨by omega, by omega, byte⟩
    unfold tokenSymbol at symbol ⊢
    rw [if_neg literal] at symbol
    simp only [if_neg literal]
    rw [if_neg (by omega), Op.state_bind, Op.require_pos range, Op.update_bind,
      Op.bind_ok (by rw [countLit_run]; exact if_pos symbol), Int.toNat_natCast, countDist_run]
    exact if_pos code

theorem tally_run {dist lc : Nat} {s : State} (room : s.tok.lastLit < s.cfg.litBufferSize) (near : dist ≤ s.cfg.maxDist)
    (reach : dist ≤ 32768) (byte : lc ≤ 255) :
    (tally dist lc).run s = .ok (tallied dist lc s).blockEnds (tallied dist lc s) := by
  unfold tally
  rw [Op.state_bind, Op.require_pos room, Op.bind_ok (by rw [writeToken_run]; exact if_pos room), Op.update_bind]
  have counts := fun (v : State) (cfg : v.cfg = s.cfg) => countToken_run (s := v) (cfg ▸ near) reach byte
  rw [BitVec.ofInt_natCast]
  refine (Op.bind_ok (counts _ ?_)).trans ?_ <;> rfl

theorem tally_run_of_full {dist : Int} {lc : Nat} {s : State} (full : s.cfg.litBufferSize ≤ s.tok.lastLit) :
    (tally dist lc).run s = .error (.raise .tokenOverflow) s := by
  unfold tally
  rw [Op.state_bind, Op.require_neg (Nat.not_lt.2 full)]

theorem sparseOutBits_eq (lastLit : Nat) (dfreq : Nat → Nat) : sparseOutBits lastLit dfreq
    = lastLit * 8 + ((List.range 30).map fun d => dfreq d * (5 + extraDBits d)).sum := by
  have general : ∀ (ds : List Nat) (b : Nat), ds.foldl (fun bits d => bits + dfreq d * (5 + extraDBits d)) b
      = b + (ds.map fun d => dfreq d * (5 + extraDBits d)).sum := by
    intro ds
    induction ds with
    | nil => exact fun _ => rfl
    | cons d rest ih => intro b; rw [List.foldl_cons, ih, List.map_cons, List.sum_cons, Nat.add_assoc]
  exact general _ _

/-- The tally's answer (R270, R272): the heuristic fires, or one slot is left. -/
theorem blockEnds_iff (s : State) : s.blockEnds = true ↔ SparseHolds s ∨ s.tok.lastLit + 1 = s.cfg.litBufferSize := by
  unfold State.blockEnds blockFull sparse
  rw [sparseOutBits_eq]
  simp only [Bool.or_eq_true, Bool.and_eq_true, decide_eq_true_eq, SparseHolds, and_assoc]
  exact Iff.rfl

theorem bump_read {a : Arr 16} (canonical : a.Canonical) (i j : Nat) :
    (bump a i).read j = a.read j + (if j = i then 1 else 0) := by
  rw [bump, Arr.read_write canonical]
  by_cases same : j = i
  · rw [if_pos same, if_pos same, same]
  · rw [if_neg same, if_neg same]
    exact (BitVec.add_zero _).symm

/-- Settles O37. -/
theorem TokenBuffer.tally : Obligations.Tally := by
  intro dist lc s memory byte
  have memory' := (State.memoryOk_iff s).1 memory
  obtain ⟨⟨⟨-, -, -, dbuf, lbuf⟩, lfreq, dfreq, -⟩, -⟩ := memory'
  refine ⟨fun full => tally_run_of_full full, fun room far => ?_, fun room near => ?_⟩
  · unfold Machine.tally countToken
    rw [Op.state_bind, Op.require_pos room, Op.bind_ok (by rw [writeToken_run]; exact if_pos room), Op.update_bind,
      if_neg (by omega)]
    refine ⟨_, Op.bind_error (Op.require_neg (fun h => ?_) _ _ _)⟩
    have inReach : (dist : Int) ≤ (s.cfg.maxDist : Int) := h.2.1
    omega
  · have reach : dist ≤ 32768 := by
      have size : s.cfg.maxDist ≤ s.cfg.wSize := Nat.sub_le _ _
      have window : s.cfg.wSize ≤ 2 ^ 15 :=
        Nat.pow_le_pow_right (by decide) (Nat.le_of_lt_succ s.cfg.windowBits.isLt)
      omega
    refine ⟨_, tallied dist lc s, tally_run room near reach byte, rfl, fun i => Arr.read_write dbuf _ _ _,
      fun i => Arr.read_write lbuf _ _ _, fun i => bump_read lfreq _ i, fun i => ?_, rfl, fun _ => blockEnds_iff _,
      fun full => (blockEnds_iff _).2 (.inr full), fun off open_ => ?_⟩
    · unfold tallied
      by_cases literal : dist = 0
      · simp [literal]
      · dsimp only
        rw [if_neg literal, bump_read dfreq]
        simp [literal]
    · rw [Bool.eq_false_iff]
      intro ends
      obtain ⟨period, -⟩ | full := (blockEnds_iff _).1 ends
      · exact off period
      · exact open_ full

end Sys2Proof.Proofs
end

section
/-! The search (41_match_finder.md R260): the common length of two places of the window, and the walk down a chain as a walk
along the list of its candidates. -/

namespace Sys2Proof.Proofs

open Sys2Proof.Machine Sys2Proof.Claims

/-! ### The common length of two places -/

/-- How far the window agrees at `a` and `b`, at most `limit`. -/
def common (s : State) (a b limit : Nat) : Nat :=
  ((List.range limit).takeWhile fun k => decide (s.mem.win.read (a + k) = s.mem.win.read (b + k))).length

theorem agreement_eq_common (s : State) (cur : Nat) : agreement s cur = common s s.mf.strStart cur (min 258 s.mf.lookAhead) := rfl

theorem common_succ (s : State) (a b limit : Nat) : common s a b (limit + 1) =
    if s.mem.win.read a = s.mem.win.read b then common s (a + 1) (b + 1) limit + 1 else 0 := by
  unfold common
  rw [List.range_succ_eq_map, List.takeWhile_cons, List.takeWhile_map]
  by_cases same : s.mem.win.read a = s.mem.win.read b
  · simp only [Nat.add_zero, same, decide_true, if_true, List.length_cons, List.length_map]
    simp only [Function.comp_def, Nat.succ_eq_add_one, Nat.add_assoc, Nat.add_comm 1]
  · simp [same]

theorem common_le (s : State) (a b limit : Nat) : common s a b limit ≤ limit := by
  have := (List.takeWhile_sublist (l := List.range limit)
    fun k => decide (s.mem.win.read (a + k) = s.mem.win.read (b + k))).length_le
  rwa [List.length_range] at this

theorem common_agrees (s : State) (a b limit : Nat) :
    ∀ k, k < common s a b limit → s.mem.win.read (a + k) = s.mem.win.read (b + k) := by
  induction limit generalizing a b with
  | zero => intro k h; cases h
  | succ limit ih =>
    intro k h
    rw [common_succ] at h
    split at h
    · next same =>
      cases k with
      | zero => exact same
      | succ k =>
        have := ih (a + 1) (b + 1) k (by omega)
        rwa [Nat.add_assoc, Nat.add_assoc, Nat.add_comm 1 k] at this
    · cases h

/-- The data at both places lies in the window. -/
abbrev Readable (s : State) (a b limit : Nat) : Prop := a + limit ≤ s.cfg.windowBytes ∧ b + limit ≤ s.cfg.windowBytes

theorem commonLength_wp (s : State) (a b limit : Nat) :
    Wp (commonLength a b limit) (fun _ => ¬ Readable s a b limit) (fun n t => n = common s a b limit ∧ t = s) s := by
  induction limit generalizing a b with
  | zero => exact wp_pure.2 ⟨rfl, rfl⟩
  | succ limit ih =>
    have read : ∀ (i : Nat) (Q : Byte → State → Prop), (Readable s a b (limit + 1) → i < s.cfg.windowBytes) →
        Q (s.mem.win.read i) s → Wp (readWin i) (fun _ => ¬ Readable s a b (limit + 1)) Q s := fun i Q inside q => by
      by_cases inWindow : i < s.cfg.windowBytes
      · exact (wp_of_ok (by rw [readWin_run, if_pos inWindow])).2 q
      · exact (wp_of_error (t := s) (by rw [readWin_run, if_neg inWindow])).2 (mt inside inWindow)
    rw [commonLength, wp_bind]
    refine read a _ (fun h => by omega) ?_
    rw [wp_bind]
    refine read b _ (fun h => by omega) ?_
    rw [common_succ, wp_ite]
    refine ⟨fun same => ?_, fun differ => ?_⟩
    · rw [wp_bind, if_pos same]
      refine (ih (a + 1) (b + 1)).mono (fun _ => mt fun h => by omega) ?_
      rintro n t ⟨rfl, rfl⟩
      exact wp_pure.2 ⟨rfl, rfl⟩
    · rw [if_neg differ]
      exact wp_pure.2 ⟨rfl, rfl⟩

/-! ### A walk along a list of candidates -/

/-- The best length and the place it was found, `best` and `found` so far: the first of the longest, and nothing after one
that is nice enough. -/
def walk (length : Nat → Nat) (nice : Nat) : List Nat → Nat → Option Nat → Nat × Option Nat
  | [], best, found => (best, found)
  | c :: rest, best, found =>
      if best < length c ∧ nice ≤ length c then (length c, some c)
      else walk length nice rest (max best (length c)) (if best < length c then some c else found)

/-- The candidates up to the first that meets `stop`. -/
def upTo (stop : Nat → Bool) (cs : List Nat) : List Nat := cs.takeWhile (fun c => !stop c) ++ (cs.dropWhile fun c => !stop c).take 1

theorem upTo_cons (stop : Nat → Bool) (c : Nat) (rest : List Nat) :
    upTo stop (c :: rest) = if stop c = true then [c] else c :: upTo stop rest := by
  unfold upTo
  cases h : stop c <;> simp [h]

theorem upTo_subset (stop : Nat → Bool) (cs : List Nat) : ∀ c ∈ upTo stop cs, c ∈ cs := by
  intro c h
  obtain h | h := List.mem_append.1 h
  · exact (List.takeWhile_sublist _).subset h
  · exact (List.dropWhile_sublist _).subset (List.mem_of_mem_take h)

/-- The best of a list of candidates. -/
def bestIn (length : Nat → Nat) (cs : List Nat) (best : Nat) : Nat := cs.foldl (fun m c => max m (length c)) best

theorem le_bestIn (length : Nat → Nat) (cs : List Nat) (best : Nat) : best ≤ bestIn length cs best := by
  induction cs generalizing best with
  | nil => exact Nat.le_refl _
  | cons c rest ih => exact Nat.le_trans (Nat.le_max_left _ _) (ih _)

/-- The walk finds the best of the candidates up to the first nice one, and the first such place. -/
theorem walk_eq (length : Nat → Nat) (nice first : Nat) (cs : List Nat) (best : Nat) (found : Option Nat)
    (above : first ≤ best) (notNice : best = first ∨ best < nice) :
    let seen := upTo (fun c => first < length c && nice ≤ length c) cs
    walk length nice cs best found = (bestIn length seen best,
      if best < bestIn length seen best then seen.find? (fun c => length c = bestIn length seen best) else found) := by
  induction cs generalizing best found with
  | nil => simp [walk, upTo, bestIn]
  | cons c rest ih =>
    dsimp only at ih ⊢
    rw [upTo_cons, walk]
    by_cases stops : best < length c ∧ nice ≤ length c
    · have enough : (decide (first < length c) && decide (nice ≤ length c)) = true := by simp; omega
      have longer : max best (length c) = length c := by omega
      rw [if_pos stops, if_pos enough]
      simp [bestIn, longer, stops.1]
    · have going : ¬ (decide (first < length c) && decide (nice ≤ length c)) = true := by simp; omega
      rw [if_neg stops, if_neg going, ih _ _ (by omega) (by omega)]
      generalize upTo _ rest = seen
      have unfoldBest : bestIn length (c :: seen) best = bestIn length seen (max best (length c)) := rfl
      have grows := le_bestIn length seen (max best (length c))
      rw [unfoldBest]
      generalize bestIn length seen (max best (length c)) = final at *
      by_cases later : max best (length c) < final
      · rw [if_pos later, if_pos (by omega), List.find?_cons_of_neg (by simp; omega)]
      · rw [if_neg later]
        by_cases here : best < length c
        · rw [if_pos here, if_pos (by omega), List.find?_cons_of_pos (by simp; omega)]
        · rw [if_neg here, if_neg (by omega)]

theorem find_of_bestIn {length : Nat → Nat} {cs : List Nat} {best : Nat} (grew : best < bestIn length cs best) :
    ∃ m, cs.find? (fun c => length c = bestIn length cs best) = some m := by
  have attained : ∃ m ∈ cs, length m = bestIn length cs best := by
    induction cs generalizing best with
    | nil => exact absurd grew (Nat.lt_irrefl _)
    | cons c rest ih =>
      have unfoldBest : bestIn length (c :: rest) best = bestIn length rest (max best (length c)) := rfl
      rw [unfoldBest] at grew ⊢
      by_cases later : max best (length c) < bestIn length rest (max best (length c))
      · obtain ⟨m, inRest, longest⟩ := ih later
        exact ⟨m, List.mem_cons_of_mem _ inRest, longest⟩
      · have grows := le_bestIn length rest (max best (length c))
        exact ⟨c, List.mem_cons_self, by omega⟩
  obtain ⟨m, inside, longest⟩ := attained
  cases found : cs.find? fun c => length c = bestIn length cs best with
  | some m => exact ⟨m, rfl⟩
  | none =>
    have := List.find?_eq_none.1 found m inside
    simp [longest] at this

/-! ### The walk down a chain -/

/-- `matchStart` written where a match was found. -/
def marked (s : State) : Option Nat → State
  | none => s
  | some m => { s with mf := { s.mf with matchStart := BitVec.ofNat 32 m } }

/-- The data and the chains lie in the window. -/
abbrev Searchable (s : State) (cur : Nat) : Prop :=
  0 < s.cfg.wSize ∧ s.mf.strStart + s.mf.lookAhead ≤ s.cfg.windowBytes ∧ cur < s.mf.strStart
    ∧ ∀ i, (s.mem.prev.read i).toNat < s.mf.strStart

theorem marked_run {s : State} {best len cur : Nat} {found : Option Nat} :
    (Op.when (best < len) (Op.update fun s => s.setMf { s.mf with matchStart := BitVec.ofNat 32 cur })).run (marked s found)
      = .ok () (marked s (if best < len then some cur else found)) := by
  by_cases better : best < len
  · rw [Op.when_pos better, if_pos better]
    cases found <;> rfl
  · rw [Op.when_neg better, if_neg better]
    rfl

theorem common_marked (s : State) (found : Option Nat) (a b limit : Nat) :
    common (marked s found) a b limit = common s a b limit := by
  cases found <;> rfl

theorem marked_mem (s : State) (found : Option Nat) : (marked s found).mem = s.mem := by cases found <;> rfl

theorem marked_cfg (s : State) (found : Option Nat) : (marked s found).cfg = s.cfg := by cases found <;> rfl

theorem walkChain_wp (s : State) (nice chain cur best : Nat) (found : Option Nat) :
    Wp (walkChain s.mf.strStart (min 258 s.mf.lookAhead) nice (s.mf.strStart - s.cfg.maxDist) chain cur best)
      (fun _ => ¬ Searchable s cur)
      (fun n t => n = (walk (agreement s) nice (candidates s chain cur) best found).1
        ∧ t = marked s (walk (agreement s) nice (candidates s chain cur) best found).2)
      (marked s found) := by
  induction chain generalizing cur best found with
  | zero => exact wp_pure.2 ⟨rfl, rfl⟩
  | succ chain ih =>
    rw [walkChain, wp_bind]
    refine (commonLength_wp (marked s found) _ _ _).mono (fun _ => mt fun ok => ?_) ?_
    · rw [Readable, marked_cfg]
      omega
    · rintro len t ⟨rfl, rfl⟩
      rw [common_marked, ← agreement_eq_common, wp_bind]
      refine (wp_of_ok marked_run).2 ?_
      rw [candidates, walk, wp_ite]
      refine ⟨fun stops => ?_, fun goes => ?_⟩
      · rw [if_pos stops, if_pos stops.1]
        exact wp_pure.2 ⟨rfl, rfl⟩
      · rw [if_neg goes, wp_state, wp_bind, marked_cfg]
        have prev := readPrev_run (cur % s.cfg.wSize) (marked s (if best < agreement s cur then some cur else found))
        rw [marked_cfg, marked_mem] at prev
        by_cases slots : 0 < s.cfg.wSize
        · rw [if_pos (Nat.mod_lt _ slots)] at prev
          refine (wp_of_ok prev).2 ?_
          rw [wp_ite]
          refine ⟨fun more => ?_, fun done => ?_⟩
          · rw [if_pos more]
            exact (ih _ _ _).mono (fun _ => mt fun h => ⟨h.1, h.2.1, h.2.2.2 _, h.2.2.2⟩) fun _ _ => id
          · rw [if_neg done]
            exact wp_pure.2 ⟨rfl, rfl⟩
        · rw [if_neg (show ¬ cur % s.cfg.wSize < s.cfg.wSize from fun h => slots (Nat.lt_of_le_of_lt (Nat.zero_le _) h))] at prev
          exact (wp_of_error prev).2 fun h => slots h.1

/-! ### LongestMatch (R260) -/

/-- How many candidates a search may compare. -/
def chainLength (s : State) : Nat :=
  if s.ct.goodLength.toNat ≤ s.mf.prevLength then s.ct.maxChain.toNat / 2 else s.ct.maxChain.toNat

/-- The place of the best match, if one is better than the match in hand. -/
def foundAt (s : State) (cur : Nat) : Option Nat :=
  if s.mf.prevLength < bestOf s cur then (compared s cur).find? (fun c => agreement s c = bestOf s cur) else none

theorem longestMatch_wp (s : State) (cur : Nat) :
    Wp (longestMatch cur) (fun _ => ¬ Searchable s cur)
      (fun n t => n = min (bestOf s cur) s.mf.lookAhead ∧ t = marked s (foundAt s cur)) s := by
  unfold longestMatch
  rw [wp_state, wp_bind]
  refine (walkChain_wp s _ (chainLength s) cur s.mf.prevLength none).mono (fun _ => id) ?_
  have searched := walk_eq (agreement s) (min s.ct.niceLength.toNat s.mf.lookAhead) s.mf.prevLength
    (candidates s (chainLength s) cur) s.mf.prevLength none (Nat.le_refl _) (.inl rfl)
  have result : walk (agreement s) (min s.ct.niceLength.toNat s.mf.lookAhead) (candidates s (chainLength s) cur)
      s.mf.prevLength none = (bestOf s cur, foundAt s cur) := searched
  rw [result]
  rintro n t ⟨rfl, rfl⟩
  exact wp_pure.2 ⟨rfl, rfl⟩

theorem agreement_le (s : State) (cur : Nat) : agreement s cur ≤ min 258 s.mf.lookAhead := common_le _ _ _ _

theorem mem_candidates {s : State} {chain cur m : Nat} (h : m ∈ candidates s chain cur) :
    m = cur ∨ (s.mf.strStart - s.cfg.maxDist < m ∧ ∃ i, (s.mem.prev.read i).toNat = m) := by
  induction chain generalizing cur with
  | zero => cases h
  | succ chain ih =>
    rw [candidates] at h
    obtain rfl | h := List.mem_cons.1 h
    · exact .inl rfl
    · split at h
      · next more =>
        obtain rfl | found := ih h
        · exact .inr ⟨more, _, rfl⟩
        · exact .inr found
      · cases h

/-- What a search finds: the first place with the best length, longer than the match in hand. -/
theorem foundAt_eq_some {s : State} {cur m : Nat} (h : foundAt s cur = some m) :
    s.mf.prevLength < bestOf s cur ∧ agreement s m = bestOf s cur ∧ m ∈ candidates s (chainLength s) cur := by
  unfold foundAt at h
  split at h
  · next better =>
    have longest := List.find?_some h
    exact ⟨better, by simpa using longest, upTo_subset _ _ m (List.mem_of_find?_eq_some h)⟩
  · cases h

theorem foundAt_eq_none {s : State} {cur : Nat} (h : foundAt s cur = none) : bestOf s cur = s.mf.prevLength := by
  unfold foundAt at h
  split at h
  · next better =>
    obtain ⟨m, found⟩ := find_of_bestIn better
    exact absurd (found.symm.trans h) nofun
  · next same => exact Nat.le_antisymm (Nat.not_lt.1 same) (le_bestIn _ _ _)

/-- A real match of length `len` at `m`. -/
structure RealMatch (s : State) (cur len m : Nat) : Prop where
  better : s.mf.prevLength < len
  size : len ≤ 258
  look : len ≤ s.mf.lookAhead
  agrees : ∀ k, k < len → s.mem.win.read (s.mf.strStart + k) = s.mem.win.read (m + k)
  place : m = cur ∨ (s.mf.strStart - s.cfg.maxDist < m ∧ ∃ i, (s.mem.prev.read i).toNat = m)

/-- What a search leaves: the match in hand cut to the lookahead, or a real match that is better. -/
theorem longestMatch_ok {cur len : Nat} {s t : State} (run : (longestMatch cur).run s = .ok len t) :
    (t = s ∧ len = min s.mf.prevLength s.mf.lookAhead)
    ∨ ∃ m : Nat, t = { s with mf := { s.mf with matchStart := BitVec.ofNat 32 m } } ∧ RealMatch s cur len m := by
  obtain ⟨rfl, rfl⟩ := (longestMatch_wp s cur).ok run
  cases found : foundAt s cur with
  | none => exact .inl ⟨rfl, by rw [foundAt_eq_none found]⟩
  | some m =>
    obtain ⟨better, longest, inside⟩ := foundAt_eq_some found
    have size := agreement_le s m
    rw [longest] at size
    have whole : min (bestOf s cur) s.mf.lookAhead = bestOf s cur := by omega
    refine .inr ⟨m, rfl, by rw [whole]; exact better, by omega, by omega, fun k hk => ?_, mem_candidates inside⟩
    rw [whole, ← longest, agreement_eq_common] at hk
    exact common_agrees s _ _ _ k hk

/-- Settles O36: a search is a walk along the list of its candidates. -/
theorem longestMatchIsAMatch : Obligations.LongestMatchIsAMatch := by
  refine ⟨fun cur len s t run => ?_, fun cur s legal _ _ window before chains => ?_⟩
  · obtain same | ⟨m, frame, better, size, look, agrees, place⟩ := longestMatch_ok run
    · exact .inl same
    · exact .inr ⟨m, frame, better, size, look, agrees, place⟩
  · have entries : ∀ i, (s.mem.prev.read i).toNat < s.mf.strStart := fun i => by
      by_cases zero : s.mem.prev.read i = 0
      · rw [zero]; exact Nat.lt_of_le_of_lt (Nat.zero_le _) before
      · exact chains _ (Arr.read_ne_zero_mem zero)
    have slots : 0 < s.cfg.wSize := by have := (sizes_of_legal legal).wSize_low; omega
    have ends := (longestMatch_wp s cur).mono (E' := fun _ => False) (fun _ h => h ⟨slots, window, before, entries⟩)
      fun _ _ => id
    obtain ⟨n, t, run, rfl, rfl⟩ := wp_false_iff.1 ends
    refine ⟨_, run, fun same => ?_, fun better => ?_⟩
    · rw [foundAt, if_neg (by omega)]
      rfl
    · obtain ⟨m, found⟩ := find_of_bestIn better
      refine ⟨m, found, ?_⟩
      rw [foundAt, if_pos better]
      exact congrArg (marked s) found

end Sys2Proof.Proofs
end

section
/-! Where a driver step leaves `strStart`, `lookAhead` and the chains: it passes at least one byte, and every position it
inserts lies below the `strStart` it leaves (41_match_finder.md R252 (a), R285, R290). Nothing is asked of the state. -/

namespace Sys2Proof.Proofs

open Sys2Proof.Machine Sys2Proof.Claims

/-! ### Chain entries below a bound -/

/-- Every chain entry is below `bound`. -/
def EntriesBelow (bound : Nat) (s : State) : Prop :=
  (∀ p ∈ s.mem.head, p.2.toNat < bound) ∧ (∀ p ∈ s.mem.prev, p.2.toNat < bound)

theorem EntriesBelow.of_same {bound : Nat} {s t : State} (head : t.mem.head = s.mem.head) (prev : t.mem.prev = s.mem.prev)
    (h : EntriesBelow bound s) : EntriesBelow bound t := by
  rw [EntriesBelow, head, prev]
  exact h

theorem EntriesBelow.mono {low high : Nat} {s : State} (le : low ≤ high) (h : EntriesBelow low s) : EntriesBelow high s :=
  ⟨fun p hp => Nat.lt_of_lt_of_le (h.1 p hp) le, fun p hp => Nat.lt_of_lt_of_le (h.2 p hp) le⟩

theorem insertString_ok {pos r : Nat} {s t : State} (run : (insertString pos).run s = .ok r t) :
    t = inserted pos s ∧ r = (s.mem.head.read (hashAt s pos).toNat).toNat ∧ pos + 2 < s.cfg.windowBytes := by
  unfold insertString at run
  obtain ⟨b, u, read, run⟩ := Op.bind_inv run
  rw [readWin_run] at read
  split at read <;> cases read
  next inside =>
    rw [Op.update_bind, Op.state_bind] at run
    obtain ⟨old, v, head, run⟩ := Op.bind_inv run
    rw [readHead_run] at head
    split at head <;> cases head
    obtain ⟨⟨⟩, w, prev, run⟩ := Op.bind_inv run
    rw [writePrev_run] at prev
    split at prev <;> cases prev
    obtain ⟨⟨⟩, x, write, last⟩ := Op.bind_inv run
    rw [writeHead_run] at write
    split at write <;> cases write
    cases last
    exact ⟨rfl, rfl, inside⟩

theorem toNat_ofNat16_le (pos : Nat) : (BitVec.ofNat 16 pos).toNat ≤ pos := by
  rw [BitVec.toNat_ofNat]
  exact Nat.mod_le _ _

theorem inserted_below {bound pos : Nat} {s : State} (low : pos < bound) (h : EntriesBelow bound s) :
    EntriesBelow bound (inserted pos s) := by
  obtain ⟨head, prev⟩ := h
  refine ⟨fun p hp => ?_, fun p hp => ?_⟩
  · obtain ⟨rfl, -⟩ | old := Arr.mem_write hp
    · exact Nat.lt_of_le_of_lt (toNat_ofNat16_le pos) low
    · exact head p old
  · obtain ⟨rfl, nonzero⟩ | old := Arr.mem_write hp
    · have entry := head _ (Arr.read_ne_zero_mem nonzero)
      exact entry
    · exact prev p old

/-! ### Operations that move nothing -/

/-- `strStart`, `lookAhead` and the chains are as they were. -/
structure Quiet (s t : State) : Prop where
  start : t.mf.strStart = s.mf.strStart
  look : t.mf.lookAhead = s.mf.lookAhead
  head : t.mem.head = s.mem.head
  prev : t.mem.prev = s.mem.prev

theorem Quiet.order : Op.Order Quiet where
  refl _ := ⟨rfl, rfl, rfl, rfl⟩
  trans h k := ⟨k.start.trans h.start, k.look.trans h.look, k.head.trans h.head, k.prev.trans h.prev⟩

theorem Tallies.quiet {s t : State} (h : Tallies s t) : Quiet s t := by
  have mf := h.mf
  exact ⟨by rw [mf], by rw [mf], by rw [show t = _ from h], by rw [show t = _ from h]⟩

theorem Flushed.quiet {s t : State} (h : Flushed s t) : Quiet s t := by
  obtain ⟨frame, -, -⟩ := h
  exact ⟨by rw [frame], by rw [frame], by rw [frame], by rw [frame]⟩

theorem quiet_flushIf (bflush : Bool) : Leads Quiet (flushIf bflush) :=
  leads_when Quiet.order fun _ _ _ run => (flushBlock_ok run).1.quiet

theorem quiet_searchFrom (head : Nat) : Leads Quiet (searchFrom head) := by
  refine leads_bind Quiet.order (fun s n t run => ?_) fun _ => leads_update fun _ => ⟨rfl, rfl, rfl, rfl⟩
  obtain ⟨rfl, -⟩ | ⟨m, rfl, -⟩ := longestMatch_ok run
  · exact Quiet.order.refl _
  · exact ⟨rfl, rfl, rfl, rfl⟩

theorem quiet_checkWindow : Leads Quiet checkWindow := leads_read fun _ => leads_require Quiet.order

theorem quiet_dropShort (s : State) : Quiet s s.dropShort := by
  unfold State.dropShort
  split <;> exact ⟨rfl, rfl, rfl, rfl⟩

theorem quiet_slowSearch (head : Nat) : Leads Quiet (slowSearch head) :=
  leads_read fun _ => leads_when Quiet.order (leads_bind Quiet.order (leads_when Quiet.order (quiet_searchFrom _)) fun _ =>
    leads_update quiet_dropShort)

theorem quiet_flushDeferred : Leads Quiet flushDeferred :=
  leads_read fun _ => leads_when Quiet.order (leads_bind Quiet.order
    (tallies_tallyDeferred.mono fun _ _ => Tallies.quiet) fun _ => leads_update fun _ => ⟨rfl, rfl, rfl, rfl⟩)

/-! ### Operations that move `strStart` -/

/-- `strStart` moves by `n` with the lookahead as it is; what is inserted is at most the `strStart` left. -/
structure Moves (n : Nat) (s t : State) : Prop where
  start : t.mf.strStart = s.mf.strStart + n
  look : t.mf.lookAhead = s.mf.lookAhead
  below : ∀ bound, t.mf.strStart < bound → EntriesBelow bound s → EntriesBelow bound t

theorem Quiet.moves {s t : State} (h : Quiet s t) : Moves 0 s t :=
  ⟨h.start, h.look, fun _ _ below => below.of_same h.head h.prev⟩

theorem Moves.trans {n m : Nat} {s t u : State} (h : Moves n s t) (k : Moves m t u) : Moves (n + m) s u := by
  obtain ⟨start, look, below⟩ := h
  obtain ⟨start', look', below'⟩ := k
  exact ⟨by omega, by omega, fun bound less entries => below' bound less (below bound (by omega) entries)⟩

/-- `strStart` moves by `n` and takes the `n` bytes off the lookahead; what is inserted is below the `strStart` left. -/
structure Passes (n : Nat) (s t : State) : Prop where
  start : t.mf.strStart = s.mf.strStart + n
  look : t.mf.lookAhead + n = s.mf.lookAhead
  below : ∀ bound, t.mf.strStart ≤ bound → EntriesBelow bound s → EntriesBelow bound t

theorem Passes.quiet {n : Nat} {s t u : State} (h : Passes n s t) (k : Quiet t u) : Passes n s u :=
  ⟨k.start.trans h.start, by rw [k.look]; exact h.look,
    fun bound le entries => (h.below bound (k.start ▸ le) entries).of_same k.head k.prev⟩

/-- Moves and a last `strStart + 1`, with the lookahead taken on the way. -/
theorem passes_of_moves {k n : Nat} {s t u v : State} (before : Moves 0 s t) (taken : n ≤ t.mf.lookAhead)
    (moves : Moves k (t.setMf { t.mf with lookAhead := t.mf.lookAhead - n }) u) (count : n = k + 1)
    (start : v.mf.strStart = u.mf.strStart + 1) (look : v.mf.lookAhead = u.mf.lookAhead)
    (head : v.mem.head = u.mem.head) (prev : v.mem.prev = u.mem.prev) : Passes n s v := by
  have startU : u.mf.strStart = t.mf.strStart + k := moves.start
  have lookU : u.mf.lookAhead = t.mf.lookAhead - n := moves.look
  have startT := before.start
  have lookT := before.look
  refine ⟨by omega, by omega, fun bound le entries => ?_⟩
  have entriesT := before.below bound (by omega) entries
  exact (moves.below bound (by omega) (entriesT.of_same rfl rfl)).of_same head prev

theorem moves_insertString {pos r : Nat} {s t : State} (low : pos ≤ s.mf.strStart)
    (run : (insertString pos).run s = .ok r t) : Moves 0 s t := by
  obtain ⟨rfl, -, -⟩ := insertString_ok run
  exact ⟨rfl, rfl, fun bound less => inserted_below (Nat.lt_of_le_of_lt low less)⟩

theorem moves_insertHere {r : Nat} {s t : State} (run : insertHere.run s = .ok r t) : Moves 0 s t := by
  unfold insertHere at run
  rw [Op.state_bind] at run
  split at run
  · exact moves_insertString (Nat.le_refl _) run
  · cases run
    exact (Quiet.order.refl _).moves

theorem moves_skipFast {s t : State} (run : skipFast.run s = .ok () t) : Moves 1 s t := by
  unfold skipFast advance at run
  rw [Op.update_bind, Op.state_bind] at run
  obtain ⟨r, u, insert, last⟩ := Op.bind_inv run
  cases last
  have first : Moves 1 s (s.setMf { s.mf with strStart := s.mf.strStart + 1 }) := ⟨rfl, rfl, fun _ _ h => h⟩
  exact first.trans (moves_insertString (Nat.le_refl _) insert)

theorem moves_skipSlow {fence : Nat} {s t : State} (run : (skipSlow fence).run s = .ok () t) : Moves 1 s t := by
  unfold skipSlow advance at run
  rw [Op.update_bind, Op.state_bind] at run
  have first : Moves 1 s (s.setMf { s.mf with strStart := s.mf.strStart + 1 }) := ⟨rfl, rfl, fun _ _ h => h⟩
  unfold Op.when at run
  split at run
  · obtain ⟨r, u, insert, last⟩ := Op.bind_inv run
    cases last
    exact first.trans (moves_insertString (Nat.le_refl _) insert)
  · cases run
    exact first

theorem moves_times {x : Op Unit} (h : ∀ s t, x.run s = .ok () t → Moves 1 s t) {k : Nat} {s t : State}
    (run : (Op.times k x).run s = .ok () t) : Moves k s t := by
  induction k generalizing s with
  | zero => cases run; exact (Quiet.order.refl _).moves
  | succ k ih =>
    obtain ⟨⟨⟩, u, first, rest⟩ := Op.bind_inv (x := x) run
    have moved := (h s u first).trans (ih rest)
    rwa [Nat.add_comm] at moved

theorem takeLook_ok {n : Nat} {s t : State} (run : (takeLook n).run s = .ok () t) :
    n ≤ s.mf.lookAhead ∧ t = s.setMf { s.mf with lookAhead := s.mf.lookAhead - n } := by
  rw [takeLook_run] at run
  split at run <;> cases run
  exact ⟨‹_›, rfl⟩

/-! ### The steps of FAST (R285) -/

theorem fastPass_passes {n : Nat} {s t u v : State} (before : Moves 0 s t) (some : 1 ≤ n)
    (look : (takeLook n).run t = .ok () u) (pass : (fastPass n).run u = .ok () v) : Passes n s v := by
  obtain ⟨taken, rfl⟩ := takeLook_ok look
  unfold fastPass at pass
  rw [Op.state_bind] at pass
  split at pass
  · obtain ⟨⟨⟩, w, skips, last⟩ := Op.bind_inv pass
    cases last
    exact passes_of_moves before taken (moves_times (fun _ _ => moves_skipFast) skips) (by omega) rfl rfl rfl rfl
  · unfold advance at pass
    rw [Op.update_bind] at pass
    cases pass
    have still : Moves (n - 1) (t.setMf { t.mf with lookAhead := t.mf.lookAhead - n })
        (t.setMf { t.mf with lookAhead := t.mf.lookAhead - n, strStart := t.mf.strStart + (n - 1) }) :=
      ⟨rfl, rfl, fun _ _ h => h⟩
    refine passes_of_moves before taken still (by omega) ?_ rfl rfl rfl
    change t.mf.strStart + n = t.mf.strStart + (n - 1) + 1
    omega

theorem fastStep_passes {s t : State} {l : LoopStep} (run : fastStep.run s = .ok l t) : ∃ n, 1 ≤ n ∧ Passes n s t := by
  unfold fastStep at run
  obtain ⟨head, u, insert, run⟩ := Op.bind_inv run
  rw [Op.state_bind] at run
  obtain ⟨⟨⟩, v, search, run⟩ := Op.bind_inv run
  obtain ⟨bflush, w, token, run⟩ := Op.bind_inv run
  obtain ⟨⟨⟩, x, flush, run⟩ := Op.bind_inv run
  obtain ⟨⟨⟩, y, check, last⟩ := Op.bind_inv run
  cases last
  have searched : Moves 0 s v :=
    (moves_insertHere insert).trans (leads_when Quiet.order (quiet_searchFrom _) u () v search).moves
  have ended := Quiet.order.trans (quiet_flushIf _ w () x flush) (quiet_checkWindow x () t check)
  suffices passes : ∃ n, 1 ≤ n ∧ Passes n s w from passes.imp fun n h => ⟨h.1, h.2.quiet ended⟩
  unfold fastToken at token
  rw [Op.state_bind] at token
  split at token
  · next long =>
    have three : MIN_MATCH = 3 := rfl
    unfold fastMatch at token
    rw [Op.state_bind] at token
    obtain ⟨b, a1, tallied, token⟩ := Op.bind_inv token
    obtain ⟨⟨⟩, a2, look, token⟩ := Op.bind_inv token
    obtain ⟨⟨⟩, a3, pass, last⟩ := Op.bind_inv token
    cases last
    refine ⟨v.mf.matchLength, by omega, ?_⟩
    exact (fastPass_passes (searched.trans (tallies_tally _ _ v _ a1 tallied).quiet.moves) (by omega) look pass).quiet
      ⟨rfl, rfl, rfl, rfl⟩
  · unfold fastLiteral at token
    rw [Op.state_bind] at token
    obtain ⟨b, a1, tallied, token⟩ := Op.bind_inv token
    obtain ⟨⟨⟩, a2, look, last⟩ := Op.bind_inv token
    obtain ⟨taken, rfl⟩ := takeLook_ok look
    cases last
    exact ⟨1, Nat.le_refl _, passes_of_moves (searched.trans (tallies_tallyLiteral _ v _ a1 tallied).quiet.moves) taken
      (Quiet.order.refl _).moves rfl rfl rfl rfl rfl⟩

/-! ### The steps of SLOW (R290) -/

theorem slowCommit_passes {s t u : State} (before : Moves 0 s t) (long : 3 ≤ t.mf.prevLength)
    (run : slowCommit.run t = .ok () u) : ∃ n, 1 ≤ n ∧ Passes n s u := by
  unfold slowCommit at run
  rw [Op.state_bind] at run
  obtain ⟨b, v, tallied, run⟩ := Op.bind_inv run
  obtain ⟨⟨⟩, w, look, run⟩ := Op.bind_inv run
  obtain ⟨⟨⟩, x, skips, run⟩ := Op.bind_inv run
  rw [Op.update_bind] at run
  have ended := quiet_flushIf _ _ _ _ run
  obtain ⟨taken, rfl⟩ := takeLook_ok look
  refine ⟨t.mf.prevLength - 1, by omega, Passes.quiet ?_ ended⟩
  exact passes_of_moves (before.trans (tallies_tally _ _ t b v tallied).quiet.moves) taken
    (moves_times (fun _ _ => moves_skipSlow) skips) (by omega) rfl rfl rfl rfl

theorem slowDecide_passes {s t u : State} (before : Moves 0 s t) (run : slowDecide.run t = .ok () u) :
    ∃ n, 1 ≤ n ∧ Passes n s u := by
  unfold slowDecide at run
  rw [Op.state_bind] at run
  split at run
  · next commit => exact slowCommit_passes before commit.1 run
  · split at run
    · unfold slowLiteral at run
      obtain ⟨b, v, tallied, run⟩ := Op.bind_inv run
      obtain ⟨⟨⟩, w, flush, run⟩ := Op.bind_inv run
      unfold advance at run
      rw [Op.update_bind] at run
      obtain ⟨taken, rfl⟩ := takeLook_ok run
      have quiet := Quiet.order.trans (tallies_tallyDeferred t b v tallied).quiet (quiet_flushIf _ v () w flush)
      exact ⟨1, Nat.le_refl _, passes_of_moves (before.trans quiet.moves) taken (Quiet.order.refl _).moves rfl rfl rfl rfl rfl⟩
    · unfold slowDefer advance at run
      rw [Op.update_bind, Op.update_bind] at run
      obtain ⟨taken, rfl⟩ := takeLook_ok run
      exact ⟨1, Nat.le_refl _, passes_of_moves before taken (Quiet.order.refl _).moves rfl rfl rfl rfl rfl⟩

theorem slowStep_passes {s t : State} {l : LoopStep} (run : slowStep.run s = .ok l t) : ∃ n, 1 ≤ n ∧ Passes n s t := by
  unfold slowStep at run
  obtain ⟨head, u, insert, run⟩ := Op.bind_inv run
  rw [Op.update_bind] at run
  obtain ⟨⟨⟩, v, search, run⟩ := Op.bind_inv run
  obtain ⟨⟨⟩, w, decides, run⟩ := Op.bind_inv run
  obtain ⟨⟨⟩, x, check, last⟩ := Op.bind_inv run
  cases last
  have first : Quiet u (u.setMf { u.mf with
      prevLength := u.mf.matchLength, prevMatch := u.mf.matchStart, matchLength := MIN_MATCH - 1 }) := ⟨rfl, rfl, rfl, rfl⟩
  have searched := (moves_insertHere insert).trans (Quiet.order.trans first (quiet_slowSearch _ _ () v search)).moves
  obtain ⟨n, some, passes⟩ := slowDecide_passes searched decides
  exact ⟨n, some, passes.quiet (quiet_checkWindow w () t check)⟩

/-! ### The steps of STORED (R280) -/

/-- How many bytes a round of STORED takes. -/
def storedTake (s : State) : Nat :=
  (min (s.mf.lookAhead : Int) ((s.cfg.storedMax : Int) - ((s.mf.strStart : Int) - s.mf.blockStart))).toNat

theorem storedTake_le (s : State) : storedTake s ≤ s.mf.lookAhead := by
  unfold storedTake
  omega

/-- The state after the bytes of a round of STORED have joined the pending block. -/
def storedTaken (s : State) : State :=
  { s with mf := { s.mf with strStart := s.mf.strStart + storedTake s, lookAhead := s.mf.lookAhead - storedTake s } }

/-- The pending block has reached `STORED_MAX`. -/
abbrev BlockDue (s : State) : Prop := (s.mf.strStart : Int) - s.mf.blockStart = (s.cfg.storedMax : Int)

/-- A round of STORED: the bytes taken, the block ended if it is due, the window checked. -/
theorem storedStep_eq (s : State) : storedStep.run s
    = (Op.when (BlockDue (storedTaken s)) (flushBlock 0) >>= fun _ => checkWindow >>= fun _ => pure .again).run (storedTaken s) := by
  have look : (takeLook (storedTake s)).run (s.setMf { s.mf with strStart := s.mf.strStart + storedTake s })
      = .ok () (storedTaken s) := by
    rw [takeLook_run]
    exact if_pos (storedTake_le s)
  unfold storedStep advance
  rw [Op.state_bind, Op.update_bind]
  exact Op.bind_ok look

theorem storedStep_ok {s t : State} {l : LoopStep} (run : storedStep.run s = .ok l t) :
    (if BlockDue (storedTaken s) then (flushBlock 0).run (storedTaken s) = .ok () t else t = storedTaken s) ∧ WindowOrder t := by
  rw [storedStep_eq] at run
  obtain ⟨⟨⟩, u, flush, run⟩ := Op.bind_inv run
  obtain ⟨⟨⟩, v, check, last⟩ := Op.bind_inv run
  cases last
  rw [checkWindow_run] at check
  split at check <;> cases check
  refine ⟨?_, ‹_›⟩
  split
  · next due => rw [Op.when_pos due] at flush; exact flush
  · next notDue => rw [Op.when_neg notDue] at flush; cases flush; rfl

theorem storedStep_passes {s t : State} {l : LoopStep} (run : storedStep.run s = .ok l t) : Passes (storedTake s) s t := by
  have taken : Passes (storedTake s) s (storedTaken s) := ⟨rfl, Nat.sub_add_cancel (storedTake_le s), fun _ _ h => h⟩
  have ended := (storedStep_ok run).1
  split at ended
  · exact taken.quiet (flushBlock_ok ended).1.quiet
  · subst ended
    exact taken

end Sys2Proof.Proofs
end

section
/-! What every step of the machine keeps, and that no command outlasts its loops (60_exceptions.md R506, R513, 10_state.md R31
to R36, R53, 41_match_finder.md R252 (a), R280). -/

namespace Sys2Proof.Proofs

open Sys2Proof.Machine Sys2Proof.Claims

/-! ### The loop of a driver, and what closes it -/

/-- One round of a driver. -/
def roundOf (f : BitVec 3) : Driver → Op LoopStep
  | .stored => storedRound f
  | .fast => matchRound f fastStep
  | .slow => matchRound f slowStep

/-- What a round does once there is lookahead. -/
def stepOf : Driver → Op LoopStep
  | .stored => storedStep
  | .fast => fastStep
  | .slow => slowStep

/-- Below how much lookahead a round fills. -/
def fillBelow : Driver → Nat
  | .stored => 1
  | .fast => MIN_LOOKAHEAD
  | .slow => MIN_LOOKAHEAD

theorem stepOf_goesOn (d : Driver) : GoesOn (stepOf d) := by
  cases d with
  | stored => exact storedStep_goesOn
  | fast => exact fastStep_goesOn
  | slow => exact slowStep_goesOn

theorem roundOf_keeps (f : BitVec 3) (d : Driver) : Op.Keeps Inside (roundOf f d) := by
  cases d with
  | stored => exact storedRound_keeps f
  | fast => exact matchRound_keeps f fastStep_keeps
  | slow => exact matchRound_keeps f slowStep_keeps

/-- A round leaves the loop after a fill, or it steps. -/
theorem roundOf_cases {f : BitVec 3} {d : Driver} {s u : State} {l : LoopStep} (run : (roundOf f d).run s = .ok l u) :
    ∃ t, FilledBelow (fillBelow d) s t
      ∧ ((l ≠ .again ∧ u = t ∧ fillWindow.run s = .ok () t) ∨ (l = .again ∧ t.mf.lookAhead ≠ 0 ∧ (stepOf d).run t = .ok .again u)) := by
  have filled : ∀ {bound : Nat} {t : State}, FilledBelow bound s t → s.mf.lookAhead < bound → fillWindow.run s = .ok () t :=
    fun fill due => (fill.resolve_left fun full => by have := full.1; omega).2
  have matched : ∀ {step : Op LoopStep}, GoesOn step → (matchRound f step).run s = .ok l u → ∃ t, FilledBelow MIN_LOOKAHEAD s t
      ∧ ((l ≠ .again ∧ u = t ∧ fillWindow.run s = .ok () t) ∨ (l = .again ∧ t.mf.lookAhead ≠ 0 ∧ step.run t = .ok .again u)) := by
    intro step goesOn run
    obtain ⟨t, fill, ⟨rfl, rfl, due, -⟩ | ⟨rfl, rfl, due, -⟩ | ⟨some, work⟩⟩ := matchRound_cases run
    · exact ⟨u, fill, .inl ⟨nofun, rfl, filled fill due⟩⟩
    · exact ⟨u, fill, .inl ⟨nofun, rfl, filled fill due⟩⟩
    · obtain rfl := goesOn t l u work
      exact ⟨t, fill, .inr ⟨rfl, some, work⟩⟩
  cases d with
  | fast => exact matched fastStep_goesOn run
  | slow => exact matched slowStep_goesOn run
  | stored =>
    obtain ⟨t, fill, ⟨rfl, rfl, due, -⟩ | ⟨some, work⟩⟩ := storedRound_cases run
    · exact ⟨u, fill, .inl ⟨by split <;> exact nofun, rfl, filled fill (by omega)⟩⟩
    · obtain rfl := storedStep_goesOn t l u work
      exact ⟨t, fill, .inr ⟨rfl, some, work⟩⟩

theorem roundOf_done {f : BitVec 3} {d : Driver} {s u : State} {l : LoopStep} (run : (roundOf f d).run s = .ok l u)
    (stop : l ≠ .again) : LoopDone f (d = .stored) l u := by
  cases d with
  | stored => exact storedRound_done run stop
  | fast => exact matchRound_done fastStep_goesOn run stop
  | slow => exact matchRound_done slowStep_goesOn run stop

/-- What closes a driver after its loop has left `u`: nothing for NO_FLUSH, else what SLOW holds back and the last block. -/
structure Closing (f : BitVec 3) (d : Driver) (u t : State) : Prop where
  noFlush : f = NO_FLUSH → t = u
  flush : f ≠ NO_FLUSH → ∃ v, (if d = .slow then flushDeferred.run u = .ok () v else v = u)
    ∧ (flushBlock (if f = FINISH then 1 else 0)).run v = .ok () t

theorem endDrive_inv {f : BitVec 3} {stored : Bool} {l : LoopStep} {u v t : State} {r : DriveResult}
    (done : LoopDone f stored l u) (run : (endDrive f l).run v = .ok r t) : (f = NO_FLUSH → t = v)
      ∧ (f ≠ NO_FLUSH → (flushBlock (if f = FINISH then 1 else 0)).run v = .ok () t) := by
  have answer := done.answer
  by_cases noFlush : f = NO_FLUSH
  · rw [if_pos noFlush] at answer
    subst answer
    cases run
    exact ⟨fun _ => rfl, fun h => absurd noFlush h⟩
  · rw [if_neg noFlush] at answer
    subst answer
    obtain ⟨⟨⟩, w, flush, last⟩ := Op.bind_inv (x := flushBlock (if f = FINISH then 1 else 0)) run
    cases last
    exact ⟨fun h => absurd h noFlush, fun _ => flush⟩

/-- A driver is its loop and what closes it. -/
theorem drive_inv {f : BitVec 3} {s t : State} {r : DriveResult} (run : (drive f).run s = .ok r t) :
    ∃ l u, (Op.iterate (roundOf f s.ct.driver) (s.mf.lookAhead + s.mem.input.length + 2)).run s = .ok l u
      ∧ LoopDone f (s.ct.driver = .stored) l u ∧ Closing f s.ct.driver u t := by
  unfold drive at run
  rw [Op.state_bind] at run
  have looped : ∀ {d : Driver} {fuel : Nat} {l : LoopStep} {u : State}, (Op.iterate (roundOf f d) fuel).run s = .ok l u →
      LoopDone f (d = .stored) l u := fun loop =>
    (Op.iterate_inv (P := fun _ => True) (fun _ _ _ _ => trivial) (fun _ _ _ h k => roundOf_done h k) trivial loop).2
  cases driver : s.ct.driver with
  | stored =>
    rw [driver] at run
    obtain ⟨l, u, loop, run⟩ := Op.bind_inv (x := Op.iterate (roundOf f .stored) _) run
    obtain ⟨noFlush, flush⟩ := endDrive_inv (looped loop) run
    exact ⟨l, u, loop, looped loop, noFlush, fun h => ⟨u, rfl, flush h⟩⟩
  | fast =>
    rw [driver] at run
    obtain ⟨l, u, loop, run⟩ := Op.bind_inv (x := Op.iterate (roundOf f .fast) _) run
    obtain ⟨noFlush, flush⟩ := endDrive_inv (looped loop) run
    exact ⟨l, u, loop, looped loop, noFlush, fun h => ⟨u, rfl, flush h⟩⟩
  | slow =>
    rw [driver] at run
    obtain ⟨l, u, loop, run⟩ := Op.bind_inv (x := Op.iterate (roundOf f .slow) _) run
    obtain ⟨⟨⟩, v, deferred, run⟩ := Op.bind_inv (x := Op.when (l = .exit) flushDeferred) run
    have done := looped loop
    obtain ⟨noFlush, flush⟩ := endDrive_inv done run
    have answer := done.answer
    refine ⟨l, u, loop, done, fun h => ?_, fun h => ⟨v, ?_, flush h⟩⟩
    · rw [if_pos h] at answer
      rw [Op.when_neg (by rw [answer]; exact nofun)] at deferred
      cases deferred
      exact noFlush h
    · rw [if_neg h] at answer
      rw [Op.when_pos answer] at deferred
      exact deferred

/-- What a driver's loop keeps from round to round holds where it ends; `fill` and `step` are the two parts of a round. -/
theorem loop_keeps {f : BitVec 3} {d : Driver} {P : State → Prop} {fuel : Nat} {s u : State} {l : LoopStep}
    (fill : ∀ s t, P s → fillWindow.run s = .ok () t → P t)
    (step : ∀ s t, P s → s.mf.lookAhead ≠ 0 → (stepOf d).run s = .ok .again t → P t)
    (start : P s) (loop : (Op.iterate (roundOf f d) fuel).run s = .ok l u) : P u := by
  have filled : ∀ s t, P s → FilledBelow (fillBelow d) s t → P t := fun s t p h => by
    obtain ⟨-, rfl⟩ | ⟨-, run⟩ := h
    · exact p
    · exact fill s t p run
  have round : ∀ s t l, P s → (roundOf f d).run s = .ok l t → P t := fun s t l p run => by
    obtain ⟨v, fill, ⟨-, rfl, -⟩ | ⟨-, some, work⟩⟩ := roundOf_cases run
    · exact filled s _ p fill
    · exact step v t (filled s v p fill) some work
  exact (Op.iterate_inv (fun s t p run => round s t _ p run) (fun s t p run _ => round s t _ p run) start loop).2

/-! ### Invariants of a session, step by step -/

/-- An invariant `I` of open sessions, kept by COMPRESS from states as in `Pre`; it says nothing of the port and `OUT`. -/
structure SessionInvariant (Pre I : State → Prop) : Prop where
  closed : ∀ s, ¬ s.isOpen → I s
  fresh : ∀ c s, c.legal = true → I ((opened c s).answer okReply)
  port : ∀ s p, I s → I (s.setPort p)
  emptied : ∀ s, I s → I (s.setMem { s.mem with out := [] })
  emits : ∀ s t, Emits s t → I s → I t
  compressed : ∀ f c s r t, f ≤ FINISH → s.ctl.fsm = .busy → Pre s → I s → (compressBusy f c).run s = .ok r t → I t

theorem SessionInvariant.exec {Pre I : State → Prop} (inv : SessionInvariant Pre I) {i : Instr} {s t : State}
    (run : exec i s = .next t) (pre : Pre s) (holds : I s) : I t := by
  by_cases configure : IsConfigure i
  · obtain ⟨level, method, windowBits, memLevel, strategy, rfl⟩ := configure
    cases configure_cases run with
    | opened legal => exact inv.fresh _ _ legal
    | refused => exact inv.closed _ (raise_not_open _ _)
    | fault => exact inv.closed _ (raise_not_open _ _)
  · cases exec_cases configure run with
    | emitted element emits inside => exact inv.emits s t emits holds
    | getBytes => exact inv.port s _ holds
    | takeBytes => exact inv.port _ _ (inv.emptied s holds)
    | getCrc => exact inv.port s _ holds
    | finished => exact inv.port s _ holds
    | compressed kind mode busy ended => exact inv.port _ _ (inv.compressed _ _ s _ _ mode busy pre holds ended)
    | fault => exact inv.closed _ (raise_not_open _ _)

theorem SessionInvariant.step {Pre I : State → Prop} (inv : SessionInvariant Pre I) (prePort : ∀ s p, Pre s → Pre (s.setPort p))
    {s t : State} (run : Machine.step s = .next t) (pre : Pre s) (holds : I s) : I t := by
  obtain rfl | ⟨rest, ⟨i, run⟩ | rfl⟩ := step_cases run
  · exact holds
  · exact inv.exec run (prePort s _ pre) (inv.port s _ holds)
  · exact inv.closed _ (raise_not_open _ _)

/-- A duplicate flush touches control and an empty `IN` alone; any other COMPRESS drives. -/
theorem compressBusy_cases {f : BitVec 3} {c : List Byte} {s t : State} {r : Reply}
    (run : (compressBusy f c).run s = .ok r t) :
    t = (s.setMem { s.mem with input := [] }).setCtl { s.ctl with lastFlush := f }
    ∨ ∃ d u, ¬ Duplicate s f c ∧ (drive f).run (started f c s) = .ok d u ∧ Ending f u r t := by
  by_cases dup : Duplicate s f c
  · obtain ⟨rfl, previous, notFinish⟩ := dup
    rw [compressBusy_run_of_duplicate previous notFinish] at run
    cases run
    exact .inl rfl
  · rw [compressBusy_run_of_driven dup] at run
    obtain ⟨d, u, drv, ending⟩ := driven_inv run
    exact .inr ⟨d, u, dup, drv, ending⟩

theorem Ending.mf {f : BitVec 3} {u t : State} {r : Reply} (h : Ending f u r t) : t.mf = u.mf ∧ t.cfg = u.cfg ∧ t.ct = u.ct
    ∧ t.tok = u.tok ∧ t.hb = u.hb := by
  have frame := h.frame.1
  exact ⟨by rw [frame], by rw [frame], by rw [frame], by rw [frame], by rw [frame]⟩

theorem Closing.quiet {f : BitVec 3} {d : Driver} {u t : State} (h : Closing f d u t) : Quiet u t := by
  by_cases noFlush : f = NO_FLUSH
  · rw [h.noFlush noFlush]
    exact Quiet.order.refl u
  · obtain ⟨v, deferred, flush⟩ := h.flush noFlush
    refine Quiet.order.trans ?_ (flushBlock_ok flush).1.quiet
    split at deferred
    · exact quiet_flushDeferred u () v deferred
    · subst deferred
      exact Quiet.order.refl _

/-! ### The window (R506) -/

theorem drive_windowOrder {f : BitVec 3} {s t : State} {r : DriveResult} (run : (drive f).run s = .ok r t) : WindowOrder t := by
  have cfg := ((drive_keeps f).ok run).cfg
  obtain ⟨l, u, loop, -, closing⟩ := drive_inv run
  have order : WindowOrder u := by
    refine (Op.iterate_inv (P := fun _ => True) (fun _ _ _ _ => trivial) (fun s t _ round stop => ?_) trivial loop).2
    obtain ⟨v, -, ⟨-, rfl, fill⟩ | ⟨again, -⟩⟩ := roundOf_cases round
    · exact (fillWindow_ok fill).2
    · exact absurd again stop
  have kept := (Op.keeps_iterate Inside.order (roundOf_keeps f s.ct.driver) _).ok loop
  obtain ⟨start, look, -, -⟩ := closing.quiet
  refine ⟨by rw [start, look, cfg, ← kept.cfg]; exact order.1, ?_⟩
  by_cases noFlush : f = NO_FLUSH
  · rw [closing.noFlush noFlush]
    exact order.2
  · obtain ⟨v, -, flush⟩ := closing.flush noFlush
    rw [(flushBlock_ok flush).1.frame]

theorem windowInvariant : SessionInvariant (fun _ => True) State.WindowOk where
  closed _ closed session := absurd session closed
  fresh _ _ _ _ := ⟨Nat.zero_le _, Int.le_refl _⟩
  port _ _ h := h
  emptied _ h := h
  emits s t emits h session := by
    rw [emits.frame] at session ⊢
    exact h session
  compressed f c s r t mode busy _ h run := by
    obtain rfl | ⟨d, u, -, drv, ending⟩ := compressBusy_cases run
    · exact fun _ => h (.inl busy)
    · intro _
      obtain ⟨mf, cfg, -⟩ := ending.mf
      rw [mf, cfg]
      exact drive_windowOrder drv

/-! ### The accumulator (R53) -/

theorem accInvariant : SessionInvariant (fun _ => True) State.AccOk where
  closed _ closed session := absurd session closed
  fresh _ _ _ _ := aligned_ok
  port _ _ h := h
  emptied _ h := h
  emits s t emits h session := by
    have ctl : t.ctl = s.ctl := by rw [emits.frame]
    exact emits.acc (h (by rw [State.isOpen, ← ctl]; exact session))
  compressed f c s r t mode busy _ h run := fun _ => (compressBusy_ok run).acc (h (.inl busy))

/-! ### The chains (R252 (a)) -/

/-- Every chain entry is below the end of the data. -/
def ChainsBelowEnd (s : State) : Prop := EntriesBelow (s.mf.strStart + s.mf.lookAhead) s

theorem rebase_below {a : Arr 16} {wSize bound : Nat} (due : wSize ≤ bound) (h : ∀ p ∈ a, p.2.toNat < bound) :
    ∀ p ∈ a.rebase wSize, p.2.toNat < bound - wSize := by
  intro p hp
  obtain ⟨v, inside, above, value⟩ := Arr.mem_rebase hp
  have low : v.toNat < bound := h _ inside
  rw [value]
  exact Nat.lt_of_le_of_lt (toNat_ofNat16_le _) (by omega)

theorem slidIf_below {s : State} {bound : Nat} (h : EntriesBelow bound s) (ahead : s.mf.strStart ≤ bound) :
    EntriesBelow (bound - (s.mf.strStart - (slidIf s).mf.strStart)) (slidIf s) := by
  unfold slidIf
  split
  · next slides =>
    have due := (mustSlide_iff s).1 slides
    have size : s.mf.strStart - (slid s).mf.strStart = s.cfg.wSize := by
      change s.mf.strStart - (s.mf.strStart - s.cfg.wSize) = _
      omega
    rw [size]
    exact ⟨rebase_below (by omega) h.1, rebase_below (by omega) h.2⟩
  · rw [Nat.sub_self]
    exact h

theorem quiet_readBuf (dst size : Nat) : Leads Quiet (readBuf dst size) := by
  intro s n t run
  rw [readBuf_run] at run
  dsimp only at run
  split at run
  · cases run; exact ⟨rfl, rfl, rfl, rfl⟩
  · split at run <;> cases run
    exact ⟨rfl, rfl, rfl, rfl⟩

theorem fillStep_chains {s t : State} {l : LoopStep} (run : fillStep.run s = .ok l t) (h : ChainsBelowEnd s) :
    ChainsBelowEnd t := by
  unfold fillStep at run
  rw [Op.state_bind] at run
  obtain ⟨⟨⟩, u, slides, run⟩ := Op.bind_inv run
  obtain ⟨rfl, -⟩ := slideIf_ok slides
  have slidChains : ChainsBelowEnd (slidIf s) := by
    have less : (slidIf s).mf.strStart ≤ s.mf.strStart := by rw [slidIf_strStart]; split <;> omega
    refine (slidIf_below h (by omega)).mono ?_
    rw [slidIf_lookAhead]
    omega
  generalize slidIf s = v at *
  generalize s.fillRoom = room at *
  rw [Op.state_bind] at run
  split at run
  · cases run; exact slidChains
  · obtain ⟨n, w, read, run⟩ := Op.bind_inv run
    rw [Op.update_bind, Op.state_bind] at run
    obtain ⟨⟨⟩, x, seed, run⟩ := Op.bind_inv run
    have readQuiet := quiet_readBuf _ _ v n w read
    have seedQuiet : Quiet (w.setMf { w.mf with lookAhead := w.mf.lookAhead + n }) x :=
      leads_when Quiet.order (fun s _ t run => by rw [seedHash_ok run]; exact ⟨rfl, rfl, rfl, rfl⟩) _ () x seed
    have ended : t = x := by split at run <;> cases run <;> rfl
    subst ended
    have look : t.mf.lookAhead = w.mf.lookAhead + n := seedQuiet.look
    have start : t.mf.strStart = w.mf.strStart := seedQuiet.start
    have head : t.mem.head = w.mem.head := seedQuiet.head
    have prev : t.mem.prev = w.mem.prev := seedQuiet.prev
    refine (slidChains.of_same (head.trans readQuiet.head) (prev.trans readQuiet.prev)).mono ?_
    rw [look, start, readQuiet.start, readQuiet.look]
    omega

theorem fillWindow_chains {s t : State} (run : fillWindow.run s = .ok () t) (h : ChainsBelowEnd s) : ChainsBelowEnd t := by
  unfold fillWindow at run
  rw [Op.state_bind] at run
  obtain ⟨l, u, loop, check⟩ := Op.bind_inv run
  have kept : ChainsBelowEnd u :=
    (Op.iterate_inv (fun s t p run => fillStep_chains run p) (fun s t p run _ => fillStep_chains run p) h loop).2
  rw [checkWindow_run] at check
  split at check <;> cases check
  exact kept

theorem stepOf_passes {d : Driver} {s t : State} {l : LoopStep} (run : (stepOf d).run s = .ok l t) : ∃ n, Passes n s t := by
  cases d with
  | stored => exact ⟨_, storedStep_passes run⟩
  | fast => exact (fastStep_passes run).imp fun _ => And.right
  | slow => exact (slowStep_passes run).imp fun _ => And.right

theorem Passes.chains {n : Nat} {s t : State} (h : Passes n s t) (chains : ChainsBelowEnd s) : ChainsBelowEnd t := by
  obtain ⟨start, look, below⟩ := h
  refine below _ (by omega) (chains.mono ?_)
  omega

theorem drive_chains {f : BitVec 3} {s t : State} {r : DriveResult} (run : (drive f).run s = .ok r t)
    (h : ChainsBelowEnd s) : ChainsBelowEnd t := by
  obtain ⟨l, u, loop, -, closing⟩ := drive_inv run
  have kept : ChainsBelowEnd u := loop_keeps (fun _ _ p fill => fillWindow_chains fill p)
    (fun _ _ p _ step => (stepOf_passes step).elim fun _ passes => passes.chains p) h loop
  obtain ⟨start, look, head, prev⟩ := closing.quiet
  rw [ChainsBelowEnd, start, look]
  exact kept.of_same head prev

theorem chainsInvariant : SessionInvariant (fun _ => True) State.ChainsOk where
  closed _ closed session := absurd session closed
  fresh _ _ _ _ := ⟨nofun, nofun⟩
  port _ _ h := h
  emptied _ h := h
  emits s t emits h session := by
    rw [emits.frame] at session ⊢
    exact h session
  compressed f c s r t mode busy _ h run := by
    obtain rfl | ⟨d, u, -, drv, ending⟩ := compressBusy_cases run
    · exact fun _ => h (.inl busy)
    · intro _
      have kept := drive_chains drv (h (.inl busy))
      have frame := ending.frame.1
      have mf := ending.mf.1
      rw [mf]
      refine ⟨fun p hp => ?_, fun p hp => ?_⟩
      · rw [frame] at hp
        change p ∈ (if f = FULL_FLUSH then [] else u.mem.head) at hp
        split at hp
        · cases hp
        · exact kept.1 p hp
      · rw [frame] at hp
        exact kept.2 p hp

/-- Settles O58, one invariant at a time. -/
theorem stepKeepsWindowAccumulatorAndChains : Obligations.StepKeepsWindowAccumulatorAndChains := fun _ _ run =>
  ⟨windowInvariant.step (fun _ _ => id) run trivial, accInvariant.step (fun _ _ => id) run trivial,
    chainsInvariant.step (fun _ _ => id) run trivial⟩

/-! ### Control, configuration and level 0 (R31 to R35, R280) -/

theorem endCtl_modeOk {f : BitVec 3} {s : State} (mode : f ≤ FINISH) (busy : s.ctl.fsm = .busy) (h : s.ModeOk) {t : State}
    (ctl : t.ctl = endCtl f s) (cfg : t.cfg = s.cfg) (ct : t.ct = s.ct) : t.ModeOk := by
  obtain ⟨session, -, -⟩ := h
  rw [State.ModeOk, State.isOpen, ctl, cfg, ct]
  refine ⟨fun _ => session (.inl busy), fun faulted => ?_, mode⟩
  rw [endCtl] at faulted
  split at faulted
  · cases faulted
  · rw [busy] at faulted; cases faulted

theorem code_ne_zero : ∀ f : FaultCode, f.code ≠ 0 := by intro f; cases f <;> decide

theorem raise_modeOk {f : FaultCode} {s : State} (faulted : s.ctl.fsm = .faulted → s.ctl.faultCode ≠ 0)
    (mode : s.ctl.lastFlush ≤ FINISH) : (raise f s).ModeOk := by
  refine ⟨fun session => absurd session (raise_not_open f s), ?_⟩
  unfold raise
  simp only [State.answer_ctl]
  split
  · exact ⟨faulted, mode⟩
  · split
    · exact ⟨nofun, mode⟩
    · exact ⟨fun _ => code_ne_zero f, mode⟩

theorem noFlush_le : NO_FLUSH ≤ FINISH := by decide

theorem exec_modeOk {i : Instr} {s t : State} (run : exec i s = .next t) (h : s.ModeOk) : t.ModeOk := by
  obtain ⟨session, faulted, mode⟩ := h
  by_cases configure : IsConfigure i
  · obtain ⟨level, method, windowBits, memLevel, strategy, rfl⟩ := configure
    cases configure_cases run with
    | opened legal => exact ⟨fun _ => ⟨rfl, legal, rfl⟩, nofun, noFlush_le⟩
    | refused => exact raise_modeOk nofun noFlush_le
    | @fault f u legal config alloc inside =>
      have ctl : u.ctl = { s.ctl with lastFlush := NO_FLUSH } := inside.ctl
      refine raise_modeOk (s := u.clearInput) (fun isFaulted => ?_) ?_
      · change u.ctl.fsm = _ at isFaulted
        change u.ctl.faultCode ≠ 0
        rw [ctl] at isFaulted ⊢
        exact faulted isFaulted
      · change u.ctl.lastFlush ≤ _
        rw [ctl]
        exact noFlush_le
  · cases exec_cases configure run with
    | emitted element emits inside =>
      rw [State.ModeOk, State.isOpen, inside.ctl, inside.cfg, inside.ct]
      exact ⟨session, faulted, mode⟩
    | getBytes => exact ⟨session, faulted, mode⟩
    | takeBytes => exact ⟨session, faulted, mode⟩
    | getCrc => exact ⟨session, faulted, mode⟩
    | finished => exact ⟨session, faulted, mode⟩
    | compressed kind legal busy ended =>
      have kept := (compressBusy_session legal _).ok ended
      exact endCtl_modeOk legal busy ⟨session, faulted, mode⟩ (compressBusy_ok ended).ctl kept.cfg kept.ct
    | @fault f u config alloc kept control =>
      refine raise_modeOk (s := u.clearInput) (fun isFaulted => ?_) (kept.mode mode)
      change u.ctl.fsm = _ at isFaulted
      obtain isOpen | same := control
      · obtain busy | finish := kept.session isOpen
        · rw [busy] at isFaulted; cases isFaulted
        · rw [finish] at isFaulted; cases isFaulted
      · change u.ctl.faultCode ≠ 0
        rw [same] at isFaulted ⊢
        exact faulted isFaulted

/-- The pending block of level 0 is in the window and short of `STORED_MAX`. -/
def PendingOk (s : State) : Prop :=
  0 ≤ s.mf.blockStart ∧ (s.mf.strStart : Int) - s.mf.blockStart < (s.cfg.storedMax : Int)

theorem fill_pendingOk {s t : State} (legal : s.cfg.legal = true) (h : PendingOk s) (run : fillWindow.run s = .ok () t) :
    PendingOk t := by
  cases fillWindow_eq_filled legal run
  obtain ⟨start, block, cfg, -⟩ := filled_registers s
  obtain ⟨inside, short⟩ := h
  obtain ⟨-, -, -, maxDist, storedMax, -⟩ := sizes_of_legal legal
  rw [PendingOk, start, block, cfg]
  unfold slidIf
  split
  · next slides =>
    have due := (mustSlide_iff s).1 slides
    change 0 ≤ s.mf.blockStart - (s.cfg.wSize : Int)
      ∧ ((s.mf.strStart - s.cfg.wSize : Nat) : Int) - (s.mf.blockStart - (s.cfg.wSize : Int)) < _
    omega
  · exact ⟨inside, short⟩

theorem storedStep_pendingOk {s t : State} {l : LoopStep} (room : 0 < s.cfg.storedMax) (h : PendingOk s)
    (run : storedStep.run s = .ok l t) : PendingOk t := by
  obtain ⟨inside, short⟩ := h
  have ended := (storedStep_ok run).1
  split at ended
  · rw [(flushBlock_ok ended).1.frame]
    refine ⟨Int.natCast_nonneg _, ?_⟩
    change (((storedTaken s).mf.strStart : Nat) : Int) - ((storedTaken s).mf.strStart : Int) < (s.cfg.storedMax : Int)
    omega
  · next notDue =>
    subst ended
    refine ⟨inside, ?_⟩
    change ((s.mf.strStart + storedTake s : Nat) : Int) - s.mf.blockStart < (s.cfg.storedMax : Int)
    change ¬ ((s.mf.strStart + storedTake s : Nat) : Int) - s.mf.blockStart = (s.cfg.storedMax : Int) at notDue
    unfold storedTake at notDue ⊢
    omega

theorem drive_pendingOk {f : BitVec 3} {s t : State} {r : DriveResult} (legal : s.cfg.legal = true)
    (stored : s.ct.driver = .stored) (h : PendingOk s) (run : (drive f).run s = .ok r t) : PendingOk t := by
  obtain ⟨-, -, -, maxDist, storedMax, -⟩ := sizes_of_legal legal
  have low := (sizes_of_legal legal).wSize_low
  obtain ⟨l, u, loop, -, closing⟩ := drive_inv run
  rw [stored] at loop closing
  have kept : u.cfg = s.cfg ∧ PendingOk u := by
    refine loop_keeps (P := fun v => v.cfg = s.cfg ∧ PendingOk v) (fun v w p fill => ?_) (fun v w p _ step => ?_) ⟨rfl, h⟩ loop
    · exact ⟨((fillWindow_keeps).ok fill).cfg.trans p.1, fill_pendingOk (p.1 ▸ legal) p.2 fill⟩
    · exact ⟨(storedStep_keeps.ok step).cfg.trans p.1, storedStep_pendingOk (by rw [p.1]; omega) p.2 step⟩
  obtain ⟨cfg, pending⟩ := kept
  by_cases noFlush : f = NO_FLUSH
  · rw [closing.noFlush noFlush]
    exact pending
  · obtain ⟨v, same, flush⟩ := closing.flush noFlush
    rw [if_neg nofun] at same
    subst same
    have frame := (flushBlock_ok flush).1.frame
    rw [frame]
    refine ⟨Int.natCast_nonneg _, ?_⟩
    change (v.mf.strStart : Int) - (v.mf.strStart : Int) < (v.cfg.storedMax : Int)
    rw [cfg]
    omega

theorem stored_of_level_zero {s : State} (row : s.ct = ctRow s.cfg.level) (level : s.cfg.level = 0) : s.ct.driver = .stored := by
  rw [row, level]
  rfl

theorem storedInvariant : SessionInvariant State.ModeOk State.StoredOk where
  closed _ closed session := absurd session closed
  fresh c s legal _ _ := by
    have low := (sizes_of_legal legal).wSize_low
    have dist := (sizes_of_legal legal).maxDist
    refine ⟨rfl, Int.le_refl _, ?_⟩
    change ((0 : Nat) : Int) - 0 < (c.maxDist : Int)
    omega
  port _ _ h := h
  emptied _ h := h
  emits s t emits h session := by
    rw [emits.frame] at session ⊢
    exact h session
  compressed f c s r t mode busy modeOk h run := by
    obtain rfl | ⟨d, u, -, drv, ending⟩ := compressBusy_cases run
    · exact fun _ => h (.inl busy)
    · intro _ level
      obtain ⟨mf, cfg, -⟩ := ending.mf
      obtain ⟨-, legal, row⟩ := modeOk.1 (.inl busy)
      have same : u.cfg = s.cfg := ((drive_keeps f).ok drv).cfg
      rw [cfg, same] at level
      have stored : (started f c s).ct.driver = .stored := stored_of_level_zero row level
      obtain ⟨-, pending⟩ := h (.inl busy) level
      rw [mf, cfg]
      exact ⟨(drive_done drv).1.used (.inr stored), drive_pendingOk (s := started f c s) legal stored pending drv⟩

/-- Settles O59. -/
theorem stepKeepsModeAndLevel0 : Obligations.StepKeepsModeAndLevel0 := by
  intro s t mode stored run
  refine ⟨?_, storedInvariant.step (fun _ _ => id) run mode stored⟩
  obtain rfl | ⟨rest, ⟨i, run⟩ | rfl⟩ := step_cases run
  · exact mode
  · exact exec_modeOk (s := s.setPort { s.port with queue := rest }) run mode
  · exact raise_modeOk (s := s.setPort { s.port with queue := rest }) mode.2.1 mode.2.2

end Sys2Proof.Proofs
end

section
/-! No command outlasts its loops; the window a short COMPRESS leaves; a NO_FLUSH that only buffers (40_host_commands.md R205,
R207, 41_match_finder.md R255, R257, 60_exceptions.md R513). -/

namespace Sys2Proof.Proofs

open Sys2Proof.Machine Sys2Proof.Claims

/-! ### Drivers and rounds as compositions -/

/-- What closes a driver whose loop answered `l`. -/
def closeDrive (f : BitVec 3) (d : Driver) (l : LoopStep) : Op DriveResult := do
  Op.when (d = .slow ∧ l = .exit) flushDeferred
  endDrive f l

theorem drive_eq (f : BitVec 3) (s : State) : (drive f).run s
    = (Op.iterate (roundOf f s.ct.driver) (s.mf.lookAhead + s.mem.input.length + 2) >>= closeDrive f s.ct.driver).run s := by
  unfold drive
  rw [Op.state_bind]
  cases s.ct.driver with
  | stored => rfl
  | fast => rfl
  | slow =>
    have same : closeDrive f .slow = fun l => (do Op.when (l = .exit) flushDeferred; endDrive f l) := by
      funext l
      unfold closeDrive Op.when
      simp only [true_and]
    rw [same]
    rfl

section
variable {E : Abort → Prop} {Q : LoopStep → State → Prop} {f : BitVec 3} {d : Driver} {s : State}

/-- A round is a fill that is due, then a stop or a step. -/
theorem roundOf_wp {T : State → Prop} (fill : s.mf.lookAhead < fillBelow d → Wp fillWindow E (fun _ t => T t) s)
    (noFill : fillBelow d ≤ s.mf.lookAhead → T s) (stop : ∀ l t, T t → l ≠ .again → Q l t)
    (step : ∀ t, T t → t.mf.lookAhead ≠ 0 → Wp (stepOf d) E Q t) : Wp (roundOf f d) E Q s := by
  have size : MIN_LOOKAHEAD = 262 := rfl
  have matched : ∀ {step : Op LoopStep}, (s.mf.lookAhead < MIN_LOOKAHEAD → Wp fillWindow E (fun _ t => T t) s) →
      (MIN_LOOKAHEAD ≤ s.mf.lookAhead → T s) → (∀ t, T t → t.mf.lookAhead ≠ 0 → Wp step E Q t) →
      Wp (matchRound f step) E Q s := by
    intro step fill noFill work
    unfold matchRound
    rw [wp_state, wp_bind, wp_when]
    have rest : ∀ t, (MIN_LOOKAHEAD ≤ s.mf.lookAhead → t = s) → T t → Wp (do
        let t ← Op.state
        if s.mf.lookAhead < MIN_LOOKAHEAD ∧ t.mf.lookAhead < MIN_LOOKAHEAD ∧ f = NO_FLUSH then pure .needMore
        else if s.mf.lookAhead < MIN_LOOKAHEAD ∧ t.mf.lookAhead = 0 then pure .exit
        else step) E Q t := by
      intro t same topped
      rw [wp_state, wp_ite, wp_ite]
      refine ⟨fun _ => wp_pure.2 (stop _ t topped nofun), fun _ => ⟨fun _ => wp_pure.2 (stop _ t topped nofun), fun going => work t topped fun empty => ?_⟩⟩
      by_cases due : s.mf.lookAhead < MIN_LOOKAHEAD
      · exact going ⟨due, empty⟩
      · rw [same (Nat.not_lt.1 due)] at empty
        omega
    exact ⟨fun due => (fill due).mono (fun _ => id) fun _ t => rest t (fun full => absurd due (Nat.not_lt.2 full)),
      fun full => rest s (fun _ => rfl) (noFill (Nat.not_lt.1 full))⟩
  cases d with
  | fast => exact matched fill noFill step
  | slow => exact matched fill noFill step
  | stored =>
    unfold roundOf storedRound
    rw [wp_state, wp_bind, wp_when]
    have rest : ∀ t, T t → Wp (do
        let t ← Op.state
        if t.mf.lookAhead = 0 then pure (if f = NO_FLUSH then .needMore else .exit) else storedStep) E Q t := by
      intro t topped
      rw [wp_state, wp_ite]
      exact ⟨fun _ => wp_pure.2 (stop _ t topped (by split <;> exact nofun)), step t topped⟩
    exact ⟨fun due => (fill (by rw [due]; decide)).mono (fun _ => id) fun _ => rest,
      fun some => rest s (noFill (Nat.one_le_iff_ne_zero.2 some))⟩

end

/-! ### Loops that end -/

/-- The stop of the model's own (log 10). -/
abbrev InBound (e : Abort) : Prop := e ≠ .unbounded

theorem wp_of_mild {α : Type} {x : Op α} (mild : Mild x) {Q : α → State → Prop} {s : State}
    (ok : ∀ a t, x.run s = .ok a t → Q a t) : Wp x InBound Q s := by
  unfold Wp
  cases run : x.run s with
  | ok a t => exact ok a t run
  | error e t => exact (mild s e t run).1

theorem fillWindow_inBound {s : State} (legal : s.cfg.legal = true) : Wp fillWindow InBound (fun _ t => t = filled s) s := by
  unfold fillWindow State.fillFuel
  rw [wp_state, wp_bind, Op.iterate_succ, wp_bind]
  refine wp_of_mild fillStep_mild fun l t run => ?_
  obtain ⟨rfl, rfl⟩ := fillStep_ok legal run
  refine wp_pure.2 ?_
  refine wp_of_mild (s := filled s) checkWindow_mild fun _ t check => ?_
  rw [checkWindow_run] at check
  split at check <;> cases check
  rfl

/-- The bytes a driver has still to pass. -/
def toCome (s : State) : Nat := s.mf.lookAhead + s.mem.input.length

theorem filled_input (s : State) : (filled s).mem.input = s.mem.input.drop s.fillRoom := by
  unfold filled
  generalize s.fillRoom = room
  split
  · next empty => rw [slidIf_input, empty, List.drop_nil]
  · dsimp only; split <;> rfl

theorem toCome_filled (s : State) : toCome (filled s) = toCome s := by
  obtain ⟨-, -, -, look⟩ := filled_registers s
  rw [toCome, toCome, look, filled_input, List.length_take, List.length_drop]
  omega

theorem stepOf_mild (d : Driver) : Mild (stepOf d) := by
  cases d with
  | stored => exact storedStep_mild
  | fast => exact fastStep_mild
  | slow => exact slowStep_mild

theorem works_stepOf (d : Driver) : Leads Works (stepOf d) := by
  cases d with
  | stored => exact works_storedStep
  | fast => exact works_fastStep
  | slow => exact works_slowStep

theorem stepOf_keeps (d : Driver) : Op.Keeps Inside (stepOf d) := by
  cases d with
  | stored => exact storedStep_keeps
  | fast => exact fastStep_keeps
  | slow => exact slowStep_keeps

theorem Works.input {s t : State} (h : Works s t) : t.mem.input = s.mem.input := by rw [h.frame]

theorem Works.win {s t : State} (h : Works s t) : t.mem.win = s.mem.win := by rw [h.frame]

/-- Every step passes a byte; at level 0 because the pending block is short of `STORED_MAX`. -/
theorem stepOf_passes_some {d : Driver} {s t : State} {l : LoopStep} (pending : d = .stored → PendingOk s)
    (some : s.mf.lookAhead ≠ 0) (run : (stepOf d).run s = .ok l t) : ∃ n, 1 ≤ n ∧ Passes n s t := by
  cases d with
  | fast => exact fastStep_passes run
  | slow => exact slowStep_passes run
  | stored =>
    obtain ⟨-, short⟩ := pending rfl
    refine ⟨_, ?_, storedStep_passes run⟩
    unfold storedTake
    omega

/-- What a driver's loop keeps for its measure to fall. -/
structure Running (c : Settings) (d : Driver) (s : State) : Prop where
  cfg : s.cfg = c
  pending : d = .stored → PendingOk s

theorem Running.filled {c : Settings} {d : Driver} {s : State} (legal : c.legal = true) (h : Running c d s)
    (run : fillWindow.run s = .ok () (filled s)) : Running c d (filled s) :=
  ⟨(filled_registers s).2.2.1.trans h.cfg, fun stored => fill_pendingOk (h.cfg ▸ legal) (h.pending stored) run⟩

theorem Running.step {c : Settings} {d : Driver} {s t : State} {l : LoopStep} (legal : c.legal = true) (h : Running c d s)
    (run : (stepOf d).run s = .ok l t) : Running c d t := by
  refine ⟨((stepOf_keeps d).ok run).cfg.trans h.cfg, ?_⟩
  rintro rfl
  obtain ⟨low, -, -, maxDist, storedMax, -⟩ := sizes_of_legal legal
  exact storedStep_pendingOk (by rw [h.cfg]; omega) (h.pending rfl) run

theorem toCome_step {d : Driver} {s t : State} {l : LoopStep} (pending : d = .stored → PendingOk s)
    (some : s.mf.lookAhead ≠ 0) (run : (stepOf d).run s = .ok l t) : toCome t < toCome s := by
  obtain ⟨n, positive, passes⟩ := stepOf_passes_some pending some run
  have look := passes.look
  rw [toCome, toCome, (works_stepOf d s l t run).input]
  omega

theorem flushDeferred_closes_mild (f : BitVec 3) (d : Driver) (l : LoopStep) : Mild (closeDrive f d l) :=
  fails_bind (fails_when flushDeferred_mild) fun _ => endDrive_mild f l

theorem wp_congr {α : Type} {x y : Op α} {E : Abort → Prop} {Q : α → State → Prop} {s : State} (h : x.run s = y.run s) :
    Wp x E Q s ↔ Wp y E Q s := by
  unfold Wp
  rw [h]

theorem drive_inBound {f : BitVec 3} {s : State} (legal : s.cfg.legal = true)
    (pending : s.ct.driver = .stored → PendingOk s) : Wp (drive f) InBound (fun _ _ => True) s := by
  rw [wp_congr (drive_eq f s), wp_bind]
  refine wp_iterate (P := Running s.cfg s.ct.driver) (m := toCome) (fun v running => ?_) ⟨rfl, pending⟩
    (by rw [toCome]; omega)
  refine roundOf_wp (T := fun t => Running s.cfg s.ct.driver t ∧ toCome t = toCome v) (fun _ => ?_)
    (fun _ => ⟨running, rfl⟩) (fun l t _ stop => ?_) fun t topped some => ?_
  · refine (fillWindow_inBound (running.cfg ▸ legal)).post fun _ t run same => ?_
    subst same
    exact ⟨running.filled legal run, toCome_filled v⟩
  · rw [if_neg stop]
    exact wp_of_mild (flushDeferred_closes_mild f _ l) fun _ _ _ => trivial
  · obtain ⟨running', same⟩ := topped
    refine wp_of_mild (stepOf_mild _) fun l u run => ?_
    obtain rfl := stepOf_goesOn _ t l u run
    rw [if_pos rfl, ← same]
    exact ⟨running'.step legal run, toCome_step running'.pending some run⟩

/-! ### Every command completes (R205, R513) -/

theorem runCommand_completes {op : Op Reply} {s : State} (bounded : ∀ e t, op.run s = .error e t → e ≠ .unbounded) :
    ∃ t r, runCommand op s = .next t ∧ t.port.reply = some r := by
  cases run : op.run s with
  | ok r t => exact ⟨_, r, runCommand_of_ok run, rfl⟩
  | error e t =>
    cases e with
    | unbounded => exact absurd rfl (bounded _ t run)
    | raise f => exact ⟨_, _, runCommand_of_raise run, by rw [raise_port]⟩

theorem level_zero_of_stored : ∀ level : BitVec 4, (ctRow level).driver = .stored → level = 0 := by decide

theorem driven_inBound {f : BitVec 3} {s : State} (legal : s.cfg.legal = true)
    (pending : s.ct.driver = .stored → PendingOk s) : Wp (driven f) InBound (fun _ _ => True) s := by
  unfold driven runDriver
  rw [wp_bind, wp_bind]
  refine (drive_inBound legal pending).mono (fun _ => id) fun r t _ => ?_
  refine wp_of_mild (afterDrive_mild f r) fun _ u _ => ?_
  rw [wp_ite]
  refine ⟨fun _ => wp_pure.2 trivial, fun _ => ?_⟩
  rw [wp_bind]
  exact wp_of_mild trailer_mild fun _ _ _ => wp_pure.2 trivial

theorem compressBusy_inBound {f : BitVec 3} {c : List Byte} {s t : State} {e : Abort} (busy : s.ctl.fsm = .busy)
    (mode : s.ModeOk) (stored : s.StoredOk) (run : (compressBusy f c).run s = .error e t) : e ≠ .unbounded := by
  obtain ⟨-, legal, row⟩ := mode.1 (.inl busy)
  by_cases dup : Duplicate s f c
  · obtain ⟨rfl, previous, notFinish⟩ := dup
    rw [compressBusy_run_of_duplicate previous notFinish] at run
    cases run
  · rw [compressBusy_run_of_driven dup] at run
    refine (driven_inBound (s := started f c s) legal fun driver => ?_).error run
    exact (stored (.inl busy) (level_zero_of_stored _ (row ▸ driver))).2

/-- Settles O27: every round of every loop passes a byte, and only a loop can outlast its bound. -/
theorem everyCommandCompletes : Obligations.EveryCommandCompletes := by
  intro i s command mode stored
  by_cases configure : IsConfigure i
  · obtain ⟨level, method, windowBits, memLevel, strategy, rfl⟩ := configure
    refine runCommand_completes (op := configure ⟨level, method, windowBits, memLevel, strategy⟩) fun e t run => ?_
    have fails : Fails (fun e _ => e ≠ .unbounded) (configure ⟨level, method, windowBits, memLevel, strategy⟩) := by
      refine fails_ite (fails_bind (fails_update _) fun _ => fails_bind (fails_bind (fails_update _) fun _ => ?_) fun _ => ?_) ?_
      · exact zlibHeader_mild.mono fun _ _ h => h.1
      · exact fails_bind (fails_update _) fun _ => fails_pure _
      · exact fails_bind (fails_update _) fun _ => fails_raise fun _ => nofun
    exact fails s e t run
  · obtain ⟨op, exec_eq, kind⟩ := exec_of_command command configure
    rw [exec_eq]
    refine runCommand_completes fun e t run => ?_
    have session : Fails (fun e _ => e ≠ .unbounded) requireSession :=
      fails_bind fails_state fun _ => fails_bind (fails_require fun _ => nofun) fun _ => fails_require fun _ => nofun
    obtain ⟨f, chunk, rfl⟩ | rfl | rfl | rfl := kind
    · by_cases legalBusy : f ≤ FINISH ∧ s.ctl.fsm = .busy
      · rw [compress_run_of_busy legalBusy.1 legalBusy.2] at run
        exact compressBusy_inBound legalBusy.2 mode stored run
      · unfold compress at run
        rw [Op.bind_apply] at run
        cases check : requireSession.run s with
        | error e' u => rw [check] at run; cases run; exact session s _ _ check
        | ok a u =>
          have same : u = s := by
            rw [requireSession_run] at check
            split at check <;> [cases check; (split at check <;> cases check)]
            rfl
          subst same
          rw [check] at run
          dsimp only at run
          rw [Op.require_bind] at run
          split at run
          · next legalMode =>
            rw [Op.state_bind] at run
            split at run
            · split at run <;> cases run
              exact nofun
            · next notFinish =>
              refine absurd ⟨legalMode, ?_⟩ legalBusy
              rw [requireSession_run] at check
              cases fsm : u.ctl.fsm with
              | busy => rfl
              | finish => exact absurd fsm notFinish
              | unconfigured => rw [if_pos fsm] at check; cases check
              | faulted => rw [if_neg (by rw [fsm]; exact nofun), if_pos fsm] at check; cases check
          · cases run
            exact nofun
    · exact (fails_bind session fun _ => fails_bind fails_state fun _ => fails_pure _ : Fails _ Machine.getBytes) s e t run
    · exact (fails_bind session fun _ => fails_bind fails_state fun _ => fails_bind (fails_update _) fun _ => fails_pure _ :
        Fails _ takeBytes) s e t run
    · exact (fails_bind session fun _ => fails_bind fails_state fun _ => fails_pure _ : Fails _ getCrc) s e t run

/-! ### The window of a short COMPRESS (R255, R257) -/

theorem writeAll_append {w : Nat} (a : Arr w) (i : Nat) (xs ys : List (BitVec w)) :
    a.writeAll i (xs ++ ys) = (a.writeAll i xs).writeAll (i + xs.length) ys := by
  induction xs generalizing a i with
  | nil => rfl
  | cons x rest ih =>
    rw [List.cons_append, Arr.writeAll, ih, List.length_cons, Arr.writeAll, Nat.add_assoc, Nat.add_comm 1]

/-- The window with all of the input behind the data. -/
def finalWin (s : State) : Arr 8 := s.mem.win.writeAll (s.mf.strStart + s.mf.lookAhead) s.mem.input

/-- Where the data will end when all input is read, without a compaction. -/
def finalEnd (s : State) : Nat := s.mf.strStart + s.mf.lookAhead + s.mem.input.length

/-- A window too short for a compaction, and what it will hold. -/
structure Short (s t : State) : Prop where
  cfg : t.cfg = s.cfg
  fin : finalEnd t = finalEnd s
  win : finalWin t = finalWin s

theorem filled_of_not_mustSlide {s : State} (short : ¬ s.mustSlide = true) : slidIf s = s := by
  unfold slidIf
  exact if_neg short

theorem filled_win (s : State) : (filled s).mem.win
    = (slidIf s).mem.win.writeAll ((slidIf s).mf.strStart + (slidIf s).mf.lookAhead) (s.mem.input.take s.fillRoom) := by
  unfold filled
  generalize s.fillRoom = room
  split
  · next empty => rw [empty, List.take_nil]; rfl
  · dsimp only; split <;> rfl

theorem short_filled {s : State} (short : ¬ s.mustSlide = true) : Short s (filled s) := by
  obtain ⟨start, -, cfg, look⟩ := filled_registers s
  have stays := filled_of_not_mustSlide short
  have bytes := List.take_append_drop s.fillRoom s.mem.input
  have count := congrArg List.length bytes
  rw [List.length_append] at count
  rw [stays] at start
  refine ⟨cfg, ?_, ?_⟩
  · rw [finalEnd, finalEnd, start, look, filled_input]
    omega
  · rw [finalWin, finalWin, start, look, filled_input, filled_win, stays, ← Nat.add_assoc, ← writeAll_append, bytes]

theorem Short.step {s t u : State} {n : Nat} (h : Short s t) (works : Works t u) (cfg : u.cfg = t.cfg) (passes : Passes n t u) :
    Short s u := by
  obtain ⟨start, look, -⟩ := passes
  have sameEnd : u.mf.strStart + u.mf.lookAhead = t.mf.strStart + t.mf.lookAhead := by omega
  refine ⟨cfg.trans h.cfg, ?_, ?_⟩
  · rw [finalEnd, sameEnd, works.input]
    exact h.fin
  · rw [finalWin, sameEnd, works.win, works.input]
    exact h.win

theorem Closing.works {f : BitVec 3} {d : Driver} {u t : State} (h : Closing f d u t) : Works u t := by
  by_cases noFlush : f = NO_FLUSH
  · rw [h.noFlush noFlush]
    exact Works.order.refl u
  · obtain ⟨v, deferred, flush⟩ := h.flush noFlush
    refine Works.order.trans ?_ (flushBlock_ok flush).1.works
    split at deferred
    · exact works_flushDeferred u () v deferred
    · subst deferred
      exact Works.order.refl _

theorem drive_short {f : BitVec 3} {s t : State} {r : DriveResult} (legal : s.cfg.legal = true)
    (short : finalEnd s < s.cfg.wSize + s.cfg.maxDist) (run : (drive f).run s = .ok r t) :
    t.mem.win = finalWin s ∧ t.mf.strStart + t.mf.lookAhead = finalEnd s := by
  obtain ⟨l, u, loop, done, closing⟩ := drive_inv run
  have kept : Short s u := by
    refine loop_keeps (P := Short s) (fun v w p fill => ?_) (fun v w p _ step => ?_) ⟨rfl, rfl, rfl⟩ loop
    · have notDue : ¬ v.mustSlide = true := fun slides => by
        have due := (mustSlide_iff v).1 slides
        have fin := p.fin
        rw [p.cfg] at due
        rw [finalEnd] at fin
        omega
      cases fillWindow_eq_filled (p.cfg ▸ legal) fill
      obtain ⟨cfg, fin, win⟩ := short_filled notDue
      exact ⟨cfg.trans p.cfg, fin.trans p.fin, win.trans p.win⟩
    · obtain ⟨n, passes⟩ := stepOf_passes step
      exact p.step (works_stepOf _ v _ w step) ((stepOf_keeps _).ok step).cfg passes
  obtain ⟨-, fin, win⟩ := kept
  rw [finalEnd, done.input, List.length_nil, Nat.add_zero] at fin
  rw [finalWin, done.input] at win
  obtain ⟨start, look, -, -⟩ := closing.quiet
  rw [closing.works.win, start, look]
  exact ⟨win, fin⟩

/-- Settles O18: no compaction is due, so the window only takes the chunk. -/
theorem compressWindow : Obligations.CompressWindow := by
  intro f chunk s t mode ⟨busy, legal, _⟩ short run noFault
  obtain ⟨r, u, ok, rfl⟩ := compress_next_cases mode busy run noFault
  by_cases dup : Duplicate s f chunk
  · obtain ⟨rfl, previous, notFinish⟩ := dup
    rw [compressBusy_run_of_duplicate previous notFinish] at ok
    cases ok
    exact ⟨rfl, rfl⟩
  · rw [compressBusy_run_of_driven dup] at ok
    obtain ⟨d, v, drv, ending⟩ := driven_inv ok
    obtain ⟨win, final⟩ := drive_short (s := started f chunk s) legal short drv
    have mf := ending.mf.1
    have frame := ending.frame.1
    have kept : u.mem.win = v.mem.win := by rw [frame]
    refine ⟨kept.trans win, ?_⟩
    change u.mf.strStart + u.mf.lookAhead = _
    rw [mf]
    exact final

/-! ### NO_FLUSH that only buffers (R207) -/

theorem filled_of_room {s : State} (short : ¬ s.mustSlide = true) (some : s.mem.input ≠ [])
    (room : s.mem.input.length ≤ s.fillRoom) :
    filled s = (if MIN_MATCH ≤ s.mf.lookAhead + s.mem.input.length then seeded (taken s.mem.input [] s)
      else taken s.mem.input [] s) := by
  unfold filled
  rw [if_neg some, filled_of_not_mustSlide short, List.take_of_length_le room, List.drop_eq_nil_of_le room]
  rfl

/-- With too little lookahead even after the fill, the driver of levels 1 to 9 asks for more. -/
theorem drive_run_of_short {s : State} (legal : s.cfg.legal = true) (order : WindowOrder s) (compressing : s.ct.driver ≠ .stored)
    (before : s.mf.lookAhead < MIN_LOOKAHEAD) (after : (filled s).mf.lookAhead < MIN_LOOKAHEAD) :
    (drive NO_FLUSH).run s = .ok .needMore (filled s) := by
  have fill := fillWindow_run legal order
  have round : ∀ step, (matchRound NO_FLUSH step).run s = .ok .needMore (filled s) := fun step => by
    unfold matchRound
    rw [Op.state_bind, Op.when_pos before, Op.bind_ok fill, Op.state_bind, if_pos ⟨before, after, rfl⟩]
    rfl
  have rounds : (roundOf NO_FLUSH s.ct.driver).run s = .ok .needMore (filled s) := by
    cases driver : s.ct.driver with
    | stored => exact absurd driver compressing
    | fast => exact round _
    | slow => exact round _
  have loop : ∀ n, (Op.iterate (roundOf NO_FLUSH s.ct.driver) (n + 1)).run s = .ok .needMore (filled s) := fun n => by
    rw [Op.iterate_succ, Op.bind_ok rounds]
    rfl
  rw [drive_eq, Op.bind_ok (loop _)]
  unfold closeDrive
  rw [Op.when_neg (by simp)]
  rfl

/-- Settles O19: one fill takes the whole chunk and leaves too little lookahead. -/
theorem noFlushBuffers : Obligations.NoFlushBuffers := by
  intro chunk s ⟨busy, legal, row⟩ level some short below block
  dsimp only
  have sizes := sizes_of_legal legal
  obtain ⟨low, -, window, maxDist, -⟩ := sizes
  have notDup : ¬ Duplicate s NO_FLUSH chunk := fun dup => some dup.1
  have notDue : ¬ (started NO_FLUSH chunk s).mustSlide = true := fun slides => by
    have due : s.cfg.wSize + s.cfg.maxDist ≤ s.mf.strStart := (mustSlide_iff _).1 slides
    omega
  have room : chunk.length ≤ (started NO_FLUSH chunk s).fillRoom := by
    unfold State.fillRoom
    rw [if_neg notDue]
    change _ ≤ s.cfg.windowBytes - s.mf.lookAhead - s.mf.strStart + 0
    omega
  have order : WindowOrder (started NO_FLUSH chunk s) := ⟨by change s.mf.strStart + s.mf.lookAhead ≤ s.cfg.windowBytes; omega, block⟩
  have size : MIN_LOOKAHEAD = 262 := rfl
  have reads := filled_of_room notDue some room
  have after : (filled (started NO_FLUSH chunk s)).mf.lookAhead < MIN_LOOKAHEAD := by
    rw [reads, size]
    split <;> exact short
  have drv := drive_run_of_short (s := started NO_FLUSH chunk s) legal order
    (fun stored => level (level_zero_of_stored _ (row ▸ stored))) (by change s.mf.lookAhead < _; omega) after
  have ran : (driven NO_FLUSH).run (started NO_FLUSH chunk s) = .ok okReply (filled (started NO_FLUSH chunk s)) := by
    have dr : (runDriver NO_FLUSH).run (started NO_FLUSH chunk s) = .ok () (filled (started NO_FLUSH chunk s)) := by
      unfold runDriver
      rw [Op.bind_ok drv]
      rfl
    unfold driven
    rw [Op.bind_ok dr, if_pos (by decide)]
    rfl
  rw [show exec (.compressNoFlush chunk) s = runCommand (compress NO_FLUSH chunk) s from rfl,
    runCommand_of_ok ((compress_run_of_busy (by decide) busy chunk).trans ((compressBusy_run_of_driven notDup).trans ran)), reads]
  change Host.Outcome.next (State.answer (if 3 ≤ s.mf.lookAhead + chunk.length then _ else _) _) = _
  by_cases three : 3 ≤ s.mf.lookAhead + chunk.length
  · rw [if_pos three, if_pos three]
    rfl
  · rw [if_neg three, if_neg three]
    rfl

end Sys2Proof.Proofs
end

section
/-! The lengths of one tree build: the merge gives a complete code, and the repair brings it under the limit
(42_huffman_builder.md R322 to R331). -/

namespace Sys2Proof.Proofs

open Sys2Proof.Machine Sys2Proof.Claims

/-! ### The merge (R324, R325) -/

theorem insertNode_perm (a : Node) (xs : List Node) : (insertNode a xs).Perm (a :: xs) := by
  induction xs with
  | nil => rfl
  | cons b rest ih =>
    unfold insertNode
    split
    · rfl
    · exact (ih.cons b).trans (List.Perm.swap a b rest)

theorem foldl_insertNode_perm (xs live : List Node) : (xs.foldl (fun live n => insertNode n live) live).Perm (xs ++ live) := by
  induction xs generalizing live with
  | nil => rfl
  | cons x rest ih =>
    exact (ih _).trans (((insertNode_perm x live).append_left rest).trans List.perm_middle)

/-- The node that joins `n` and `m`. -/
def joined (next : Nat) (n m : Node) : Node := ⟨next, n.freq + m.freq, max n.depth m.depth + 1⟩

/-- The merge from a set of nodes down to its root `r`, with what is popped: the two least of a set are joined. -/
inductive Merged : Nat → List Node → Node → List (Node × Nat) → Prop
  | root (next : Nat) (r : Node) : Merged next [r] r []
  | join {next : Nat} {n m : Node} {rest : List Node} {r : Node} {more : List (Node × Nat)}
      (after : Merged (next + 1) (insertNode (joined next n m) rest) r more) :
      Merged next (n :: m :: rest) r ((n, next) :: (m, next) :: more)

theorem mergeNodes_merged (fuel : Nat) {next : Nat} {live : List Node} {popped : List (Node × Nat)} (some : live ≠ [])
    (enough : live.length ≤ fuel + 1) :
    ∃ r more, mergeNodes fuel next live popped = ([r], popped ++ more) ∧ Merged next live r more := by
  induction fuel generalizing next live popped with
  | zero =>
    obtain ⟨r, rfl⟩ := List.length_eq_one_iff.1 (Nat.le_antisymm enough (List.length_pos_iff.2 some))
    exact ⟨r, [], by simp [mergeNodes], .root _ _⟩
  | succ fuel ih =>
    match live, some with
    | [r], _ => exact ⟨r, [], by simp [mergeNodes], .root _ _⟩
    | n :: m :: rest, _ =>
      have size := (insertNode_perm (joined next n m) rest).length_eq
      obtain ⟨r, more, eq, merged⟩ := ih (next := next + 1) (live := insertNode (joined next n m) rest)
        (popped := popped ++ [(n, next), (m, next)]) (fun none => by simp [none] at size)
        (by simp only [List.length_cons] at size enough; omega)
      exact ⟨r, _, by rw [mergeNodes]; simpa [joined] using eq, .join merged⟩

theorem Merged.root_num {next : Nat} {live : List Node} {r : Node} {more : List (Node × Nat)} (h : Merged next live r more) :
    next ≤ r.num ∨ live = [r] := by
  induction h with
  | root => exact .inr rfl
  | @join next n m rest r more _ ih =>
    rcases ih with above | single
    · exact .inl (by omega)
    · have perm := (insertNode_perm (joined next n m) rest).symm
      rw [single] at perm
      obtain ⟨rfl, -⟩ := List.cons.inj (List.perm_singleton.1 perm)
      exact .inl (Nat.le_refl _)

/-- The nodes popped and the root are the nodes there were and the internal ones, numbered in order. -/
theorem Merged.nodes {next : Nat} {live : List Node} {r : Node} {more : List (Node × Nat)} (h : Merged next live r more) :
    ∃ inner : List Node, (more.map Prod.fst ++ [r]).Perm (live ++ inner)
      ∧ inner.map Node.num = List.range' next inner.length := by
  induction h with
  | root => exact ⟨[], by simp, rfl⟩
  | @join next n m rest r more _ ih =>
    obtain ⟨inner, perm, nums⟩ := ih
    refine ⟨joined next n m :: inner, ?_, ?_⟩
    · refine List.Perm.cons n (List.Perm.cons m ?_)
      exact perm.trans (((insertNode_perm _ _).append_right inner).trans List.perm_middle.symm)
    · rw [List.map_cons, nums, List.length_cons, List.range'_succ]
      rfl

/-! ### The lengths of a frontier (R326) -/

/-- What the lengths of a code take of the code space, in units of the longest code. -/
def spaceOf (limit : Nat) (lens : List Nat) : Nat := (lens.map fun l => 2 ^ (limit - l)).sum

@[simp] theorem spaceOf_cons (limit l : Nat) (lens : List Nat) : spaceOf limit (l :: lens) = 2 ^ (limit - l) + spaceOf limit lens := by
  simp [spaceOf]

/-- The depths of the nodes that are live at one moment of the merge, cut to the limit: `excess` of the code space too much,
each unit with a node at the limit. -/
structure Frontier (limit excess : Nat) (lens : List Nat) : Prop where
  bound : ∀ l ∈ lens, l ≤ limit
  space : spaceOf limit lens = 2 ^ limit + excess
  deepest : excess ≤ lens.count limit
  deep : 2 ≤ lens.length → ∀ l ∈ lens, 1 ≤ l

theorem Frontier.perm {limit excess : Nat} {xs ys : List Nat} (perm : xs.Perm ys) (h : Frontier limit excess xs) :
    Frontier limit excess ys where
  bound l hl := h.bound l (perm.mem_iff.2 hl)
  space := ((perm.map _).sum_eq).symm.trans h.space
  deepest := by rw [← perm.count_eq]; exact h.deepest
  deep two l hl := h.deep (by rw [perm.length_eq]; exact two) l (perm.mem_iff.2 hl)

theorem Frontier.deep_tail {limit excess l : Nat} {rest : List Nat} (h : Frontier limit excess (l :: rest)) : ∀ x ∈ rest, 1 ≤ x :=
  fun x hx => h.deep (by have := List.length_pos_of_mem hx; simp only [List.length_cons]; omega) x (List.mem_cons_of_mem _ hx)

theorem Frontier.split {limit excess l : Nat} {rest : List Nat} (h : Frontier limit excess (l :: rest)) (below : l < limit) :
    Frontier limit excess ((l + 1) :: (l + 1) :: rest) where
  bound := by
    have tail : ∀ x ∈ rest, x ≤ limit := fun x hx => h.bound x (List.mem_cons_of_mem _ hx)
    simpa using ⟨below, tail⟩
  space := by
    have space := h.space
    have halves : 2 ^ (limit - l) = 2 ^ (limit - (l + 1)) + 2 ^ (limit - (l + 1)) := by
      rw [show limit - l = (limit - (l + 1)) + 1 by omega, Nat.pow_succ]
      omega
    simp only [spaceOf_cons] at space ⊢
    omega
  deepest := by
    have deepest := h.deepest
    rw [List.count_cons_of_ne (by omega)] at deepest
    exact deepest.trans (List.Sublist.count_le _ ((List.sublist_cons_self _ _).trans (List.sublist_cons_self _ _)))
  deep _ := by simpa using h.deep_tail

theorem Frontier.clamp {limit excess : Nat} {rest : List Nat} (positive : 1 ≤ limit) (h : Frontier limit excess (limit :: rest)) :
    Frontier limit (excess + 1) (limit :: limit :: rest) where
  bound := by
    have tail : ∀ x ∈ rest, x ≤ limit := fun x hx => h.bound x (List.mem_cons_of_mem _ hx)
    simpa using tail
  space := by
    have space := h.space
    simp only [spaceOf_cons, Nat.sub_self, Nat.pow_zero] at space ⊢
    omega
  deepest := by
    have deepest := h.deepest
    simp only [List.count_cons_self] at deepest ⊢
    omega
  deep _ := by simpa using ⟨positive, h.deep_tail⟩

theorem valueOf_cons_of_ne {n m v : Nat} (ne : n ≠ m) (lens : List (Nat × Nat)) : valueOf n ((m, v) :: lens) = valueOf n lens := if_neg ne

theorem valueOf_cons_self (n v : Nat) (lens : List (Nat × Nat)) : valueOf n ((n, v) :: lens) = v := if_pos rfl

theorem assignLengths_append (limit : Nat) (xs ys : List (Node × Nat)) (lens : List (Nat × Nat)) (past : Nat) :
    assignLengths limit (xs ++ ys) lens past
      = assignLengths limit ys (assignLengths limit xs lens past).1 (assignLengths limit xs lens past).2 := by
  induction xs generalizing lens past with
  | nil => rfl
  | cons x rest ih =>
    obtain ⟨n, dad⟩ := x
    simp only [List.cons_append, assignLengths]
    split <;> exact ih _ _

/-- The two children of one node get the same length, cut to the limit. -/
theorem assignLengths_pair {limit next : Nat} {n m : Node} (other : m.num ≠ next) (lens : List (Nat × Nat)) (excess : Nat) :
    assignLengths limit [(m, next), (n, next)] lens excess
      = if limit < valueOf next lens + 1 then ((n.num, limit) :: (m.num, limit) :: lens, excess + 1 + 1)
        else ((n.num, valueOf next lens + 1) :: (m.num, valueOf next lens + 1) :: lens, excess) := by
  simp only [assignLengths, valueOf_cons_of_ne (Ne.symm other)]
  split <;> rfl

/-- The lengths R326 gives to nodes that were live at one moment. -/
def lensOf (lens : List (Nat × Nat)) (live : List Node) : List Nat := live.map fun n => valueOf n.num lens

theorem lensOf_cons_of_fresh {k v : Nat} {live : List Node} (fresh : k ∉ live.map Node.num) (lens : List (Nat × Nat)) :
    lensOf ((k, v) :: lens) live = lensOf lens live :=
  List.map_congr_left fun n hn => valueOf_cons_of_ne (fun same => fresh (List.mem_map.2 ⟨n, hn, same⟩)) lens

/-- The lengths of the live nodes are a frontier, and the overflow is two for every unit of excess (R326, R328). -/
theorem Merged.frontier {limit next : Nat} {live : List Node} {r : Node} {more : List (Node × Nat)} (positive : 1 ≤ limit)
    (h : Merged next live r more) (distinct : (live.map Node.num).Nodup) (below : ∀ n ∈ live, n.num < next) :
    ∃ lens excess, assignLengths limit more.reverse [(r.num, 0)] 0 = (lens, 2 * excess)
      ∧ Frontier limit excess (lensOf lens live) := by
  induction h with
  | root next r =>
    refine ⟨_, 0, rfl, ?_⟩
    rw [show lensOf [(r.num, 0)] [r] = [0] by simp [lensOf, valueOf]]
    exact ⟨by simp, by simp [spaceOf], Nat.zero_le _, fun two => absurd two (by simp)⟩
  | @join next n m rest r more _ ih =>
    obtain ⟨fresh, distinct⟩ := List.nodup_cons.1 distinct
    obtain ⟨freshM, distinct⟩ := List.nodup_cons.1 distinct
    have nm : n.num ≠ m.num := fun same => fresh (same ▸ List.mem_cons_self)
    have freshN : n.num ∉ rest.map Node.num := fun mem => fresh (List.mem_cons_of_mem _ mem)
    have restBelow : ∀ k ∈ rest, k.num < next := fun k hk => below k (by simp [hk])
    have perm := insertNode_perm (joined next n m) rest
    obtain ⟨lens, excess, eq, front⟩ := ih
      ((perm.map Node.num).nodup_iff.2 (List.nodup_cons.2 ⟨fun mem => by
        obtain ⟨k, hk, same⟩ := List.mem_map.1 mem
        exact absurd (restBelow k hk) (by rw [same]; exact Nat.lt_irrefl next), distinct⟩))
      (fun k hk => by
        rcases List.mem_cons.1 (perm.mem_iff.1 hk) with rfl | hk
        · exact Nat.lt_succ_self next
        · have := restBelow k hk
          omega)
    have front : Frontier limit excess (valueOf next lens :: lensOf lens rest) := front.perm (perm.map _)
    have split : (((n, next) :: (m, next) :: more).reverse : List (Node × Nat)) = more.reverse ++ [(m, next), (n, next)] := by simp
    have mBelow := below m (by simp)
    rw [split, assignLengths_append, eq, assignLengths_pair (Nat.ne_of_lt mBelow)]
    dsimp only
    have keeps : ∀ v, lensOf ((n.num, v) :: (m.num, v) :: lens) (n :: m :: rest) = v :: v :: lensOf lens rest := fun v => by
      change valueOf n.num _ :: valueOf m.num _ :: lensOf _ rest = _
      rw [valueOf_cons_self, valueOf_cons_of_ne nm.symm, valueOf_cons_self, lensOf_cons_of_fresh freshN, lensOf_cons_of_fresh freshM]
    split
    case isTrue exceeds =>
      have full : valueOf next lens = limit := Nat.le_antisymm (front.bound _ List.mem_cons_self) (by omega)
      rw [full] at front
      exact ⟨_, excess + 1, by rw [show 2 * (excess + 1) = 2 * excess + 1 + 1 by omega], keeps limit ▸ front.clamp positive⟩
    case isFalse fits => exact ⟨_, excess, rfl, keeps _ ▸ front.split (by omega)⟩

/-! ### The repair (R327, R328) -/

/-- The weights `w` of as many lengths as `counts` says, from 0 to `limit`. -/
def countSum (limit : Nat) (counts : List Nat) (w : Nat → Nat) : Nat := ∑ b ∈ Finset.range (limit + 1), counts.getD b 0 * w b

/-- The counts of a code with `size` leaves that takes `excess` of the code space too much. -/
structure Repairable (limit size excess : Nat) (counts : List Nat) : Prop where
  slots : counts.length = 16
  root : counts.getD 0 0 = 0
  beyond : ∀ b, limit < b → counts.getD b 0 = 0
  leaves : countSum limit counts (fun _ => 1) = size
  space : countSum limit counts (fun b => 2 ^ (limit - b)) = 2 ^ limit + excess
  deepest : excess ≤ counts.getD limit 0

theorem deepestUsed_none {counts : List Nat} {k : Nat} (h : deepestUsed counts k = none) : ∀ b, b ≤ k → counts.getD b 0 = 0 := by
  induction k with
  | zero =>
    intro b hb
    rw [Nat.le_zero.1 hb]
    unfold deepestUsed at h
    split at h
    · assumption
    · cases h
  | succ k ih =>
    unfold deepestUsed at h
    split at h
    · intro b hb
      rcases Nat.lt_or_eq_of_le hb with lt | rfl
      · exact ih h b (by omega)
      · assumption
    · cases h

theorem deepestUsed_some {counts : List Nat} {k bits : Nat} (h : deepestUsed counts k = some bits) :
    bits ≤ k ∧ counts.getD bits 0 ≠ 0 := by
  induction k with
  | zero =>
    unfold deepestUsed at h
    split at h
    · cases h
    · cases h
      exact ⟨Nat.le_refl _, ‹_›⟩
  | succ k ih =>
    unfold deepestUsed at h
    split at h
    · obtain ⟨le, used⟩ := ih h
      exact ⟨by omega, used⟩
    · cases h
      exact ⟨Nat.le_refl _, ‹_›⟩

theorem getD_set (xs : List Nat) {i : Nat} (inside : i < xs.length) (j v : Nat) :
    (xs.set i v).getD j 0 = if j = i then v else xs.getD j 0 := by
  by_cases same : j = i
  · subst same
    simp [List.getD, inside]
  · simp [List.getD, List.getElem?_set_ne (Ne.symm same), same]

/-- The counts after one step of the repair that moves a leaf down from `bits`. -/
def movedDown (limit bits : Nat) (counts : List Nat) : List Nat :=
  let a := counts.set bits (counts.getD bits 0 - 1)
  let b := a.set (bits + 1) (a.getD (bits + 1) 0 + 2)
  b.set limit (b.getD limit 0 - 1)

/-- Entry by entry: one less at `bits`, two more below it, one less at the limit. -/
theorem movedDown_getD {limit bits : Nat} {counts : List Nat} (slots : counts.length = 16) (small : limit ≤ 15) (lt : bits < limit)
    (used : counts.getD bits 0 ≠ 0) (deep : bits + 1 ≠ limit → counts.getD limit 0 ≠ 0) (b : Nat) :
    (movedDown limit bits counts).getD b 0 + (if b = bits then 1 else 0) + (if b = limit then 1 else 0)
      = counts.getD b 0 + (if b = bits + 1 then 2 else 0) := by
  have size : ∀ (xs : List Nat) i v, xs.length = 16 → (xs.set i v).length = 16 := fun xs i v h => by rw [List.length_set, h]
  unfold movedDown
  rw [getD_set _ (size _ _ _ (size _ _ _ slots) ▸ by omega)]
  simp only [getD_set _ (size _ _ _ slots ▸ (by omega : bits + 1 < 16)), getD_set counts (slots ▸ (by omega : bits < 16))]
  by_cases atLimit : b = limit
  · subst atLimit
    by_cases next : b = bits + 1
    · simp [next]
    · have := deep (Ne.symm next)
      simp only [if_pos trivial, if_neg next, if_neg (show b ≠ bits by omega)]
      omega
  · by_cases next : b = bits + 1
    · subst next
      simp [atLimit]
    · by_cases here : b = bits
      · subst here
        simp only [if_neg atLimit, if_neg next, if_true]
        omega
      · simp [atLimit, next, here]

theorem movedDown_sum {limit bits : Nat} {counts : List Nat} (slots : counts.length = 16) (small : limit ≤ 15) (lt : bits < limit)
    (used : counts.getD bits 0 ≠ 0) (deep : bits + 1 ≠ limit → counts.getD limit 0 ≠ 0) (w : Nat → Nat) :
    countSum limit (movedDown limit bits counts) w + w bits + w limit = countSum limit counts w + 2 * w (bits + 1) := by
  have at_ : ∀ i k, i ≤ limit → ∑ b ∈ Finset.range (limit + 1), (if b = i then k else 0) * w b = k * w i := fun i k hi => by
    rw [Finset.sum_congr rfl fun b _ => show (if b = i then k else 0) * w b = if b = i then k * w i else 0 by
      split
      · next h => rw [h]
      · simp]
    rw [Finset.sum_ite_eq', if_pos (Finset.mem_range.2 (by omega))]
  have sums := Finset.sum_congr (s₁ := Finset.range (limit + 1)) rfl fun b _ =>
    congrArg (· * w b) (movedDown_getD slots small lt used deep b)
  simp only [Nat.add_mul, Finset.sum_add_distrib, at_ bits 1 (by omega), at_ limit 1 (Nat.le_refl _), at_ (bits + 1) 2 (by omega),
    Nat.one_mul] at sums
  exact sums

theorem repairStep_ok {limit size excess : Nat} {counts : List Nat} (small : limit ≤ 15) (positive : 1 ≤ limit)
    (few : size < 2 ^ limit) (h : Repairable limit size (excess + 1) counts) :
    ∃ next, repairStep limit counts = some next ∧ Repairable limit size excess next := by
  obtain ⟨slots, root, beyond, leaves, space, deepest⟩ := h
  unfold repairStep
  cases found : deepestUsed counts (limit - 1) with
  | none =>
    have unused := deepestUsed_none found
    have only : ∀ w : Nat → Nat, countSum limit counts w = counts.getD limit 0 * w limit := fun w => by
      unfold countSum
      rw [Finset.sum_range_succ, Finset.sum_eq_zero fun b hb => by
        rw [unused b (by have := Finset.mem_range.1 hb; omega), Nat.zero_mul], Nat.zero_add]
    rw [only, Nat.sub_self, Nat.pow_zero] at space
    rw [only] at leaves
    omega
  | some bits =>
    obtain ⟨le, used⟩ := deepestUsed_some found
    have lt : bits < limit := by omega
    have deep : bits + 1 ≠ limit → counts.getD limit 0 ≠ 0 := fun _ => by omega
    have entry := movedDown_getD slots small lt used deep
    have sum := movedDown_sum slots small lt used deep
    refine ⟨movedDown limit bits counts, if_neg fun zero => ?_, ?_, ?_, fun b hb => ?_, ?_, ?_, ?_⟩
    · rw [getD_set _ (by simp only [List.length_set, slots]; omega), getD_set counts (by omega), getD_set counts (by omega)] at zero
      by_cases next : bits + 1 = limit
      · rw [if_pos next.symm] at zero
        omega
      · rw [if_neg (Ne.symm next), if_neg (by omega)] at zero
        omega
    · simp [movedDown, slots]
    · have := entry 0
      rw [if_neg (show 0 ≠ bits from fun h => used (h ▸ root)), if_neg (by omega), if_neg (by omega)] at this
      omega
    · have := entry b
      rw [if_neg (by omega), if_neg (by omega), if_neg (by omega), beyond b hb] at this
      omega
    · have := sum fun _ => 1
      omega
    · have moved := sum fun b => 2 ^ (limit - b)
      have halves : 2 ^ (limit - bits) = 2 * 2 ^ (limit - (bits + 1)) := by
        rw [show limit - bits = (limit - (bits + 1)) + 1 by omega, Nat.pow_succ]
        omega
      simp only [Nat.sub_self, Nat.pow_zero] at moved
      omega
    · have := entry limit
      rw [if_neg (by omega), if_pos rfl] at this
      split at this <;> omega

theorem repairCounts_ok {limit size : Nat} (small : limit ≤ 15) (positive : 1 ≤ limit) (few : size < 2 ^ limit) (excess : Nat)
    {counts : List Nat} (h : Repairable limit size excess counts) :
    ∃ final, repairCounts limit excess counts = some final ∧ Repairable limit size 0 final := by
  induction excess generalizing counts with
  | zero => exact ⟨counts, rfl, h⟩
  | succ excess ih =>
    obtain ⟨next, step, ok⟩ := repairStep_ok small positive few h
    obtain ⟨final, rest, done⟩ := ih ok
    exact ⟨final, by rw [repairCounts, step]; exact rest, done⟩

/-! ### Handing the lengths out (R328) -/

theorem reassign_eq_zip {lengths : List Nat} {leaves : List (Nat × Nat)} (same : lengths.length = leaves.length) :
    reassign lengths leaves = some ((leaves.map Prod.fst).zip lengths) := by
  induction lengths generalizing leaves with
  | nil => rw [List.length_eq_zero_iff.1 same.symm]; rfl
  | cons bits more ih =>
    cases leaves with
    | nil => cases same
    | cons p rest =>
      obtain ⟨n, l⟩ := p
      rw [reassign, ih (Nat.succ.inj same)]
      rfl

theorem lengthsDown_sum (counts : List Nat) (limit : Nat) (w : Nat → Nat) (root : counts.getD 0 0 = 0) :
    ((lengthsDown counts limit).map w).sum = countSum limit counts w := by
  unfold countSum
  induction limit with
  | zero => simp [lengthsDown, List.getD] at root ⊢; simp [root]
  | succ bits ih =>
    rw [lengthsDown, List.map_append, List.sum_append, ih, Finset.sum_range_succ _ (bits + 1)]
    simp only [List.map_replicate, List.sum_replicate, smul_eq_mul]
    omega

theorem lengthsDown_count (counts : List Nat) (limit b : Nat) :
    (lengthsDown counts limit).count b = if 1 ≤ b ∧ b ≤ limit then counts.getD b 0 else 0 := by
  induction limit with
  | zero => rw [if_neg (by omega)]; rfl
  | succ bits ih =>
    rw [lengthsDown, List.count_append, ih, List.count_replicate]
    by_cases here : bits + 1 = b
    · subst here
      rw [if_pos (beq_self_eq_true _), if_neg (by omega), if_pos (by omega), Nat.add_zero]
    · rw [if_neg (by simpa using here), Nat.zero_add]
      exact if_congr (by omega) rfl rfl

theorem lengthsDown_bounds {counts : List Nat} {limit : Nat} : ∀ l ∈ lengthsDown counts limit, 1 ≤ l ∧ l ≤ limit := by
  intro l mem
  by_contra outside
  have zero := lengthsDown_count counts limit l
  rw [if_neg outside] at zero
  exact absurd mem (List.count_eq_zero.1 zero)

/-- A sum over a list, gathered by the values of `f`. -/
theorem sum_by_count {α : Type} (xs : List α) (f : α → Nat) {size : Nat} (bound : ∀ x ∈ xs, f x < size) (w : Nat → Nat) :
    (xs.map fun x => w (f x)).sum = ∑ n ∈ Finset.range size, (xs.filter fun x => f x = n).length * w n := by
  induction xs with
  | nil => simp
  | cons x rest ih =>
    have one : ∀ n, ((x :: rest).filter fun y => f y = n).length * w n
        = (if n = f x then w n else 0) + (rest.filter fun y => f y = n).length * w n := fun n => by
      rw [List.filter_cons]
      by_cases here : f x = n
      · rw [if_pos (by simpa using here), if_pos here.symm, List.length_cons, Nat.succ_mul, Nat.add_comm]
      · rw [if_neg (by simpa using here), if_neg (Ne.symm here), Nat.zero_add]
    rw [Finset.sum_congr rfl fun n _ => one n, Finset.sum_add_distrib, Finset.sum_ite_eq',
      if_pos (Finset.mem_range.2 (bound x List.mem_cons_self)), List.map_cons, List.sum_cons,
      ih fun y hy => bound y (List.mem_cons_of_mem _ hy)]

/-- Lengths up to the limit, summed by their counts. -/
theorem sum_eq_countSum {limit : Nat} (small : limit ≤ 15) (leaves : List (Nat × Nat)) (w : Nat → Nat)
    (bound : ∀ p ∈ leaves, p.2 ≤ limit) : (leaves.map fun p => w p.2).sum = countSum limit (countLengths leaves) w := by
  rw [sum_by_count leaves Prod.snd (size := limit + 1) fun p hp => Nat.lt_succ_of_le (bound p hp)]
  refine Finset.sum_congr rfl fun b hb => ?_
  have := Finset.mem_range.1 hb
  rw [countLengths, List.getD_eq_getElem?_getD, List.getElem?_map, List.getElem?_range (by omega)]
  rfl

theorem countLengths_getD {leaves : List (Nat × Nat)} {b : Nat} (small : b < 16) :
    (countLengths leaves).getD b 0 = (leaves.map Prod.snd).count b := by
  rw [countLengths, List.getD_eq_getElem?_getD, List.getElem?_map, List.getElem?_range small, List.count, List.countP_map,
    List.countP_eq_length_filter]
  exact congrArg List.length (List.filter_congr fun p _ => by rw [Function.comp_apply]; rfl)

theorem countLengths_getD_beyond {leaves : List (Nat × Nat)} {b limit : Nat} (bound : ∀ p ∈ leaves, p.2 ≤ limit) (beyond : limit < b) :
    (countLengths leaves).getD b 0 = 0 := by
  by_cases small : b < 16
  · rw [countLengths_getD small, List.count_eq_zero]
    intro mem
    obtain ⟨p, hp, rfl⟩ := List.mem_map.1 mem
    exact absurd (bound p hp) (by omega)
  · rw [List.getD_eq_getElem?_getD, List.getElem?_eq_none (by simpa [countLengths] using by omega)]
    rfl

end Sys2Proof.Proofs
end

section
/-! One tree build: its leaves and phantoms, the registers it writes, the complete code and the cost
(42_huffman_builder.md R321 to R333, R345). -/

namespace Sys2Proof.Proofs

open Sys2Proof.Machine Sys2Proof.Claims

/-! ### Leaves and phantoms (R322, R323) -/

/-- The phantom leaf with this number. -/
def phantomLeaf (n : Nat) : Node := ⟨n, 1, 0⟩

/-- The symbols that get a code: the phantoms and the symbols that occur; `top` is the largest of them. -/
structure Phantoms (freq : Arr 16) (phantoms : List Nat) (top : Nat) : Prop where
  distinct : (phantoms ++ freq.map Prod.fst).Nodup
  small : ∀ n ∈ phantoms, n < 3
  top_mem : top ∈ phantoms ++ freq.map Prod.fst
  le_top : ∀ n ∈ phantoms ++ freq.map Prod.fst, n ≤ top
  count : phantoms.length + freq.length = max 2 freq.length
  of_none : freq = [] → phantoms = [1, 0]
  of_one : ∀ p, freq = [p] → phantoms = [if p.1 < 2 then p.1 + 1 else 0]

theorem foldl_max_spec (xs : List Node) (m : Int) :
    let top := xs.foldl (fun m n => max m (n.num : Int)) m
    m ≤ top ∧ (∀ n ∈ xs, (n.num : Int) ≤ top) ∧ (top = m ∨ ∃ n ∈ xs, (n.num : Int) = top) := by
  induction xs generalizing m with
  | nil => exact ⟨Int.le_refl m, by simp, .inl rfl⟩
  | cons x rest ih =>
    obtain ⟨low, all, reached⟩ := ih (max m x.num)
    refine ⟨(le_max_left _ _).trans low, fun n hn => ?_, ?_⟩
    · rcases List.mem_cons.1 hn with rfl | hn
      · exact (le_max_right _ _).trans low
      · exact all n hn
    · rcases reached with same | ⟨n, hn, same⟩
      · rcases max_choice m x.num with left | right
        · exact .inl (same.trans left)
        · exact .inr ⟨x, List.mem_cons_self, (same.trans right).symm⟩
      · exact .inr ⟨n, List.mem_cons_of_mem _ hn, same⟩

theorem canonical_nodup {w : Nat} {a : Arr w} (h : a.Canonical) : (a.map Prod.fst).Nodup := by
  rw [List.Nodup, List.pairwise_map]
  exact h.1.imp fun lt => Nat.ne_of_lt lt

theorem addPhantoms_spec {freq : Arr 16} (canonical : freq.Canonical) :
    ∃ phantoms top, Phantoms freq phantoms top
      ∧ addPhantoms 2 (seedLeaves freq) ((seedLeaves freq).foldl (fun m n => max m (n.num : Int)) (-1)) []
        = (phantoms.map phantomLeaf ++ seedLeaves freq, (top : Int), phantoms) := by
  match freq with
  | [] => exact ⟨[1, 0], 1, ⟨by decide, by decide, by decide, by decide, rfl, fun _ => rfl, fun _ h => (nomatch h)⟩, by decide⟩
  | [p] =>
    have start : (seedLeaves [p]).foldl (fun m n => max m (n.num : Int)) (-1) = (p.1 : Int) := max_eq_right (by simp)
    rw [start]
    by_cases low : p.1 < 2
    · refine ⟨[p.1 + 1], p.1 + 1, ⟨by simp, by simp; omega, by simp, by simp, by simp, fun h => (nomatch h), ?_⟩, ?_⟩
      · intro q h
        cases h
        rw [if_pos low]
      · have low : (p.1 : Int) < 2 := by omega
        simp only [addPhantoms, seedLeaves, phantomNode, if_pos low]
        rfl
    · have number : phantomNode (p.1 : Int) = 0 := by
        unfold phantomNode
        rw [if_neg (by omega)]
      refine ⟨[0], p.1, ⟨by simp; omega, by simp, by simp, by simp, by simp, fun h => (nomatch h), ?_⟩, ?_⟩
      · intro q h
        cases h
        rw [if_neg low]
      · have high : ¬ ((p.1 : Int) < 2) := by omega
        simp [addPhantoms, seedLeaves, number, phantomLeaf, high]
  | p :: q :: rest =>
    obtain ⟨low, all, reached⟩ := foldl_max_spec (seedLeaves (p :: q :: rest)) (-1)
    generalize (seedLeaves (p :: q :: rest)).foldl (fun m n => max m (n.num : Int)) (-1) = top at low all reached ⊢
    have known : ∀ x ∈ p :: q :: rest, (x.1 : Int) ≤ top := fun x hx => all _ (List.mem_map_of_mem hx)
    obtain ⟨x, hx, same⟩ : ∃ x ∈ p :: q :: rest, (x.1 : Int) = top := by
      rcases reached with minus | ⟨n, hn, same⟩
      · exact absurd (known p (by simp)) (by omega)
      · obtain ⟨x, hx, rfl⟩ := List.mem_map.1 hn
        exact ⟨x, hx, same⟩
    refine ⟨[], x.1, ⟨canonical_nodup canonical, by simp, List.mem_map_of_mem hx, fun n hn => ?_, by simp, fun h => (nomatch h), fun _ h => (nomatch h)⟩, ?_⟩
    · obtain ⟨y, hy, rfl⟩ := List.mem_map.1 hn
      have := known y hy
      omega
    · rw [same]
      rfl

theorem Phantoms.two_le {freq : Arr 16} {phantoms : List Nat} {top : Nat} (h : Phantoms freq phantoms top) :
    2 ≤ (phantoms ++ freq.map Prod.fst).length := by
  rw [List.length_append, List.length_map, h.count]
  exact le_max_left _ _

theorem Phantoms.lt_elems {freq : Arr 16} {phantoms : List Nat} {top : Nat} (h : Phantoms freq phantoms top) {tree : Tree}
    (inside : freq.Within tree.elems) : ∀ n ∈ phantoms ++ freq.map Prod.fst, n < tree.elems := by
  intro n mem
  rcases List.mem_append.1 mem with phantom | occurs
  · have := h.small n phantom
    have := tree.two_lt_elems
    omega
  · obtain ⟨p, hp, rfl⟩ := List.mem_map.1 occurs
    exact inside p hp

theorem valueOf_of_mem {n v : Nat} {xs : List (Nat × Nat)} (distinct : (xs.map Prod.fst).Nodup) (mem : (n, v) ∈ xs) :
    valueOf n xs = v := by
  induction xs with
  | nil => cases mem
  | cons p rest ih =>
    obtain ⟨fresh, distinct⟩ := List.nodup_cons.1 distinct
    rcases List.mem_cons.1 mem with rfl | mem
    · exact valueOf_cons_self _ _ _
    · exact (valueOf_cons_of_ne (fun same => fresh (List.mem_map.2 ⟨_, mem, same⟩)) _).trans (ih distinct mem)

/-! ### What the first part of a build gives (R322 to R326) -/

/-- The leaves among the popped nodes with their lengths (R322, R326). -/
def leavesAmong (top : Nat) (popped : List (Node × Nat)) (lens : List (Nat × Nat)) : List (Nat × Nat) :=
  (popped.filter fun p => decide (p.1.num ≤ top)).map fun p => (p.1.num, valueOf p.1.num lens)

/-- The leaves of a build with their lengths. -/
structure Grown (tree : Tree) (freq : Arr 16) (b : Built) (excess : Nat) : Prop where
  phantoms : Phantoms freq b.phantoms b.maxCode
  keys : (b.leafLens.map Prod.fst).Perm (b.phantoms ++ freq.map Prod.fst)
  overflow : b.overflow = 2 * excess
  lens : Frontier tree.maxLength excess (b.leafLens.map Prod.snd)
  counts : b.blCount = countLengths b.leafLens
  freq_phantom : ∀ n ∈ b.phantoms, b.freqOf n = 1
  freq_occurs : ∀ p ∈ freq, b.freqOf p.1 = p.2.toNat

theorem one_le_maxLength (tree : Tree) : 1 ≤ tree.maxLength := by cases tree <;> decide

theorem maxLength_le (tree : Tree) : tree.maxLength ≤ 15 := by cases tree <;> decide

theorem elems_lt_space (tree : Tree) : tree.elems < 2 ^ tree.maxLength := by cases tree <;> decide

theorem buildLengths_grown {tree : Tree} {freq : Arr 16} (canonical : freq.Canonical)
    (inside : freq.Within tree.elems) : ∃ excess, Grown tree freq (buildLengths tree freq) excess := by
  obtain ⟨phantoms, top, ph, added⟩ := addPhantoms_spec canonical
  have topLt := ph.lt_elems inside top ph.top_mem
  -- the nodes that are merged
  have nums : (phantoms.map phantomLeaf ++ seedLeaves freq).map Node.num = phantoms ++ freq.map Prod.fst := by
    simp [seedLeaves, phantomLeaf, Function.comp_def]
  have perm := foldl_insertNode_perm (phantoms.map phantomLeaf ++ seedLeaves freq) []
  rw [List.append_nil] at perm
  generalize leavesEq : phantoms.map phantomLeaf ++ seedLeaves freq = leaves at nums perm added
  generalize sortedEq : leaves.foldl (fun live n => insertNode n live) [] = sorted at perm
  have sortedNums : (sorted.map Node.num).Perm (phantoms ++ freq.map Prod.fst) := nums ▸ perm.map Node.num
  have size : 2 ≤ sorted.length := by
    have := sortedNums.length_eq
    rw [List.length_map] at this
    exact this ▸ ph.two_le
  obtain ⟨r, more, eq, merged⟩ := mergeNodes_merged sorted.length (next := tree.elems) (live := sorted) (popped := [])
    (fun none => by simp [none] at size) (Nat.le_succ _)
  rw [List.nil_append] at eq
  have distinct : (sorted.map Node.num).Nodup := sortedNums.nodup_iff.2 ph.distinct
  have below : ∀ n ∈ sorted, n.num < tree.elems := fun n hn =>
    ph.lt_elems inside n.num (sortedNums.mem_iff.1 (List.mem_map_of_mem hn))
  obtain ⟨lens, excess, assigned, front⟩ := merged.frontier (limit := tree.maxLength) (one_le_maxLength tree) distinct below
  obtain ⟨inner, nodes, innerNums⟩ := merged.nodes
  -- the leaves among the popped nodes are the nodes that were merged
  have outside : ∀ n : Node, tree.elems ≤ n.num → decide (n.num ≤ top) = false := fun n hn => decide_eq_false (by omega)
  have rootOutside : tree.elems ≤ r.num := by
    rcases merged.root_num with above | single
    · exact above
    · rw [single] at size
      exact absurd size (by simp)
  have innerOutside : ∀ n ∈ inner, tree.elems ≤ n.num := fun n hn => by
    have mem : n.num ∈ inner.map Node.num := List.mem_map_of_mem hn
    rw [innerNums] at mem
    exact (List.mem_range'_1.1 mem).1
  have leafNodes : ((more.filter fun p => decide (p.1.num ≤ top)).map Prod.fst).Perm leaves := by
    have rootNone : [r].filter (fun n => decide (n.num ≤ top)) = [] := by simpa using outside r rootOutside
    have innerNone : inner.filter (fun n => decide (n.num ≤ top)) = [] :=
      List.filter_eq_nil_iff.2 fun n hn => by simpa using outside n (innerOutside n hn)
    have all : sorted.filter (fun n => decide (n.num ≤ top)) = sorted :=
      List.filter_eq_self.2 fun n hn => decide_eq_true (ph.le_top n.num (sortedNums.mem_iff.1 (List.mem_map_of_mem hn)))
    have filtered := nodes.filter fun n => decide (n.num ≤ top)
    rw [List.filter_append, List.filter_append, rootNone, innerNone, all, List.append_nil, List.append_nil, List.filter_map] at filtered
    exact filtered.trans perm
  have built : buildLengths tree freq = ⟨[r], more, top, phantoms, lens, 2 * excess, leavesAmong top more lens,
      countLengths (leavesAmong top more lens)⟩ := by
    simp only [buildLengths, added, sortedEq, eq, List.map_cons, List.map_nil, assigned, Int.toNat_natCast, leavesAmong]
  rw [built]
  have popped : ((more.map fun p => (p.1.num, p.1.freq)).map Prod.fst).Nodup := by
    have all : ((sorted ++ inner).map Node.num).Nodup := by
      rw [List.map_append, innerNums, List.nodup_append]
      refine ⟨distinct, List.nodup_range', fun a ha c hc => ?_⟩
      obtain ⟨n, hn, rfl⟩ := List.mem_map.1 ha
      have := below n hn
      have := (List.mem_range'_1.1 hc).1
      omega
    have both := ((nodes.map Node.num).nodup_iff.2 all)
    rw [List.map_append, List.nodup_append] at both
    simpa [Function.comp_def] using both.1
  have freqOf : ∀ n ∈ leaves, valueOf n.num (more.map fun p => (p.1.num, p.1.freq)) = n.freq := fun n hn => by
    obtain ⟨p, hp, rfl⟩ := List.mem_map.1 (leafNodes.mem_iff.2 hn)
    exact valueOf_of_mem popped (List.mem_map.2 ⟨p, List.mem_of_mem_filter hp, rfl⟩)
  refine ⟨excess, ph, ?_, rfl, ?_, rfl, fun n hn => ?_, fun p hp => ?_⟩
  · have := leafNodes.map Node.num
    rw [nums] at this
    simpa [leavesAmong, Function.comp_def] using this
  · refine front.perm ((perm.symm.map _).symm.trans ?_)
    have := (leafNodes.map fun n => valueOf n.num lens).symm
    simpa [leavesAmong, Function.comp_def] using this
  · exact freqOf (phantomLeaf n) (leavesEq ▸ List.mem_append_left _ (List.mem_map_of_mem hn))
  · exact freqOf ⟨p.1, p.2.toNat, 0⟩ (leavesEq ▸ List.mem_append_right _ (List.mem_map.2 ⟨p, hp, rfl⟩))

/-! ### The final lengths (R327, R328) -/

/-- The leaves and the counts after the repair: the same symbols with a complete code inside the limit. -/
structure Repaired (tree : Tree) (b : Built) (counts : List Nat) (after : List (Nat × Nat)) : Prop where
  keys : after.map Prod.fst = b.leafLens.map Prod.fst
  bounds : ∀ p ∈ after, 1 ≤ p.2 ∧ p.2 ≤ tree.maxLength
  space : (after.map fun p => 2 ^ (tree.maxLength - p.2)).sum = 2 ^ tree.maxLength
  counts : ∀ l, 1 ≤ l → l ≤ 15 → counts.getD l 0 = (after.map Prod.snd).count l

section
variable {tree : Tree} {freq : Arr 16} {b : Built} {excess : Nat}

theorem Grown.length_eq (g : Grown tree freq b excess) : b.leafLens.length = max 2 freq.length := by
  have := g.keys.length_eq
  rw [List.length_map, List.length_append, List.length_map, g.phantoms.count] at this
  exact this

theorem Grown.bounds (g : Grown tree freq b excess) : ∀ p ∈ b.leafLens, 1 ≤ p.2 ∧ p.2 ≤ tree.maxLength := by
  intro p hp
  have mem : p.2 ∈ b.leafLens.map Prod.snd := List.mem_map_of_mem hp
  exact ⟨g.lens.deep (by rw [List.length_map, g.length_eq]; exact le_max_left _ _) _ mem, g.lens.bound _ mem⟩

theorem Grown.few (g : Grown tree freq b excess) (inside : freq.Within tree.elems) : b.leafLens.length < 2 ^ tree.maxLength := by
  have subset : b.leafLens.map Prod.fst ⊆ List.range tree.elems := fun n hn =>
    List.mem_range.2 (g.phantoms.lt_elems inside n (g.keys.mem_iff.1 hn))
  have le := (List.subperm_of_subset (g.keys.nodup_iff.2 g.phantoms.distinct) subset).length_le
  rw [List.length_map, List.length_range] at le
  exact Nat.lt_of_le_of_lt le (elems_lt_space tree)

theorem Grown.repairable (g : Grown tree freq b excess) :
    Repairable tree.maxLength b.leafLens.length excess b.blCount := by
  have small := maxLength_le tree
  have positive := (one_le_maxLength tree)
  have bound : ∀ p ∈ b.leafLens, p.2 ≤ tree.maxLength := fun p hp => (g.bounds p hp).2
  rw [g.counts]
  refine ⟨by simp [countLengths], ?_, fun l => countLengths_getD_beyond bound, ?_, ?_, ?_⟩
  · rw [countLengths_getD (by decide), List.count_eq_zero]
    intro mem
    obtain ⟨p, hp, zero⟩ := List.mem_map.1 mem
    have := (g.bounds p hp).1
    omega
  · rw [← sum_eq_countSum small _ (fun _ => 1) bound]
    simp
  · rw [← sum_eq_countSum small _ (fun l => 2 ^ (tree.maxLength - l)) bound, ← g.lens.space, spaceOf, List.map_map]
    rfl
  · rw [countLengths_getD (by omega)]
    exact g.lens.deepest

theorem Grown.repaired (g : Grown tree freq b excess) (inside : freq.Within tree.elems) :
    ∃ counts after, b.repair tree = some (counts, after) ∧ Repaired tree b counts after := by
  have small := maxLength_le tree
  unfold Built.repair
  by_cases none : b.overflow = 0
  · have zero : excess = 0 := by
      have := g.overflow
      omega
    refine ⟨b.blCount, b.leafLens, if_pos none, rfl, g.bounds, ?_, fun l _ hl => g.counts ▸ countLengths_getD (by omega)⟩
    have := g.lens.space
    rw [zero, spaceOf, List.map_map] at this
    exact this
  · obtain ⟨counts, repaired, _, root, beyond, leaves, space, _⟩ :=
      repairCounts_ok small (one_le_maxLength tree) (g.few inside) excess g.repairable
    have steps : (b.overflow + 1) / 2 = excess := by
      have := g.overflow
      omega
    have down := fun w => lengthsDown_sum counts tree.maxLength w root
    have size : (lengthsDown counts tree.maxLength).length = b.leafLens.length := by
      have := down fun _ => 1
      rw [leaves] at this
      simpa using this
    have lens : ((b.leafLens.map Prod.fst).zip (lengthsDown counts tree.maxLength)).map Prod.snd = lengthsDown counts tree.maxLength :=
      List.map_snd_zip (by rw [List.length_map, size])
    refine ⟨counts, _, by rw [if_neg none, steps, repaired]; simp only; rw [reassign_eq_zip size], ?_, fun p hp => ?_, ?_, fun l one hl => ?_⟩
    · exact List.map_fst_zip (by rw [List.length_map, size])
    · exact lengthsDown_bounds p.2 (lens ▸ List.mem_map_of_mem hp)
    · have weights := down fun l => 2 ^ (tree.maxLength - l)
      rw [← lens, List.map_map] at weights
      exact weights.trans space
    · rw [lens, lengthsDown_count]
      split
      · rfl
      · exact beyond l (by omega)

end

/-! ### The registers a build writes (R332, R333) -/

theorem read_foldl_write {w : Nat} (f : Nat → BitVec w) (xs : List (Nat × Nat)) (distinct : (xs.map Prod.fst).Nodup) {a : Arr w}
    (canonical : a.Canonical) :
    (∀ p ∈ xs, (xs.foldl (fun a p => a.write p.1 (f p.2)) a).read p.1 = f p.2)
      ∧ ∀ n, n ∉ xs.map Prod.fst → (xs.foldl (fun a p => a.write p.1 (f p.2)) a).read n = a.read n := by
  induction xs generalizing a with
  | nil => exact ⟨fun p hp => (nomatch hp), fun _ _ => rfl⟩
  | cons x rest ih =>
    obtain ⟨fresh, distinct⟩ := List.nodup_cons.1 distinct
    obtain ⟨written, kept⟩ := ih distinct (Arr.canonical_write canonical x.1 (f x.2))
    refine ⟨fun p hp => ?_, fun n hn => ?_⟩
    · rcases List.mem_cons.1 hp with rfl | hp
      · exact (kept _ fresh).trans (Arr.read_write_same canonical _ _)
      · exact written p hp
    · rw [List.map_cons, List.mem_cons, not_or] at hn
      exact (kept n hn.2).trans (Arr.read_write_ne canonical hn.1 _)

/-- The state after a build that came to its end. -/
def builtTree (tree : Tree) (b : Built) (counts : List Nat) (after : List (Nat × Nat)) (s : State) : State :=
  s.setHb { ({ s.hb with optLen := s.hb.optLen + b.optCost tree + b.repairCost b.leafLens after,
                         staticLen := s.hb.staticLen + b.staticCost tree } : Huffman).setTree tree (lenFile after)
      (codeFile (s.hb.codes tree) (genCodes (firstCodes counts) (bySymbol after)).1) b.maxCode with
    scratch := b.scratch counts after (genCodes (firstCodes counts) (bySymbol after)).2 }

section
variable {tree : Tree} {b : Built} {counts : List Nat} {after : List (Nat × Nat)} {s : State}

theorem builtTree_lens : (builtTree tree b counts after s).hb.lens tree = lenFile after := by cases tree <;> rfl

theorem builtTree_codes : (builtTree tree b counts after s).hb.codes tree
    = codeFile (s.hb.codes tree) (genCodes (firstCodes counts) (bySymbol after)).1 := by cases tree <;> rfl

theorem builtTree_maxCode : maxCodeOf (builtTree tree b counts after s).hb tree = b.maxCode := by cases tree <;> rfl

theorem builtTree_optLen : (builtTree tree b counts after s).hb.optLen
    = s.hb.optLen + b.optCost tree + b.repairCost b.leafLens after := by cases tree <;> rfl

theorem builtTree_staticLen : (builtTree tree b counts after s).hb.staticLen = s.hb.staticLen + b.staticCost tree := by
  cases tree <;> rfl

theorem builtTree_only : OnlyTreeBuilt tree s.hb (builtTree tree b counts after s).hb := by
  refine ⟨fun any => by cases tree <;> cases any <;> rfl, by cases tree <;> rfl, fun other ne => ?_⟩
  cases tree <;> cases other
  all_goals first
    | exact absurd rfl ne
    | exact ⟨rfl, rfl, rfl⟩

end

theorem State.MemoryOk.freqs_canonical {s : State} (m : s.MemoryOk) (tree : Tree) : (s.hb.freqs tree).Canonical := by
  rw [State.memoryOk_iff] at m
  obtain ⟨⟨-, c1, c2, c3, -⟩, -⟩ := m
  cases tree
  · exact c1
  · exact c2
  · exact c3

theorem Repaired.kraftHolds {tree : Tree} {b : Built} {counts : List Nat} {after : List (Nat × Nat)}
    (r : Repaired tree b counts after) : kraftHolds tree.maxLength after = true := by
  unfold Machine.kraftHolds
  rw [r.space, Bool.and_eq_true, List.all_eq_true]
  exact ⟨fun p hp => decide_eq_true (r.bounds p hp).2, decide_eq_true (Nat.le_refl _)⟩

/-- Every build comes to its end, with a complete code inside the limit (R326 to R333). -/
theorem buildTree_built (tree : Tree) {s : State} (m : s.MemoryOk) : ∃ excess counts after,
    Grown tree (s.hb.freqs tree) (buildLengths tree (s.hb.freqs tree)) excess
      ∧ Repaired tree (buildLengths tree (s.hb.freqs tree)) counts after
      ∧ (buildTree tree).run s = .ok () (builtTree tree (buildLengths tree (s.hb.freqs tree)) counts after s) := by
  obtain ⟨excess, grown⟩ := buildLengths_grown (State.MemoryOk.freqs_canonical m tree) (m.freqs tree)
  obtain ⟨counts, after, repair, repaired⟩ := grown.repaired (m.freqs tree)
  refine ⟨excess, counts, after, grown, repaired, ?_⟩
  rw [buildTree_run]
  simp only [repair, repaired.kraftHolds, if_true, Int.add_zero]
  cases tree <;> rfl

/-! ### Sums over the symbols -/

theorem filter_range_perm {size : Nat} {keys : List Nat} (distinct : keys.Nodup) (inside : ∀ n ∈ keys, n < size) {p : Nat → Bool}
    (iff : ∀ n, n < size → (p n = true ↔ n ∈ keys)) : ((List.range size).filter p).Perm keys := by
  refine (List.perm_ext_iff_of_nodup (List.nodup_range.filter _) distinct).2 fun n => ?_
  rw [List.mem_filter, List.mem_range]
  exact ⟨fun ⟨lt, hp⟩ => (iff n lt).1 hp, fun mem => ⟨inside n mem, (iff n (inside n mem)).2 mem⟩⟩

theorem sum_range_eq {size : Nat} {keys : List Nat} (distinct : keys.Nodup) (inside : ∀ n ∈ keys, n < size) {f : Nat → Nat}
    (zero : ∀ n, n ∉ keys → f n = 0) : ((List.range size).map f).sum = (keys.map f).sum := by
  rw [← List.sum_toFinset f List.nodup_range, ← List.sum_toFinset f distinct]
  refine (Finset.sum_subset (fun n hn => ?_) fun n _ hn => zero n fun mem => hn (List.mem_toFinset.2 mem)).symm
  rw [List.mem_toFinset, List.mem_range]
  exact inside n (List.mem_toFinset.1 hn)

section
variable {tree : Tree} {freq : Arr 16} {b : Built} {excess : Nat} {counts : List Nat} {after : List (Nat × Nat)}

theorem Grown.keys_nodup (g : Grown tree freq b excess) (r : Repaired tree b counts after) : (after.map Prod.fst).Nodup :=
  r.keys ▸ g.keys.nodup_iff.2 g.phantoms.distinct

/-- The symbols with a code are the phantoms and the symbols that occur. -/
theorem Grown.mem_keys (g : Grown tree freq b excess) (r : Repaired tree b counts after) {n : Nat} :
    n ∈ after.map Prod.fst ↔ n ∈ b.phantoms ++ freq.map Prod.fst := by rw [r.keys]; exact g.keys.mem_iff

theorem Grown.lt_elems (g : Grown tree freq b excess) (r : Repaired tree b counts after) (inside : freq.Within tree.elems) :
    ∀ n ∈ after.map Prod.fst, n < tree.elems := fun n hn => g.phantoms.lt_elems inside n ((g.mem_keys r).1 hn)

theorem lenFile_of_mem (g : Grown tree freq b excess) (r : Repaired tree b counts after) {p : Nat × Nat} (mem : p ∈ after) :
    ((lenFile after).read p.1).toNat = p.2 := by
  unfold lenFile
  rw [(read_foldl_write (BitVec.ofNat 4) after (g.keys_nodup r) Arr.canonical_nil).1 p mem, BitVec.toNat_ofNat]
  have := (r.bounds p mem).2
  have := maxLength_le tree
  exact Nat.mod_eq_of_lt (by omega)

theorem lenFile_of_not_mem (g : Grown tree freq b excess) (r : Repaired tree b counts after) {n : Nat}
    (out : n ∉ after.map Prod.fst) : (lenFile after).read n = 0 :=
  (read_foldl_write (BitVec.ofNat 4) after (g.keys_nodup r) Arr.canonical_nil).2 n out

theorem lenFile_ne_zero_iff (g : Grown tree freq b excess) (r : Repaired tree b counts after) {n : Nat} :
    ((lenFile after).read n).toNat ≠ 0 ↔ n ∈ after.map Prod.fst := by
  constructor
  · intro used
    by_contra out
    rw [lenFile_of_not_mem g r out] at used
    exact used rfl
  · intro mem
    obtain ⟨p, hp, rfl⟩ := List.mem_map.1 mem
    rw [lenFile_of_mem g r hp]
    have := (r.bounds p hp).1
    omega

/-- A sum over the leaves as a sum over all symbols. -/
theorem sum_leaves (g : Grown tree freq b excess) (r : Repaired tree b counts after) (f : Nat → Nat → Nat) :
    (after.map fun p => f p.1 p.2).sum = ((after.map Prod.fst).map fun n => f n ((lenFile after).read n).toNat).sum := by
  rw [List.map_map]
  exact congrArg _ (List.map_congr_left fun p hp => by rw [Function.comp_apply, lenFile_of_mem g r hp])

end

theorem read_ne_zero_iff {w : Nat} {a : Arr w} (canonical : a.Canonical) {n : Nat} : a.read n ≠ 0 ↔ n ∈ a.map Prod.fst := by
  induction a with
  | nil => simp
  | cons p rest ih =>
    obtain ⟨_, nonzero, tail⟩ := Arr.canonical_cons.1 canonical
    rw [Arr.read_cons, List.map_cons, List.mem_cons]
    by_cases here : n = p.1
    · rw [if_pos here]
      exact iff_of_true nonzero (.inl here)
    · rw [if_neg here, ih tail]
      exact (or_iff_right here).symm

theorem read_of_mem {w : Nat} {a : Arr w} (canonical : a.Canonical) {p : Nat × BitVec w} (mem : p ∈ a) : a.read p.1 = p.2 := by
  induction a with
  | nil => cases mem
  | cons q rest ih =>
    obtain ⟨lt, _, tail⟩ := Arr.canonical_cons.1 canonical
    rw [Arr.read_cons]
    rcases List.mem_cons.1 mem with rfl | mem
    · rw [if_pos rfl]
    · rw [if_neg (Nat.ne_of_gt (lt p mem)), ih tail mem]

theorem freqOf_ne_zero_iff {h : Huffman} {tree : Tree} (canonical : (h.freqs tree).Canonical) {n : Nat} :
    freqOf h tree n ≠ 0 ↔ n ∈ (h.freqs tree).map Prod.fst := by
  rw [← read_ne_zero_iff canonical, freqOf, Ne, Ne, not_iff_not]
  exact BitVec.toNat_eq (y := 0) |>.symm

/-- Settles O41, from the frontier of the merge, the repair and the leaves with their phantoms. -/
theorem treeIsComplete : Obligations.TreeIsComplete := by
  intro tree s m
  have canonical := State.MemoryOk.freqs_canonical m tree
  have inside := m.freqs tree
  obtain ⟨excess, counts, after, g, r, run⟩ := buildTree_built tree m
  have coded : ∀ n, lenOf (builtTree tree (buildLengths tree (s.hb.freqs tree)) counts after s).hb tree n
      = ((lenFile after).read n).toNat := fun n => by rw [lenOf, builtTree_lens]
  have used : ∀ n, lenOf (builtTree tree (buildLengths tree (s.hb.freqs tree)) counts after s).hb tree n ≠ 0 ↔
      n ∈ (buildLengths tree (s.hb.freqs tree)).phantoms ++ (s.hb.freqs tree).map Prod.fst := fun n => by
    rw [coded, lenFile_ne_zero_iff g r, g.mem_keys r]
  have perm := filter_range_perm (g.keys_nodup r) (g.lt_elems r inside)
    (p := fun n => decide (lenOf (builtTree tree (buildLengths tree (s.hb.freqs tree)) counts after s).hb tree n ≠ 0))
    fun n _ => by rw [decide_eq_true_eq, used, g.mem_keys r]
  have occurring := filter_range_perm (canonical_nodup canonical) (fun n hn => by
      obtain ⟨p, hp, rfl⟩ := List.mem_map.1 hn
      exact inside p hp) (p := fun n => decide (freqOf s.hb tree n ≠ 0))
    fun n _ => by rw [decide_eq_true_eq, freqOf_ne_zero_iff canonical]
  refine ⟨_, run, fun n => ?_, ?_, fun n occurs => ?_, ?_, fun none => ?_, fun k only => ?_, ⟨?_, fun n hn => ?_⟩, rfl, builtTree_only⟩
  · rw [coded]
    by_cases mem : n ∈ after.map Prod.fst
    · obtain ⟨p, hp, rfl⟩ := List.mem_map.1 mem
      rw [lenFile_of_mem g r hp]
      exact (r.bounds p hp).2
    · rw [lenFile_of_not_mem g r mem]
      exact Nat.zero_le _
  · rw [(perm.map _).sum_eq, ← r.space, sum_leaves g r fun _ l => 2 ^ (tree.maxLength - l)]
    simp only [coded]
  · exact (used n).2 (List.mem_append_right _ ((freqOf_ne_zero_iff canonical).1 occurs))
  · rw [perm.length_eq, occurring.length_eq, r.keys, List.length_map, List.length_map, g.length_eq]
  · have empty : s.hb.freqs tree = [] := List.eq_nil_iff_forall_not_mem.2 fun p hp =>
      (freqOf_ne_zero_iff canonical).2 (List.mem_map_of_mem hp) (none p.1)
    rw [used, used, g.phantoms.of_none empty]
    simp
  · obtain ⟨p, single⟩ : ∃ p, s.hb.freqs tree = [p] := by
      have keys : ∀ n, n ∈ (s.hb.freqs tree).map Prod.fst ↔ n = k := fun n => by rw [← freqOf_ne_zero_iff canonical, only]
      have := (List.perm_ext_iff_of_nodup (canonical_nodup canonical) (List.nodup_singleton k)).2 fun n => by
        rw [keys, List.mem_singleton]
      exact List.length_eq_one_iff.1 (by simpa using this.length_eq)
    have same : p.1 = k := (only p.1).1 ((freqOf_ne_zero_iff canonical).2 (by rw [single]; simp))
    rw [used, g.phantoms.of_one p single, same]
    simp
  · rw [builtTree_maxCode, used]
    exact g.phantoms.top_mem
  · rw [builtTree_maxCode]
    exact g.phantoms.le_top n ((used n).1 hn)

/-! ### The cost of a build (R323, R326, R328) -/

/-- A build with phantoms has two leaves, of length 1 each. -/
theorem phantom_len {tree : Tree} {freq : Arr 16} {b : Built} {excess : Nat} {counts : List Nat} {after : List (Nat × Nat)}
    (g : Grown tree freq b excess) (r : Repaired tree b counts after) (some : b.phantoms ≠ []) : ∀ p ∈ after, p.2 = 1 := by
  have size : after.length = 2 := by
    have keys := congrArg List.length r.keys
    rw [List.length_map, List.length_map, g.length_eq] at keys
    have := g.phantoms.count
    have := List.length_pos_iff.2 some
    omega
  obtain ⟨x, y, rfl⟩ := List.length_eq_two.1 size
  have space := r.space
  have hx := r.bounds x (by simp)
  have hy := r.bounds y (by simp)
  simp only [List.map_cons, List.map_nil, List.sum_cons, List.sum_nil, Nat.add_zero] at space
  have half : 2 ^ tree.maxLength = 2 * 2 ^ (tree.maxLength - 1) := by
    rw [← Nat.pow_succ', Nat.succ_eq_add_one, Nat.sub_add_cancel (one_le_maxLength tree)]
  have small : ∀ l, 1 ≤ l → 2 ^ (tree.maxLength - l) ≤ 2 ^ (tree.maxLength - 1) := fun l hl =>
    Nat.pow_le_pow_right (by decide) (by omega)
  have one : ∀ l, 1 ≤ l → l ≤ tree.maxLength → 2 ^ (tree.maxLength - l) = 2 ^ (tree.maxLength - 1) → l = 1 := fun l _ _ same => by
    have := Nat.pow_right_injective (Nat.le_refl 2) same
    omega
  have := small x.2 hx.1
  have := small y.2 hy.1
  have ex := one x.2 hx.1 hx.2 (by omega)
  have ey := one y.2 hy.1 hy.2 (by omega)
  simp [ex, ey]

theorem phantom_xbits {tree : Tree} {n : Nat} (small : n < 3) : tree.xbits n = 0 := by
  cases tree
  · exact lit_xbits_of_lt (by omega)
  · have : ∀ k, k < 3 → extraDBits k = 0 := by decide
    exact this n small
  · have : ∀ k, k < 3 → extraBlBits k = 0 := by decide
    exact this n small

/-- The cost of the lengths before the repair and what the repair adds are the cost of the lengths after it. -/
theorem cost_repaired (f x : Nat → Nat) {before after : List (Nat × Nat)} (keys : after.map Prod.fst = before.map Prod.fst) :
    (before.map fun p => ((f p.1 * (p.2 + x p.1) : Nat) : Int)).sum
      + ((before.zip after).map fun p => ((p.2.2 : Int) - (p.1.2 : Int)) * (f p.1.1 : Int)).sum
    = ((after.map fun p => f p.1 * (p.2 + x p.1)).sum : Nat) := by
  induction before generalizing after with
  | nil =>
    rw [List.map_eq_nil_iff.1 (keys.trans List.map_nil)]
    rfl
  | cons p rest ih =>
    cases after with
    | nil => cases keys
    | cons q more =>
      obtain ⟨same, tail⟩ := List.cons.inj keys
      have step := ih tail
      simp only [List.map_cons, List.sum_cons, List.zip_cons_cons, Nat.cast_add, ← step, same]
      push_cast
      ring

/-- The leaves' weights by the frequencies of the build: those of the phantoms once, and those of the symbols that occur by
their frequencies. -/
theorem sum_weights {tree : Tree} {freq : Arr 16} {b : Built} {excess : Nat} (g : Grown tree freq b excess)
    (canonical : freq.Canonical) (inside : freq.Within tree.elems) (weight : Nat → Nat) :
    ((b.leafLens.map Prod.fst).map fun n => b.freqOf n * weight n).sum
      = (b.phantoms.map weight).sum + ((List.range tree.elems).map fun n => (freq.read n).toNat * weight n).sum := by
  rw [(g.keys.map _).sum_eq, List.map_append, List.sum_append]
  congr 1
  · exact congrArg _ (List.map_congr_left fun n hn => by rw [g.freq_phantom n hn, Nat.one_mul])
  · have lt : ∀ n ∈ freq.map Prod.fst, n < tree.elems := fun n hn => by
      obtain ⟨p, hp, rfl⟩ := List.mem_map.1 hn
      exact inside p hp
    rw [sum_range_eq (canonical_nodup canonical) lt fun n out => by
      rw [show freq.read n = 0 from not_not.1 fun used => out ((read_ne_zero_iff canonical).1 used)]
      exact Nat.zero_mul _, List.map_map, List.map_map]
    exact congrArg _ (List.map_congr_left fun p hp => by
      rw [Function.comp_apply, Function.comp_apply, g.freq_occurs p hp, read_of_mem canonical hp])

/-- Settles O43: phantoms have length 1 and no extra bits, so they cost nothing. -/
theorem treeCost : Obligations.TreeCost := by
  intro tree s t m run
  have canonical := State.MemoryOk.freqs_canonical m tree
  have inside := m.freqs tree
  obtain ⟨excess, counts, after, g, r, built⟩ := buildTree_built tree m
  rw [built] at run
  cases run
  rw [builtTree_optLen, builtTree_staticLen]
  unfold Built.optCost Built.repairCost Built.staticCost
  refine ⟨?_, fun has => ?_, fun hasNot => ?_⟩
  · have cost := cost_repaired (buildLengths tree (s.hb.freqs tree)).freqOf tree.xbits r.keys
    have leaves := sum_leaves g r fun n l => (buildLengths tree (s.hb.freqs tree)).freqOf n * (l + tree.xbits n)
    have weights := sum_weights g canonical inside fun n => ((lenFile after).read n).toNat + tree.xbits n
    have phantoms : ((buildLengths tree (s.hb.freqs tree)).phantoms.map fun n => ((lenFile after).read n).toNat + tree.xbits n).sum
        = (buildLengths tree (s.hb.freqs tree)).phantoms.length := by
      rw [List.map_congr_left fun n hn => show _ = 1 by
        obtain ⟨p, hp, rfl⟩ := List.mem_map.1 ((g.mem_keys r).2 (List.mem_append_left _ hn))
        rw [lenFile_of_mem g r hp, phantom_len g r (List.ne_nil_of_mem hn) p hp, phantom_xbits (g.phantoms.small _ hn)]]
      simp
    rw [r.keys] at leaves
    rw [leaves, weights, phantoms] at cost
    simp only [lenOf, builtTree_lens, freqOf]
    push_cast at cost ⊢
    linarith
  · have weights := sum_weights g canonical inside fun n => tree.stat n + tree.xbits n
    have phantoms := congrArg List.sum (List.map_congr_left (l := (buildLengths tree (s.hb.freqs tree)).phantoms)
      (f := fun n => tree.stat n + tree.xbits n) (g := tree.stat) fun n hn => by rw [phantom_xbits (g.phantoms.small n hn), Nat.add_zero])
    rw [phantoms, List.map_map] at weights
    have cast := congrArg (Nat.cast (R := Int)) weights
    rw [if_pos has]
    simp only [freqOf]
    push_cast [List.map_map, Function.comp_def] at cast ⊢
    linarith
  · rw [if_neg (by simp [hasNot])]
    exact Int.add_zero _

end Sys2Proof.Proofs
end

section
/-! The codes of one build are canonical and prefix-free (42_huffman_builder.md R333, R345 (d)). -/

namespace Sys2Proof.Proofs

open Sys2Proof.Machine Sys2Proof.Claims

/-! ### Bit reversal (00_scope.md R11) -/

theorem revBits_testBit (n c i : Nat) : (revBits n c).testBit i = (decide (i < n) && c.testBit (n - 1 - i)) := by
  induction n generalizing c i with
  | zero => simp [revBits]
  | succ n ih =>
    rw [revBits, Nat.mul_comm, Nat.testBit_two_pow_mul_add _ (revBits_lt n (c / 2))]
    by_cases below : i < n
    · rw [if_pos below, ih, Nat.testBit_div_two, decide_eq_true below, decide_eq_true (by omega : i < n + 1)]
      congr 2
      omega
    · rw [if_neg below]
      by_cases top : i = n
      · subst top
        simp
      · rw [decide_eq_false (by omega : ¬ i < n + 1), Bool.false_and]
        refine Nat.testBit_lt_two_pow ?_
        calc c % 2 < 2 := Nat.mod_lt _ (by decide)
          _ = 2 ^ 1 := rfl
          _ ≤ 2 ^ (i - n) := Nat.pow_le_pow_right (by decide) (by omega)

theorem revBits_revBits {n c : Nat} (small : c < 2 ^ n) : revBits n (revBits n c) = c := by
  refine Nat.eq_of_testBit_eq fun i => ?_
  rw [revBits_testBit, revBits_testBit]
  by_cases below : i < n
  · rw [decide_eq_true below, decide_eq_true (by omega), Bool.true_and, Bool.true_and]
    congr 1
    omega
  · rw [decide_eq_false below, Bool.false_and]
    exact (Nat.testBit_lt_two_pow (Nat.lt_of_lt_of_le small (Nat.pow_le_pow_right (by decide) (by omega)))).symm

/-- The first `a` bits sent of a code of length `b` are its `a` high bits. -/
theorem revBits_mod {a b : Nat} (le : a ≤ b) (c : Nat) : revBits b c % 2 ^ a = revBits a (c / 2 ^ (b - a)) := by
  refine Nat.eq_of_testBit_eq fun i => ?_
  rw [Nat.testBit_mod_two_pow, revBits_testBit, revBits_testBit, Nat.testBit_div_two_pow]
  by_cases below : i < a
  · rw [decide_eq_true below, decide_eq_true (by omega)]
    simp only [Bool.true_and]
    congr 1
    omega
  · rw [decide_eq_false below]
    rfl

/-! ### First codes (R333) -/

/-- How many symbols of a tree have a code of length `l`. -/
def classSize (h : Huffman) (tree : Tree) (l : Nat) : Nat := (codedWith h tree (· = l)).length

section
variable (len : Nat → Nat)

/-- `firstCodeOf` and `classSize` over any list of symbols with lengths `len`. -/
def firstSum (symbols : List Nat) (k : Nat) : Nat :=
  ((symbols.filter fun n => len n ≠ 0 && decide (len n < k)).map fun n => 2 ^ (k - len n)).sum

def classOf (symbols : List Nat) (k : Nat) : Nat := (symbols.filter fun n => len n ≠ 0 && decide (len n = k)).length

variable {len} {n : Nat} {rest : List Nat} {k : Nat}

theorem firstSum_cons : firstSum len (n :: rest) k = (if len n ≠ 0 ∧ len n < k then 2 ^ (k - len n) else 0) + firstSum len rest k := by
  unfold firstSum
  by_cases shorter : len n ≠ 0 ∧ len n < k
  · rw [if_pos shorter, List.filter_cons_of_pos (by simpa using shorter), List.map_cons, List.sum_cons]
  · rw [if_neg shorter, List.filter_cons_of_neg (by simpa using shorter), Nat.zero_add]

theorem classOf_cons : classOf len (n :: rest) k = (if len n ≠ 0 ∧ len n = k then 1 else 0) + classOf len rest k := by
  unfold classOf
  by_cases same : len n ≠ 0 ∧ len n = k
  · rw [if_pos same, List.filter_cons_of_pos (by simpa using same), List.length_cons, Nat.add_comm]
  · rw [if_neg same, List.filter_cons_of_neg (by simpa using same), Nat.zero_add]

theorem firstSum_succ (symbols : List Nat) (k : Nat) :
    firstSum len symbols (k + 1) = (firstSum len symbols k + classOf len symbols k) * 2 := by
  induction symbols with
  | nil => rfl
  | cons n rest ih =>
    rw [firstSum_cons, firstSum_cons, classOf_cons, ih]
    by_cases none : len n = 0
    · simp [none]
    · rcases Nat.lt_trichotomy (len n) k with lt | eq | gt
      · rw [if_pos ⟨none, by omega⟩, if_pos ⟨none, lt⟩, if_neg (by omega), show k + 1 - len n = (k - len n) + 1 by omega, Nat.pow_succ]
        omega
      · rw [if_pos ⟨none, by omega⟩, if_neg (by omega), if_pos ⟨none, eq⟩, show k + 1 - len n = 1 by omega]
        omega
      · rw [if_neg (by omega), if_neg (by omega), if_neg (by omega)]
        omega

/-- The codes up to length `k` do not take more of the code space than all. -/
theorem firstSum_space {limit : Nat} (inside : k ≤ limit) (symbols : List Nat) :
    (firstSum len symbols k + classOf len symbols k) * 2 ^ (limit - k)
      ≤ ((symbols.filter fun n => len n ≠ 0).map fun n => 2 ^ (limit - len n)).sum := by
  induction symbols with
  | nil => simp [firstSum, classOf]
  | cons n rest ih =>
    rw [firstSum_cons, classOf_cons]
    by_cases none : len n = 0
    · rw [if_neg (by omega), if_neg (by omega), List.filter_cons_of_neg (by simpa using none)]
      simpa using ih
    · rw [List.filter_cons_of_pos (by simpa using none), List.map_cons, List.sum_cons]
      refine Nat.le_trans (Nat.le_of_eq ?_) (Nat.add_le_add (?_ : (if len n ≤ k then 2 ^ (k - len n) else 0) * 2 ^ (limit - k) ≤ _) ih)
      · rcases Nat.lt_trichotomy (len n) k with lt | eq | gt
        · rw [if_pos ⟨none, lt⟩, if_neg (by omega), if_pos (Nat.le_of_lt lt)]
          ring
        · rw [if_neg (by omega), if_pos ⟨none, eq⟩, if_pos (Nat.le_of_eq eq), eq, Nat.sub_self]
          ring
        · rw [if_neg (by omega), if_neg (by omega), if_neg (by omega)]
          ring
      · split
        · rw [← Nat.pow_add]
          exact Nat.pow_le_pow_right (by decide) (by omega)
        · rw [Nat.zero_mul]
          exact Nat.zero_le _

end

section
variable (h : Huffman) (tree : Tree)

theorem firstCodeOf_succ (l : Nat) : firstCodeOf h tree (l + 1) = (firstCodeOf h tree l + classSize h tree l) * 2 :=
  firstSum_succ (len := lenOf h tree) (List.range tree.elems) l

theorem firstCodeOf_zero : firstCodeOf h tree 0 = 0 := by
  unfold firstCodeOf codedWith
  rw [List.filter_eq_nil_iff.2 fun n _ => by simp]
  rfl

theorem classSize_zero : classSize h tree 0 = 0 := by
  unfold classSize codedWith
  rw [List.filter_eq_nil_iff.2 fun n _ => by simp]
  rfl

/-- Longer codes begin after all shorter ones. -/
theorem firstCodeOf_le {a b : Nat} (lt : a < b) :
    (firstCodeOf h tree a + classSize h tree a) * 2 ^ (b - a) ≤ firstCodeOf h tree b := by
  induction b with
  | zero => omega
  | succ b ih =>
    rw [firstCodeOf_succ]
    rcases Nat.lt_or_eq_of_le (Nat.lt_succ_iff.1 lt) with shorter | rfl
    · calc (firstCodeOf h tree a + classSize h tree a) * 2 ^ (b + 1 - a)
          = (firstCodeOf h tree a + classSize h tree a) * 2 ^ (b - a) * 2 := by
            rw [show b + 1 - a = (b - a) + 1 by omega, Nat.pow_succ, Nat.mul_assoc]
        _ ≤ (firstCodeOf h tree b + classSize h tree b) * 2 :=
            Nat.mul_le_mul_right 2 ((ih shorter).trans (Nat.le_add_right _ _))
    · rw [Nat.add_sub_cancel_left, Nat.pow_one]

/-- The codes of one length fit it, the code being complete. -/
theorem class_fits {limit l : Nat} (inside : l ≤ limit)
    (complete : (((List.range tree.elems).filter fun n => lenOf h tree n ≠ 0).map fun n => 2 ^ (limit - lenOf h tree n)).sum = 2 ^ limit) :
    firstCodeOf h tree l + classSize h tree l ≤ 2 ^ l := by
  have space := firstSum_space (len := lenOf h tree) inside (List.range tree.elems)
  rw [complete, show 2 ^ limit = 2 ^ l * 2 ^ (limit - l) by rw [← Nat.pow_add]; congr 1; omega] at space
  exact Nat.le_of_mul_le_mul_right space (Nat.pow_pos (by decide))

theorem rank_lt {n : Nat} (inside : n < tree.elems) (coded : lenOf h tree n ≠ 0) :
    rankOf h tree n < classSize h tree (lenOf h tree n) := by
  have mem : n ∈ codedWith h tree (· = lenOf h tree n) := List.mem_filter.2 ⟨List.mem_range.2 inside, by simpa using coded⟩
  refine Nat.lt_of_le_of_ne (List.length_filter_le _ _) fun same => ?_
  have := (List.length_filter_eq_length_iff.1 same) n mem
  simp at this

theorem rank_mono {m n : Nat} (lt : m < n) (inside : n < tree.elems) (coded : lenOf h tree m ≠ 0) (same : lenOf h tree m = lenOf h tree n) :
    rankOf h tree m < rankOf h tree n := by
  unfold rankOf
  rw [← same]
  generalize list : codedWith h tree (· = lenOf h tree m) = symbols
  have mem : m ∈ symbols.filter (· < n) := by
    rw [← list]
    refine List.mem_filter.2 ⟨List.mem_filter.2 ⟨List.mem_range.2 (by omega), by simpa using coded⟩, by simpa using lt⟩
  have sub : symbols.filter (· < m) = (symbols.filter (· < n)).filter (· < m) := by
    rw [List.filter_filter]
    exact List.filter_congr fun x _ => by
      by_cases x < m <;> simp <;> omega
  rw [sub]
  refine Nat.lt_of_le_of_ne (List.length_filter_le _ _) fun same => ?_
  have := (List.length_filter_eq_length_iff.1 same) m mem
  simp at this

end

theorem nextCodesFrom_getD (h : Huffman) (tree : Tree) {counts : List Nat}
    (sizes : ∀ l, l ≤ 15 → counts.getD l 0 = classSize h tree l) (k : Nat) {bits : Nat} (positive : 1 ≤ bits) (last : bits + k ≤ 16)
    {i : Nat} (inside : i < k) :
    (nextCodesFrom counts k bits (firstCodeOf h tree (bits - 1))).getD i 0 = firstCodeOf h tree (bits + i) := by
  induction k generalizing bits i with
  | zero => omega
  | succ k ih =>
    have first : (firstCodeOf h tree (bits - 1) + counts.getD (bits - 1) 0) * 2 = firstCodeOf h tree bits := by
      rw [sizes _ (by omega), ← firstCodeOf_succ, Nat.sub_add_cancel positive]
    rw [nextCodesFrom, first]
    cases i with
    | zero => rfl
    | succ i =>
      rw [List.getD_cons_succ, show bits + (i + 1) = (bits + 1) + i by omega]
      exact ih (bits := bits + 1) (by omega) (by omega) (by omega)

theorem firstCodes_getD (h : Huffman) (tree : Tree) {counts : List Nat}
    (sizes : ∀ l, 1 ≤ l → l ≤ 15 → counts.getD l 0 = classSize h tree l) {l : Nat} (positive : 1 ≤ l) (inside : l ≤ 15) :
    (firstCodes counts).getD l 0 = firstCodeOf h tree l := by
  have all : ∀ k, k ≤ 15 → (counts.set 0 0).getD k 0 = classSize h tree k := fun k hk => by
    cases k with
    | zero =>
      rw [classSize_zero]
      cases counts <;> rfl
    | succ k =>
      rw [← sizes (k + 1) (by omega) hk]
      cases counts <;> rfl
  obtain ⟨i, rfl⟩ : ∃ i, l = 1 + i := ⟨l - 1, by omega⟩
  have entry := nextCodesFrom_getD h tree all 15 (bits := 1) (Nat.le_refl 1) (by omega) (i := i) (by omega)
  rw [Nat.sub_self, firstCodeOf_zero] at entry
  rw [firstCodes, Nat.add_comm 1 i, List.getD_cons_succ, Nat.add_comm i 1]
  exact entry

/-! ### The codes handed out (R333) -/

theorem genCodes_keys {nextCode : List Nat} {leaves : List (Nat × Nat)} (coded : ∀ p ∈ leaves, p.2 ≠ 0) :
    (genCodes nextCode leaves).1.map Prod.fst = leaves.map Prod.fst := by
  induction leaves generalizing nextCode with
  | nil => rfl
  | cons q rest ih =>
    obtain ⟨n, len⟩ := q
    rw [genCodes, if_neg (coded (n, len) List.mem_cons_self)]
    simp only [List.map_cons]
    rw [ih fun p hp => coded p (List.mem_cons_of_mem _ hp)]

/-- A symbol's code counts up from `nextCode` of its length, one for every smaller symbol of that length. -/
theorem genCodes_mem {nextCode : List Nat} {leaves : List (Nat × Nat)} (slots : nextCode.length = 16)
    (coded : ∀ p ∈ leaves, p.2 ≠ 0 ∧ p.2 ≤ 15) (rising : leaves.Pairwise fun p q => p.1 < q.1) {p : Nat × Nat} (mem : p ∈ leaves) :
    (p.1, revBits p.2 (nextCode.getD p.2 0 + (leaves.filter fun q => q.2 = p.2 ∧ q.1 < p.1).length)) ∈ (genCodes nextCode leaves).1 := by
  induction leaves generalizing nextCode with
  | nil => cases mem
  | cons q rest ih =>
    obtain ⟨n, len⟩ := q
    obtain ⟨above, rising⟩ := List.pairwise_cons.1 rising
    obtain ⟨nonzero, small⟩ := coded (n, len) List.mem_cons_self
    rw [genCodes, if_neg nonzero]
    rcases List.mem_cons.1 mem with rfl | mem
    · rw [List.filter_eq_nil_iff.2 fun q hq => by
        rcases List.mem_cons.1 hq with rfl | hq
        · simp
        · have := above q hq
          simp only at this
          simp only [decide_eq_true_eq, not_and]
          omega]
      exact List.mem_cons_self
    · refine List.mem_cons_of_mem _ ?_
      have entry := ih (nextCode := nextCode.set len (nextCode.getD len 0 + 1)) (by rw [List.length_set, slots])
        (fun q hq => coded q (List.mem_cons_of_mem _ hq)) rising mem
      rw [getD_set nextCode (by omega)] at entry
      have lt : n < p.1 := above p mem
      by_cases same : p.2 = len
      · rw [if_pos same] at entry
        rw [List.filter_cons_of_pos (by simpa using ⟨same.symm, lt⟩), List.length_cons, same]
        rw [same] at entry
        have shift : ∀ r, nextCode.getD len 0 + 1 + r = nextCode.getD len 0 + (r + 1) := fun r => by omega
        rwa [shift] at entry
      · rw [if_neg same] at entry
        rwa [List.filter_cons_of_neg (by simpa using fun h => absurd h.symm same)]

/-! ### The codes in the registers -/

section
variable {tree : Tree} {freq : Arr 16} {b : Built} {excess : Nat} {counts : List Nat} {after : List (Nat × Nat)}

/-- The leaves in symbol order are the symbols with a length. -/
theorem mem_bySymbol {p : Nat × Nat} : p ∈ bySymbol after ↔ p.2 = ((lenFile after).read p.1).toNat ∧ p.2 ≠ 0 := by
  have canonical := canonical_lenFile after
  constructor
  · intro mem
    obtain ⟨q, hq, rfl⟩ := List.mem_map.1 mem
    rw [read_of_mem canonical hq]
    refine ⟨rfl, fun zero => canonical.2 q hq ?_⟩
    exact BitVec.eq_of_toNat_eq zero
  · rintro ⟨same, nonzero⟩
    rw [same] at nonzero
    obtain ⟨q, hq, key⟩ := List.mem_map.1 ((read_ne_zero_iff canonical (n := p.1)).1 fun zero => nonzero (by rw [zero]; rfl))
    refine List.mem_map.2 ⟨q, hq, Prod.ext key ?_⟩
    rw [same, ← key, read_of_mem canonical hq]

theorem bySymbol_rising : (bySymbol after).Pairwise fun p q => p.1 < q.1 := by
  rw [bySymbol, List.pairwise_map]
  exact (canonical_lenFile after).1

/-- The symbols in a class, as the leaves with that length. -/
theorem count_bySymbol (h : Huffman) (lens : ∀ n, lenOf h tree n = ((lenFile after).read n).toNat) (inside : (lenFile after).Within tree.elems)
    (l : Nat) (p : Nat → Bool) : ((bySymbol after).filter fun q => q.2 = l ∧ p q.1).length = ((codedWith h tree (· = l)).filter p).length := by
  have perm := filter_range_perm (size := tree.elems) (keys := ((bySymbol after).filter fun q => q.2 = l ∧ p q.1).map Prod.fst)
    (p := fun n => p n && (lenOf h tree n ≠ 0 && decide (lenOf h tree n = l))) ?_ ?_ ?_
  · rw [codedWith, List.filter_filter, perm.length_eq, List.length_map]
  · have rising := (bySymbol_rising (after := after)).filter fun q => decide (q.2 = l ∧ p q.1)
    rw [List.Nodup, List.pairwise_map]
    exact rising.imp fun lt => Nat.ne_of_lt lt
  · intro n hn
    obtain ⟨q, hq, rfl⟩ := List.mem_map.1 hn
    obtain ⟨x, hx, rfl⟩ := List.mem_map.1 (List.mem_of_mem_filter hq)
    exact inside x hx
  · intro n _
    rw [lens]
    constructor
    · intro holds
      simp only [Bool.and_eq_true, decide_eq_true_eq] at holds
      obtain ⟨hp, nonzero, same⟩ := holds
      exact List.mem_map.2 ⟨(n, l), List.mem_filter.2 ⟨mem_bySymbol.2 ⟨same.symm, same ▸ nonzero⟩, by simpa using hp⟩, rfl⟩
    · intro mem
      obtain ⟨q, hq, rfl⟩ := List.mem_map.1 mem
      obtain ⟨hq, cond⟩ := List.mem_filter.1 hq
      obtain ⟨same, nonzero⟩ := mem_bySymbol.1 hq
      simp only [decide_eq_true_eq] at cond
      obtain ⟨rfl, hp⟩ := cond
      simp only [Bool.and_eq_true, decide_eq_true_eq]
      exact ⟨hp, same ▸ nonzero, same.symm⟩

end

/-- What a build leaves of a symbol's code: its length's first code plus its rank, reversed (R333). -/
theorem buildTree_codes {tree : Tree} {s t : State} (m : s.MemoryOk) (run : (buildTree tree).run s = .ok () t) {n : Nat}
    (coded : lenOf t.hb tree n ≠ 0) :
    n < tree.elems ∧ lenOf t.hb tree n ≤ tree.maxLength
      ∧ firstCodeOf t.hb tree (lenOf t.hb tree n) + rankOf t.hb tree n < 2 ^ lenOf t.hb tree n
      ∧ ((t.hb.codes tree).read n).toNat = revBits (lenOf t.hb tree n) (firstCodeOf t.hb tree (lenOf t.hb tree n) + rankOf t.hb tree n) := by
  obtain ⟨u, built, bound, complete, -⟩ := treeIsComplete tree s m
  obtain ⟨excess, counts, after, g, r, built'⟩ := buildTree_built tree m
  rw [run] at built built'
  cases built
  injection built' with _ state
  have small := maxLength_le tree
  have lens : ∀ k, lenOf t.hb tree k = ((lenFile after).read k).toNat := fun k => by rw [state, lenOf, builtTree_lens]
  have within : (lenFile after).Within tree.elems := within_lenFile fun p hp => g.lt_elems r (m.freqs tree) p.1 (List.mem_map_of_mem hp)
  have inside : n < tree.elems := g.lt_elems r (m.freqs tree) n ((lenFile_ne_zero_iff g r).1 (lens n ▸ coded))
  have sizes : ∀ l, 1 ≤ l → l ≤ 15 → counts.getD l 0 = classSize t.hb tree l := fun l one hl => by
    have all := count_bySymbol t.hb lens within l fun _ => true
    have keys : ((bySymbol after).filter fun q => q.2 = l).Perm (after.filter fun q => q.2 = l) := by
      have nodup : ∀ xs : List (Nat × Nat), (xs.map Prod.fst).Nodup → xs.Nodup := fun xs h => List.Nodup.of_map _ h
      refine (List.perm_ext_iff_of_nodup ((nodup _ ?_).filter _) ((nodup _ (g.keys_nodup r)).filter _)).2 fun q => ?_
      · rw [List.Nodup, List.pairwise_map]
        exact bySymbol_rising.imp fun lt => Nat.ne_of_lt lt
      · simp only [List.mem_filter, mem_bySymbol, decide_eq_true_eq]
        refine ⟨fun ⟨⟨same, nonzero⟩, hl⟩ => ⟨?_, hl⟩, fun ⟨mem, hl⟩ => ⟨⟨(lenFile_of_mem g r mem).symm, by omega⟩, hl⟩⟩
        obtain ⟨p, hp, key⟩ := List.mem_map.1 ((lenFile_ne_zero_iff g r).1 (same ▸ nonzero))
        rw [show q = p from Prod.ext key.symm (by rw [same, ← key, lenFile_of_mem g r hp])]
        exact hp
    rw [r.counts l one hl, List.count, List.countP_map, List.countP_eq_length_filter]
    simp only [and_true, List.filter_true] at all
    exact (keys.length_eq.symm.trans all)
  have fits := class_fits t.hb tree (bound n) complete
  have rank := rank_lt t.hb tree inside coded
  refine ⟨inside, bound n, by omega, ?_⟩
  have leaves : ∀ p ∈ bySymbol after, p.2 ≠ 0 ∧ p.2 ≤ 15 := fun p hp => by
    obtain ⟨same, nonzero⟩ := mem_bySymbol.1 hp
    have := bound p.1
    rw [lens] at this
    exact ⟨nonzero, by omega⟩
  have mem : (n, lenOf t.hb tree n) ∈ bySymbol after := mem_bySymbol.2 ⟨lens n, coded⟩
  have code := genCodes_mem (nextCode := firstCodes counts) (by rfl) leaves bySymbol_rising mem
  have rankEq := count_bySymbol t.hb lens within (lenOf t.hb tree n) fun k => k < n
  simp only [decide_eq_true_eq] at rankEq
  have first := firstCodes_getD t.hb tree sizes (l := lenOf t.hb tree n) (by omega) (by have := bound n; omega)
  simp only [first, rankEq] at code
  have keys : ((genCodes (firstCodes counts) (bySymbol after)).1.map Prod.fst).Nodup := by
    rw [genCodes_keys fun p hp => (leaves p hp).1, List.Nodup, List.pairwise_map]
    exact bySymbol_rising.imp fun lt => Nat.ne_of_lt lt
  have written := (read_foldl_write (BitVec.ofNat 15) _ keys (m.codes tree).1).1 _ code
  rw [show t.hb.codes tree = _ by rw [state, builtTree_codes], codeFile, written, BitVec.toNat_ofNat]
  refine Nat.mod_eq_of_lt (Nat.lt_of_lt_of_le (revBits_lt _ _) (Nat.pow_le_pow_right (by decide) ?_))
  have := bound n
  omega

/-- Settles O42: the code space of the shorter codes lies before a code's own. -/
theorem codesAreCanonical : Obligations.CodesAreCanonical := by
  intro tree s t m run a b codedA codedB
  obtain ⟨insideA, -, fitsA, storedA⟩ := buildTree_codes m run codedA
  obtain ⟨insideB, -, fitsB, storedB⟩ := buildTree_codes m run codedB
  have codeA : codeOf t.hb tree a = firstCodeOf t.hb tree (lenOf t.hb tree a) + rankOf t.hb tree a := by
    rw [codeOf, storedA, revBits_revBits fitsA]
  have codeB : codeOf t.hb tree b = firstCodeOf t.hb tree (lenOf t.hb tree b) + rankOf t.hb tree b := by
    rw [codeOf, storedB, revBits_revBits fitsB]
  refine ⟨storedA ▸ revBits_lt _ _, codeA, fun lt same => ?_, fun ne le prefix_ => ?_⟩
  · have := rank_mono t.hb tree lt insideB codedA same
    rw [codeA, codeB, same]
    omega
  · rw [storedA, storedB, revBits_mod le] at prefix_
    have high : (firstCodeOf t.hb tree (lenOf t.hb tree b) + rankOf t.hb tree b) / 2 ^ (lenOf t.hb tree b - lenOf t.hb tree a)
        = firstCodeOf t.hb tree (lenOf t.hb tree a) + rankOf t.hb tree a := by
      have back := congrArg (revBits (lenOf t.hb tree a)) prefix_
      rwa [revBits_revBits, revBits_revBits fitsA] at back
      rw [Nat.div_lt_iff_lt_mul (Nat.pow_pos (by decide)), ← Nat.pow_add, Nat.add_sub_cancel' le]
      exact fitsB
    rcases Nat.lt_or_eq_of_le le with shorter | same
    · have after := firstCodeOf_le t.hb tree shorter
      have rank := rank_lt t.hb tree insideA codedA
      have : firstCodeOf t.hb tree (lenOf t.hb tree a) + classSize t.hb tree (lenOf t.hb tree a)
          ≤ firstCodeOf t.hb tree (lenOf t.hb tree a) + rankOf t.hb tree a := by
        rw [← high, Nat.le_div_iff_mul_le (Nat.pow_pos (by decide))]
        omega
      omega
    · rw [same, Nat.sub_self, Nat.pow_zero, Nat.div_one] at high
      rcases Nat.lt_or_gt_of_ne ne with lt | gt
      · have := rank_mono t.hb tree lt insideB codedA same
        omega
      · have := rank_mono t.hb tree gt insideA codedB same.symm
        omega

end Sys2Proof.Proofs
end

section
/-! The three builds of a block in their order, and the costs as lengths (42_huffman_builder.md R335 to R337, 10_state.md R47). -/

namespace Sys2Proof.Proofs

open Sys2Proof.Machine Sys2Proof.Claims

/-! ### What one build leaves for a block -/

/-- The bits of the symbols counted in a tree's frequencies, with the lengths in its registers. -/
def codedBits (h : Huffman) (tree : Tree) : Nat :=
  ((List.range tree.elems).map fun n => freqOf h tree n * (lenOf h tree n + tree.xbits n)).sum

/-- The same with the static lengths. -/
def staticBits (h : Huffman) (tree : Tree) : Nat :=
  ((List.range tree.elems).map fun n => freqOf h tree n * (tree.stat n + tree.xbits n)).sum

/-- The registers `h` of one tree hold a code for the symbols counted in `freq`. -/
structure Coded (freq : Arr 16) (h : Huffman) (tree : Tree) : Prop where
  occurs : ∀ n, freq.read n ≠ 0 → lenOf h tree n ≠ 0
  fits : ∀ n, lenOf h tree n ≠ 0 → ((h.codes tree).read n).toNat < 2 ^ lenOf h tree n
  short : ∀ n, lenOf h tree n ≤ tree.maxLength
  last : IsLastCoded h tree (maxCodeOf h tree)
  inside : maxCodeOf h tree < tree.elems

theorem Coded.of_same {freq : Arr 16} {h g : Huffman} {tree : Tree} (c : Coded freq h tree)
    (same : g.lens tree = h.lens tree ∧ g.codes tree = h.codes tree ∧ maxCodeOf g tree = maxCodeOf h tree) : Coded freq g tree := by
  obtain ⟨lens, codes, top⟩ := same
  have len : ∀ n, lenOf g tree n = lenOf h tree n := fun n => by rw [lenOf, lens, lenOf]
  obtain ⟨occurs, fits, short, ⟨lastCoded, lastMax⟩, inside⟩ := c
  exact ⟨fun n hn => len n ▸ occurs n hn, fun n hn => by rw [len] at hn ⊢; rw [codes]; exact fits n hn, fun n => len n ▸ short n,
    by rw [top]; exact ⟨len _ ▸ lastCoded, fun n hn => lastMax n (len n ▸ hn)⟩, top ▸ inside⟩

/-- One build, for the block: its code, what else it writes, and its costs. -/
theorem buildTree_coded (tree : Tree) {s : State} (m : s.MemoryOk) : ∃ t, (buildTree tree).run s = .ok () t ∧ t.MemoryOk
    ∧ Coded (s.hb.freqs tree) t.hb tree ∧ OnlyTreeBuilt tree s.hb t.hb ∧ t = { s with hb := t.hb }
    ∧ t.hb.optLen = s.hb.optLen + (codedBits t.hb tree : Nat)
    ∧ t.hb.staticLen = s.hb.staticLen + (if tree.hasStatic then staticBits s.hb tree else 0 : Nat) := by
  obtain ⟨t, run, short, -, occurs, -, -, -, last, frame, only⟩ := treeIsComplete tree s m
  obtain ⟨opt, static, noStatic⟩ := treeCost tree s t m run
  have coded : Coded (s.hb.freqs tree) t.hb tree :=
    ⟨fun n hn => occurs n fun zero => hn (BitVec.eq_of_toNat_eq zero), fun n hn => (codesAreCanonical tree s t m run n n hn hn).1,
      short, last, (buildTree_codes m run last.1).1⟩
  refine ⟨t, run, ((buildTree_keeps tree).ok run).memory m, coded, only, frame, ?_, ?_⟩
  · rw [opt, codedBits]
    simp only [freqOf, only.1]
  · cases has : tree.hasStatic with
    | true => exact static has
    | false =>
      rw [noStatic has]
      exact (Int.add_zero _).symm

/-! ### Counting the code-length symbols (R335) -/

/-- The code-length symbols of both scans. -/
def scans (h : Huffman) : List ClSym := scanTree (lensUpTo h.llen h.lMaxCode) ++ scanTree (lensUpTo h.dlen h.dMaxCode)

/-- The counts of a tree's symbols after `syms` are counted. -/
def bumpAll (a : Arr 16) (syms : List ClSym) : Arr 16 := syms.foldl (fun a c => bump a (clNumber c)) a

theorem num_eq_clNumber (c : ClSym) : c.num = clNumber c := by cases c <;> rfl

theorem clNumber_lt {c : ClSym} (ok : ClOk c) : clNumber c < BL_CODES := by
  cases c with
  | len l => exact Nat.lt_of_le_of_lt ok (by decide)
  | repeatPrev _ => exact (by decide : 16 < 19)
  | zeros _ => exact (by decide : 17 < 19)
  | manyZeros _ => exact (by decide : 18 < 19)

theorem forEach_countBl_run {syms : List ClSym} (ok : ∀ c ∈ syms, ClOk c) (s : State) :
    (Op.forEach (fun c => countBl (ClSym.num c) 1) syms).run s = .ok () (s.setHb { s.hb with blfreq := bumpAll s.hb.blfreq syms }) := by
  induction syms generalizing s with
  | nil => rfl
  | cons c rest ih =>
    have count : (countBl c.num 1).run s = .ok () (s.setHb { s.hb with blfreq := bump s.hb.blfreq (clNumber c) }) := by
      rw [countBl_run, num_eq_clNumber, if_pos (clNumber_lt (ok c List.mem_cons_self))]
      rfl
    rw [Op.forEach_cons, Op.bind_ok count, ih fun d hd => ok d (List.mem_cons_of_mem _ hd)]
    rfl

theorem countTree_run {tree : Tree} {maxCode : Nat} (inside : maxCode < tree.elems) (s : State) : (countTree tree maxCode).run s
    = .ok () (s.setHb { s.hb with blfreq := bumpAll s.hb.blfreq (scanTree (lensUpTo (s.hb.lens tree) maxCode)) }) := by
  unfold countTree
  rw [Op.require_pos inside, Op.state_bind]
  exact forEach_countBl_run (clOk_scanTree _ _) s

theorem bumpAll_append (a : Arr 16) (xs ys : List ClSym) : bumpAll a (xs ++ ys) = bumpAll (bumpAll a xs) ys := List.foldl_append

theorem bumpAll_read {a : Arr 16} (canonical : a.Canonical) (syms : List ClSym) (n : Nat) :
    (bumpAll a syms).read n = a.read n + BitVec.ofNat 16 (syms.filter fun c => clNumber c = n).length := by
  induction syms generalizing a with
  | nil => exact (BitVec.add_zero _).symm
  | cons c rest ih =>
    rw [show bumpAll a (c :: rest) = bumpAll (bump a (clNumber c)) rest from rfl,
      ih (a := bump a (clNumber c)) (Arr.canonical_write canonical _ _),
      bump_read canonical, List.filter_cons]
    by_cases here : clNumber c = n
    · rw [if_pos here.symm, if_pos (by simpa using here), List.length_cons, BitVec.add_assoc]
      congr 1
      rw [Nat.add_comm]
      exact (BitVec.ofNat_add _ _).symm
    · rw [if_neg (Ne.symm here), if_neg (by simpa using here)]
      congr 1
      exact BitVec.add_zero _

theorem length_le_expandCl (syms : List ClSym) (ok : ∀ c ∈ syms, ClOk c) (prev : Nat) : syms.length ≤ (expandCl prev syms).length := by
  induction syms generalizing prev with
  | nil => exact Nat.le_refl 0
  | cons c rest ih =>
    have tail := ih fun d hd => ok d (List.mem_cons_of_mem _ hd)
    have head := ok c List.mem_cons_self
    cases c with
    | len l => exact Nat.succ_le_succ (tail l)
    | repeatPrev count =>
      obtain ⟨low, -⟩ := head
      have := tail prev
      simp only [expandCl, List.length_append, List.length_replicate, List.length_cons]
      omega
    | zeros count =>
      obtain ⟨low, -⟩ := head
      have := tail 0
      simp only [expandCl, List.length_append, List.length_replicate, List.length_cons]
      omega
    | manyZeros count =>
      obtain ⟨low, -⟩ := head
      have := tail 0
      simp only [expandCl, List.length_append, List.length_replicate, List.length_cons]
      omega

theorem scanTree_length_le (lens : Arr 4) (maxCode : Nat) : (scanTree (lensUpTo lens maxCode)).length ≤ maxCode + 1 := by
  have le := length_le_expandCl _ (clOk_scanTree lens maxCode) 0
  rw [(scanCutsRuns _ (lensUpTo_le lens maxCode)).2.1] at le
  simpa [lensUpTo] using le

/-- The counts are exact: there are too few symbols for a counter to wrap. -/
theorem bumpAll_scans {h : Huffman} (lit : h.lMaxCode < 286) (dist : h.dMaxCode < 30) (n : Nat) :
    ((bumpAll [] (scans h)).read n).toNat = ((scans h).filter fun c => clNumber c = n).length := by
  have one := scanTree_length_le h.llen h.lMaxCode
  have two := scanTree_length_le h.dlen h.dMaxCode
  have few : ((scans h).filter fun c => clNumber c = n).length ≤ (scans h).length := List.length_filter_le _ _
  rw [scans, List.length_append] at few
  rw [bumpAll_read Arr.canonical_nil, Arr.read_nil, zero_add, BitVec.toNat_ofNat, Nat.mod_eq_of_lt]
  rw [scans]
  omega

/-! ### The last rank of the description (R336) -/

theorem blOrder_eq : blOrder = codeLengthOrder := rfl

theorem lastBlIndex_spec (bllen : Arr 4) {k : Nat} (inside : k ≤ 18) (low : 3 ≤ k) :
    3 ≤ lastBlIndex bllen k ∧ lastBlIndex bllen k ≤ k
      ∧ (3 < lastBlIndex bllen k → (bllen.read (codeLengthOrder.getD (lastBlIndex bllen k) 0)).toNat ≠ 0)
      ∧ ∀ i, lastBlIndex bllen k < i → i ≤ k → (bllen.read (codeLengthOrder.getD i 0)).toNat = 0 := by
  induction k with
  | zero => omega
  | succ k ih =>
    rw [lastBlIndex, blOrder_eq]
    by_cases three : k + 1 ≤ 3
    · rw [if_pos three]
      exact ⟨by omega, low, fun h => absurd h (by omega), fun i _ _ => by omega⟩
    · rw [if_neg three]
      split
      · next used => exact ⟨by omega, Nat.le_refl _, fun _ zero => used (BitVec.eq_of_toNat_eq zero), fun i _ _ => by omega⟩
      · next unused =>
        obtain ⟨low, high, used, zeros⟩ := ih (by omega) (by omega)
        refine ⟨low, by omega, used, fun i above le => ?_⟩
        rcases Nat.lt_or_eq_of_le le with lt | rfl
        · exact zeros i above (by omega)
        · rw [not_not.1 unused]
          rfl

/-! ### All three builds (R337) -/

/-- The state in which the bit-length tree is built: both scans are counted. -/
def counted (b : State) : State := b.setHb { b.hb with blfreq := bumpAll b.hb.blfreq (scans b.hb) }

/-- The state after `BuildAll`, the bit-length tree being built. -/
def described (c : State) : State := c.setHb { c.hb with
  maxBlIndex := lastBlIndex c.hb.bllen 18, optLen := c.hb.optLen + ((3 * (lastBlIndex c.hb.bllen 18 + 1) + 14 : Nat) : Int) }

/-- The states of the three builds from `s` and the last one. -/
structure BuiltAll (s a b c u : State) : Prop where
  lit : (buildTree .lit).run s = .ok () a
  dist : (buildTree .dist).run a = .ok () b
  bl : (buildTree .bl).run { b with hb := { b.hb with blfreq := u.hb.blfreq } } = .ok () c
  last : u = { c with hb := { c.hb with maxBlIndex := u.hb.maxBlIndex,
                                        optLen := c.hb.optLen + ((3 * (u.hb.maxBlIndex + 1) + 14 : Nat) : Int) } }
  run : buildAll.run s = .ok () u
  litCode : Coded s.hb.lfreq u.hb .lit
  distCode : Coded s.hb.dfreq u.hb .dist
  blCode : Coded u.hb.blfreq u.hb .bl
  counts : ∀ n, (u.hb.blfreq.read n).toNat = ((scans u.hb).filter fun c => clNumber c = n).length
  index : IsMaxBlIndex u.hb u.hb.maxBlIndex
  freqs : u.hb.lfreq = s.hb.lfreq ∧ u.hb.dfreq = s.hb.dfreq
  optLen : u.hb.optLen = s.hb.optLen + (codedBits u.hb .lit + codedBits u.hb .dist + codedBits u.hb .bl
    + (3 * (u.hb.maxBlIndex + 1) + 14) : Nat)
  staticLen : u.hb.staticLen = s.hb.staticLen + (staticBits u.hb .lit + staticBits u.hb .dist : Nat)

theorem counted_memoryOk {b : State} (m : b.MemoryOk) (lit : b.hb.lMaxCode < 286) (dist : b.hb.dMaxCode < 30) :
    (counted b).MemoryOk := by
  have first := ((countTree_keeps .lit b.hb.lMaxCode).ok (countTree_run lit b)).memory m
  have second := ((countTree_keeps .dist b.hb.dMaxCode).ok (countTree_run (tree := .dist) dist _)).memory first
  unfold counted scans
  rw [bumpAll_append]
  exact second

theorem countDist_run {b : State} (dist : b.hb.dMaxCode < 30) : (countTree .dist b.hb.dMaxCode).run
    (b.setHb { b.hb with blfreq := bumpAll b.hb.blfreq (scanTree (lensUpTo (b.hb.lens .lit) b.hb.lMaxCode)) })
      = .ok () (counted b) := by
  rw [countTree_run (tree := .dist) dist]
  unfold counted scans
  rw [bumpAll_append]
  rfl

theorem codedBits_of_same {h g : Huffman} {tree : Tree} (freqs : g.freqs tree = h.freqs tree) (lens : g.lens tree = h.lens tree) :
    codedBits g tree = codedBits h tree := by
  unfold codedBits freqOf lenOf
  rw [freqs, lens]

theorem staticBits_of_same {h g : Huffman} {tree : Tree} (freqs : g.freqs tree = h.freqs tree) : staticBits g tree = staticBits h tree := by
  unfold staticBits freqOf
  rw [freqs]

theorem buildAll_built {s : State} (m : s.MemoryOk) (fresh : s.hb.blfreq = []) : ∃ a b c u, BuiltAll s a b c u := by
  obtain ⟨a, runA, memA, codeA, onlyA, frameA, optA, staticA⟩ := buildTree_coded .lit m
  obtain ⟨b, runB, memB, codeB, onlyB, frameB, optB, staticB⟩ := buildTree_coded .dist memA
  obtain ⟨freqsA, indexA, othersA⟩ := onlyA
  obtain ⟨freqsB, indexB, othersB⟩ := onlyB
  have litB := othersB .lit (by decide)
  have litCodeB := codeA.of_same litB
  have litInside : b.hb.lMaxCode < 286 := litCodeB.inside
  have distInside : b.hb.dMaxCode < 30 := codeB.inside
  obtain ⟨c, runC, memC, codeC, onlyC, frameC, optC, staticC⟩ := buildTree_coded .bl (counted_memoryOk memB litInside distInside)
  obtain ⟨freqsC, indexC, othersC⟩ := onlyC
  have litC := othersC .lit (by decide)
  have distC := othersC .dist (by decide)
  have blFresh : b.hb.blfreq = [] := ((freqsB .bl).trans (freqsA .bl)).trans fresh
  have blfreq : c.hb.blfreq = bumpAll [] (scans b.hb) := (freqsC .bl).trans (by rw [← blFresh]; rfl)
  have scansC : scans c.hb = scans b.hb := by
    have lens : c.hb.llen = b.hb.llen := litC.1
    have top : c.hb.lMaxCode = b.hb.lMaxCode := litC.2.2
    have dlens : c.hb.dlen = b.hb.dlen := distC.1
    have dtop : c.hb.dMaxCode = b.hb.dMaxCode := distC.2.2
    rw [scans, lens, top, dlens, dtop, scans]
  have run : buildAll.run s = .ok () (described c) := by
    unfold buildAll
    rw [Op.bind_ok runA, Op.bind_ok runB, Op.state_bind, Op.bind_ok (countTree_run (tree := .lit) litInside b),
      Op.bind_ok (countDist_run distInside)]
    rw [Op.bind_ok runC, Op.update_bind]
    rfl
  have blIndex := lastBlIndex_spec c.hb.bllen (k := 18) (Nat.le_refl _) (by decide)
  refine ⟨a, b, c, described c, runA, runB, ?_, rfl, run, (litCodeB.of_same litC).of_same ⟨rfl, rfl, rfl⟩, ?_, ?_, fun n => ?_, blIndex,
    ⟨((freqsC .lit).trans (freqsB .lit)).trans (freqsA .lit), ((freqsC .dist).trans (freqsB .dist)).trans (freqsA .dist)⟩, ?_, ?_⟩
  · rw [show (described c).hb.blfreq = (counted b).hb.blfreq from freqsC .bl]
    exact runC
  · have code := (codeB.of_same distC).of_same (g := (described c).hb) ⟨rfl, rfl, rfl⟩
    rwa [show a.hb.freqs .dist = s.hb.dfreq from freqsA .dist] at code
  · have code := codeC.of_same (g := (described c).hb) ⟨rfl, rfl, rfl⟩
    rwa [← freqsC .bl] at code
  · rw [show (described c).hb.blfreq = _ from blfreq, bumpAll_scans litInside distInside, ← scansC]
    rfl
  · have lit : codedBits (described c).hb .lit = codedBits a.hb .lit :=
      codedBits_of_same ((freqsC .lit).trans (freqsB .lit)) (litC.1.trans litB.1)
    have dist : codedBits (described c).hb .dist = codedBits b.hb .dist := codedBits_of_same (freqsC .dist) distC.1
    have bl : codedBits (described c).hb .bl = codedBits c.hb .bl := rfl
    rw [lit, dist, bl, show (described c).hb.optLen = c.hb.optLen + ((3 * ((described c).hb.maxBlIndex + 1) + 14 : Nat) : Int) from rfl,
      optC, show (counted b).hb.optLen = b.hb.optLen from rfl, optB, optA]
    push_cast
    ring
  · have lit : staticBits (described c).hb .lit = staticBits s.hb .lit :=
      staticBits_of_same (((freqsC .lit).trans (freqsB .lit)).trans (freqsA .lit))
    have dist : staticBits (described c).hb .dist = staticBits a.hb .dist :=
      staticBits_of_same ((freqsC .dist).trans (freqsB .dist))
    rw [lit, dist, show (described c).hb.staticLen = c.hb.staticLen from rfl, staticC,
      show (counted b).hb.staticLen = b.hb.staticLen from rfl, staticB, staticA]
    simp only [Tree.hasStatic, if_true, Bool.false_eq_true, if_false]
    push_cast
    ring

/-! ### The costs are lengths (R428, 10_state.md R47) -/

theorem sum_range_list (size : Nat) (f : Nat → Nat) : ((List.range size).map f).sum = ∑ n ∈ Finset.range size, f n := rfl

section
variable {lit dist : Nat → List Bool} {litLen distLen : Nat → Nat}

theorem tokenBits_length (hl : ∀ c, (lit c).length = litLen c) (hd : ∀ c, (dist c).length = distLen c) (s : State) (i : Nat) :
    (tokenBits lit dist (s.mem.dbuf.read i).toNat (s.mem.lbuf.read i).toNat).length
      = (litLen (litSymbol s i) + Tree.lit.xbits (litSymbol s i))
        + (if s.mem.dbuf.read i ≠ 0 then distLen (distSymbol s i) + Tree.dist.xbits (distSymbol s i) else 0) := by
  have byte := (s.mem.lbuf.read i).isLt
  unfold tokenBits litSymbol distSymbol
  by_cases literal : s.mem.dbuf.read i = 0
  · rw [if_pos literal, if_pos (by rw [literal]; rfl), if_neg (not_not.2 literal), hl, lit_xbits_of_lt (by omega)]
    rfl
  · have far : (s.mem.dbuf.read i).toNat ≠ 0 := fun zero => literal (BitVec.eq_of_toNat_eq zero)
    have extra : ∀ k, Tree.lit.xbits (257 + k) = extraLBits k := fun k => by
      rw [Tree.xbits, if_pos (by omega), Nat.add_sub_cancel_left]
    rw [if_neg literal, if_neg far, if_pos literal, extra]
    simp only [List.length_append, length_fieldBits, hl, hd, Tree.xbits]
    omega

theorem bodyBits_length (hl : ∀ c, (lit c).length = litLen c) (hd : ∀ c, (dist c).length = distLen c) (s : State) :
    (bodyBits lit dist s).length
      = ((List.range s.tok.lastLit).map fun i => litLen (litSymbol s i) + Tree.lit.xbits (litSymbol s i)).sum
        + (((List.range s.tok.lastLit).filter fun i => s.mem.dbuf.read i ≠ 0).map fun i =>
            distLen (distSymbol s i) + Tree.dist.xbits (distSymbol s i)).sum
        + litLen 256 := by
  unfold bodyBits
  rw [List.length_append, hl, List.length_flatMap]
  congr 1
  induction List.range s.tok.lastLit with
  | nil => rfl
  | cons i rest ih =>
    rw [List.map_cons, List.sum_cons, ih, tokenBits_length hl hd, List.map_cons, List.sum_cons, List.filter_cons]
    by_cases literal : s.mem.dbuf.read i = 0
    · rw [if_neg (not_not.2 literal), if_neg (by simpa using literal)]
      omega
    · rw [if_pos literal, if_pos (by simpa using literal), List.map_cons, List.sum_cons]
      omega

theorem litSymbol_lt (s : State) (i : Nat) : litSymbol s i < 286 := by
  have byte := (s.mem.lbuf.read i).isLt
  have code := (lcode_bounds (len := (s.mem.lbuf.read i).toNat + 3) (by omega) (by omega)).1
  unfold litSymbol
  split <;> omega

/-- With exact counts the body's length is the sum over the symbols counted. -/
theorem bodyBits_length_of_exact (hl : ∀ c, (lit c).length = litLen c) (hd : ∀ c, (dist c).length = distLen c) {s : State}
    (exact_ : ExactCounts s) (reach : ∀ i, i < s.tok.lastLit → (s.mem.dbuf.read i).toNat ≤ 32768) :
    (bodyBits lit dist s).length
      = ((List.range 286).map fun n => (s.hb.lfreq.read n).toNat * (litLen n + Tree.lit.xbits n)).sum
        + ((List.range 30).map fun n => (s.hb.dfreq.read n).toNat * (distLen n + Tree.dist.xbits n)).sum := by
  obtain ⟨litCounts, distCounts, -⟩ := exact_
  have lits := sum_by_count (List.range s.tok.lastLit) (litSymbol s) (fun i _ => litSymbol_lt s i)
    fun n => litLen n + Tree.lit.xbits n
  have dists := sum_by_count ((List.range s.tok.lastLit).filter fun i => s.mem.dbuf.read i ≠ 0) (size := 30) (distSymbol s)
    (fun i hi => by
      obtain ⟨inside, far⟩ := List.mem_filter.1 hi
      have far : (s.mem.dbuf.read i).toNat ≠ 0 := fun zero => absurd (BitVec.eq_of_toNat_eq zero) (by simpa using far)
      exact (distCode_bounds (by omega) (reach i (List.mem_range.1 inside))).1) fun n => distLen n + Tree.dist.xbits n
  have stop : ∑ n ∈ Finset.range 286, (if n = 256 then 1 else 0) * (litLen n + Tree.lit.xbits n) = litLen 256 := by
    rw [Finset.sum_eq_single_of_mem 256 (by decide) fun n _ other => by rw [if_neg other, Nat.zero_mul], if_pos rfl,
      lit_xbits_of_lt (by decide), Nat.one_mul, Nat.add_zero]
  rw [bodyBits_length hl hd, lits, dists, sum_range_list, sum_range_list,
    Finset.sum_congr rfl fun n hn => congrArg (· * _) (litCounts n (Finset.mem_range.1 hn))]
  simp only [Nat.add_mul, Finset.sum_add_distrib, stop]
  rw [Finset.sum_congr rfl fun n hn => congrArg (· * _) (distCounts n (Finset.mem_range.1 hn))]
  simp only [List.filter_filter, Bool.decide_and, Bool.and_comm, distSymbol]
  omega

end

theorem dynBits_length (h : Huffman) (tree : Tree) (c : Nat) : (dynBits h tree c).length = lenOf h tree c := length_fieldBits _ _

theorem clBits_length (h : Huffman) {c : ClSym} (ok : ClOk c) :
    (clBits h c).length = lenOf h .bl (clNumber c) + Tree.bl.xbits (clNumber c) := by
  cases c with
  | len l =>
    have none : ∀ k, k ≤ 15 → extraBlBits k = 0 := by decide
    rw [clBits, dynBits_length]
    exact (congrArg (lenOf h .bl l + ·) (none l ok)).symm
  | repeatPrev _ | zeros _ | manyZeros _ =>
    rw [clBits, List.length_append, dynBits_length, length_fieldBits]
    rfl

theorem scans_ok (h : Huffman) : ∀ c ∈ scans h, ClOk c := by
  intro c mem
  rcases List.mem_append.1 mem with lit | dist
  · exact clOk_scanTree _ _ c lit
  · exact clOk_scanTree _ _ c dist

theorem treesBits_length {h : Huffman} (counts : ∀ n, (h.blfreq.read n).toNat = ((scans h).filter fun c => clNumber c = n).length) :
    (treesBits h).length = codedBits h .bl + (3 * (h.maxBlIndex + 1) + 14) := by
  have symbols := sum_by_count (scans h) clNumber (fun c hc => clNumber_lt (scans_ok h c hc)) fun n => lenOf h .bl n + Tree.bl.xbits n
  have bits : ((scans h).flatMap (clBits h)).length = codedBits h .bl := by
    rw [List.length_flatMap, List.map_congr_left fun c hc => clBits_length h (scans_ok h c hc), symbols, codedBits, sum_range_list]
    exact Finset.sum_congr rfl fun n _ => by rw [freqOf, ← counts n]; rfl
  have ranks : ((List.range (h.maxBlIndex + 1)).flatMap fun rank =>
      fieldBits 3 (h.bllen.read (codeLengthOrder.getD rank 0)).toNat).length = 3 * (h.maxBlIndex + 1) := by
    rw [List.length_flatMap]
    simp only [length_fieldBits, List.map_const', List.sum_replicate, List.length_range, smul_eq_mul]
    omega
  rw [scans, List.flatMap_append, List.length_append] at bits
  simp only [treesBits, List.length_append, length_fieldBits, ranks]
  omega

/-- Settles O50: `buildAll_built` and the lengths of the parts. -/
theorem costsAreLengths : Obligations.CostsAreLengths := by
  intro s legal m inside exact_ reach opt static
  obtain ⟨a, b, c, u, built⟩ := buildAll_built m exact_.2.2
  obtain ⟨hb, frame⟩ : ∃ hb, u = { s with hb := hb } := ⟨_, leads_buildAll s () u built.run⟩
  have body : ∀ lit dist, bodyBits lit dist u = bodyBits lit dist s := fun lit dist => by
    rw [frame]
    rfl
  have lits : u.hb.freqs .lit = s.hb.lfreq := built.freqs.1
  have dists : u.hb.freqs .dist = s.hb.dfreq := built.freqs.2
  refine ⟨a, b, c, u, built.lit, built.dist, built.bl, built.run, built.last, built.counts, fun tree => ?_, built.index, ?_, ?_⟩
  · cases tree
    · exact built.litCode.last
    · exact built.distCode.last
    · exact built.blCode.last
  · rw [built.optLen, opt, Int.zero_add, List.length_append, treesBits_length built.counts, body,
      bodyBits_length_of_exact (dynBits_length u.hb .lit) (dynBits_length u.hb .dist) exact_ reach, ← lits, ← dists]
    refine congrArg _ ?_
    change codedBits u.hb .lit + codedBits u.hb .dist + _ + _ = _ + (codedBits u.hb .lit + codedBits u.hb .dist)
    omega
  · have litLen : ∀ c, (staticLitBits c).length = staticLitLen c := fun c => length_fieldBits _ _
    have distLen : ∀ c, (staticDistBits c).length = staticDistLen c := fun c => length_fieldBits _ _
    rw [built.staticLen, static, Int.zero_add, body, bodyBits_length_of_exact litLen distLen exact_ reach, ← lits, ← dists]
    rfl

end Sys2Proof.Proofs
end

section
/-! One block boundary: `InitBlock` and `FlushBlock` at every level (44_block_controller.md R428 to R431). -/

namespace Sys2Proof.Proofs

open Sys2Proof.Machine Sys2Proof.Claims

/-! ### The built trees can be sent (R440 to R443) -/

theorem Coded.codeFits {freq : Arr 16} {h : Huffman} {tree : Tree} (c : Coded freq h tree) {n : Nat} (occurs : freq.read n ≠ 0) :
    CodeFits h .dynamic tree n := c.fits n (c.occurs n occurs)

theorem BuiltAll.describable {s a b c u : State} (built : BuiltAll s a b c u) (stop : s.hb.lfreq.read END_BLOCK ≠ 0) :
    Describable u.hb := by
  have fits : ∀ sym ∈ scans u.hb, CodeFits u.hb .dynamic .bl (clNumber sym) := fun sym mem => by
    refine built.blCode.codeFits fun zero => ?_
    have count := built.counts (clNumber sym)
    rw [zero, show ((0 : BitVec 16)).toNat = 0 from rfl] at count
    exact absurd (List.mem_filter.2 ⟨mem, decide_eq_true rfl⟩) (List.length_eq_zero_iff.1 count.symm ▸ List.not_mem_nil)
  exact {
    lit := ⟨built.litCode.last.2 256 (built.litCode.occurs 256 stop), built.litCode.inside⟩
    dist := built.distCode.inside
    blIndex := ⟨built.index.1, built.index.2.1⟩
    short := built.blCode.short
    litScan := fun sym mem => fits sym (List.mem_append_left _ mem)
    distScan := fun sym mem => fits sym (List.mem_append_right _ mem) }

theorem BuiltAll.sendable {s a b c u : State} (built : BuiltAll s a b c u) (legal : s.cfg.legal = true) (counted : s.Counted)
    (inside : s.tok.lastLit ≤ s.cfg.litBufferSize) : Sendable u .dynamic ∧ Sendable u .static := by
  obtain ⟨⟨stop, -⟩, literals, copies⟩ := counted
  obtain ⟨hb, rfl⟩ : ∃ hb, u = { s with hb := hb } := ⟨_, leads_buildAll s () u built.run⟩
  have sizes := sizes_of_legal legal
  have reach : ∀ i, i < s.tok.lastLit → (s.mem.dbuf.read i).toNat ≤ 32768 := fun i hi => by
    by_cases literal : s.mem.dbuf.read i = 0
    · rw [literal]
      exact Nat.zero_le _
    · have := (copies i hi literal).1
      have := sizes.maxDist
      have := sizes.wSize_high
      omega
  refine ⟨⟨inside, reach, fun i hi => built.litCode.codeFits ?_, fun i hi copy => built.distCode.codeFits (copies i hi copy).2.2,
    built.litCode.codeFits stop⟩, sendable_static inside reach⟩
  unfold litSymbol
  split
  · next literal => exact literals i hi literal
  · next copy => exact (copies i hi copy).2.1

/-! ### The block in the mode selected (R429, R431) -/

/-- A block boundary has what its element needs: a block that can be stored at level 0, trees that can be sent above. -/
structure Emittable (u : State) : Prop where
  stored : u.cfg.level = 0 → 0 ≤ u.mf.blockStart ∧ (u.mf.strStart : Int) - u.mf.blockStart ≤ 65535
  order : u.mf.blockStart ≤ (u.mf.strStart : Int)
  window : u.mf.strStart ≤ u.cfg.windowBytes
  sendable : u.cfg.level ≠ 0 → Sendable u .dynamic ∧ Sendable u .static ∧ Describable u.hb

/-- The order to emit the block of `u`. -/
def emission (eof : BitVec 1) (u : State) : Op Unit :=
  emitBlock (selectMode u.cfg.level.toNat ((u.mf.strStart : Int) - u.mf.blockStart) u.mf.blockStart u.hb.optLen u.hb.staticLen)
    u.mf.blockStart ((u.mf.strStart : Int) - u.mf.blockStart) eof

theorem emission_run {u : State} (h : Emittable u) (unbounded : u.unbounded) (ok : u.bp.Ok) (eof : BitVec 1) :
    ∃ v, (emission eof u).run u = .ok () v ∧ OnlyEmitted u v ∧ v.bp.Ok ∧ v.stream = blockBits u.stream (decide (eof = 1)) u := by
  have stored : 0 ≤ u.mf.blockStart → (u.mf.strStart : Int) - u.mf.blockStart ≤ 65535 →
      ∃ v, (emitBlock .stored u.mf.blockStart ((u.mf.strStart : Int) - u.mf.blockStart) eof).run u = .ok () v ∧ OnlyEmitted u v ∧ v.bp.Ok
        ∧ v.stream = storedBlockBits u.stream (decide (eof = 1)) (pendingBytes u) := fun start limit => by
    have storable : Storable u := ⟨start, h.order, limit, h.window⟩
    exact ⟨_, storable.run unbounded eof, rfl, aligned_ok, storable.stream ok eof⟩
  have levelZero : u.cfg.level.toNat = 0 ↔ u.cfg.level = 0 := ⟨fun zero => BitVec.eq_of_toNat_eq zero, fun zero => by rw [zero]; rfl⟩
  have limit : (STORED_LIMIT : Int) = 65535 := rfl
  unfold emission selectMode blockBits costBytes
  rw [limit]
  by_cases zero : u.cfg.level = 0
  · rw [if_pos (levelZero.2 zero), if_pos (.inl zero)]
    exact stored (h.stored zero).1 (h.stored zero).2
  · obtain ⟨dynamic, static, describable⟩ := h.sendable zero
    rw [if_neg (mt levelZero.1 zero)]
    by_cases short : (u.mf.strStart : Int) - u.mf.blockStart + 5 ≤ min ((u.hb.optLen + 3 + 7) / 8) ((u.hb.staticLen + 3 + 7) / 8) + 4
        ∧ (u.mf.strStart : Int) - u.mf.blockStart ≤ 65535 ∧ 0 ≤ u.mf.blockStart
    · rw [if_pos short, if_pos (.inr short)]
      exact stored short.2.2 short.2.1
    · rw [if_neg short, if_neg (not_or.2 ⟨zero, short⟩)]
      split
      · obtain ⟨v, run, frame, acc, stream⟩ := sends_staticBlock unbounded static eof u rfl ok
        exact ⟨v, run, frame, acc, by rw [stream, List.append_assoc]⟩
      · obtain ⟨v, run, frame, acc, stream⟩ := sends_dynamicBlock unbounded dynamic describable eof u rfl ok
        exact ⟨v, run, frame, acc, by rw [stream, List.append_assoc, List.append_assoc]⟩

/-! ### The boundary (R431) -/

/-- The state with a fresh block that starts at `strStart`. -/
def blockOpened (v : State) : State :=
  { v with mf := { v.mf with blockStart := (v.mf.strStart : Int) }, hb := v.hb.initBlock, tok := { lastLit := 0, numMatches := 0 } }

/-- After the emission, a boundary is padded if it is the last one, and opens a fresh block. -/
theorem flushBlock_run {s u v : State} {eof : BitVec 1} (build : (Op.when (s.cfg.level.toNat ≠ 0) buildAll).run s = .ok () u)
    (emitted : (emission eof u).run u = .ok () v) (unbounded : v.unbounded) :
    (flushBlock eof).run s = .ok () (blockOpened (if eof = 1 then wound v else v)) := by
  unfold flushBlock
  rw [Op.state_bind, Op.bind_ok build, Op.state_bind]
  refine (Op.bind_ok emitted).trans ?_
  rw [Op.bind_ok (initBlock_run v)]
  by_cases last : eof = 1
  · rw [Op.when_pos last, Op.bind_ok (biWindup_run (s := (v.setHb v.hb.initBlock).setTok _) unbounded), if_pos last]
    rfl
  · rw [Op.when_neg last, if_neg last]
    rfl

theorem blockOpened_fresh (v : State) : BlockFresh (blockOpened v) := ⟨rfl, rfl, rfl, rfl, rfl, rfl, rfl⟩

/-- A boundary that has what it needs comes to its end. -/
theorem flushBlock_total {eof : BitVec 1} {s : State} (legal : s.cfg.legal = true) (m : s.MemoryOk) (ok : s.bp.Ok)
    (unbounded : s.unbounded) (window : s.mf.strStart ≤ s.cfg.windowBytes) (order : s.mf.blockStart ≤ (s.mf.strStart : Int))
    (inside : s.tok.lastLit ≤ s.cfg.litBufferSize) (counted : s.Counted)
    (stored : s.cfg.level = 0 → 0 ≤ s.mf.blockStart ∧ (s.mf.strStart : Int) - s.mf.blockStart ≤ 65535) :
    ∃ u v, (s.cfg.level = 0 → u = s) ∧ (s.cfg.level ≠ 0 → ∃ a b c, BuiltAll s a b c u) ∧ OnlyHuffman s u ∧ OnlyEmitted u v ∧ v.bp.Ok
      ∧ v.stream = blockBits s.stream (decide (eof = 1)) u
      ∧ (flushBlock eof).run s = .ok () (blockOpened (if eof = 1 then wound v else v)) := by
  by_cases zero : s.cfg.level = 0
  · obtain ⟨v, run, frame, acc, stream⟩ := emission_run (eof := eof)
      ⟨stored, order, window, fun nonzero => absurd zero nonzero⟩ unbounded ok
    refine ⟨s, v, fun _ => rfl, fun nonzero => absurd zero nonzero, rfl, frame, acc, stream, flushBlock_run ?_ run ?_⟩
    · rw [Op.when_neg (by rw [zero]; decide)]
      rfl
    · rw [State.unbounded, onlyEmitted_platform frame]
      exact unbounded
  · obtain ⟨a, b, c, u, built⟩ := buildAll_built m counted.1.2
    obtain ⟨dynamic, static⟩ := built.sendable legal counted inside
    have describable := built.describable counted.1.1
    have only : OnlyHuffman s u := leads_buildAll s () u built.run
    have build := built.run
    have whole := built
    clear built
    obtain ⟨hb, rfl⟩ : ∃ hb, u = { s with hb := hb } := ⟨_, only⟩
    obtain ⟨v, run, frame, acc, stream⟩ := emission_run (u := { s with hb := hb }) (eof := eof)
      ⟨fun h => absurd h zero, order, window, fun _ => ⟨dynamic, static, describable⟩⟩ unbounded ok
    refine ⟨_, v, fun h => absurd h zero, fun _ => ⟨a, b, c, whole⟩, rfl, frame, acc, stream, flushBlock_run ?_ run ?_⟩
    · have above : s.cfg.level.toNat ≠ 0 := fun h => zero (BitVec.eq_of_toNat_eq h)
      rw [Op.when_pos above]
      exact build
    · rw [State.unbounded, onlyEmitted_platform frame]
      exact unbounded

/-- Settles O49: the trees of the build can be sent, so the boundary comes to its end. -/
theorem blockBoundary : Obligations.BlockBoundary := by
  refine ⟨fun s => ⟨[(END_BLOCK, 1)], [], [], rfl, fun n => ?_, fun _ => rfl, fun _ => rfl⟩, ?_⟩
  · rw [Arr.read_cons]
    rfl
  · intro eof s legal m ok unbounded window order inside counted stored
    obtain ⟨u, v, levelZero, levelOne, only, frame, acc, stream, run⟩ :=
      flushBlock_total (eof := eof) legal m ok unbounded window order inside counted stored
    refine ⟨u, _, levelZero, fun one => ?_, run, ?_, ?_, ?_, blockOpened_fresh _, ?_⟩
    · obtain ⟨a, b, c, built⟩ := levelOne one
      exact built.run
    · by_cases last : eof = 1
      · rw [if_pos last, if_pos last, show (blockOpened (wound v)).stream = (wound v).stream from rfl, stream_wound acc, stream,
          decide_eq_true last]
      · rw [if_neg last, if_neg last, show (blockOpened v).stream = v.stream from rfl, stream, decide_eq_false last]
    · split
      · exact aligned_ok
      · exact acc
    · intro last
      rw [if_pos last]
      rfl
    · obtain ⟨hb, rfl⟩ : ∃ hb, u = { s with hb := hb } := ⟨_, only⟩
      obtain ⟨bp, out, rfl⟩ : ∃ bp out, v = { s with hb := hb, bp := bp, mem := { s.mem with out := out } } := ⟨_, _, frame⟩
      split <;> rfl

end Sys2Proof.Proofs
end

section
/-! A COMPRESS whose driver comes to its end comes to its end, with the epilogue of its mode; a flush with nothing pending
(40_host_commands.md R205, 44_block_controller.md R429, R433 to R437). -/

namespace Sys2Proof.Proofs

open Sys2Proof.Machine Sys2Proof.Claims

/-! ### Drivers that come to their end -/

section
variable {E : Abort → Prop} {f : BitVec 3} {s : State}

theorem closeDrive_wp {Q : DriveResult → State → Prop} {d : Driver} {stored : Bool} {l : LoopStep} (done : LoopDone f stored l s)
    (noFlush : f = NO_FLUSH → Q .needMore s)
    (flush : f ≠ NO_FLUSH → Wp (Op.when (d = .slow) flushDeferred) E
      (fun _ v => Wp (flushBlock (if f = FINISH then 1 else 0)) E
        (fun _ t => Q (if f = FINISH then .finishDone else .blockDone) t) v) s) : Wp (closeDrive f d l) E Q s := by
  have answer := done.answer
  unfold closeDrive
  rw [wp_bind]
  by_cases none : f = NO_FLUSH
  · rw [if_pos none] at answer
    subst answer
    rw [Op.when, if_neg (by simp), wp_pure]
    exact wp_pure.2 (noFlush none)
  · rw [if_neg none] at answer
    subst answer
    have same : Op.when (d = .slow ∧ LoopStep.exit = .exit) flushDeferred = Op.when (d = .slow) flushDeferred := by
      unfold Op.when
      simp only [and_true]
    rw [same]
    refine (flush none).mono (fun _ => id) fun _ v h => ?_
    change Wp (flushBlock _ >>= fun _ => pure _) E Q v
    rw [wp_bind]
    exact h.mono (fun _ => id) fun _ t q => wp_pure.2 q

/-- A driver keeps `P` round by round and ends, each round passing a byte; then it closes. -/
theorem drive_wp {P : State → Prop} {Q : DriveResult → State → Prop}
    (fill : ∀ v, P v → v.mf.lookAhead < fillBelow s.ct.driver → Wp fillWindow E (fun _ t => P t ∧ toCome t = toCome v) v)
    (step : ∀ v, P v → v.mf.lookAhead ≠ 0 → Wp (stepOf s.ct.driver) E (fun _ t => P t ∧ toCome t < toCome v) v)
    (close : ∀ l u, P u → LoopDone f (s.ct.driver = .stored) l u → Wp (closeDrive f s.ct.driver l) E Q u)
    (start : P s) : Wp (drive f) E Q s := by
  rw [wp_congr (drive_eq f s), wp_bind]
  refine wp_iterate (P := P) (m := toCome) (fun v holds => ?_) start (by rw [toCome]; omega)
  have round := roundOf_wp (f := f) (d := s.ct.driver) (s := v) (E := E) (T := fun t => P t ∧ toCome t = toCome v)
    (Q := fun l t => if l = .again then P t ∧ toCome t < toCome v else P t) (fill v holds) (fun _ => ⟨holds, rfl⟩)
    (fun l t topped stop => by rw [if_neg stop]; exact topped.1) fun t topped some =>
      (step t topped.1 some).post fun l u run h => by
        obtain rfl := stepOf_goesOn _ t l u run
        rw [if_pos rfl, ← topped.2]
        exact h
  refine round.post fun l t run h => ?_
  by_cases again : l = .again
  · rw [if_pos again] at h ⊢
    exact h
  · rw [if_neg again] at h ⊢
    exact close l t h (roundOf_done run again)

end

/-! ### The epilogues (R433, R434, R425) -/

/-- The stream after what follows the last block of a command. -/
def epilogueBits (f : BitVec 3) (bits : List Bool) (adler : Word) : List Bool :=
  if f = 4 then bits ++ bytesBits (trailerBytes adler) else if f = 2 ∨ f = 3 then storedBlockBits bits false [] else bits

theorem mode_cases : ∀ {f : BitVec 3}, f ≤ 4 → f = 0 ∨ f = 1 ∨ f = 2 ∨ f = 3 ∨ f = 4 := by decide

/-- The answer of a COMPRESS that completes. -/
def replyOf (f : BitVec 3) : Reply := if f = FINISH then streamEndReply else okReply

theorem replyOf_eq (f : BitVec 3) : replyOf f = ⟨if f = 4 then 1 else 0, .none⟩ := by
  by_cases last : f = 4
  · rw [if_pos last]
    exact if_pos last
  · rw [if_neg last]
    exact if_neg last

theorem emptyStored_run {s : State} (unbounded : s.unbounded) : (storedBlock 0 0 0).run s = .ok () (storedSent s 0 []) :=
  storedBlock_run (start := 0) (len := 0) unbounded 0 (by decide) (Nat.zero_le _)

/-- A driver that has come to its end is followed by the epilogue of the mode. -/
theorem driven_run {f : BitVec 3} {s u : State} {d : DriveResult} (mode : f ≤ 4) (run : (drive f).run s = .ok d u)
    (unbounded : u.unbounded) (ok : u.bp.Ok) :
    ∃ t, (driven f).run s = .ok (replyOf f) t ∧ Ending f u (replyOf f) t ∧ t.stream = epilogueBits f u.stream u.sums.adler := by
  have modes := mode_cases mode
  have done := (drive_done run).1
  suffices total : ∃ t, (driven f).run s = .ok (replyOf f) t ∧ t.stream = epilogueBits f u.stream u.sums.adler by
    obtain ⟨t, drv, stream⟩ := total
    obtain ⟨d', u', run', ending⟩ := driven_inv drv
    rw [run] at run'
    cases run'
    exact ⟨t, drv, ending, stream⟩
  have after : ∀ v, (afterDrive f d).run u = .ok () v → (runDriver f).run s = .ok () v := fun v h => by
    unfold runDriver
    rw [Op.bind_ok run]
    exact h
  have answered : ∀ v, f ≠ FINISH → (afterDrive f d).run u = .ok () v → (driven f).run s = .ok (replyOf f) v := fun v notFinish h => by
    unfold driven
    rw [Op.bind_ok (after v h), if_pos notFinish, replyOf, if_neg notFinish]
    rfl
  rcases modes with rfl | rfl | rfl | rfl | rfl
  · exact ⟨u, answered u (by decide) (by rw [done.answer]; rfl), rfl⟩
  · obtain ⟨t, flush, stream, -⟩ := biFlushBytes_run unbounded ok
    exact ⟨t, answered t (by decide) (by rw [done.answer]; exact flush), stream⟩
  · refine ⟨storedSent u 0 [], answered _ (by decide) ?_, storedSent_stream ok 0 (Nat.zero_le _)⟩
    rw [done.answer]
    exact (Op.bind_ok (emptyStored_run unbounded)).trans rfl
  · refine ⟨(storedSent u 0 []).setMem { (storedSent u 0 []).mem with head := [] }, answered _ (by decide) ?_,
      storedSent_stream ok 0 (Nat.zero_le _)⟩
    rw [done.answer]
    exact (Op.bind_ok (emptyStored_run unbounded)).trans rfl
  · have finished : (afterDrive 4 d).run u = .ok () (u.setCtl { u.ctl with fsm := .finish }) := by
      rw [done.answer]
      rfl
    have room : HasRoom (u.setCtl { u.ctl with fsm := .finish }) 4 := fun cap h => nomatch unbounded.symm.trans h
    have bytes : trailer.run (u.setCtl { u.ctl with fsm := .finish })
        = .ok () ((u.setCtl { u.ctl with fsm := .finish }).emitted (trailerBytes u.sums.adler)) := by
      unfold trailer
      rw [Op.state_bind]
      exact putAdler_run room _
    refine ⟨_, ?_, stream_emitted_of_aligned (s := u.setCtl { u.ctl with fsm := .finish }) (by
      change u.bp.biValid = 0
      rw [done.aligned rfl]) _⟩
    unfold driven
    rw [Op.bind_ok (after _ finished), if_neg (by decide)]
    exact (Op.bind_ok bytes).trans rfl

/-- COMPRESS in BUSY whose driver comes to its end. -/
theorem exec_of_drive {f : BitVec 3} {c : List Byte} {s u : State} {d : DriveResult} (mode : f ≤ 4) (busy : s.ctl.fsm = .busy)
    (notDup : ¬ Duplicate s f c) (run : (drive f).run (started f c s) = .ok d u) (unbounded : s.unbounded) (ok : u.bp.Ok) :
    ∃ t, exec (compressWith f c) s = .next (t.answer (replyOf f)) ∧ (compressBusy f c).run s = .ok (replyOf f) t
      ∧ Ending f u (replyOf f) t ∧ t.stream = epilogueBits f u.stream u.sums.adler := by
  have platform : u.unbounded := by
    rw [State.unbounded, ((drive_keeps f).ok run).platform]
    exact unbounded
  obtain ⟨t, drv, ending, stream⟩ := driven_run mode run platform ok
  have busyRun := (compressBusy_run_of_driven notDup).trans drv
  refine ⟨t, ?_, busyRun, ending, stream⟩
  rw [exec_compressWith mode, runCommand_of_ok ((compress_run_of_busy mode busy c).trans busyRun)]

/-! ### Stored blocks end on a byte (R152) -/

theorem padToByte_of_aligned {bits : List Bool} (aligned : bits.length % 8 = 0) : padToByte bits = bits := by
  unfold padToByte
  rw [aligned]
  exact List.append_nil _

theorem padToByte_length (bits : List Bool) : (padToByte bits).length % 8 = 0 := by
  unfold padToByte
  rw [List.length_append, List.length_replicate]
  omega

theorem storedBlockBits_length (bits : List Bool) (eof : Bool) (data : List Byte) :
    (storedBlockBits bits eof data).length % 8 = 0 := by
  have pad := padToByte_length (bits ++ [eof, false, false])
  unfold storedBlockBits
  simp only [List.length_append, length_fieldBits, length_bytesBits]
  omega

/-! ### A flush with nothing pending (R429, R433) -/

theorem cutStored_nil (size k : Nat) (bits : List Bool) (positive : 0 < size) : cutStored size k bits [] = (bits, []) := by
  cases k with
  | zero => rfl
  | succ k =>
    unfold cutStored
    exact if_neg (Nat.not_le.2 positive)

/-- The stream of a level-0 COMPRESS is that of its blocks and the epilogue. -/
theorem level0Stream_eq (f : BitVec 3) (mode : f ≤ 4) (size : Nat) (bits : List Bool) (data : List Byte) (adler : Word) :
    level0Stream f size bits data adler = epilogueBits f (if f = 0 then (cutStored size data.length bits data).1
      else storedBlockBits (cutStored size data.length bits data).1 (decide (f = 4)) (cutStored size data.length bits data).2) adler := by
  rcases mode_cases mode with rfl | rfl | rfl | rfl | rfl <;> rfl

theorem counted_of_fresh {s : State} (fresh : BlockFresh s) : s.Counted := by
  obtain ⟨noTokens, -, -, -, lits, -, cls⟩ := fresh
  refine ⟨⟨?_, cls⟩, fun i hi => ?_, fun i hi => ?_⟩
  · rw [lits]
    decide
  · omega
  · omega

/-- With no byte pending the mode selector stores the block: it costs the least. -/
theorem blockBits_of_empty {s a b c u : State} (built : BuiltAll s a b c u) (fresh : BlockFresh s)
    (empty : s.mf.blockStart = (s.mf.strStart : Int)) (bits : List Bool) (eof : Bool) :
    blockBits bits eof u = storedBlockBits bits eof [] := by
  obtain ⟨-, -, opt, static, -⟩ := fresh
  obtain ⟨hb, rfl⟩ : ∃ hb, u = { s with hb := hb } := ⟨_, leads_buildAll s () u built.run⟩
  have optLen := built.optLen
  have staticLen := built.staticLen
  rw [opt, Int.zero_add] at optLen
  rw [static, Int.zero_add] at staticLen
  have data : pendingBytes { s with hb := hb } = [] := by
    rw [pendingBytes_eq, show ({ s with hb := hb } : State).mf = s.mf from rfl, empty, Int.sub_self]
    rfl
  unfold blockBits
  rw [data]
  refine if_pos (.inr ?_)
  change (s.mf.strStart : Int) - s.mf.blockStart + 5 ≤ min ((hb.optLen + 3 + 7) / 8) ((hb.staticLen + 3 + 7) / 8) + 4
    ∧ (s.mf.strStart : Int) - s.mf.blockStart ≤ 65535 ∧ 0 ≤ s.mf.blockStart
  change hb.optLen = _ at optLen
  change hb.staticLen = _ at staticLen
  rw [optLen, staticLen, empty]
  refine ⟨?_, ?_, ?_⟩
  · rw [← Int.sub_nonneg]
    omega
  · omega
  · exact Int.natCast_nonneg _

/-- With nothing to read and nothing ahead, the loop of a flush ends in its first round. -/
theorem loop_run_of_empty {f : BitVec 3} {s : State} (flush : f ≠ NO_FLUSH) (legal : s.cfg.legal = true) (order : WindowOrder s)
    (look : s.mf.lookAhead = 0) (input : s.mem.input = []) (d : Driver) (n : Nat) :
    (Op.iterate (roundOf f d) (n + 1)).run s = .ok .exit (slidIf s) := by
  have slides : filled s = slidIf s := if_pos input
  have fill : fillWindow.run s = .ok () (slidIf s) := slides ▸ fillWindow_run legal order
  have after : (slidIf s).mf.lookAhead = 0 := (slidIf_lookAhead s).trans look
  have due : s.mf.lookAhead < MIN_LOOKAHEAD := by rw [look]; decide
  have matched : ∀ step, (matchRound f step).run s = .ok .exit (slidIf s) := fun step => by
    unfold matchRound
    rw [Op.state_bind, Op.when_pos due, Op.bind_ok fill, Op.state_bind, if_neg fun h => flush h.2.2, if_pos ⟨due, after⟩]
    rfl
  have round : (roundOf f d).run s = .ok .exit (slidIf s) := by
    cases d with
    | fast => exact matched _
    | slow => exact matched _
    | stored =>
      unfold roundOf storedRound
      rw [Op.state_bind, Op.when_pos look, Op.bind_ok fill, Op.state_bind, if_pos after, if_neg flush]
      rfl
  rw [Op.iterate_succ, Op.bind_ok round]
  rfl

/-- What a compaction that is due leaves of a state whose block is empty. -/
structure SlidEmpty (s v : State) : Prop where
  frame : v = { s with mf := v.mf, mem := v.mem }
  out : v.mem.out = s.mem.out
  held : v.mf.matchAvailable = s.mf.matchAvailable
  look : v.mf.lookAhead = s.mf.lookAhead
  block : v.mf.blockStart = (v.mf.strStart : Int)

theorem slidIf_of_empty {s : State} (block : s.mf.blockStart = (s.mf.strStart : Int)) : SlidEmpty s (slidIf s) := by
  unfold slidIf
  split
  · next due =>
    have far := (mustSlide_iff s).1 due
    refine ⟨rfl, rfl, rfl, rfl, ?_⟩
    change s.mf.blockStart - (s.cfg.wSize : Int) = ((s.mf.strStart - s.cfg.wSize : Nat) : Int)
    omega
  · exact ⟨rfl, rfl, rfl, rfl, block⟩

/-- The last block of FINISH, and of no other mode, is the final one. -/
theorem eof_of_finish (f : BitVec 3) : decide ((if f = FINISH then (1 : BitVec 1) else 0) = 1) = decide (f = 4) := by
  by_cases last : f = FINISH
  · rw [if_pos last]
    exact (decide_eq_true (show f = 4 from last)).symm
  · rw [if_neg last]
    exact (decide_eq_false (show ¬ f = 4 from last)).symm

/-- The driver of a flush that finds nothing pending stores an empty block. -/
theorem drive_run_of_empty {f : BitVec 3} {s : State} (flush : f ≠ NO_FLUSH) (legal : s.cfg.legal = true) (level : s.cfg.level ≠ 0)
    (unbounded : s.unbounded) (m : s.MemoryOk) (ok : s.bp.Ok) (fresh : BlockFresh s) (look : s.mf.lookAhead = 0)
    (available : s.mf.matchAvailable = false) (input : s.mem.input = []) (window : s.mf.strStart ≤ s.cfg.windowBytes)
    (block : s.mf.blockStart = (s.mf.strStart : Int)) :
    ∃ d u, (drive f).run s = .ok d u ∧ u.stream = storedBlockBits s.stream (decide (f = 4)) [] ∧ u.bp.Ok ∧ BlockFresh u
      ∧ u.mf.lookAhead = 0 ∧ u.mf.blockStart = (u.mf.strStart : Int) ∧ u.sums = s.sums ∧ u.port = s.port := by
  have order : WindowOrder s := ⟨by omega, le_of_eq block⟩
  have loop := loop_run_of_empty flush legal order look input s.ct.driver (s.mf.lookAhead + s.mem.input.length + 1)
  have slid := slidIf_of_empty block
  have window' : (slidIf s).mf.strStart + (slidIf s).mf.lookAhead ≤ (slidIf s).cfg.windowBytes := (slidIf_order order).1
  have fill : fillWindow.run s = .ok () (slidIf s) := (if_pos input : filled s = slidIf s) ▸ fillWindow_run legal order
  have m' := (fillWindow_keeps.ok fill).memory m
  generalize slidIf s = v at *
  obtain ⟨mf, mem, rfl⟩ : ∃ mf mem, v = { s with mf := mf, mem := mem } := ⟨_, _, slid.frame⟩
  obtain ⟨-, out, held, look', block'⟩ := slid
  dsimp only at out held look' block' window'
  obtain ⟨u, w, -, above, -, frame, acc, stream, flushed⟩ := flushBlock_total (eof := if f = FINISH then 1 else 0)
    (s := { s with mf := mf, mem := mem }) legal m' ok unbounded (by dsimp only; omega) (le_of_eq block')
    (fresh.1 ▸ Nat.zero_le _) (counted_of_fresh fresh) fun zero => absurd zero level
  obtain ⟨a, b, c, built⟩ := above level
  have finish := eof_of_finish f
  rw [blockBits_of_empty built fresh block', finish] at stream
  have noDeferred : (Op.when (s.ct.driver = .slow ∧ LoopStep.exit = .exit) flushDeferred).run { s with mf := mf, mem := mem }
      = .ok () { s with mf := mf, mem := mem } := by
    by_cases slow : s.ct.driver = .slow ∧ LoopStep.exit = .exit
    · rw [Op.when_pos slow]
      unfold flushDeferred
      rw [Op.state_bind, Op.when_neg (by rw [held, available]; exact nofun)]
      rfl
    · rw [Op.when_neg slow]
      rfl
  have run : ∃ d, (drive f).run s = .ok d (blockOpened (if (if f = FINISH then (1 : BitVec 1) else 0) = 1 then wound w else w)) := by
    refine ⟨if f = FINISH then .finishDone else .blockDone, ?_⟩
    rw [drive_eq, Op.bind_ok loop]
    unfold closeDrive
    rw [Op.bind_ok noDeferred]
    exact (Op.bind_ok flushed).trans rfl
  obtain ⟨d, run⟩ := run
  have only := leads_buildAll _ () u built.run
  obtain ⟨hb, rfl⟩ : ∃ hb, u = { s with mf := mf, mem := mem, hb := hb } := ⟨_, only⟩
  obtain ⟨bp, bytes, rfl⟩ : ∃ bp bytes, w = { s with mf := mf, hb := hb, bp := bp, mem := { mem with out := bytes } } := ⟨_, _, frame⟩
  have sameStream : State.stream { s with mf := mf, mem := mem } = s.stream := by
    unfold State.stream
    rw [out]
  rw [sameStream] at stream
  refine ⟨d, _, run, ?_, ?_, blockOpened_fresh _, ?_⟩
  · split
    · rw [← padToByte_of_aligned (storedBlockBits_length s.stream _ []), ← stream]
      exact stream_wound acc
    · exact stream
  · split
    · exact aligned_ok
    · exact acc
  · have empty := look'.trans look
    split <;> exact ⟨empty, rfl, rfl, rfl⟩

/-- Settles O22: the fill finds nothing, and the boundary stores an empty block. -/
theorem emptyFlush : Obligations.EmptyFlush := by
  intro f s flush mode ⟨busy, legal, row⟩ level notDup unbounded m ok fresh look available window block
  have someFlush : f ≠ NO_FLUSH := fun none => absurd flush (by rw [none]; decide)
  obtain ⟨d, u, run, stream, acc, fresh', look', block', sums, port⟩ := drive_run_of_empty (s := started f [] s) someFlush legal
    level unbounded m ok fresh look available rfl window block
  obtain ⟨t, done, busyRun, ending, stream'⟩ := exec_of_drive mode busy notDup run unbounded acc
  obtain ⟨frame, -⟩ := ending.frame
  have sizes := sizes_of_legal legal
  have positive : 0 < s.cfg.storedMax := by
    obtain ⟨low, -, -, maxDist, storedMax, -⟩ := sizes
    omega
  have head : t.mem.head = if f = FULL_FLUSH then [] else u.mem.head := by rw [frame]
  refine ⟨_, done, ?_, ?_, ?_, ?_, ?_, ?_, ?_, ?_⟩
  · rw [level0Stream_eq f mode, cutStored_nil _ _ _ positive, if_neg (show ¬ f = 0 from someFlush)]
    change t.stream = _
    rw [stream', stream, sums]
    rfl
  · change t.sums = _
    rw [frame]
    exact sums
  · change t.mf.lookAhead = 0
    rw [frame]
    exact look'
  · change t.mf.blockStart = (t.mf.strStart : Int)
    rw [frame]
    exact block'
  · change BlockFresh t
    rw [frame]
    exact fresh'
  · change t.mem.head = if f = 3 then [] else t.mem.head
    by_cases full : f = 3
    · rw [if_pos full, head]
      exact if_pos full
    · rw [if_neg full]
  · change t.ctl = _
    rw [(compressBusy_ok busyRun).ctl, endCtl, busy]
    rfl
  · change ({ t.port with reply := some (replyOf f) } : Port) = _
    rw [show t.port = s.port by rw [frame]; exact port]
    rw [← replyOf_eq]

end Sys2Proof.Proofs
end

section
/-! Level 0 is exact: the stream of stored blocks a COMPRESS emits, whatever the chunks (41_match_finder.md R280, 20_memory.md
R117, 44_block_controller.md R432). -/

namespace Sys2Proof.Proofs

open Sys2Proof.Machine Sys2Proof.Claims

/-! ### Cutting data into stored blocks (R280) -/

/-- All blocks of `size` bytes that `data` fills, and what is left. -/
def cutAll (size : Nat) (bits : List Bool) (data : List Byte) : List Bool × List Byte := cutStored size data.length bits data

section
variable {size : Nat} (positive : 0 < size)
include positive

theorem cutStored_fuel (k : Nat) {bits : List Bool} {data : List Byte} (enough : data.length ≤ k) :
    cutStored size k bits data = cutAll size bits data := by
  have stable : ∀ n k bits, ∀ data : List Byte, data.length ≤ n → data.length ≤ k → cutStored size n bits data = cutStored size k bits data := by
    intro n
    induction n with
    | zero =>
      intro k bits data hn _
      rw [List.length_eq_zero_iff.1 (Nat.le_zero.1 hn), cutStored_nil _ _ _ positive, cutStored_nil _ _ _ positive]
    | succ n ih =>
      intro k bits data hn hk
      cases k with
      | zero => rw [List.length_eq_zero_iff.1 (Nat.le_zero.1 hk), cutStored_nil _ _ _ positive, cutStored_nil _ _ _ positive]
      | succ k =>
        unfold cutStored
        split
        · have drop : (data.drop size).length = data.length - size := List.length_drop
          exact ih k _ _ (by omega) (by omega)
        · rfl
  exact stable k _ bits data enough (Nat.le_refl _)

theorem cutAll_short {bits : List Bool} {data : List Byte} (short : data.length < size) : cutAll size bits data = (bits, data) := by
  rw [← cutStored_fuel positive (data.length + 1) (Nat.le_succ _), cutStored, if_neg (by omega)]

theorem cutAll_step {bits : List Bool} {data : List Byte} (full : size ≤ data.length) :
    cutAll size bits data = cutAll size (storedBlockBits bits false (data.take size)) (data.drop size) := by
  rw [← cutStored_fuel positive (data.length + 1) (Nat.le_succ _), cutStored, if_pos full]
  exact cutStored_fuel positive _ (by rw [List.length_drop]; omega)

/-- Data that comes later is cut from where the data before it was left. -/
theorem cutAll_append (bits : List Bool) (xs ys : List Byte) :
    cutAll size (cutAll size bits xs).1 ((cutAll size bits xs).2 ++ ys) = cutAll size bits (xs ++ ys) := by
  by_cases full : size ≤ xs.length
  · rw [cutAll_step positive full, cutAll_step positive (data := xs ++ ys) (by rw [List.length_append]; omega),
      List.take_append_of_le_length full, List.drop_append_of_le_length full]
    exact cutAll_append _ (xs.drop size) ys
  · rw [cutAll_short positive (data := xs) (Nat.not_le.1 full)]
termination_by xs.length
decreasing_by rw [List.length_drop]; omega

theorem cutAll_left (bits : List Bool) (data : List Byte) : (cutAll size bits data).2.length < size := by
  by_cases full : size ≤ data.length
  · rw [cutAll_step positive full]
    exact cutAll_left _ _
  · rw [cutAll_short positive (Nat.not_le.1 full)]
    exact Nat.not_le.1 full
termination_by data.length
decreasing_by rw [List.length_drop]; omega

end

/-! ### The data of a level-0 state -/

/-- The bytes not yet in a block: the pending ones, those ahead and those in `IN`. -/
def unsent (s : State) : List Byte :=
  windowBytes s s.mf.blockStart.toNat ((s.mf.strStart : Int) + s.mf.lookAhead - s.mf.blockStart).toNat ++ s.mem.input

theorem windowBytes_congr {s t : State} {start start' len : Nat}
    (same : ∀ k, k < len → s.mem.win.read (start + k) = t.mem.win.read (start' + k)) : windowBytes s start len = windowBytes t start' len :=
  List.map_congr_left fun k hk => same k (List.mem_range.1 hk)

theorem windowBytes_add (s : State) (start a b : Nat) :
    windowBytes s start (a + b) = windowBytes s start a ++ windowBytes s (start + a) b := by
  unfold windowBytes
  rw [List.range_add, List.map_append, List.map_map]
  exact congrArg _ (List.map_congr_left fun k _ => by rw [Function.comp_apply, Nat.add_assoc])

theorem windowBytes_writeAll {s t : State} (canonical : s.mem.win.Canonical) {pos : Nat} {bytes : List Byte}
    (written : t.mem.win = s.mem.win.writeAll pos bytes) {start len : Nat} (before : start + len = pos) :
    windowBytes t start (len + bytes.length) = windowBytes s start len ++ bytes := by
  rw [windowBytes_add]
  congr 1
  · exact windowBytes_congr fun k hk => by rw [written, Arr.read_writeAll canonical, if_neg (by omega)]
  · refine List.ext_getElem (by simp) fun i hi hi' => ?_
    simp only [windowBytes, List.getElem_map, List.getElem_range]
    rw [written, Arr.read_writeAll canonical, before, if_pos (by omega), Nat.add_sub_cancel_left,
      List.getD_eq_getElem?_getD, List.getElem?_eq_getElem hi']
    rfl

theorem unsent_of_spent {s : State} (look : s.mf.lookAhead = 0) (input : s.mem.input = []) : unsent s = pendingBytes s := by
  rw [unsent, look, input, List.append_nil, pendingBytes_eq]
  exact congrArg _ (by omega)

/-- What is in the block comes first. -/
theorem unsent_eq {s : State} (start : 0 ≤ s.mf.blockStart) (order : s.mf.blockStart ≤ (s.mf.strStart : Int)) :
    unsent s = pendingBytes s ++ (windowBytes s s.mf.strStart s.mf.lookAhead ++ s.mem.input) := by
  rw [unsent, pendingBytes_eq, ← List.append_assoc]
  congr 1
  obtain ⟨b, hb⟩ := Int.eq_ofNat_of_zero_le start
  obtain ⟨n, hn⟩ := Int.eq_ofNat_of_zero_le (Int.sub_nonneg_of_le order)
  rw [hn, hb, Int.toNat_natCast, Int.toNat_natCast, show ((s.mf.strStart : Int) + s.mf.lookAhead - (b : Int)).toNat = n + s.mf.lookAhead by omega,
    windowBytes_add, show b + n = s.mf.strStart by omega]

/-- Compaction moves the data along with its registers. -/
theorem unsent_slid {s : State} (within : s.mem.win.Within (2 * s.cfg.wSize)) (far : (s.cfg.wSize : Int) ≤ s.mf.blockStart)
    (order : WindowOrder s) (window : s.cfg.windowBytes = 2 * s.cfg.wSize) : unsent (slid s) = unsent s := by
  obtain ⟨inside, order⟩ := order
  unfold unsent
  congr 1
  change windowBytes (slid s) (s.mf.blockStart - (s.cfg.wSize : Int)).toNat
    (((s.mf.strStart - s.cfg.wSize : Nat) : Int) + (s.mf.lookAhead : Int) - (s.mf.blockStart - (s.cfg.wSize : Int))).toNat = _
  rw [show (((s.mf.strStart - s.cfg.wSize : Nat) : Int) + (s.mf.lookAhead : Int) - (s.mf.blockStart - (s.cfg.wSize : Int))).toNat
    = ((s.mf.strStart : Int) + s.mf.lookAhead - s.mf.blockStart).toNat by omega]
  refine windowBytes_congr fun k hk => ?_
  rw [show (slid s).mem.win = s.mem.win.compact s.cfg.wSize from rfl, Arr.read_compact within, if_pos (by omega)]
  congr 1
  omega

/-- A fill reads on without losing a byte. -/
theorem unsent_filled {s : State} (legal : s.cfg.legal = true) (m : s.MemoryOk) (order : WindowOrder s) (pending : PendingOk s) :
    unsent (filled s) = unsent s := by
  obtain ⟨start, short⟩ := pending
  obtain ⟨low, -, window, maxDist, storedMax, -⟩ := sizes_of_legal legal
  have slides : unsent (slidIf s) = unsent s := by
    unfold slidIf
    split
    · next due =>
      have due := (mustSlide_iff s).1 due
      rw [State.memoryOk_iff] at m
      exact unsent_slid (window ▸ m.2.1.1) (by omega) order window
    · rfl
  have m' := ((Op.keeps_when Inside.order slide_keeps).ok (slideIf_run order)).memory m
  have pending' : 0 ≤ (slidIf s).mf.blockStart ∧ (slidIf s).mf.blockStart ≤ ((slidIf s).mf.strStart : Int) := by
    have fill := fill_pendingOk legal ⟨start, short⟩ (fillWindow_run legal order)
    have ordered := slidIf_order order
    obtain ⟨-, block, -⟩ := filled_registers s
    exact ⟨block ▸ fill.1, ordered.2⟩
  rw [← slides]
  unfold filled
  rw [← slidIf_input s]
  generalize s.fillRoom = room
  generalize slidIf s = v at *
  split
  · rfl
  · rw [State.memoryOk_iff] at m'
    have reads : unsent (taken (v.mem.input.take room) (v.mem.input.drop room) v) = unsent v := by
      obtain ⟨start, order⟩ := pending'
      have bytes := windowBytes_writeAll (t := taken (v.mem.input.take room) (v.mem.input.drop room) v) m'.1.1.1 rfl
        (start := v.mf.blockStart.toNat) (len := ((v.mf.strStart : Int) + v.mf.lookAhead - v.mf.blockStart).toNat) (by omega)
      unfold unsent
      change windowBytes _ v.mf.blockStart.toNat
        ((v.mf.strStart : Int) + ((v.mf.lookAhead + (v.mem.input.take room).length : Nat) : Int) - v.mf.blockStart).toNat
          ++ v.mem.input.drop room = _
      rw [show ((v.mf.strStart : Int) + ((v.mf.lookAhead + (v.mem.input.take room).length : Nat) : Int) - v.mf.blockStart).toNat
        = ((v.mf.strStart : Int) + v.mf.lookAhead - v.mf.blockStart).toNat + (v.mem.input.take room).length by omega, bytes,
        List.append_assoc, List.take_append_drop]
    dsimp only
    split
    · exact reads
    · exact reads

/-! ### Blocks at level 0 (R431, R432) -/

theorem wound_of_aligned {s : State} (aligned : s.bp = { biBuf := 0, biValid := 0 }) : wound s = s := by
  unfold wound
  rw [aligned, show windup { biBuf := 0, biValid := 0 } = [] from rfl, emitted_nil, ← aligned]
  rfl

/-- The state after a boundary at level 0. -/
def storedOut (s : State) (eof : BitVec 1) : State := blockOpened (storedSent s eof (pendingBytes s))

theorem flushBlock_level_zero {s : State} (level : s.cfg.level = 0) (unbounded : s.unbounded) (storable : Storable s) (eof : BitVec 1) :
    (flushBlock eof).run s = .ok () (storedOut s eof) := by
  have build : (Op.when (s.cfg.level.toNat ≠ 0) buildAll).run s = .ok () s := by
    rw [Op.when_neg (by rw [level]; decide)]
    rfl
  have emitted : (emission eof s).run s = .ok () (storedSent s eof (pendingBytes s)) := by
    unfold emission selectMode
    rw [if_pos (by rw [level]; rfl)]
    exact storable.run unbounded eof
  rw [flushBlock_run build emitted unbounded, wound_of_aligned (storedSent_bp _ _ _), ite_self]
  rfl

/-- What level 0 never writes: tokens, codes, chain heads that are clear, and a fresh block. -/
structure Untouched (s t : State) : Prop where
  dbuf : t.mem.dbuf = s.mem.dbuf
  lbuf : t.mem.lbuf = s.mem.lbuf
  codes : ∀ tree, t.hb.lens tree = s.hb.lens tree ∧ t.hb.codes tree = s.hb.codes tree
  head : s.mem.head = [] → t.mem.head = []
  fresh : BlockFresh s → BlockFresh t

theorem Untouched.trans {s t u : State} (h : Untouched s t) (k : Untouched t u) : Untouched s u where
  dbuf := k.dbuf.trans h.dbuf
  lbuf := k.lbuf.trans h.lbuf
  codes tree := ⟨(k.codes tree).1.trans (h.codes tree).1, (k.codes tree).2.trans (h.codes tree).2⟩
  head e := k.head (h.head e)
  fresh e := k.fresh (h.fresh e)

theorem untouched_of_same {s t : State} (mem : t.mem.dbuf = s.mem.dbuf ∧ t.mem.lbuf = s.mem.lbuf) (hb : t.hb = s.hb) (tok : t.tok = s.tok)
    (head : s.mem.head = [] → t.mem.head = []) : Untouched s t :=
  ⟨mem.1, mem.2, fun tree => by rw [hb]; exact ⟨rfl, rfl⟩, head, fun fresh => by rw [BlockFresh, hb, tok]; exact fresh⟩

/-- A compaction writes match registers, the window and the chains alone. -/
theorem slidIf_frame (s : State) : slidIf s = { s with
    mf := (slidIf s).mf, mem := { s.mem with win := (slidIf s).mem.win, head := (slidIf s).mem.head, prev := (slidIf s).mem.prev } } := by
  unfold slidIf
  split <;> rfl

/-- A fill writes besides the input and the checksums. -/
theorem filled_frame (s : State) : filled s = { s with
    mf := (filled s).mf, sums := (filled s).sums
    mem := { s.mem with win := (filled s).mem.win, head := (slidIf s).mem.head, prev := (slidIf s).mem.prev,
                        input := (filled s).mem.input } } := by
  obtain ⟨mf, win, head, prev, eq⟩ : ∃ mf win head prev,
      slidIf s = { s with mf := mf, mem := { s.mem with win := win, head := head, prev := prev } } := ⟨_, _, _, _, slidIf_frame s⟩
  unfold filled
  rw [eq]
  generalize s.fillRoom = room
  split
  · rfl
  · dsimp only
    split <;> rfl

theorem slidIf_head (s : State) (clear : s.mem.head = []) : (slidIf s).mem.head = [] := by
  unfold slidIf
  split
  · change s.mem.head.rebase s.cfg.wSize = []
    rw [clear]
    rfl
  · exact clear

theorem untouched_filled (s : State) : Untouched s (filled s) := by
  have head := slidIf_head s
  rw [filled_frame s]
  exact untouched_of_same ⟨rfl, rfl⟩ rfl rfl head

theorem filled_sink (s : State) : (filled s).bp = s.bp ∧ (filled s).mem.out = s.mem.out := by
  rw [filled_frame s]
  exact ⟨rfl, rfl⟩

theorem storedOut_hb (s : State) (eof : BitVec 1) : (storedOut s eof).hb = s.hb.initBlock := rfl

theorem initBlock_codes (h : Huffman) (tree : Tree) : h.initBlock.lens tree = h.lens tree ∧ h.initBlock.codes tree = h.codes tree := by
  cases tree <;> exact ⟨rfl, rfl⟩

theorem untouched_storedOut (s : State) (eof : BitVec 1) : Untouched s (storedOut s eof) :=
  ⟨rfl, rfl, fun tree => by rw [storedOut_hb]; exact initBlock_codes _ _, id, fun _ => blockOpened_fresh _⟩

end Sys2Proof.Proofs
end

section
/-! The driver of level 0, COMPRESS at level 0, and that chunks do not show in it (41_match_finder.md R280, 20_memory.md R117). -/

namespace Sys2Proof.Proofs

open Sys2Proof.Machine Sys2Proof.Claims

/-! ### The loop of STORED (R280) -/

/-- The state after a round of STORED. -/
def storedNext (v : State) : State := if BlockDue (storedTaken v) then storedOut (storedTaken v) 0 else storedTaken v

theorem unsent_storedTaken (v : State) : unsent (storedTaken v) = unsent v := by
  have le := storedTake_le v
  unfold unsent
  congr 1
  change windowBytes v v.mf.blockStart.toNat
    (((v.mf.strStart + storedTake v : Nat) : Int) + ((v.mf.lookAhead - storedTake v : Nat) : Int) - v.mf.blockStart).toNat = _
  congr 1
  omega

theorem pendingBytes_storedOut (v : State) (eof : BitVec 1) : pendingBytes (storedOut v eof) = [] := by
  rw [pendingBytes_eq]
  change windowBytes _ _ ((v.mf.strStart : Int) - (v.mf.strStart : Int)).toNat = _
  rw [Int.sub_self]
  rfl

/-- A block takes the pending bytes from the front of what is unsent. -/
theorem unsent_storedOut {v : State} (storable : Storable v) (eof : BitVec 1) : unsent v = pendingBytes v ++ unsent (storedOut v eof) := by
  have ahead : windowBytes (storedOut v eof) v.mf.strStart v.mf.lookAhead = windowBytes v v.mf.strStart v.mf.lookAhead :=
    windowBytes_congr fun _ _ => rfl
  have rest : unsent (storedOut v eof) = windowBytes (storedOut v eof) v.mf.strStart v.mf.lookAhead ++ v.mem.input :=
    (unsent_eq (Int.natCast_nonneg _) (Int.le_refl _)).trans (by rw [pendingBytes_storedOut]; rfl)
  rw [unsent_eq storable.start storable.order, rest, ahead]

theorem storedOut_registers (v : State) (eof : BitVec 1) : (storedOut v eof).cfg = v.cfg
    ∧ (storedOut v eof).mf = { v.mf with blockStart := (v.mf.strStart : Int) } ∧ (storedOut v eof).mem.input = v.mem.input := by
  obtain ⟨bp, out, sent⟩ : ∃ bp out, storedSent v eof (pendingBytes v) = { v with bp := bp, mem := { v.mem with out := out } } :=
    ⟨_, _, storedSent_frame v eof _⟩
  unfold storedOut
  rw [sent]
  exact ⟨rfl, rfl, rfl⟩

theorem storedOut_order {v : State} (order : WindowOrder v) (eof : BitVec 1) : WindowOrder (storedOut v eof) := by
  obtain ⟨cfg, mf, -⟩ := storedOut_registers v eof
  unfold WindowOrder
  rw [cfg, mf]
  exact ⟨order.1, Int.le_refl _⟩

theorem Storable.stream_out {v : State} (h : Storable v) (ok : v.bp.Ok) (eof : BitVec 1) :
    (storedOut v eof).stream = storedBlockBits v.stream (decide (eof = 1)) (pendingBytes v) := h.stream ok eof

theorem storedOut_bp (v : State) (eof : BitVec 1) : (storedOut v eof).bp = { biBuf := 0, biValid := 0 } := rfl

/-- Where the loop has got from `s`: whole blocks are in the stream, the rest is in the window or in `IN`. -/
structure StoredRun (s v : State) : Prop where
  inside : Inside s v
  order : WindowOrder v
  pending : PendingOk v
  acc : v.bp.Ok
  cut : cutAll s.cfg.storedMax v.stream (unsent v) = cutAll s.cfg.storedMax s.stream (unsent s)
  untouched : Untouched s v
  sink : (unsent v = unsent s ∧ v.bp = s.bp) ∨ (v.bp.biValid = 0 ∧ s.cfg.storedMax ≤ (unsent s).length)

/-- What the statements of level 0 start from. -/
structure StoredStart (s : State) : Prop where
  legal : s.cfg.legal = true
  level : s.cfg.level = 0
  row : s.ct = ctRow s.cfg.level
  unbounded : s.unbounded
  memory : s.MemoryOk
  order : WindowOrder s
  pending : PendingOk s
  acc : s.bp.Ok

theorem StoredStart.sizes {s : State} (h : StoredStart s) : 0 < s.cfg.storedMax ∧ s.cfg.storedMax ≤ 65535 := by
  obtain ⟨low, high, -, maxDist, storedMax, -⟩ := sizes_of_legal h.legal
  omega

theorem StoredStart.driver {s : State} (h : StoredStart s) : s.ct.driver = .stored := by
  rw [h.row, h.level]
  decide

section
variable {s v : State} (start : StoredStart s)
include start

theorem StoredStart.run : StoredRun s s :=
  ⟨Inside.order.refl s, start.order, start.pending, start.acc, rfl,
    ⟨rfl, rfl, fun _ => ⟨rfl, rfl⟩, id, id⟩, .inl ⟨rfl, rfl⟩⟩

theorem StoredRun.unbounded (h : StoredRun s v) : v.unbounded := by
  rw [State.unbounded, h.inside.platform]
  exact start.unbounded

theorem StoredRun.fill (h : StoredRun s v) : fillWindow.run v = .ok () (filled v) ∧ StoredRun s (filled v) := by
  obtain ⟨inside, order, pending, acc, cut, untouched, sink⟩ := h
  have legal : v.cfg.legal = true := inside.cfg ▸ start.legal
  have run := fillWindow_run legal order
  have same : (filled v).bp = v.bp ∧ (filled v).mem.out = v.mem.out := filled_sink v
  have stream : (filled v).stream = v.stream := by rw [State.stream, same.1, same.2, State.stream]
  have unsent := unsent_filled legal (inside.memory start.memory) order pending
  refine ⟨run, Inside.order.trans inside (fillWindow_keeps.ok run), filled_order order, fill_pendingOk legal pending run,
    same.1 ▸ acc, by rw [stream, unsent, cut], untouched.trans (untouched_filled v), ?_⟩
  rw [unsent, same.1]
  exact sink

theorem StoredRun.storable (h : StoredRun s v) (limit : (v.mf.strStart : Int) - v.mf.blockStart ≤ s.cfg.storedMax) : Storable v :=
  ⟨h.pending.1, h.order.2, by have := start.sizes; omega, by have := h.order.1; omega⟩

theorem StoredRun.step (h : StoredRun s v) : storedStep.run v = .ok .again (storedNext v) ∧ StoredRun s (storedNext v) := by
  have ⟨positive, limit⟩ := start.sizes
  have unbounded := h.unbounded start
  obtain ⟨inside, order, pending, acc, cut, untouched, sink⟩ := h
  have size : v.cfg.storedMax = s.cfg.storedMax := by rw [inside.cfg]
  have takes := storedTake_le v
  have taken : WindowOrder (storedTaken v) ∧ 0 ≤ (storedTaken v).mf.blockStart := by
    obtain ⟨window, block⟩ := order
    refine ⟨⟨?_, ?_⟩, pending.1⟩
    · change v.mf.strStart + storedTake v + (v.mf.lookAhead - storedTake v) ≤ v.cfg.windowBytes
      omega
    · change v.mf.blockStart ≤ ((v.mf.strStart + storedTake v : Nat) : Int)
      omega
  have storable : BlockDue (storedTaken v) → Storable (storedTaken v) := fun due =>
    ⟨taken.2, taken.1.2, by
      rw [due]
      change (v.cfg.storedMax : Int) ≤ 65535
      omega, by
      have := taken.1.1
      omega⟩
  have ordered : WindowOrder (storedNext v) := by
    unfold storedNext
    split
    · exact storedOut_order taken.1 0
    · exact taken.1
  have run : storedStep.run v = .ok .again (storedNext v) := by
    have block : (Op.when (BlockDue (storedTaken v)) (flushBlock 0)).run (storedTaken v) = .ok () (storedNext v) := by
      unfold storedNext
      by_cases due : BlockDue (storedTaken v)
      · rw [Op.when_pos due, if_pos due]
        exact flushBlock_level_zero (s := storedTaken v) (by change v.cfg.level = 0; rw [inside.cfg]; exact start.level) unbounded (storable due) 0
      · rw [Op.when_neg due, if_neg due]
        rfl
    have check : checkWindow.run (storedNext v) = .ok () (storedNext v) := by
      rw [checkWindow_run]
      exact if_pos ordered
    rw [storedStep_eq, Op.bind_ok block, Op.bind_ok check]
    rfl
  refine ⟨run, Inside.order.trans inside (storedStep_keeps.ok run), ordered, storedStep_pendingOk (by omega) pending run, ?_, ?_, ?_, ?_⟩
  · unfold storedNext
    split
    · exact aligned_ok
    · exact acc
  · unfold storedNext
    split
    · next due =>
      have out := unsent_storedOut (storable due) 0
      have full : (pendingBytes (storedTaken v)).length = s.cfg.storedMax := by
        rw [length_pendingBytes, due]
        exact (Int.toNat_natCast _).trans size
      rw [← cut, ← unsent_storedTaken v, out, cutAll_step positive (data := pendingBytes _ ++ _) (by rw [List.length_append]; omega),
        List.take_left' full, List.drop_left' full, (storable due).stream_out acc 0, show decide ((0 : BitVec 1) = 1) = false from rfl,
        show (storedTaken v).stream = v.stream from rfl]
    · rw [unsent_storedTaken]
      exact cut
  · refine untouched.trans ?_
    have takes : Untouched v (storedTaken v) := untouched_of_same ⟨rfl, rfl⟩ rfl rfl id
    unfold storedNext
    split
    · exact takes.trans (untouched_storedOut _ 0)
    · exact takes
  · unfold storedNext
    split
    · next due =>
      refine .inr ⟨rfl, ?_⟩
      rcases sink with ⟨same, -⟩ | ⟨-, long⟩
      · have out := congrArg List.length (unsent_storedOut (storable due) 0)
        rw [List.length_append, length_pendingBytes, due, unsent_storedTaken, same] at out
        change _ = (v.cfg.storedMax : Int).toNat + _ at out
        omega
      · exact long
    · rw [unsent_storedTaken]
      exact sink

/-! ### The whole driver -/

/-- What the driver of level 0 leaves. -/
structure StoredEnd (f : BitVec 3) (s u : State) : Prop where
  inside : Inside s u
  order : WindowOrder u
  pending : PendingOk u
  acc : u.bp.Ok
  look : u.mf.lookAhead = 0
  input : u.mem.input = []
  stream : u.stream = if f = 0 then (cutAll s.cfg.storedMax s.stream (unsent s)).1
    else storedBlockBits (cutAll s.cfg.storedMax s.stream (unsent s)).1 (decide (f = 4)) (cutAll s.cfg.storedMax s.stream (unsent s)).2
  left : pendingBytes u = if f = 0 then (cutAll s.cfg.storedMax s.stream (unsent s)).2 else []
  untouched : Untouched s u
  valid : u.bp.biValid = if f = 0 ∧ (unsent s).length < s.cfg.storedMax then s.bp.biValid else 0

theorem drive_level_zero (f : BitVec 3) : ∃ d u, (drive f).run s = .ok d u ∧ StoredEnd f s u := by
  have ⟨positive, limit⟩ := start.sizes
  have driver := start.driver
  refine wp_false_iff.1 (drive_wp (P := StoredRun s) (fun v h _ => ?_) (fun v h some => ?_) (fun l v h done => ?_) (start.run))
  · obtain ⟨run, next⟩ := h.fill start
    exact (wp_of_ok run).2 ⟨next, toCome_filled v⟩
  · rw [driver]
    obtain ⟨run, next⟩ := h.step start
    exact (wp_of_ok (x := stepOf .stored) run).2 ⟨next, toCome_step (d := .stored) (fun _ => h.pending) some run⟩
  · have look : v.mf.lookAhead = 0 := done.used (.inr (decide_eq_true driver))
    have rest := unsent_of_spent look done.input
    have short : (pendingBytes v).length < s.cfg.storedMax := by
      have := h.pending.2
      have := h.order.2
      rw [length_pendingBytes, ← h.inside.cfg]
      omega
    have cut := h.cut
    rw [rest, cutAll_short positive short] at cut
    refine closeDrive_wp done (fun none => ?_) fun flush => ?_
    · refine ⟨h.inside, h.order, h.pending, h.acc, look, done.input, ?_, ?_, h.untouched, ?_⟩
      · rw [if_pos (show f = 0 from none), ← cut]
      · rw [if_pos (show f = 0 from none), ← cut]
      · rcases h.sink with ⟨same, bp⟩ | ⟨zero, long⟩
        · rw [if_pos ⟨none, by rw [← same, rest]; exact short⟩, bp]
        · rw [if_neg fun h => by omega, zero]
    · have someFlush : ¬ f = 0 := flush
      have storable := h.storable start (by rw [← h.inside.cfg]; exact Int.le_of_lt h.pending.2)
      have level : v.cfg.level = 0 := by rw [h.inside.cfg]; exact start.level
      have flushed := flushBlock_level_zero level (h.unbounded start) storable (if f = FINISH then 1 else 0)
      have finish : decide ((if f = FINISH then (1 : BitVec 1) else 0) = 1) = decide (f = 4) := eof_of_finish f
      rw [driver, Op.when, if_neg (by decide), wp_pure]
      refine (wp_of_ok flushed).2 ?_
      have inside := Inside.order.trans h.inside ((flushBlock_keeps _).ok flushed)
      obtain ⟨cfg, mf, input⟩ := storedOut_registers v (if f = FINISH then 1 else 0)
      refine ⟨inside, storedOut_order h.order _, ?_, storedOut_bp v _ ▸ aligned_ok, by rw [mf]; exact look, input.trans done.input,
        ?_, ?_, h.untouched.trans (untouched_storedOut _ _), ?_⟩
      · unfold PendingOk
        rw [mf, cfg, h.inside.cfg]
        refine ⟨Int.natCast_nonneg _, ?_⟩
        change (v.mf.strStart : Int) - (v.mf.strStart : Int) < _
        omega
      · rw [if_neg someFlush, ← cut, ← finish, storable.stream_out h.acc]
      · rw [if_neg someFlush]
        exact pendingBytes_storedOut v _
      · have none : ¬ (f = 0 ∧ (unsent s).length < s.cfg.storedMax) := fun both => someFlush both.1
        rw [if_neg none, storedOut_bp]

end

/-! ### COMPRESS at level 0 -/

/-- What a COMPRESS at level 0 leaves, from a state with `s`'s pending block. -/
structure Level0End (f : BitVec 3) (c : List Byte) (s t : State) : Prop where
  start : StoredStart t
  look : t.mf.lookAhead = 0
  stream : t.stream = level0Stream f s.cfg.storedMax s.stream (pendingBytes s ++ c) (adlerUpdate s.sums.adler c)
  left : pendingBytes t = level0Pending f s.cfg.storedMax s.stream (pendingBytes s ++ c)
  valid : t.bp.biValid = if f = 0 ∧ (pendingBytes s ++ c).length < s.cfg.storedMax then s.bp.biValid else 0
  sums : t.sums = { adler := adlerUpdate s.sums.adler c, crc := crcUpdate s.sums.crc c }
  ctl : t.ctl = endCtl f s
  input : t.mem.input = []
  cfg : t.cfg = s.cfg
  ct : t.ct = s.ct
  platform : t.platform = s.platform
  port : t.port = { s.port with reply := some (replyOf f) }
  untouched : Untouched s t

/-- An epilogue that starts at a byte boundary ends at one. -/
theorem Ending.aligned {f : BitVec 3} {u t : State} {r : Reply} (h : Ending f u r t) (unbounded : u.unbounded)
    (aligned : u.bp.biValid = 0) : t.bp.biValid = 0 := by
  by_cases noFlush : f = NO_FLUSH
  · rw [h.noFlush noFlush]
    exact aligned
  by_cases finish : f = FINISH
  · rw [h.finish finish]
    exact aligned
  have run := h.flush noFlush finish
  unfold flushEpilogue at run
  split at run
  · unfold biFlushBytes at run
    rw [Op.state_bind, aligned] at run
    cases run
    exact aligned
  · rw [Op.bind_ok (emptyStored_run unbounded)] at run
    unfold Op.when at run
    split at run <;> cases run <;> rfl

theorem Ending.untouched {f : BitVec 3} {u t : State} {r : Reply} (h : Ending f u r t) : Untouched u t := by
  rw [h.frame.1]
  refine untouched_of_same ⟨rfl, rfl⟩ rfl rfl fun clear => ?_
  change (if f = FULL_FLUSH then [] else u.mem.head) = []
  rw [clear, ite_self]

theorem storedStart_of_busy {s : State} (busyAt : BusyAt s) (level : s.cfg.level = 0) (unbounded : s.unbounded) (m : s.MemoryOk)
    (stored : s.StoredOk) (window : s.WindowOk) (acc : s.bp.Ok) : StoredStart s ∧ s.mf.lookAhead = 0 := by
  obtain ⟨busy, legal, row⟩ := busyAt
  obtain ⟨look, pending⟩ := stored (.inl busy) level
  exact ⟨⟨legal, level, row, unbounded, m, window (.inl busy), pending, acc⟩, look⟩

section
variable {f : BitVec 3} {c : List Byte} {s : State} (start : StoredStart s) (look : s.mf.lookAhead = 0)
include start look

theorem unsent_started (f : BitVec 3) (c : List Byte) : unsent (started f c s) = pendingBytes s ++ c := by
  rw [unsent_eq (s := started f c s) start.pending.1 start.order.2]
  change pendingBytes s ++ (windowBytes s s.mf.strStart s.mf.lookAhead ++ c) = _
  rw [look]
  rfl

/-- A COMPRESS whose driver runs. -/
theorem level0End_of_driven (mode : f ≤ 4) (busy : s.ctl.fsm = .busy) (notDup : ¬ Duplicate s f c) :
    ∃ t, exec (compressWith f c) s = .next t ∧ Level0End f c s t := by
  have begun : StoredStart (started f c s) := by
    obtain ⟨legal, level, row, unbounded, memory, order, pending, acc⟩ := start
    exact ⟨legal, level, row, unbounded, memory, order, pending, acc⟩
  obtain ⟨d, u, run, ended⟩ := drive_level_zero begun f
  obtain ⟨inside, order, pending, acc, look', input, stream, left, untouched, valid⟩ := ended
  obtain ⟨t, done, busyRun, ending, stream'⟩ := exec_of_drive mode busy notDup run start.unbounded acc
  obtain ⟨ctl, input', sums, acc', -⟩ := compressBusy_ok busyRun
  have session := (compressBusy_session mode c).ok busyRun
  obtain ⟨mf, cfg, ct, -⟩ := ending.mf
  have win : t.mem.win = u.mem.win := by rw [ending.frame.1]
  have adler : u.sums = t.sums := by rw [ending.frame.1]
  have data := unsent_started start look f c
  rw [data] at stream left valid
  refine ⟨_, done, ⟨?_, mf ▸ look', ?_, ?_, ?_, sums, ctl, input', session.cfg, session.ct, session.platform, ?_, ?_⟩⟩
  · refine ⟨?_, ?_, ?_, ?_, session.memory start.memory, ?_, ?_, acc' start.acc⟩
    · change t.cfg.legal = true
      rw [session.cfg]
      exact start.legal
    · change t.cfg.level = 0
      rw [session.cfg]
      exact start.level
    · change t.ct = ctRow t.cfg.level
      rw [session.cfg, session.ct]
      exact start.row
    · change t.platform.outCapacity = none
      rw [session.platform]
      exact start.unbounded
    · change t.mf.strStart + t.mf.lookAhead ≤ t.cfg.windowBytes ∧ t.mf.blockStart ≤ (t.mf.strStart : Int)
      rw [mf, cfg]
      exact order
    · change 0 ≤ t.mf.blockStart ∧ (t.mf.strStart : Int) - t.mf.blockStart < (t.cfg.storedMax : Int)
      rw [mf, cfg]
      exact pending
  · change t.stream = _
    rw [stream', stream, level0Stream_eq f mode, adler, sums]
    rfl
  · have same : pendingBytes t = pendingBytes u := by
      rw [pendingBytes_eq, pendingBytes_eq, mf]
      exact windowBytes_congr fun k _ => by rw [win]
    exact same.trans left
  · change t.bp.biValid = _
    by_cases none : f = NO_FLUSH
    · rw [ending.noFlush none]
      exact valid
    · have drop : ∀ n : Nat, (if f = 0 ∧ (pendingBytes s ++ c).length < s.cfg.storedMax then n else 0) = 0 := fun n =>
        if_neg fun both => none both.1
      rw [drop]
      have platform : u.unbounded := by
        rw [State.unbounded, inside.platform]
        exact start.unbounded
      exact ending.aligned platform (valid.trans (drop _))
  · change ({ t.port with reply := some (replyOf f) } : Port) = _
    rw [session.port]
  · have begins : Untouched s (started f c s) := untouched_of_same ⟨rfl, rfl⟩ rfl rfl id
    have all := begins.trans (untouched.trans ending.untouched)
    exact ⟨all.dbuf, all.lbuf, all.codes, all.head, all.fresh⟩

/-- An empty NO_FLUSH that comes again leaves everything pending. -/
theorem level0End_of_duplicate (busy : s.ctl.fsm = .busy) : ∃ t, exec (compressWith 0 []) s = .next t ∧ Level0End 0 [] s t := by
  have low : (0 : BitVec 3) ≤ s.ctl.lastFlush := BitVec.le_def.2 (Nat.zero_le _)
  have busyRun := compressBusy_run_of_duplicate low (by decide)
  have positive := start.sizes.1
  have short : (pendingBytes s).length < s.cfg.storedMax := by
    have := start.pending.2
    rw [length_pendingBytes]
    omega
  have cut := cutAll_short (size := s.cfg.storedMax) (bits := s.stream) positive short
  obtain ⟨legal, level, row, unbounded, memory, order, pending, acc⟩ := start
  refine ⟨_, by rw [exec_compressWith (by decide), runCommand_of_ok ((compress_run_of_busy (by decide) busy []).trans busyRun)], ?_⟩
  refine ⟨⟨legal, level, row, unbounded, memory, order, pending, acc⟩, look, ?_, ?_, ?_, ?_, rfl, rfl, rfl, rfl, rfl, rfl,
    untouched_of_same ⟨rfl, rfl⟩ rfl rfl id⟩
  · rw [List.append_nil]
    exact (congrArg Prod.fst cut).symm
  · rw [List.append_nil]
    exact (congrArg Prod.snd cut).symm
  · rw [List.append_nil, if_pos ⟨rfl, short⟩]
    rfl
  · rw [adlerUpdate_nil, crcUpdate_nil]
    rfl

theorem level0End (mode : f ≤ 4) (busy : s.ctl.fsm = .busy) (again : ¬ Duplicate s f c ∨ f = 0) :
    ∃ t, exec (compressWith f c) s = .next t ∧ Level0End f c s t := by
  by_cases dup : Duplicate s f c
  · obtain rfl := again.resolve_left (not_not.2 dup)
    obtain rfl : c = [] := dup.1
    exact level0End_of_duplicate start look busy
  · exact level0End_of_driven start look mode busy dup

end

/-- Settles O23. -/
theorem Level0.level0Stream : Obligations.Level0Stream := by
  intro f chunk s mode busyAt level notDup unbounded m stored window acc
  obtain ⟨start, look⟩ := storedStart_of_busy busyAt level unbounded m stored window acc
  obtain ⟨t, run, ended⟩ := level0End start look mode busyAt.1 (.inl notDup)
  obtain ⟨start', look', stream, left, -, sums, ctl, input, cfg, ct, platform, port, untouched⟩ := ended
  refine ⟨t, run, stream, left, look', start'.acc, input, sums, ?_, cfg, ct, platform, port.trans ?_, untouched.dbuf, untouched.lbuf,
    untouched.codes, untouched.head, untouched.fresh⟩
  · rw [ctl, endCtl, busyAt.1]
    rfl
  · rw [replyOf_eq]

/-! ### Chunks at level 0 (R117) -/

/-- A NO_FLUSH and a COMPRESS after it leave what one COMPRESS of both chunks leaves. -/
theorem Level0End.append {f : BitVec 3} {c b : List Byte} {s m t : State} (positive : 0 < s.cfg.storedMax) (mode : f ≤ 4)
    (first : Level0End 0 c s m) (second : Level0End f b m t) : Level0End f (c ++ b) s t := by
  have size : m.cfg.storedMax = s.cfg.storedMax := by rw [first.cfg]
  have bits : m.stream = (cutAll s.cfg.storedMax s.stream (pendingBytes s ++ c)).1 := first.stream
  have rest : pendingBytes m = (cutAll s.cfg.storedMax s.stream (pendingBytes s ++ c)).2 := first.left
  have cut : cutAll s.cfg.storedMax m.stream (pendingBytes m ++ b) = cutAll s.cfg.storedMax s.stream (pendingBytes s ++ (c ++ b)) := by
    rw [bits, rest, cutAll_append positive, List.append_assoc]
  have adler : m.sums.adler = adlerUpdate s.sums.adler c := by rw [first.sums]
  have crc : m.sums.crc = crcUpdate s.sums.crc c := by rw [first.sums]
  refine ⟨second.start, second.look, ?_, ?_, ?_, ?_, ?_, second.input, second.cfg.trans first.cfg, second.ct.trans first.ct,
    second.platform.trans first.platform, ?_, first.untouched.trans second.untouched⟩
  · rw [second.stream, size, level0Stream_eq f mode, level0Stream_eq f mode, adler, ← adlerUpdate_append]
    change epilogueBits f (if f = 0 then (cutAll _ _ _).1 else storedBlockBits (cutAll _ _ _).1 _ (cutAll _ _ _).2) _ = _
    rw [cut]
    rfl
  · rw [second.left, size]
    change (if f = 0 then (cutAll _ _ _).2 else []) = _
    rw [cut]
    rfl
  · rw [second.valid, size]
    have short : (pendingBytes s ++ c).length < s.cfg.storedMax → pendingBytes m = pendingBytes s ++ c := fun short => by
      rw [rest, cutAll_short positive short]
    rw [← List.append_assoc]
    have total : (pendingBytes s ++ c ++ b).length = (pendingBytes s ++ c).length + b.length := List.length_append
    by_cases fits : (pendingBytes s ++ c).length < s.cfg.storedMax
    · rw [short fits, first.valid, if_pos (show (0 : BitVec 3) = 0 ∧ _ from ⟨rfl, fits⟩)]
    · have long : ¬ (f = 0 ∧ (pendingBytes s ++ c ++ b).length < s.cfg.storedMax) := fun both => fits (by omega)
      have cut : ¬ ((0 : BitVec 3) = 0 ∧ (pendingBytes s ++ c).length < s.cfg.storedMax) := fun both => fits both.2
      rw [first.valid, if_neg cut, if_neg long, ite_self]
  · rw [second.sums, adler, crc, adlerUpdate_append, crcUpdate_append]
  · rw [second.ctl, endCtl, endCtl, first.ctl]
    rfl
  · rw [second.port, first.port]

/-- Any chunks before the last command, the first time the stream or the mode changes. -/
theorem level0_chunks {f : BitVec 3} (mode : f ≤ 4) (b : List Byte) (chunks : List (List Byte)) {s : State} (start : StoredStart s)
    (look : s.mf.lookAhead = 0) (busy : s.ctl.fsm = .busy) (again : chunks = [] → ¬ Duplicate s f b ∨ f = 0) :
    ∃ t, runAll (chunks.map .compressNoFlush ++ [compressWith f b]) s = some t ∧ Level0End f (chunks.flatten ++ b) s t := by
  induction chunks generalizing s with
  | nil =>
    obtain ⟨t, run, ended⟩ := level0End start look mode busy (again rfl)
    refine ⟨t, ?_, ended⟩
    change (nextOf (exec (compressWith f b) s)).bind (runAll []) = _
    rw [run]
    rfl
  | cons c rest ih =>
    obtain ⟨m, run, first⟩ := level0End (f := 0) (c := c) start look (by decide) busy (.inr rfl)
    have notDup : ¬ Duplicate m f b ∨ f = 0 := by
      by_cases zero : f = 0
      · exact .inr zero
      · refine .inl fun dup => zero ?_
        have low : f ≤ m.ctl.lastFlush := dup.2.1
        rw [first.ctl] at low
        exact BitVec.eq_of_toNat_eq (Nat.le_zero.1 low)
    have busy' : m.ctl.fsm = .busy := by
      rw [first.ctl]
      exact busy
    obtain ⟨t, tail, ended⟩ := ih first.start first.look busy' fun _ => notDup
    refine ⟨t, ?_, ?_⟩
    · change (nextOf (exec (compressWith 0 c) s)).bind _ = _
      rw [run]
      exact tail
    · rw [List.flatten_cons, List.append_assoc]
      exact Level0End.append start.sizes.1 mode first ended

theorem byteBits_inj {a b : Byte} (same : byteBits a = byteBits b) : a = b := by
  refine BitVec.eq_of_getLsbD_eq fun k hk => ?_
  have bit := congrArg (fun bits => bits[k]?) same
  simpa [byteBits, hk] using bit

theorem bytesBits_inj : ∀ {xs ys : List Byte}, bytesBits xs = bytesBits ys → xs = ys
  | [], [], _ => rfl
  | [], y :: ys, same => absurd (congrArg List.length same) (by rw [length_bytesBits, length_bytesBits, List.length_cons]; simp)
  | x :: xs, [], same => absurd (congrArg List.length same) (by rw [length_bytesBits, length_bytesBits, List.length_cons]; simp)
  | x :: xs, y :: ys, same => by
    rw [bytesBits_cons, bytesBits_cons] at same
    obtain ⟨first, rest⟩ := List.append_inj same (by rw [length_byteBits, length_byteBits])
    rw [byteBits_inj first, bytesBits_inj rest]

theorem fieldBits_inj {n a b : Nat} (ha : a < 2 ^ n) (hb : b < 2 ^ n) (same : fieldBits n a = fieldBits n b) : a = b := by
  refine Nat.eq_of_testBit_eq fun k => ?_
  by_cases inside : k < n
  · have bit := congrArg (fun bits => bits[k]?) same
    simpa [fieldBits, inside] using bit
  · have high : 2 ^ n ≤ 2 ^ k := Nat.pow_le_pow_right (by decide) (Nat.not_lt.1 inside)
    rw [Nat.testBit_lt_two_pow (Nat.lt_of_lt_of_le ha high), Nat.testBit_lt_two_pow (Nat.lt_of_lt_of_le hb high)]

/-- The stream and the number of pending bits give `OUT` and the accumulator. -/
theorem sink_of_stream {s t : State} (ok : s.bp.Ok) (ok' : t.bp.Ok) (valid : s.bp.biValid = t.bp.biValid) (same : s.stream = t.stream) :
    s.mem.out = t.mem.out ∧ s.bp = t.bp := by
  have bits : (s.bp.pending).length = t.bp.pending.length := by
    rw [pending_eq, pending_eq, length_fieldBits, length_fieldBits, valid]
  obtain ⟨out, pending⟩ := List.append_inj' (show bytesBits s.mem.out ++ s.bp.pending = bytesBits t.mem.out ++ t.bp.pending from same) bits
  refine ⟨bytesBits_inj out, ?_⟩
  rw [pending_eq, pending_eq, valid] at pending
  have buf := BitVec.eq_of_toNat_eq (fieldBits_inj (valid ▸ ok.2) ok'.2 pending)
  calc s.bp = ⟨s.bp.biBuf, s.bp.biValid⟩ := rfl
    _ = t.bp := by rw [buf, valid]

/-- Settles O24: both sides end with what one COMPRESS of all the bytes is to leave. -/
theorem level0Chunking : Obligations.Level0Chunking := by
  intro f chunks b s mode busyAt level some unbounded m stored window acc
  obtain ⟨start, look⟩ := storedStart_of_busy busyAt level unbounded m stored window acc
  have all : chunks.flatten ++ b ≠ [] := fun h => some (List.append_eq_nil_iff.1 h).1
  obtain ⟨u, chunked, left⟩ := level0_chunks mode b chunks start look busyAt.1 fun none => absurd (by rw [none]; rfl) some
  obtain ⟨v, whole, right⟩ := level0End (c := chunks.flatten ++ b) start look mode busyAt.1 (.inl fun dup => all dup.1)
  obtain ⟨out, bp⟩ := sink_of_stream left.start.acc right.start.acc (left.valid.trans right.valid.symm) (left.stream.trans right.stream.symm)
  exact ⟨u, v, chunked, whole, out, bp, left.sums.trans right.sums.symm, left.ctl.trans right.ctl.symm, left.left.trans right.left.symm,
    by rw [left.port, right.port]⟩

end Sys2Proof.Proofs
end

section
/-! The token buffer: what one token adds to the block, and that its frequencies count its tokens (41_match_finder.md R270 to
R272, 10_state.md R45 to R48, 44_block_controller.md R431). -/

namespace Sys2Proof.Proofs

open Sys2Proof.Machine Sys2Proof.Claims

/-! ### The sum of a frequency register file -/

theorem total_write {a : Arr 16} (canonical : a.Canonical) (i : Nat) (v : BitVec 16) :
    (a.write i v).total + (a.read i).toNat = a.total + v.toNat := by
  have entry : ∀ (q : Nat × BitVec 16) (b : Arr 16), Arr.total (q :: b) = q.2.toNat + b.total := fun _ _ => List.sum_cons
  induction a with
  | nil =>
    unfold Arr.write
    split
    · next zero => rw [zero]; rfl
    · rw [entry]
      exact Nat.add_comm _ _
  | cons q rest ih =>
    obtain ⟨j, u⟩ := q
    obtain ⟨later, -, tail⟩ := Arr.canonical_cons.1 canonical
    rw [Arr.read_cons, Arr.write]
    by_cases before : i < j
    · have absent : Arr.read rest i = 0 := Arr.read_eq_zero fun p mem => Nat.ne_of_gt (Nat.lt_trans before (later p mem))
      rw [if_pos before, if_neg (Nat.ne_of_lt before), absent]
      split
      · next zero => rw [zero]
      · rw [entry, show (0 : BitVec 16).toNat = 0 from rfl, Nat.add_zero]
        exact Nat.add_comm _ _
    · rw [if_neg before]
      by_cases same : i = j
      · rw [if_pos same, if_pos same]
        split
        · next zero =>
          rw [zero, entry]
          exact Nat.add_comm _ _
        · rw [entry, entry]
          dsimp only
          omega
      · rw [if_neg same, if_neg same, entry, entry]
        have := ih tail
        omega

theorem read_le_total {a : Arr 16} (canonical : a.Canonical) (i : Nat) : (a.read i).toNat ≤ a.total := by
  have cleared := total_write canonical i 0
  have none : (0 : BitVec 16).toNat = 0 := rfl
  omega

/-- One more occurrence does not wrap round while the sum fits. -/
theorem toNat_bumped {a : Arr 16} (canonical : a.Canonical) (fits : a.total < 65535) (i : Nat) :
    (a.read i + 1).toNat = (a.read i).toNat + 1 := by
  have bound := read_le_total canonical i
  rw [BitVec.toNat_add, show (1 : BitVec 16).toNat = 1 from rfl, Nat.mod_eq_of_lt (by omega)]

theorem total_bump {a : Arr 16} (canonical : a.Canonical) (fits : a.total < 65535) (i : Nat) :
    (bump a i).total = a.total + 1 := by
  have written := total_write canonical i (a.read i + 1)
  rw [toNat_bumped canonical fits] at written
  unfold bump
  omega

theorem bump_ne_zero {a : Arr 16} (canonical : a.Canonical) (fits : a.total < 65535) (i : Nat) {j : Nat}
    (occurs : j = i ∨ a.read j ≠ 0) : (bump a i).read j ≠ 0 := by
  by_cases same : j = i
  · subst same
    rw [bump, Arr.read_write_same canonical]
    intro zero
    have count := toNat_bumped canonical fits j
    rw [zero, show (0 : BitVec 16).toNat = 0 from rfl] at count
    omega
  · rw [bump, Arr.read_write_ne canonical same]
    exact occurs.resolve_left same

/-! ### The block counts its tokens -/

/-- The token invariant, of any state. -/
def Tokened (s : State) : Prop := s.tok.lastLit + 1 < s.cfg.litBufferSize ∧ s.tok.numMatches ≤ s.tok.lastLit
  ∧ s.hb.lfreq.total = s.tok.lastLit + 1 ∧ s.hb.dfreq.total = s.tok.numMatches

theorem tokened_of_fresh {s : State} (legal : s.cfg.legal = true) (fresh : BlockFresh s) : Tokened s := by
  obtain ⟨lits, matches_, -, -, lfreq, dfreq, -⟩ := fresh
  have size := (sizes_of_legal legal).litBuffer_low
  rw [Tokened, lits, matches_, lfreq, dfreq]
  exact ⟨by omega, Nat.le_refl _, rfl, rfl⟩

section
variable {s : State} (legal : s.cfg.legal = true) (m : s.MemoryOk) (tokened : Tokened s)
include legal m tokened

theorem tallied_counts (d lc : Nat) : (tallied d lc s).tok.numMatches ≤ (tallied d lc s).tok.lastLit
    ∧ (tallied d lc s).hb.lfreq.total = (tallied d lc s).tok.lastLit + 1
    ∧ (tallied d lc s).hb.dfreq.total = (tallied d lc s).tok.numMatches := by
  obtain ⟨⟨-, lfreq, dfreq, -⟩, -⟩ := (State.memoryOk_iff s).1 m
  obtain ⟨room, less, lits, matches_⟩ := tokened
  have size := (sizes_of_legal legal).litBuffer_high
  have literals := total_bump lfreq (by omega) (tokenSymbol d lc)
  have copies := total_bump dfreq (by omega) (distCode d)
  unfold tallied
  dsimp only
  rw [literals]
  by_cases literal : d = 0
  · rw [if_pos literal, if_pos literal]
    omega
  · rw [if_neg literal, if_neg literal, copies]
    omega

/-- A token of the block is one that was there or the new one. -/
theorem tallied_counted {d lc : Nat} (near : d ≤ s.cfg.maxDist) (byte : lc ≤ 255) (counted : s.Counted) :
    (tallied d lc s).Counted := by
  obtain ⟨⟨⟨-, -, -, dbuf, lbuf⟩, lfreq, dfreq, -⟩, -⟩ := (State.memoryOk_iff s).1 m
  obtain ⟨room, less, lits, matches_⟩ := tokened
  obtain ⟨⟨stop, cls⟩, literals, copies⟩ := counted
  have sizes := sizes_of_legal legal
  have high := sizes.litBuffer_high
  have window := sizes.wSize_high
  have dist := sizes.maxDist
  have counts : ∀ j, j = tokenSymbol d lc ∨ s.hb.lfreq.read j ≠ 0 → (tallied d lc s).hb.lfreq.read j ≠ 0 := fun j =>
    bump_ne_zero lfreq (by omega) _
  have counts' : ∀ j, (d ≠ 0 ∧ j = distCode d) ∨ s.hb.dfreq.read j ≠ 0 → (tallied d lc s).hb.dfreq.read j ≠ 0 := fun j h => by
    unfold tallied
    dsimp only
    split
    · next literal => exact h.resolve_left fun copy => copy.1 literal
    · exact bump_ne_zero dfreq (by omega) _ (h.imp_left And.right)
  have token : ∀ i, i < s.tok.lastLit + 1 → (i < s.tok.lastLit ∧ (tallied d lc s).mem.dbuf.read i = s.mem.dbuf.read i
        ∧ (tallied d lc s).mem.lbuf.read i = s.mem.lbuf.read i)
      ∨ ((tallied d lc s).mem.dbuf.read i = BitVec.ofNat 16 d ∧ (tallied d lc s).mem.lbuf.read i = BitVec.ofNat 8 lc) := fun i hi => by
    have read := Arr.read_write dbuf s.tok.lastLit i (BitVec.ofNat 16 d)
    have read' := Arr.read_write lbuf s.tok.lastLit i (BitVec.ofNat 8 lc)
    by_cases last : i = s.tok.lastLit
    · rw [if_pos last] at read read'
      exact .inr ⟨read, read'⟩
    · rw [if_neg last] at read read'
      exact .inl ⟨by omega, read, read'⟩
  have small : (BitVec.ofNat 16 d).toNat = d := by rw [BitVec.toNat_ofNat, Nat.mod_eq_of_lt (by omega)]
  have small' : (BitVec.ofNat 8 lc).toNat = lc := by rw [BitVec.toNat_ofNat, Nat.mod_eq_of_lt (by omega)]
  have zero : BitVec.ofNat 16 d = 0 ↔ d = 0 := ⟨fun h => by rw [← small, h]; rfl, fun h => by rw [h]; rfl⟩
  refine ⟨⟨counts _ (.inr stop), cls⟩, fun i hi literal => ?_, fun i hi copy => ?_⟩
  · obtain ⟨old, same, same'⟩ | ⟨new, new'⟩ := token i hi
    · rw [same'] at *
      exact counts _ (.inr (literals i old (same ▸ literal)))
    · rw [new, zero] at literal
      rw [new', small']
      exact counts _ (.inl (by rw [tokenSymbol, if_pos literal]))
  · obtain ⟨old, same, same'⟩ | ⟨new, new'⟩ := token i hi
    · rw [same] at copy
      obtain ⟨near, lit, dist⟩ := copies i old copy
      rw [same, same']
      exact ⟨near, counts _ (.inr lit), counts' _ (.inr dist)⟩
    · rw [new, ne_eq, zero] at copy
      rw [new, new', small, small']
      exact ⟨near, counts _ (.inl (by rw [tokenSymbol, if_neg copy])), counts' _ (.inl ⟨copy, rfl⟩)⟩

end

/-! ### One token, and the block boundary it may call for -/

/-- Everything `Tally` can do. -/
theorem tally_wp {dist : Int} {lc : Nat} {s : State} (legal : s.cfg.legal = true) : Wp (tally dist lc)
    (fun _ => ¬ (s.tok.lastLit < s.cfg.litBufferSize ∧ 0 ≤ dist ∧ dist ≤ (s.cfg.maxDist : Int) ∧ lc ≤ 255))
    (fun b t => s.tok.lastLit < s.cfg.litBufferSize ∧ ∃ d : Nat, dist = d ∧ d ≤ s.cfg.maxDist ∧ t = tallied d lc s ∧ b = t.blockEnds) s := by
  have sizes := sizes_of_legal legal
  have reach : s.cfg.maxDist ≤ 32768 := by
    have := sizes.wSize_high
    have := sizes.maxDist
    omega
  by_cases room : s.tok.lastLit < s.cfg.litBufferSize
  swap
  · exact (wp_of_error (tally_run_of_full (Nat.not_lt.1 room))).2 fun h => room h.1
  by_cases fine : 0 ≤ dist ∧ dist ≤ (s.cfg.maxDist : Int) ∧ lc ≤ 255
  · obtain ⟨d, rfl⟩ := Int.eq_ofNat_of_zero_le fine.1
    exact (wp_of_ok (tally_run room (by omega) (by omega) fine.2.2)).2 ⟨room, d, rfl, by omega, rfl, rfl⟩
  · -- what is left is a literal symbol above 255, or a fault
    unfold tally
    rw [wp_state, wp_bind, wp_require]
    refine ⟨fun _ => ?_, fun full => absurd room full⟩
    rw [wp_bind]
    refine (wp_of_ok (by rw [writeToken_run]; exact if_pos room)).2 ?_
    rw [wp_bind]
    refine wp_update.2 ?_
    rw [wp_bind]
    unfold countToken
    rw [wp_ite]
    refine ⟨fun literal => ?_, fun copy => ?_⟩
    · subst literal
      by_cases symbol : lc < L_CODES
      · refine (wp_of_ok (by rw [countLit_run]; exact if_pos symbol)).2 (wp_gets.2 ⟨room, 0, rfl, Nat.zero_le _, rfl, rfl⟩)
      · exact (wp_of_error (by rw [countLit_run]; exact if_neg symbol)).2 fun h => fine h.2
    · rw [wp_state, wp_bind, wp_require]
      exact ⟨fun h => absurd ⟨by omega, h.2.1, h.2.2⟩ fine, fun _ h => fine h.2⟩

/-- What ending the block now needs. -/
structure Closable (s : State) : Prop where
  memory : s.MemoryOk
  acc : s.bp.Ok
  unbounded : s.unbounded
  window : s.mf.strStart ≤ s.cfg.windowBytes
  order : s.mf.blockStart ≤ (s.mf.strStart : Int)
  room : s.tok.lastLit ≤ s.cfg.litBufferSize
  counted : s.Counted

theorem flushBlock_wp {s : State} (legal : s.cfg.legal = true) (level : s.cfg.level ≠ 0) (eof : BitVec 1) :
    Wp (flushBlock eof) (fun _ => ¬ Closable s) (fun _ t => Flushed s t) s := by
  by_cases able : Closable s
  · obtain ⟨memory, acc, unbounded, window, order, room, counted⟩ := able
    obtain ⟨u, v, -, -, -, -, -, -, run⟩ := flushBlock_total (eof := eof) legal memory acc unbounded window order room counted
      fun zero => absurd zero level
    exact (wp_of_ok run).2 (flushBlock_ok run).1
  · exact (wp_true_iff.2 fun _ _ run => (flushBlock_ok run).1).mono (fun _ _ => able) fun _ _ => id

theorem flushIf_wp {s : State} (legal : s.cfg.legal = true) (level : s.cfg.level ≠ 0) (b : Bool) :
    Wp (flushIf b) (fun _ => ¬ Closable s) (fun _ t => if b = true then Flushed s t else t = s) s := by
  unfold flushIf
  rw [wp_when]
  refine ⟨fun ends => ?_, fun goes => ?_⟩
  · exact (flushBlock_wp legal level 0).mono (fun _ => id) fun _ t h => by rw [if_pos ends]; exact h
  · rw [if_neg goes]

/-- `t` is `s` after a token of distance `d` and byte or length `lc`, which may have ended the block, the next starting at
`next`. -/
structure OneToken (d lc next : Nat) (s t : State) : Prop where
  near : d ≤ s.cfg.maxDist
  cfg : t.cfg = s.cfg
  dbuf : t.mem.dbuf = s.mem.dbuf.write s.tok.lastLit (BitVec.ofNat 16 d)
  lbuf : t.mem.lbuf = s.mem.lbuf.write s.tok.lastLit (BitVec.ofNat 8 lc)
  acc : s.bp.Ok → t.bp.Ok
  block : (t.tok = (tallied d lc s).tok ∧ t.hb = (tallied d lc s).hb ∧ t.mf.blockStart = s.mf.blockStart
      ∧ s.tok.lastLit + 2 ≠ s.cfg.litBufferSize)
    ∨ (BlockFresh t ∧ t.mf.blockStart = (next : Int)
      ∧ (s.tok.lastLit + 2 = s.cfg.litBufferSize ∨ (s.tok.lastLit + 1) % 8192 = 0))

/-- Only the place in the data and the chains have moved. -/
def Moved (s t : State) : Prop := t = { s with
  mf := { s.mf with strStart := t.mf.strStart, lookAhead := t.mf.lookAhead, insH := t.mf.insH,
                    matchLength := t.mf.matchLength, matchStart := t.mf.matchStart, prevLength := t.mf.prevLength,
                    prevMatch := t.mf.prevMatch, matchAvailable := t.mf.matchAvailable }
  mem := { s.mem with head := t.mem.head, prev := t.mem.prev } }

theorem Moved.order : Op.Order Moved where
  refl _ := rfl
  trans {s t u} h k := by rw [Moved] at h k ⊢; rw [k, h]

/-- A tally, moves, and the boundary if the tally called for it. -/
theorem oneToken_of_flushed {d lc : Nat} {s v w t : State} (before : Moved s v) (near : d ≤ s.cfg.maxDist)
    (moved : Moved (tallied d lc v) w)
    (ended : if (tallied d lc v).blockEnds = true then Flushed w t else t = w) : OneToken d lc w.mf.strStart s t := by
  obtain ⟨mf, head, prev, rfl, block⟩ : ∃ mf head prev, v = { s with mf := mf, mem := { s.mem with head := head, prev := prev } }
      ∧ mf.blockStart = s.mf.blockStart := ⟨_, _, _, before, by rw [show v = _ from before]⟩
  have ends := blockEnds_iff (tallied d lc { s with mf := mf, mem := { s.mem with head := head, prev := prev } })
  generalize State.blockEnds _ = b at *
  obtain ⟨mf', head', prev', rfl, block'⟩ : ∃ mf' head' prev', w = { tallied d lc s with
      mf := mf', mem := { (tallied d lc s).mem with head := head', prev := prev' } } ∧ mf'.blockStart = mf.blockStart :=
    ⟨_, _, _, moved, by rw [show w = _ from moved]; rfl⟩
  by_cases full : b = true
  · rw [if_pos full] at ended
    have fresh := ended.blockFresh
    obtain ⟨frame, -, acc⟩ := ended
    refine ⟨near, by rw [frame]; rfl, by rw [frame]; rfl, by rw [frame]; rfl, acc, .inr ⟨fresh, by rw [frame], ?_⟩⟩
    exact (ends.1 full).symm.imp_right fun sparse => sparse.1
  · rw [if_neg full] at ended
    subst ended
    refine ⟨near, rfl, rfl, rfl, id, .inl ⟨rfl, rfl, block'.trans block, fun two => full (ends.2 (.inr two))⟩⟩

section
variable {d lc next : Nat} {s t : State} (h : OneToken d lc next s t)
include h

theorem OneToken.tokened (legal : s.cfg.legal = true) (m : s.MemoryOk) (tokened : Tokened s) : Tokened t := by
  obtain ⟨-, cfg, -, -, -, ⟨tok, hb, -, two⟩ | ⟨fresh, -⟩⟩ := h
  · have counts := tallied_counts legal m tokened d lc
    have room := tokened.1
    rw [Tokened, tok, hb, cfg]
    refine ⟨?_, counts⟩
    change s.tok.lastLit + 1 + 1 < _
    omega
  · exact tokened_of_fresh (cfg ▸ legal) fresh

theorem OneToken.counted (legal : s.cfg.legal = true) (m : s.MemoryOk) (tokened : Tokened s) (byte : lc ≤ 255)
    (counted : s.Counted) : t.Counted := by
  obtain ⟨near, cfg, dbuf, lbuf, -, ⟨tok, hb, -⟩ | ⟨fresh, -⟩⟩ := h
  · have after := tallied_counted legal m tokened near byte counted
    rw [State.Counted, tok, hb, cfg, dbuf, lbuf]
    exact after
  · exact counted_of_fresh fresh

theorem OneToken.added : TokenAdded s t d next := by
  obtain ⟨-, -, -, -, -, ⟨tok, -, block, two⟩ | ⟨fresh, block, due⟩⟩ := h
  · exact .inl ⟨tok, block, two⟩
  · refine .inr ⟨?_, block, due⟩
    calc t.tok = ⟨t.tok.lastLit, t.tok.numMatches⟩ := rfl
      _ = ⟨0, 0⟩ := by rw [fresh.1, fresh.2.1]

theorem OneToken.reads (legal : s.cfg.legal = true) (m : s.MemoryOk) :
    (t.mem.dbuf.read s.tok.lastLit).toNat = d ∧ t.mem.lbuf.read s.tok.lastLit = BitVec.ofNat 8 lc := by
  obtain ⟨⟨⟨-, -, -, dbuf, lbuf⟩, -⟩, -⟩ := (State.memoryOk_iff s).1 m
  have sizes := sizes_of_legal legal
  have near := h.near
  have high := sizes.wSize_high
  have dist := sizes.maxDist
  rw [h.dbuf, h.lbuf, Arr.read_write_same dbuf, Arr.read_write_same lbuf, BitVec.toNat_ofNat, Nat.mod_eq_of_lt (by omega)]
  exact ⟨rfl, rfl⟩

end

end Sys2Proof.Proofs
end

section
/-! A round of the greedy driver, as what it comes to and what it leaves: one token, for exactly the bytes it passes
(41_match_finder.md R251, R260, R285). -/

namespace Sys2Proof.Proofs

open Sys2Proof.Machine Sys2Proof.Claims

/-! ### Insertion -/

/-- `strStart` is `n` further on, and only the chains and the hash may have changed besides. -/
def Shifted (n : Nat) (s t : State) : Prop := t = { s with
  mf := { s.mf with strStart := s.mf.strStart + n, insH := t.mf.insH }
  mem := { s.mem with head := t.mem.head, prev := t.mem.prev } }

theorem Shifted.trans {n k : Nat} {s t u : State} (h : Shifted n s t) (h' : Shifted k t u) : Shifted (n + k) s u := by
  rw [Shifted] at h h' ⊢
  rw [h', h]
  dsimp only
  rw [Nat.add_assoc]

theorem Shifted.moved {n : Nat} {s t : State} (h : Shifted n s t) : Moved s t := by
  rw [Moved, show t = _ from h]

theorem Shifted.start {n : Nat} {s t : State} (h : Shifted n s t) : t.mf.strStart = s.mf.strStart + n := by
  rw [show t = _ from h]

theorem insertString_wp {pos : Nat} {s : State} (legal : s.cfg.legal = true) : Wp (insertString pos)
    (fun _ => ¬ pos + 2 < s.cfg.windowBytes) (fun r t => t = inserted pos s ∧ r = (s.mem.head.read (hashAt s pos).toNat).toNat) s := by
  by_cases inside : pos + 2 < s.cfg.windowBytes
  · exact (wp_of_ok (insertString_run_of_legal legal inside)).2 ⟨rfl, rfl⟩
  · refine (wp_true_iff.2 fun r t run => ?_).mono (fun _ _ => inside) fun _ _ => id
    obtain ⟨same, answer, -⟩ := insertString_ok run
    exact ⟨same, answer⟩

/-- What the insertion at the top of a round leaves: a chain head to start from, and the chain behind it. -/
structure Placed (head : Nat) (s t : State) : Prop where
  shifted : Shifted 0 s t
  small : head < 65536
  below : EntriesBelow s.mf.strStart s → head ≠ 0 → head < s.mf.strStart ∧ ∀ i, (t.mem.prev.read i).toNat < s.mf.strStart

theorem read_below {a : Arr 16} {bound : Nat} (below : ∀ p ∈ a, p.2.toNat < bound) (some : 0 < bound) (i : Nat) :
    (a.read i).toNat < bound := by
  by_cases zero : a.read i = 0
  · rw [zero]
    exact some
  · exact below _ (Arr.read_ne_zero_mem zero)

theorem insertHere_wp {s : State} (legal : s.cfg.legal = true) : Wp insertHere
    (fun _ => ¬ s.mf.strStart + s.mf.lookAhead ≤ s.cfg.windowBytes) (fun head t => Placed head s t) s := by
  have three : MIN_MATCH = 3 := rfl
  unfold insertHere
  rw [wp_state, wp_ite]
  refine ⟨fun long => ?_, fun _ => wp_pure.2 ⟨rfl, by decide, fun _ h => absurd rfl h⟩⟩
  refine (insertString_wp legal).mono (fun _ => mt fun window => by omega) ?_
  rintro r t ⟨rfl, rfl⟩
  refine ⟨rfl, BitVec.isLt _, fun entries nonzero => ?_⟩
  have before : (s.mem.head.read (hashAt s s.mf.strStart).toNat).toNat < s.mf.strStart :=
    entries.1 _ (Arr.read_ne_zero_mem fun zero => nonzero (by rw [zero]; rfl))
  refine ⟨before, read_below (fun p mem => ?_) (by omega)⟩
  obtain ⟨rfl, -⟩ | old := Arr.mem_write mem
  · exact before
  · exact entries.2 p old

/-! ### The search -/

/-- `matchStart` and `matchLength` tell a match at `strStart` whose source is in the window, within reach, and equal. -/
def Hit (v : State) : Prop := ∃ m : Nat, v.mf.matchStart.toInt = m ∧ m < v.mf.strStart ∧ v.mf.strStart ≤ m + v.cfg.maxDist
  ∧ v.mf.matchLength ≤ 258 ∧ v.mf.matchLength ≤ v.mf.lookAhead
  ∧ ∀ k, k < v.mf.matchLength → v.mem.win.read (v.mf.strStart + k) = v.mem.win.read (m + k)

theorem toInt_ofNat32 {m : Nat} (small : m < 65536) : (BitVec.ofNat 32 m).toInt = (m : Int) := by
  have value : (BitVec.ofNat 32 m).toNat = m := by rw [BitVec.toNat_ofNat, Nat.mod_eq_of_lt (by omega)]
  rw [BitVec.toInt_eq_toNat_of_lt (by omega), value]

theorem searchFrom_wp (head : Nat) (u : State) : Wp (searchFrom head) (fun _ => ¬ Searchable u head)
    (fun _ v => v = { u with mf := { u.mf with matchLength := v.mf.matchLength, matchStart := v.mf.matchStart } }
      ∧ (head < 65536 → head < u.mf.strStart → u.mf.strStart ≤ head + u.cfg.maxDist →
          (∀ i, (u.mem.prev.read i).toNat < u.mf.strStart) → v.mf.matchLength ≤ u.mf.prevLength ∨ Hit v)) u := by
  unfold searchFrom
  rw [wp_bind]
  refine ((longestMatch_wp u head).post fun len t run _ => ?_).mono (fun _ => id) fun _ _ => id
  refine wp_update.2 ?_
  obtain ⟨rfl, rfl⟩ | ⟨m, rfl, real⟩ := longestMatch_ok run
  · exact ⟨rfl, fun _ _ _ _ => .inl (Nat.min_le_left _ _)⟩
  · refine ⟨rfl, fun small before near entries => .inr ?_⟩
    obtain ⟨-, size, look, agrees, place⟩ := real
    have inside : m < 65536 ∧ m < u.mf.strStart ∧ u.mf.strStart ≤ m + u.cfg.maxDist := by
      obtain rfl | ⟨within, i, rfl⟩ := place
      · exact ⟨small, before, near⟩
      · exact ⟨BitVec.isLt _, entries i, by omega⟩
    exact ⟨m, toInt_ofNat32 inside.1, inside.2.1, inside.2.2, size, look, agrees⟩

/-! ### Passing a match (R285) -/

theorem skipFast_wp {s : State} (legal : s.cfg.legal = true) : Wp skipFast
    (fun _ => ¬ s.mf.strStart + 3 < s.cfg.windowBytes) (fun _ t => Shifted 1 s t) s := by
  unfold skipFast advance
  rw [wp_bind]
  refine wp_update.2 ?_
  rw [wp_state, wp_bind]
  refine (insertString_wp (s := s.setMf { s.mf with strStart := s.mf.strStart + 1 }) legal).mono (fun _ => id) ?_
  rintro r t ⟨rfl, -⟩
  exact wp_pure.2 rfl

/-- The driver's `strStart + 1`. -/
theorem shifted_advance (n : Nat) (s : State) : Shifted n s (s.setMf { s.mf with strStart := s.mf.strStart + n }) := rfl

theorem fastPass_wp {len : Nat} {s : State} (legal : s.cfg.legal = true) (some : 1 ≤ len) : Wp (fastPass len)
    (fun _ => ¬ s.mf.strStart + len + s.mf.lookAhead ≤ s.cfg.windowBytes) (fun _ t => Shifted len s t) s := by
  have three : MIN_MATCH = 3 := rfl
  unfold fastPass advance
  rw [wp_state, wp_ite]
  refine ⟨fun long => ?_, fun _ => ?_⟩
  · rw [wp_bind]
    refine wp_times (P := fun j t => Shifted j s t) (fun j hj t moved => ?_) rfl fun t moved => ?_
    · have cfg : t.cfg = s.cfg := by rw [show t = _ from moved]
      refine (skipFast_wp (cfg ▸ legal)).mono (fun _ => mt fun window => ?_) fun _ u next => moved.trans next
      rw [moved.start, cfg]
      omega
    · refine wp_update.2 ?_
      have whole := moved.trans (shifted_advance 1 t)
      rwa [Nat.sub_add_cancel some] at whole
  · rw [wp_bind]
    exact wp_update.2 (wp_update.2 rfl)

/-! ### The token of a round -/

/-- A token of `fastToken`: of distance `d` and byte or length `lc`, with `n` bytes passed. -/
structure FastToken (d lc n : Nat) (b : Bool) (v w : State) : Prop where
  near : d ≤ v.cfg.maxDist
  room : v.tok.lastLit < v.cfg.litBufferSize
  ends : b = (tallied d lc v).blockEnds
  moved : Moved (tallied d lc v) w
  start : w.mf.strStart = v.mf.strStart + n
  look : w.mf.lookAhead + n = v.mf.lookAhead
  short : w.mf.matchLength < 3
  prevLength : w.mf.prevLength = v.mf.prevLength
  isMatch : 3 ≤ v.mf.matchLength → (d : Int) = (v.mf.strStart : Int) - v.mf.matchStart.toInt ∧ n = v.mf.matchLength ∧ lc + 3 = n
  isLiteral : v.mf.matchLength < 3 → d = 0 ∧ n = 1 ∧ lc = (v.mem.win.read v.mf.strStart).toNat

/-- What `fastToken` needs to come to its end. -/
structure TokenAble (v : State) : Prop where
  room : v.tok.lastLit < v.cfg.litBufferSize
  some : 1 ≤ v.mf.lookAhead
  window : v.mf.strStart + v.mf.lookAhead ≤ v.cfg.windowBytes
  hit : 3 ≤ v.mf.matchLength → Hit v

theorem tallyLiteral_wp {i : Nat} {s : State} (legal : s.cfg.legal = true) : Wp (tallyLiteral i)
    (fun _ => ¬ (s.tok.lastLit < s.cfg.litBufferSize ∧ i < s.cfg.windowBytes))
    (fun b t => s.tok.lastLit < s.cfg.litBufferSize ∧ t = tallied 0 (s.mem.win.read i).toNat s ∧ b = t.blockEnds) s := by
  unfold tallyLiteral
  rw [wp_bind]
  by_cases inside : i < s.cfg.windowBytes
  · refine (wp_of_ok (by rw [readWin_run, if_pos inside])).2 ?_
    have byte : (s.mem.win.read i).toNat ≤ 255 := Nat.le_of_lt_succ (BitVec.isLt _)
    refine (tally_wp legal).mono (fun _ => mt fun able => ⟨able.1, Int.le_refl _, Int.natCast_nonneg _, byte⟩) ?_
    rintro b t ⟨room, d, zero, -, rfl, rfl⟩
    obtain rfl : d = 0 := by omega
    exact ⟨room, rfl, rfl⟩
  · exact (wp_of_error (by rw [readWin_run, if_neg inside])).2 fun able => inside able.2

theorem takeLook_wp {n : Nat} {s : State} : Wp (takeLook n) (fun _ => ¬ n ≤ s.mf.lookAhead)
    (fun _ t => n ≤ s.mf.lookAhead ∧ t = s.setMf { s.mf with lookAhead := s.mf.lookAhead - n }) s := by
  by_cases enough : n ≤ s.mf.lookAhead
  · exact (wp_of_ok (by rw [takeLook_run, if_pos enough])).2 ⟨enough, rfl⟩
  · exact (wp_of_error (by rw [takeLook_run, if_neg enough])).2 enough

theorem fastToken_wp {v : State} (legal : v.cfg.legal = true) :
    Wp fastToken (fun _ => ¬ TokenAble v) (fun b w => ∃ d lc n, FastToken d lc n b v w) v := by
  have three : MIN_MATCH = 3 := rfl
  unfold fastToken
  rw [wp_state, wp_ite]
  refine ⟨fun long => ?_, fun short => ?_⟩
  · unfold fastMatch
    rw [wp_state, wp_bind]
    refine (tally_wp legal).mono (fun _ => mt fun able => ?_) ?_
    · obtain ⟨m, start, before, reach, size, -⟩ := able.hit long
      exact ⟨able.room, by omega, by omega, by omega⟩
    rintro b _ ⟨room, d, dist, near, rfl, rfl⟩
    rw [wp_bind]
    refine takeLook_wp.mono (fun _ => mt fun able => ?_) ?_
    · obtain ⟨m, -, -, -, -, look, -⟩ := able.hit long
      exact look
    rintro - _ ⟨enough, rfl⟩
    have enough : v.mf.matchLength ≤ v.mf.lookAhead := enough
    have some : 1 ≤ v.mf.matchLength := by omega
    rw [wp_bind]
    refine (fastPass_wp (s := (tallied d _ v).setMf { v.mf with lookAhead := v.mf.lookAhead - v.mf.matchLength }) legal some).mono (fun _ => mt fun able => ?_) fun _ t shifted => ?_
    · have window := able.window
      change v.mf.strStart + v.mf.matchLength + (v.mf.lookAhead - v.mf.matchLength) ≤ v.cfg.windowBytes
      omega
    rw [wp_bind]
    refine wp_update.2 (wp_pure.2 ⟨d, v.mf.matchLength - MIN_MATCH, v.mf.matchLength, near, room, rfl, ?_, shifted.start, ?_,
      Nat.zero_lt_succ 2, ?_, fun _ => ⟨dist.symm, rfl, by omega⟩, fun h => absurd long (by omega)⟩)
    · rw [Moved, show t = _ from shifted]
      rfl
    · rw [show t = _ from shifted]
      exact Nat.sub_add_cancel enough
    · rw [show t = _ from shifted]
      rfl
  · unfold fastLiteral advance
    rw [wp_state, wp_bind]
    refine (tallyLiteral_wp legal).mono (fun _ => mt fun able => ⟨able.room, ?_⟩) ?_
    · have := able.window
      have := able.some
      omega
    rintro b _ ⟨room, rfl, rfl⟩
    rw [wp_bind]
    refine takeLook_wp.mono (fun _ => mt TokenAble.some) ?_
    rintro - _ ⟨enough, rfl⟩
    rw [wp_bind]
    refine wp_update.2 (wp_pure.2 ⟨0, _, 1, Nat.zero_le _, room, rfl, rfl, rfl, Nat.sub_add_cancel enough, Nat.lt_of_not_le short,
      rfl, fun h => absurd h short, fun _ => ⟨rfl, rfl, rfl⟩⟩)

/-! ### A round -/

/-- What the top of the greedy driver's loop keeps. -/
structure FastTop (s : State) : Prop where
  some : 1 ≤ s.mf.lookAhead
  short : s.mf.matchLength < 3
  prevLength : s.mf.prevLength = 2
  below : EntriesBelow s.mf.strStart s

/-- What a round that appends a token needs besides to come to its end. -/
structure StepAble (s : State) : Prop where
  level : s.cfg.level ≠ 0
  memory : s.MemoryOk
  tokened : Tokened s
  counted : s.Counted
  acc : s.bp.Ok
  unbounded : s.unbounded
  order : WindowOrder s

/-- The bytes a token of FAST stands for. -/
structure FastRound (d lc : Nat) (s t : State) : Prop where
  byte : lc ≤ 255
  win : t.mem.win = s.mem.win
  short : t.mf.matchLength < 3
  prevLength : t.mf.prevLength = 2
  isLiteral : d = 0 → lc = (s.mem.win.read s.mf.strStart).toNat ∧ t.mf.strStart = s.mf.strStart + 1 ∧ t.mf.lookAhead + 1 = s.mf.lookAhead
  isMatch : d ≠ 0 → d ≤ s.mf.strStart ∧ t.mf.strStart = s.mf.strStart + (lc + 3) ∧ t.mf.lookAhead + (lc + 3) = s.mf.lookAhead
    ∧ ∀ k, k < lc + 3 → s.mem.win.read (s.mf.strStart + k) = s.mem.win.read (s.mf.strStart + k - d)

/-- The block can be ended after the token of a round. -/
theorem StepAble.closable {d lc : Nat} {s v w : State} (able : StepAble s) (legal : s.cfg.legal = true) (before : Moved s v)
    (near : d ≤ s.cfg.maxDist) (byte : lc ≤ 255) (moved : Moved (tallied d lc v) w) (memory : w.MemoryOk)
    (ahead : s.mf.strStart ≤ w.mf.strStart) (window : w.mf.strStart ≤ s.cfg.windowBytes) : Closable w := by
  obtain ⟨-, m, tokened, counted, acc, unbounded, order⟩ := able
  have counted := tallied_counted legal m tokened near byte counted
  obtain ⟨mf, head, prev, rfl, block⟩ : ∃ mf head prev, v = { s with mf := mf, mem := { s.mem with head := head, prev := prev } }
      ∧ mf.blockStart = s.mf.blockStart := ⟨_, _, _, before, by rw [show v = _ from before]⟩
  obtain ⟨mf', head', prev', rfl, block'⟩ : ∃ mf' head' prev', w = { tallied d lc s with
      mf := mf', mem := { (tallied d lc s).mem with head := head', prev := prev' } } ∧ mf'.blockStart = mf.blockStart :=
    ⟨_, _, _, moved, by rw [show w = _ from moved]; rfl⟩
  have room : s.tok.lastLit + 1 ≤ s.cfg.litBufferSize := Nat.le_of_lt tokened.1
  have ahead : s.mf.strStart ≤ mf'.strStart := ahead
  refine ⟨memory, acc, unbounded, window, ?_, room, counted⟩
  have := order.2
  change mf'.blockStart ≤ (mf'.strStart : Int)
  omega

/-- The search of a round, after the insertion: `head` is where the chain starts. -/
structure FastSearched (s v : State) : Prop where
  moved : Moved s v
  start : v.mf.strStart = s.mf.strStart
  look : v.mf.lookAhead = s.mf.lookAhead
  prevLength : v.mf.prevLength = s.mf.prevLength
  hit : FastTop s → 3 ≤ v.mf.matchLength → Hit v

theorem fastSearch_wp {head : Nat} {s u : State} (legal : s.cfg.legal = true) (placed : Placed head s u) :
    Wp (Op.when (head ≠ 0 ∧ u.mf.strStart ≤ head + u.cfg.maxDist ∧ u.cfg.strategy ≠ HUFFMAN_ONLY) (searchFrom head))
      (fun _ => ¬ (FastTop s ∧ StepAble s)) (fun _ v => FastSearched s v) u := by
  obtain ⟨shifted, small, below⟩ := placed
  have slots := (sizes_of_legal legal).wSize_low
  obtain ⟨insH, heads, prevs, rfl⟩ : ∃ insH heads prevs, u = { s with
      mf := { s.mf with insH := insH }, mem := { s.mem with head := heads, prev := prevs } } := ⟨_, _, _, shifted⟩
  rw [wp_when]
  refine ⟨fun search => ?_, fun _ => ⟨rfl, rfl, rfl, rfl, fun top long => ?_⟩⟩
  · refine (searchFrom_wp head _).mono (fun _ => mt fun ⟨top, able⟩ => ?_) fun _ v ⟨frame, found⟩ => ?_
    · obtain ⟨before, entries⟩ := below top.below search.1
      exact ⟨Nat.lt_of_lt_of_le (by decide) slots, able.order.1, before, entries⟩
    · refine ⟨by rw [Moved, frame], by rw [frame], by rw [frame], by rw [frame], fun top long => ?_⟩
      obtain ⟨before, entries⟩ := below top.below search.1
      refine (found small before search.2.1 entries).resolve_left fun le => ?_
      have := top.prevLength
      have le : v.mf.matchLength ≤ s.mf.prevLength := le
      omega
  · exact absurd long (Nat.not_le.2 top.short)

theorem FastSearched.tokenAble {s v : State} (h : FastSearched s v) (top : FastTop s) (able : StepAble s) : TokenAble v := by
  obtain ⟨moved, start, look, -, hit⟩ := h
  have tok : v.tok = s.tok ∧ v.cfg = s.cfg := by rw [show v = _ from moved]; exact ⟨rfl, rfl⟩
  have room := able.tokened.1
  refine ⟨by rw [tok.1, tok.2]; omega, by rw [look]; exact top.some, by rw [start, look, tok.2]; exact able.order.1, hit top⟩

/-- What a round's token stands for. -/
theorem FastToken.round {d lc n : Nat} {b : Bool} {s v w : State} (token : FastToken d lc n b v w) (searched : FastSearched s v)
    (top : FastTop s) : FastRound d lc s w := by
  obtain ⟨-, -, -, moved', start', look', short, prevLength', isMatch, isLiteral⟩ := token
  obtain ⟨moved, start, look, prevLength, hit⟩ := searched
  have win : v.mem.win = s.mem.win := by rw [show v = _ from moved]
  have win' : w.mem.win = v.mem.win := by rw [show w = _ from moved']; rfl
  rw [start] at start'
  rw [look] at look'
  by_cases long : 3 ≤ v.mf.matchLength
  · obtain ⟨m, source, before, reach, size, within, agrees⟩ := hit top long
    obtain ⟨dist, rfl, length⟩ := isMatch long
    rw [start] at before dist
    have value : d = s.mf.strStart - m := by omega
    refine ⟨by omega, win'.trans win, short, prevLength'.trans (prevLength.trans top.prevLength), fun zero => by omega, fun _ => ?_⟩
    rw [length]
    refine ⟨by omega, start', look', fun k hk => ?_⟩
    have same := agrees k hk
    rw [win, start] at same
    rw [same, show s.mf.strStart + k - d = m + k by omega]
  · obtain ⟨rfl, rfl, byte⟩ := isLiteral (Nat.lt_of_not_le long)
    rw [win, start] at byte
    refine ⟨?_, win'.trans win, short, prevLength'.trans (prevLength.trans top.prevLength), fun _ => ⟨byte, start', look'⟩,
      fun h => absurd rfl h⟩
    rw [byte]
    exact Nat.le_of_lt_succ (BitVec.isLt _)

theorem fastStep_wp {s : State} (legal : s.cfg.legal = true) (level : s.cfg.level ≠ 0) :
    Wp fastStep (fun _ => ¬ (FastTop s ∧ StepAble s))
      (fun _ t => ∃ d lc, OneToken d lc t.mf.strStart s t ∧ (FastTop s → FastRound d lc s t)) s := by
  unfold fastStep
  rw [wp_bind]
  refine ((insertHere_wp legal).post fun head u run placed => ?_).mono (fun _ => mt fun h => h.2.order.1) fun _ _ => id
  have inside₁ := insertHere_keeps.ok run
  rw [wp_state, wp_bind]
  refine (fastSearch_wp legal placed).post fun _ v run searched => ?_
  have inside₂ := Inside.order.trans inside₁ ((Op.keeps_when Inside.order (searchFrom_keeps head)).ok run)
  rw [wp_bind]
  refine ((fastToken_wp (inside₂.cfg ▸ legal)).post fun b w run token => ?_).mono
    (fun _ => mt fun h => searched.tokenAble h.1 h.2) fun _ _ => id
  have inside₃ := Inside.order.trans inside₂ (fastToken_keeps.ok run)
  obtain ⟨d, lc, n, token⟩ := token
  have round := fun top => token.round searched top
  have near : d ≤ s.cfg.maxDist := inside₂.cfg ▸ token.near
  have ahead : s.mf.strStart ≤ w.mf.strStart := by rw [token.start, searched.start]; exact Nat.le_add_right _ _
  have sum : w.mf.strStart + w.mf.lookAhead = s.mf.strStart + s.mf.lookAhead := by
    have := token.start
    have := token.look
    have := searched.start
    have := searched.look
    omega
  rw [wp_bind, token.ends]
  refine (flushIf_wp (inside₃.cfg ▸ legal) (inside₃.cfg ▸ level) _).mono (fun _ => mt fun ⟨top, able⟩ => ?_) fun _ t flushed => ?_
  · have window := able.order.1
    exact able.closable legal searched.moved near (round top).byte token.moved (inside₃.memory able.memory) ahead (by omega)
  have one := oneToken_of_flushed searched.moved near token.moved flushed
  have quiet : t.mf.strStart = w.mf.strStart ∧ t.mf.lookAhead = w.mf.lookAhead ∧ t.mem.win = w.mem.win
      ∧ t.mf.matchLength = w.mf.matchLength ∧ t.mf.prevLength = w.mf.prevLength
      ∧ (w.mf.blockStart ≤ (w.mf.strStart : Int) → t.mf.blockStart ≤ (t.mf.strStart : Int)) := by
    split at flushed
    · rw [flushed.frame]
      exact ⟨rfl, rfl, rfl, rfl, rfl, fun _ => Int.le_refl _⟩
    · subst flushed
      exact ⟨rfl, rfl, rfl, rfl, rfl, id⟩
  obtain ⟨start, look, win, matchLength, prevLength, block⟩ := quiet
  rw [wp_bind]
  unfold checkWindow
  rw [wp_state, wp_require]
  refine ⟨fun _ => wp_pure.2 ⟨d, lc, start ▸ one, fun top => ?_⟩, mt fun ⟨top, able⟩ => ?_⟩
  · obtain ⟨byte, win', short, two, isLiteral, isMatch⟩ := round top
    exact ⟨byte, win.trans win', matchLength ▸ short, prevLength.trans two, start ▸ look ▸ isLiteral, start ▸ look ▸ isMatch⟩
  · have cfg := one.cfg
    have order := able.order
    have same : w.mf.blockStart = s.mf.blockStart := by
      rw [show w = _ from token.moved, show v = _ from searched.moved]
      rfl
    refine ⟨by rw [start, look, cfg, sum]; exact order.1, block ?_⟩
    have := order.2
    omega

/-- Settles O38. -/
theorem fastStepIsLossless : Obligations.FastStepIsLossless := by
  intro s t legal row fast m short prevLength some heads prevs run
  have level : s.cfg.level ≠ 0 := fun zero => by
    rw [row, zero] at fast
    exact absurd fast (by decide)
  have top : FastTop s := ⟨some, short, prevLength, heads, prevs⟩
  obtain ⟨d, lc, one, round⟩ := (fastStep_wp legal level).ok run
  obtain ⟨byte, win, -, -, isLiteral, isMatch⟩ := round top
  obtain ⟨readD, readLc⟩ := one.reads legal m
  have small : (BitVec.ofNat 8 lc).toNat = lc := by rw [BitVec.toNat_ofNat, Nat.mod_eq_of_lt (by omega)]
  rw [readD, readLc]
  dsimp only
  rw [small]
  refine ⟨win, one.added, fun literal => ?_, fun copy => ⟨one.near, isMatch copy⟩⟩
  obtain ⟨value, moves⟩ := isLiteral literal
  exact ⟨BitVec.eq_of_toNat_eq (small.trans value), moves⟩

end Sys2Proof.Proofs
end

section
/-! A round of the lazy driver, as what it comes to and what it leaves: what it holds back, or one token for what it held
back (41_match_finder.md R290). -/

namespace Sys2Proof.Proofs

open Sys2Proof.Machine Sys2Proof.Claims

/-! ### What a round holds back -/

/-- What the top of the lazy driver's loop keeps. -/
structure SlowTop (s : State) : Prop where
  some : 1 ≤ s.mf.lookAhead
  below : EntriesBelow s.mf.strStart s
  held : s.HeldOk

/-- The state before the decision of a round: the match held back is the previous one, and the search has been made. -/
structure SlowSearched (s v : State) : Prop where
  moved : Moved s v
  start : v.mf.strStart = s.mf.strStart
  look : v.mf.lookAhead = s.mf.lookAhead
  prevLength : v.mf.prevLength = s.mf.matchLength
  prevMatch : v.mf.prevMatch = s.mf.matchStart
  available : v.mf.matchAvailable = s.mf.matchAvailable
  found : EntriesBelow s.mf.strStart s → 3 ≤ v.mf.matchLength → v.mf.matchLength ≤ v.mf.prevLength ∨ Hit v

/-- The lazy driver's previous match. -/
def rolled (u : State) : State :=
  u.setMf { u.mf with prevLength := u.mf.matchLength, prevMatch := u.mf.matchStart, matchLength := MIN_MATCH - 1 }

theorem slowSearch_wp {head : Nat} {s u : State} (legal : s.cfg.legal = true) (placed : Placed head s u) :
    Wp (slowSearch head) (fun _ => ¬ (SlowTop s ∧ StepAble s)) (fun _ v => SlowSearched s v) (rolled u) := by
  obtain ⟨shifted, small, below⟩ := placed
  have slots := (sizes_of_legal legal).wSize_low
  obtain ⟨insH, heads, prevs, rfl⟩ : ∃ insH heads prevs, u = { s with
      mf := { s.mf with insH := insH }, mem := { s.mem with head := heads, prev := prevs } } := ⟨_, _, _, shifted⟩
  have none : ∀ v, v = rolled { s with mf := { s.mf with insH := insH }, mem := { s.mem with head := heads, prev := prevs } } →
      SlowSearched s v := by
    rintro v rfl
    exact ⟨rfl, rfl, rfl, rfl, rfl, rfl, fun _ long => absurd (show 3 ≤ 2 from long) (by decide)⟩
  have dropped : ∀ v, SlowSearched s v → SlowSearched s v.dropShort := fun v h => by
    unfold State.dropShort
    split
    · obtain ⟨moved, start, look, prevLength, prevMatch, available, -⟩ := h
      exact ⟨by rw [Moved, show v = _ from moved]; rfl, start, look, prevLength, prevMatch, available,
        fun _ long => absurd (show 3 ≤ 2 from long) (by decide)⟩
    · exact h
  unfold slowSearch
  rw [wp_state, wp_when]
  refine ⟨fun search => ?_, fun _ => none _ rfl⟩
  rw [wp_bind, wp_when]
  refine ⟨fun _ => ?_, fun _ => wp_update.2 (dropped _ (none _ rfl))⟩
  refine (searchFrom_wp head _).mono (fun _ => mt fun ⟨top, able⟩ => ?_) fun _ v ⟨frame, found⟩ => wp_update.2 (dropped v ?_)
  · obtain ⟨before, entries⟩ := below top.below search.1
    exact ⟨Nat.lt_of_lt_of_le (by decide) slots, able.order.1, before, entries⟩
  · refine ⟨by rw [Moved, frame]; rfl, by rw [frame]; rfl, by rw [frame]; rfl, by rw [frame]; rfl, by rw [frame]; rfl,
      by rw [frame]; rfl, fun entries _ => ?_⟩
    obtain ⟨before, prevs⟩ := below entries search.1
    have same : v.mf.prevLength = s.mf.matchLength := by rw [frame]; rfl
    rw [same]
    exact found small before search.2.2 prevs

/-! ### The decision -/

/-- What a round has done with `v`, which came from `s`. -/
inductive SlowDecided (s v t : State) : Prop
  /-- The match held back is a token. -/
  | commit (d lc : Nat) (long : 3 ≤ v.mf.prevLength) (one : OneToken d lc t.mf.strStart s t) (win : t.mem.win = v.mem.win)
      (dist : (d : Int) = (v.mf.strStart : Int) - 1 - v.mf.prevMatch.toInt) (length : lc + 3 = v.mf.prevLength)
      (start : t.mf.strStart + 1 = v.mf.strStart + v.mf.prevLength) (look : t.mf.lookAhead + v.mf.prevLength = v.mf.lookAhead + 1)
      (short : t.mf.matchLength < 3) (available : t.mf.matchAvailable = false)
  /-- The byte held back is a token, the one at `strStart` is held back. -/
  | literal (lc : Nat) (better : 3 ≤ v.mf.prevLength → v.mf.prevLength < v.mf.matchLength) (held : v.mf.matchAvailable = true)
      (inside : 1 ≤ v.mf.strStart) (one : OneToken 0 lc v.mf.strStart s t) (win : t.mem.win = v.mem.win)
      (byte : lc = (v.mem.win.read (v.mf.strStart - 1)).toNat)
      (start : t.mf.strStart = v.mf.strStart + 1) (look : t.mf.lookAhead + 1 = v.mf.lookAhead)
      (length : t.mf.matchLength = v.mf.matchLength) (source : t.mf.matchStart = v.mf.matchStart)
      (available : t.mf.matchAvailable = true)
  /-- The byte at `strStart` is held back. -/
  | defer (better : 3 ≤ v.mf.prevLength → v.mf.prevLength < v.mf.matchLength) (free : v.mf.matchAvailable = false)
      (some : 1 ≤ v.mf.lookAhead)
      (frame : t = { v with mf := { v.mf with
        matchAvailable := true, strStart := v.mf.strStart + 1, lookAhead := v.mf.lookAhead - 1 } })

theorem skipSlow_wp {fence : Nat} {s : State} (legal : s.cfg.legal = true) : Wp (skipSlow fence)
    (fun _ => ¬ fence ≤ s.cfg.windowBytes) (fun _ t => Shifted 1 s t) s := by
  have three : MIN_MATCH = 3 := rfl
  unfold skipSlow advance
  rw [wp_bind]
  refine wp_update.2 ?_
  rw [wp_state, wp_when]
  refine ⟨fun inside => ?_, fun _ => rfl⟩
  rw [wp_bind]
  refine (insertString_wp (s := s.setMf { s.mf with strStart := s.mf.strStart + 1 }) legal).mono (fun _ => mt fun window => ?_) ?_
  · change s.mf.strStart + 1 + 2 < s.cfg.windowBytes
    have inside : s.mf.strStart + 1 + 3 ≤ fence := inside
    omega
  · rintro r t ⟨rfl, -⟩
    exact wp_pure.2 rfl

/-- The tally of the lazy driver's match, and the passing of what is left of it. -/
def commitMatch : Op Bool := do
  let s ← Op.state
  let bflush ← tally ((s.mf.strStart : Int) - 1 - s.mf.prevMatch.toInt) (s.mf.prevLength - MIN_MATCH)
  takeLook (s.mf.prevLength - 1)
  Op.times (s.mf.prevLength - 2) (skipSlow (s.mf.strStart + s.mf.lookAhead))
  Op.update fun u => u.setMf { u.mf with
    prevLength := 0, matchAvailable := false, matchLength := MIN_MATCH - 1, strStart := u.mf.strStart + 1 }
  pure bflush

theorem slowCommit_run (s : State) : slowCommit.run s = (commitMatch >>= flushIf).run s := by
  unfold slowCommit commitMatch
  simp only [bind_assoc, pure_bind]

theorem commitMatch_keeps : Op.Keeps Inside commitMatch :=
  Op.keeps_bind Inside.order (Op.keeps_state Inside.order) fun _ =>
    Op.keeps_bind Inside.order (tally_keeps _ _) fun _ =>
      Op.keeps_bind Inside.order (takeLook_keeps _) fun _ =>
        Op.keeps_bind Inside.order (Op.keeps_times Inside.order (skipSlow_keeps _) _) fun _ =>
          Op.keeps_bind Inside.order (updateMf_keeps _) fun _ => Op.keeps_pure Inside.order _

/-- What the commit of a match leaves, before the block may end. -/
structure Committed (d lc : Nat) (b : Bool) (v w : State) : Prop where
  near : d ≤ v.cfg.maxDist
  ends : b = (tallied d lc v).blockEnds
  moved : Moved (tallied d lc v) w
  dist : (d : Int) = (v.mf.strStart : Int) - 1 - v.mf.prevMatch.toInt
  length : lc + 3 = v.mf.prevLength
  start : w.mf.strStart + 1 = v.mf.strStart + v.mf.prevLength
  look : w.mf.lookAhead + v.mf.prevLength = v.mf.lookAhead + 1
  short : w.mf.matchLength < 3
  available : w.mf.matchAvailable = false

/-- What the commit of a match needs. -/
structure CommitAble (v : State) : Prop where
  room : v.tok.lastLit < v.cfg.litBufferSize
  window : v.mf.strStart + v.mf.lookAhead ≤ v.cfg.windowBytes
  size : v.mf.prevLength ≤ 258
  look : v.mf.prevLength ≤ v.mf.lookAhead + 1
  before : v.mf.prevMatch.toInt + 1 < (v.mf.strStart : Int)
  reach : (v.mf.strStart : Int) - 1 - v.mf.prevMatch.toInt ≤ (v.cfg.maxDist : Int)

theorem commitMatch_wp {v : State} (legal : v.cfg.legal = true) (long : 3 ≤ v.mf.prevLength) : Wp commitMatch
    (fun _ => ¬ CommitAble v) (fun b w => ∃ d lc, Committed d lc b v w) v := by
  have three : MIN_MATCH = 3 := rfl
  unfold commitMatch
  rw [wp_state, wp_bind]
  refine (tally_wp legal).mono (fun _ => mt fun able => ?_) ?_
  · obtain ⟨room, -, size, -, before, reach⟩ := able
    exact ⟨room, by omega, reach, by omega⟩
  rintro b _ ⟨room, d, dist, near, rfl, rfl⟩
  rw [wp_bind]
  refine takeLook_wp.mono (fun _ => mt fun able => ?_) ?_
  · have look := able.look
    change v.mf.prevLength - 1 ≤ v.mf.lookAhead
    omega
  rintro - _ ⟨enough, rfl⟩
  have enough : v.mf.prevLength - 1 ≤ v.mf.lookAhead := enough
  rw [wp_bind]
  refine wp_times (s := (tallied d _ v).setMf { v.mf with lookAhead := v.mf.lookAhead - (v.mf.prevLength - 1) })
    (P := fun j t => Shifted j ((tallied d _ v).setMf { v.mf with lookAhead := v.mf.lookAhead - (v.mf.prevLength - 1) }) t)
    (fun j _ t moved => ?_) rfl fun t moved => ?_
  · have cfg : t.cfg = v.cfg := by rw [show t = _ from moved]; rfl
    exact (skipSlow_wp (cfg ▸ legal)).mono (fun _ => mt fun able => cfg ▸ able.window) fun _ u next => moved.trans next
  · rw [wp_bind]
    have start := moved.start
    refine wp_update.2 (wp_pure.2 ⟨d, v.mf.prevLength - MIN_MATCH, near, rfl, ?_, dist.symm, by omega, ?_, ?_, Nat.lt_succ_self 2, rfl⟩)
    · rw [Moved, show t = _ from moved]
      rfl
    · change t.mf.strStart + 1 + 1 = _
      have start : t.mf.strStart = v.mf.strStart + (v.mf.prevLength - 2) := start
      omega
    · have look : t.mf.lookAhead = v.mf.lookAhead - (v.mf.prevLength - 1) := by rw [show t = _ from moved]; rfl
      change t.mf.lookAhead + _ = _
      omega

theorem flushIf_frame {b : Bool} {w t : State} (flushed : if b = true then Flushed w t else t = w) :
    t = { w with mf := { w.mf with blockStart := t.mf.blockStart }, tok := t.tok, hb := t.hb, bp := t.bp,
                 mem := { w.mem with out := t.mem.out } } := by
  split at flushed
  · have frame := flushed.frame
    rw [frame]
  · subst flushed
    rfl

theorem tallyDeferred_wp {s : State} (legal : s.cfg.legal = true) : Wp tallyDeferred
    (fun _ => ¬ (s.tok.lastLit < s.cfg.litBufferSize ∧ 1 ≤ s.mf.strStart ∧ s.mf.strStart ≤ s.cfg.windowBytes))
    (fun b t => 1 ≤ s.mf.strStart ∧ t = tallied 0 (s.mem.win.read (s.mf.strStart - 1)).toNat s ∧ b = t.blockEnds) s := by
  unfold tallyDeferred
  rw [wp_state, wp_bind, wp_require]
  refine ⟨fun inside => ?_, mt fun able => able.2.1⟩
  exact (tallyLiteral_wp legal).mono (fun _ => mt fun able => ⟨able.1, by omega⟩) fun b t h => ⟨inside, h.2⟩

section
variable {s v : State} (legal : s.cfg.legal = true) (level : s.cfg.level ≠ 0) (inside : Inside s v) (searched : SlowSearched s v)
include legal level inside searched

theorem slowCommit_wp (long : 3 ≤ v.mf.prevLength) : Wp slowCommit (fun _ => ¬ (SlowTop s ∧ StepAble s))
    (fun _ t => SlowDecided s v t) v := by
  have legal' : v.cfg.legal = true := inside.cfg ▸ legal
  obtain ⟨moved, start, look, prevLength, prevMatch, available, -⟩ := searched
  have tok : v.tok = s.tok := by rw [show v = _ from moved]
  rw [wp_congr (slowCommit_run v), wp_bind]
  refine ((commitMatch_wp legal' long).post fun b w run committed => ?_).mono (fun _ => mt fun ⟨top, able⟩ => ?_) fun _ _ => id
  · obtain ⟨d, lc, committed⟩ := committed
    obtain ⟨near, ends, moved', dist, length, start', look', short, available'⟩ := committed
    have inside' := Inside.order.trans inside (commitMatch_keeps.ok run)
    have near' : d ≤ s.cfg.maxDist := inside.cfg ▸ near
    subst ends
    refine (flushIf_wp (inside'.cfg ▸ legal) (inside'.cfg ▸ level) _).mono (fun _ => mt fun ⟨top, able⟩ => ?_) fun _ t flushed => ?_
    · have window := able.order.1
      have held : 3 ≤ s.mf.matchLength := prevLength ▸ long
      obtain ⟨-, isHeld⟩ := top.held
      have taken : s.mf.matchAvailable = true := by
        by_contra free
        have := top.held.1 (Bool.eq_false_iff.2 free)
        omega
      obtain ⟨size, -⟩ := (isHeld taken).2 held
      exact able.closable legal moved near' (by omega) moved' (inside'.memory able.memory) (by omega) (by omega)
    · have frame := flushIf_frame flushed
      have one := oneToken_of_flushed moved near' moved' flushed
      have same : t.mf.strStart = w.mf.strStart := by rw [frame]
      refine .commit d lc long (same ▸ one) ?_ dist length (by rw [same]; exact start') (by rw [frame]; exact look')
        (by rw [frame]; exact short) (by rw [frame]; exact available')
      rw [frame]
      change w.mem.win = v.mem.win
      rw [show w = _ from moved']
      rfl
  · have held : 3 ≤ s.mf.matchLength := prevLength ▸ long
    have taken : s.mf.matchAvailable = true := by
      by_contra free
      have := top.held.1 (Bool.eq_false_iff.2 free)
      omega
    obtain ⟨size, within, before, reach⟩ := (top.held.2 taken).2 held
    have room := able.tokened.1
    refine ⟨?_, ?_, ?_, ?_, ?_, ?_⟩
    · rw [tok, inside.cfg]; omega
    · rw [start, look, inside.cfg]; exact able.order.1
    · rw [prevLength]; exact size
    · rw [prevLength, look]; exact within
    · rw [prevMatch, start]; exact before
    · rw [prevMatch, start, inside.cfg]; exact reach

theorem slowLiteral_wp (better : 3 ≤ v.mf.prevLength → v.mf.prevLength < v.mf.matchLength) (held : v.mf.matchAvailable = true) :
    Wp slowLiteral (fun _ => ¬ (SlowTop s ∧ StepAble s)) (fun _ t => SlowDecided s v t) v := by
  have legal' : v.cfg.legal = true := inside.cfg ▸ legal
  obtain ⟨moved, start, look, prevLength, prevMatch, available, -⟩ := searched
  have tok : v.tok = s.tok := by rw [show v = _ from moved]
  unfold slowLiteral advance
  rw [wp_bind]
  refine ((tallyDeferred_wp legal').post fun b w run tallied => ?_).mono (fun _ => mt fun ⟨top, able⟩ => ?_) fun _ _ => id
  · obtain ⟨within, rfl, rfl⟩ := tallied
    have inside' := Inside.order.trans inside (tallyDeferred_keeps.ok run)
    have byte : (v.mem.win.read (v.mf.strStart - 1)).toNat ≤ 255 := Nat.le_of_lt_succ (BitVec.isLt _)
    generalize lcEq : (v.mem.win.read (v.mf.strStart - 1)).toNat = lc at *
    rw [wp_bind]
    refine (flushIf_wp (s := tallied 0 lc v) legal' (inside.cfg ▸ level) _).mono (fun _ => mt fun ⟨top, able⟩ => ?_) fun _ t flushed => ?_
    · have window := able.order.1
      exact able.closable legal moved (Nat.zero_le _) byte rfl (inside'.memory able.memory) (Nat.le_of_eq start.symm)
        (by change v.mf.strStart ≤ _; omega)
    · have frame := flushIf_frame flushed
      have one := oneToken_of_flushed moved (Nat.zero_le _) (Moved.order.refl _) flushed
      have tookLook : t.mf.lookAhead = v.mf.lookAhead := by rw [frame]; rfl
      rw [wp_bind]
      refine wp_update.2 (takeLook_wp.mono (fun _ => mt fun ⟨top, _⟩ => ?_) ?_)
      · change 1 ≤ t.mf.lookAhead
        rw [tookLook, look]
        exact top.some
      · rintro - _ ⟨some, rfl⟩
        have some : 1 ≤ t.mf.lookAhead := some
        obtain ⟨near, cfg, dbuf, lbuf, acc, block⟩ := one
        refine .literal lc better held within ⟨near, cfg, dbuf, lbuf, acc, block⟩ ?_ lcEq.symm ?_ ?_ ?_ ?_ ?_
        · rw [frame]; rfl
        · rw [frame]; rfl
        · change t.mf.lookAhead - 1 + 1 = _
          omega
        · rw [frame]; rfl
        · rw [frame]; rfl
        · rw [frame]; exact held
  · have room := able.tokened.1
    have window := able.order.1
    have taken : s.mf.matchAvailable = true := available ▸ held
    refine ⟨by rw [tok, inside.cfg]; omega, by rw [start]; exact (top.held.2 taken).1, by rw [start, inside.cfg]; omega⟩

theorem slowDecide_wp : Wp slowDecide (fun _ => ¬ (SlowTop s ∧ StepAble s)) (fun _ t => SlowDecided s v t) v := by
  unfold slowDecide
  rw [wp_state, wp_ite]
  refine ⟨fun commit => slowCommit_wp legal level inside searched commit.1, fun keep => ?_⟩
  have better : 3 ≤ v.mf.prevLength → v.mf.prevLength < v.mf.matchLength := fun long =>
    Nat.not_le.1 fun le => keep ⟨long, le⟩
  rw [wp_ite]
  refine ⟨slowLiteral_wp legal level inside searched better, fun free => ?_⟩
  unfold slowDefer advance
  rw [wp_bind]
  refine wp_update.2 ?_
  rw [wp_bind]
  refine wp_update.2 (takeLook_wp.mono (fun _ => mt fun ⟨top, _⟩ => ?_) ?_)
  · change 1 ≤ v.mf.lookAhead
    rw [searched.look]
    exact top.some
  · rintro - _ ⟨some, rfl⟩
    exact .defer better (Bool.eq_false_iff.2 free) some rfl

end

/-! ### A round -/

/-- What a round of SLOW has done. -/
def SlowRound (s t : State) : Prop := ∃ v, SlowSearched s v ∧ SlowDecided s v t

theorem SlowRound.tokened {s t : State} (h : SlowRound s t) (legal : s.cfg.legal = true) (m : s.MemoryOk) (tokened : Tokened s) :
    Tokened t := by
  obtain ⟨v, searched, decided⟩ := h
  cases decided with
  | commit d lc long one => exact one.tokened legal m tokened
  | literal lc better held inside one => exact one.tokened legal m tokened
  | defer better free some frame =>
    rw [frame, Tokened, show v = _ from searched.moved]
    exact tokened

theorem SlowRound.counted {s t : State} (h : SlowRound s t) (top : SlowTop s) (legal : s.cfg.legal = true) (m : s.MemoryOk)
    (tokened : Tokened s) (counted : s.Counted) : t.Counted := by
  obtain ⟨v, searched, decided⟩ := h
  cases decided with
  | commit d lc long one win dist length =>
    have held : 3 ≤ s.mf.matchLength := searched.prevLength ▸ long
    have taken : s.mf.matchAvailable = true := by
      by_contra free
      have := top.held.1 (Bool.eq_false_iff.2 free)
      omega
    have size := ((top.held.2 taken).2 held).1
    have := searched.prevLength
    exact one.counted legal m tokened (by omega) counted
  | literal lc better held inside one win byte =>
    exact one.counted legal m tokened (byte ▸ Nat.le_of_lt_succ (BitVec.isLt _)) counted
  | defer better free some frame =>
    rw [frame, State.Counted, show v = _ from searched.moved]
    exact counted

/-- A match that is held back is better than the one before it, so it has just been found. -/
theorem hit_of_held {v : State} (better : 3 ≤ v.mf.prevLength → v.mf.prevLength < v.mf.matchLength) (long : 3 ≤ v.mf.matchLength)
    (found : v.mf.matchLength ≤ v.mf.prevLength ∨ Hit v) : Hit v :=
  found.resolve_left fun le => Nat.not_lt.2 le (better (Nat.le_trans long le))

/-- The match held back after a round is the one found at the byte before `strStart`. -/
theorem SlowRound.held {s t : State} (h : SlowRound s t) (below : EntriesBelow s.mf.strStart s) : DeferredOk t := by
  obtain ⟨v, searched, decided⟩ := h
  have cfg : v.cfg = s.cfg := by rw [show v = _ from searched.moved]
  have kept : (3 ≤ v.mf.prevLength → v.mf.prevLength < v.mf.matchLength) → t.cfg = v.cfg → t.mem.win = v.mem.win →
      t.mf.strStart = v.mf.strStart + 1 → t.mf.lookAhead + 1 = v.mf.lookAhead → t.mf.matchLength = v.mf.matchLength →
      t.mf.matchStart = v.mf.matchStart → t.mf.matchAvailable = true → DeferredOk t := by
    intro better cfg win start look length source available
    refine ⟨fun free => absurd (free.symm.trans available) nofun, fun _ => ⟨by omega, fun long => ?_⟩⟩
    obtain ⟨m, place, before, reach, size, within, agrees⟩ := hit_of_held better (length ▸ long) (searched.found below (length ▸ long))
    rw [length, source, place, cfg, start, win]
    refine ⟨size, by omega, by omega, by omega, by omega, fun k hk => ?_⟩
    rw [Nat.add_sub_cancel]
    exact agrees k hk
  cases decided with
  | commit d lc long one win dist length start look short available =>
    exact ⟨fun _ => short, fun taken => absurd (available.symm.trans taken) nofun⟩
  | literal lc better held inside one win byte start look length source available =>
    exact kept better (one.cfg.trans cfg.symm) win start look length source available
  | defer better free some frame =>
    subst frame
    exact kept better rfl rfl rfl (Nat.sub_add_cancel some) rfl rfl rfl

theorem HeldOk_of_deferred {s : State} (h : DeferredOk s) : s.HeldOk := by
  obtain ⟨free, held⟩ := h
  refine ⟨free, fun taken => ?_⟩
  obtain ⟨inside, isMatch⟩ := held taken
  refine ⟨inside, fun long => ?_⟩
  obtain ⟨size, look, -, before, reach, -⟩ := isMatch long
  exact ⟨size, look, before, reach⟩

theorem slowStep_wp {s : State} (legal : s.cfg.legal = true) (level : s.cfg.level ≠ 0) :
    Wp slowStep (fun _ => ¬ (SlowTop s ∧ StepAble s)) (fun _ t => SlowRound s t) s := by
  unfold slowStep
  rw [wp_bind]
  refine ((insertHere_wp legal).post fun head u run placed => ?_).mono (fun _ => mt fun h => h.2.order.1) fun _ _ => id
  have inside₁ : Inside s (rolled u) := Inside.order.trans (insertHere_keeps.ok run)
    ((updateMf_keeps fun u => { u.mf with prevLength := u.mf.matchLength, prevMatch := u.mf.matchStart, matchLength := MIN_MATCH - 1 }).ok
      (s := u) (a := ()) (t := rolled u) rfl)
  rw [wp_bind]
  refine wp_update.2 ?_
  rw [wp_bind]
  refine (slowSearch_wp legal placed).post fun _ v run searched => ?_
  have inside₂ := Inside.order.trans inside₁ ((slowSearch_keeps head).ok run)
  rw [wp_bind]
  refine (slowDecide_wp legal level inside₂ searched).mono (fun _ => id) fun _ t decided => ?_
  rw [wp_bind]
  unfold checkWindow
  rw [wp_state, wp_require]
  refine ⟨fun _ => wp_pure.2 ⟨v, searched, decided⟩, mt fun ⟨top, able⟩ => ?_⟩
  obtain ⟨window, order⟩ := able.order
  obtain ⟨moved, start, look, -⟩ := searched
  have block : v.mf.blockStart = s.mf.blockStart := by rw [show v = _ from moved]
  cases decided with
  | commit d lc long one win dist length start' look' =>
    rw [one.cfg]
    refine ⟨by omega, ?_⟩
    obtain ⟨-, -, same, -⟩ | ⟨-, same, -⟩ := one.block <;> omega
  | literal lc better held inside one win byte start' look' =>
    rw [one.cfg]
    refine ⟨by omega, ?_⟩
    obtain ⟨-, -, same, -⟩ | ⟨-, same, -⟩ := one.block <;> omega
  | defer better free some frame =>
    subst frame
    change v.mf.strStart + 1 + (v.mf.lookAhead - 1) ≤ v.cfg.windowBytes ∧ v.mf.blockStart ≤ ((v.mf.strStart + 1 : Nat) : Int)
    rw [inside₂.cfg]
    omega

/-- Settles O39. -/
theorem slowStepIsLossless : Obligations.SlowStepIsLossless := by
  intro s t legal row slow m deferred some heads prevs run
  have level : s.cfg.level ≠ 0 := fun zero => by
    rw [row, zero] at slow
    exact absurd slow (by decide)
  have round := (slowStep_wp legal level).ok run
  have held := round.held ⟨heads, prevs⟩
  obtain ⟨v, searched, decided⟩ := round
  obtain ⟨moved, start, look, prevLength, prevMatch, available, -⟩ := searched
  have win : v.mem.win = s.mem.win := by rw [show v = _ from moved]
  cases decided with
  | commit d lc long one win' dist length start' look' short available' =>
    obtain ⟨readD, readLc⟩ := one.reads legal m
    have heldMatch : 3 ≤ s.mf.matchLength := prevLength ▸ long
    have taken : s.mf.matchAvailable = true := by
      by_contra free
      have := deferred.1 (Bool.eq_false_iff.2 free)
      omega
    obtain ⟨inside, isMatch⟩ := deferred.2 taken
    obtain ⟨size, within, positive, before, reach, agrees⟩ := isMatch heldMatch
    have small : (BitVec.ofNat 8 lc).toNat = lc := by rw [BitVec.toNat_ofNat, Nat.mod_eq_of_lt (by omega)]
    rw [prevMatch] at dist
    have copy : d ≠ 0 := by omega
    rw [readD, readLc]
    dsimp only
    rw [small, if_neg copy]
    refine ⟨win'.trans win, by omega, held, fun _ => one.added, fun free => absurd (free.symm.trans taken) nofun,
      fun _ zero => absurd zero copy, fun _ _ => ⟨one.near, by omega, available', by omega, fun k hk => ?_⟩⟩
    rw [agrees k (by omega)]
    congr 1
    omega
  | literal lc better heldByte inside one win' byte start' look' length source available' =>
    obtain ⟨readD, readLc⟩ := one.reads legal m
    have taken : s.mf.matchAvailable = true := available ▸ heldByte
    rw [readD, readLc]
    dsimp only
    rw [if_pos rfl]
    refine ⟨win'.trans win, by omega, held, fun _ => start ▸ one.added, fun free => absurd (free.symm.trans taken) nofun,
      fun _ _ => ⟨?_, by omega, available'⟩, fun _ copy => absurd rfl copy⟩
    rw [byte, win, start, BitVec.ofNat_toNat, BitVec.setWidth_eq]
  | defer better free some frame =>
    subst frame
    have free : s.mf.matchAvailable = false := available ▸ free
    have none : ∀ {p : Prop}, s.mf.matchAvailable = true → p := fun taken => absurd (free.symm.trans taken) nofun
    refine ⟨win, ?_, held, none, fun _ => ⟨?_, ?_, ?_, rfl⟩, none, none⟩
    · change v.mf.strStart + 1 + (v.mf.lookAhead - 1) = _
      omega
    · change v.tok = s.tok
      rw [show v = _ from moved]
    · change v.mf.blockStart = _
      rw [show v = _ from moved]
    · change v.mf.strStart + 1 = _
      rw [start]

end Sys2Proof.Proofs
end

section
/-! What a driver keeps of the token buffer and of the match state, and that a COMPRESS in a session that meets the invariants
comes to its end (40_host_commands.md R205, R207 to R211, 60_exceptions.md R500). -/

namespace Sys2Proof.Proofs

open Sys2Proof.Machine Sys2Proof.Claims

/-! ### The token buffer (R45 to R48, R272) -/

theorem level_ne_zero {s : State} {d : Driver} (row : s.ct = ctRow s.cfg.level) (driver : s.ct.driver = d) (matching : d ≠ .stored) :
    s.cfg.level ≠ 0 := fun zero => matching (driver.symm.trans (stored_of_level_zero row zero))

/-- A round of STORED leaves the tokens as they are, or a fresh block. -/
theorem storedStep_tokens {s t : State} (run : storedStep.run s = .ok .again t) :
    BlockFresh t ∨ (t.tok = s.tok ∧ t.hb = s.hb ∧ t.mem.dbuf = s.mem.dbuf ∧ t.mem.lbuf = s.mem.lbuf ∧ t.cfg = s.cfg) := by
  have ended := (storedStep_ok run).1
  split at ended
  · exact .inl (flushBlock_ok ended).1.blockFresh
  · subst ended
    exact .inr ⟨rfl, rfl, rfl, rfl, rfl⟩

theorem fill_tokens {s t : State} (legal : s.cfg.legal = true) (run : fillWindow.run s = .ok () t) :
    t.tok = s.tok ∧ t.hb = s.hb ∧ t.mem.dbuf = s.mem.dbuf ∧ t.mem.lbuf = s.mem.lbuf ∧ t.cfg = s.cfg := by
  rw [fillWindow_eq_filled legal run, filled_frame s]
  exact ⟨rfl, rfl, rfl, rfl, rfl⟩

theorem Tokened.of_same {s t : State} (h : Tokened s) (same : t.tok = s.tok ∧ t.hb = s.hb ∧ t.cfg = s.cfg) : Tokened t := by
  obtain ⟨tok, hb, cfg⟩ := same
  rw [Tokened, tok, hb, cfg]
  exact h

theorem counted_of_same {s t : State} (h : s.Counted) (same : t.tok = s.tok ∧ t.hb = s.hb ∧ t.mem.dbuf = s.mem.dbuf
    ∧ t.mem.lbuf = s.mem.lbuf ∧ t.cfg = s.cfg) : t.Counted := by
  obtain ⟨tok, hb, dbuf, lbuf, cfg⟩ := same
  rw [State.Counted, tok, hb, dbuf, lbuf, cfg]
  exact h

theorem stepOf_tokened {d : Driver} {s t : State} (legal : s.cfg.legal = true) (level : d ≠ .stored → s.cfg.level ≠ 0)
    (m : s.MemoryOk) (tokened : Tokened s) (run : (stepOf d).run s = .ok .again t) : Tokened t := by
  have cfg := ((stepOf_keeps d).ok run).cfg
  cases d with
  | stored =>
    obtain fresh | ⟨tok, hb, -, -, cfg⟩ := storedStep_tokens run
    · exact tokened_of_fresh (cfg ▸ legal) fresh
    · exact tokened.of_same ⟨tok, hb, cfg⟩
  | fast =>
    obtain ⟨d, lc, one, -⟩ := (fastStep_wp legal (level nofun)).ok run
    exact one.tokened legal m tokened
  | slow => exact ((slowStep_wp legal (level nofun)).ok run).tokened legal m tokened

theorem drive_tokened {f : BitVec 3} {s t : State} {r : DriveResult} (legal : s.cfg.legal = true) (row : s.ct = ctRow s.cfg.level)
    (m : s.MemoryOk) (tokened : Tokened s) (run : (drive f).run s = .ok r t) : Tokened t := by
  have done := (drive_done run).1
  have cfg := ((drive_keeps f).ok run).cfg
  by_cases noFlush : f = NO_FLUSH
  · obtain ⟨l, u, loop, -, closing⟩ := drive_inv run
    rw [closing.noFlush noFlush]
    refine (loop_keeps (P := fun v => Inside s v ∧ Tokened v) (fun v w ⟨inside, tokened⟩ fill => ?_)
      (fun v w ⟨inside, tokened⟩ _ step => ?_) ⟨Inside.order.refl s, tokened⟩ loop).2
    · obtain ⟨tok, hb, -, -, cfg⟩ := fill_tokens (inside.cfg ▸ legal) fill
      exact ⟨Inside.order.trans inside (fillWindow_keeps.ok fill), tokened.of_same ⟨tok, hb, cfg⟩⟩
    · refine ⟨Inside.order.trans inside ((stepOf_keeps _).ok step), ?_⟩
      exact stepOf_tokened (inside.cfg ▸ legal) (fun matching => inside.cfg ▸ level_ne_zero row rfl matching) (inside.memory m) tokened step
  · exact tokened_of_fresh (cfg ▸ legal) (done.boundary noFlush).2

theorem tokensInvariant : SessionInvariant (fun s => s.MemoryOk ∧ s.ModeOk) State.TokensOk where
  closed _ closed session := absurd session closed
  fresh c s legal _ := tokened_of_fresh (s := opened c s) legal ⟨rfl, rfl, rfl, rfl, rfl, rfl, rfl⟩
  port _ _ h := h
  emptied _ h := h
  emits s t emits h session := by
    rw [emits.frame] at session ⊢
    exact h session
  compressed f c s r t mode busy pre h run := by
    obtain rfl | ⟨d, u, -, drv, ending⟩ := compressBusy_cases run
    · exact fun _ => h (.inl busy)
    · intro _
      obtain ⟨-, cfg, -, tok, hb⟩ := ending.mf
      obtain ⟨m, modeOk⟩ := pre
      obtain ⟨-, legal, row⟩ := modeOk.1 (.inl busy)
      exact (drive_tokened (s := started f c s) legal row m (h (.inl busy)) drv).of_same ⟨tok, hb, cfg⟩

/-- Settles O60. -/
theorem stepKeepsTokens : Obligations.StepKeepsTokens := fun _ _ m mode tokens run =>
  tokensInvariant.step (fun _ _ => id) run ⟨m, mode⟩ tokens

/-! ### The match state (R252, R285, R290) -/

/-- What the top of every driver's loop keeps. -/
structure LoopTop (d : Driver) (s : State) : Prop where
  tokened : Tokened s
  counted : s.Counted
  below : EntriesBelow s.mf.strStart s
  fast : d = .fast → s.mf.matchLength < 3 ∧ s.mf.prevLength = 2
  slow : d = .slow → s.HeldOk

theorem LoopTop.fastTop {s : State} (h : LoopTop .fast s) (some : s.mf.lookAhead ≠ 0) : FastTop s :=
  ⟨Nat.one_le_iff_ne_zero.2 some, (h.fast rfl).1, (h.fast rfl).2, h.below⟩

theorem LoopTop.slowTop {s : State} (h : LoopTop .slow s) (some : s.mf.lookAhead ≠ 0) : SlowTop s :=
  ⟨Nat.one_le_iff_ne_zero.2 some, h.below, h.slow rfl⟩

theorem filled_match (s : State) : (filled s).mf.matchLength = s.mf.matchLength ∧ (filled s).mf.prevLength = s.mf.prevLength
    ∧ (filled s).mf.matchAvailable = s.mf.matchAvailable ∧ (filled s).mf.matchStart = (slidIf s).mf.matchStart := by
  have slid : (slidIf s).mf.matchLength = s.mf.matchLength ∧ (slidIf s).mf.prevLength = s.mf.prevLength
      ∧ (slidIf s).mf.matchAvailable = s.mf.matchAvailable := by
    unfold slidIf
    split <;> exact ⟨rfl, rfl, rfl⟩
  obtain ⟨length, prevLength, available⟩ := slid
  unfold filled
  generalize s.fillRoom = room
  split
  · exact ⟨length, prevLength, available, rfl⟩
  · dsimp only
    split <;> exact ⟨length, prevLength, available, rfl⟩

/-- A compaction takes a match held back along with `strStart`. -/
theorem filled_held {s : State} (legal : s.cfg.legal = true) (h : s.HeldOk) : (filled s).HeldOk := by
  obtain ⟨free, held⟩ := h
  obtain ⟨length, -, available, source⟩ := filled_match s
  obtain ⟨start, -, cfg, look⟩ := filled_registers s
  have sizes := sizes_of_legal legal
  have low := sizes.wSize_low
  have high := sizes.wSize_high
  have dist := sizes.maxDist
  have due := mustSlide_iff s
  rw [State.HeldOk, length, available, source, start, cfg, look]
  refine ⟨free, fun taken => ?_⟩
  obtain ⟨inside, isMatch⟩ := held taken
  unfold slidIf
  split
  · next slides =>
    have far := due.1 slides
    have moved : (slid s).mf.strStart = s.mf.strStart - s.cfg.wSize := rfl
    rw [moved]
    refine ⟨by omega, fun long => ?_⟩
    obtain ⟨size, within, before, reach⟩ := isMatch long
    have rebased : (slid s).mf.matchStart.toInt = s.mf.matchStart.toInt - (s.cfg.wSize : Int) := rebaseMatch_toInt (by omega)
    rw [rebased]
    exact ⟨size, by omega, by omega, by omega⟩
  · refine ⟨inside, fun long => ?_⟩
    obtain ⟨size, within, before, reach⟩ := isMatch long
    exact ⟨size, by omega, before, reach⟩

theorem LoopTop.filled {d : Driver} {s : State} (legal : s.cfg.legal = true) (h : LoopTop d s) : LoopTop d (filled s) := by
  obtain ⟨tokened, counted, below, fast, slow⟩ := h
  obtain ⟨length, prevLength, -⟩ := filled_match s
  have start := (filled_registers s).1
  have chains : EntriesBelow (slidIf s).mf.strStart (slidIf s) := by
    refine (slidIf_below below (Nat.le_refl _)).mono ?_
    have : (slidIf s).mf.strStart ≤ s.mf.strStart := by rw [slidIf_strStart]; split <;> omega
    omega
  have frame := filled_frame s
  refine ⟨tokened.of_same (by rw [frame]; exact ⟨rfl, rfl, rfl⟩), counted_of_same counted (by rw [frame]; exact ⟨rfl, rfl, rfl, rfl, rfl⟩), ?_,
    fun isFast => by rw [length, prevLength]; exact fast isFast, fun isSlow => filled_held legal (slow isSlow)⟩
  rw [start]
  exact chains.of_same (by rw [frame]) (by rw [frame])

theorem stepOf_top {d : Driver} {s t : State} (legal : s.cfg.legal = true) (level : d ≠ .stored → s.cfg.level ≠ 0)
    (m : s.MemoryOk) (h : LoopTop d s) (some : s.mf.lookAhead ≠ 0) (run : (stepOf d).run s = .ok .again t) : LoopTop d t := by
  have tokened := stepOf_tokened legal level m h.tokened run
  have below : EntriesBelow t.mf.strStart t := (stepOf_passes run).elim fun _ passes =>
    passes.below _ (Nat.le_refl _) (h.below.mono (by have := passes.start; omega))
  cases d with
  | stored =>
    refine ⟨tokened, ?_, below, nofun, nofun⟩
    obtain fresh | same := storedStep_tokens run
    · exact counted_of_fresh fresh
    · exact counted_of_same h.counted same
  | fast =>
    obtain ⟨d, lc, one, round⟩ := (fastStep_wp legal (level nofun)).ok run
    have round := round (h.fastTop some)
    exact ⟨tokened, one.counted legal m h.tokened round.byte h.counted, below, fun _ => ⟨round.short, round.prevLength⟩, nofun⟩
  | slow =>
    have round := (slowStep_wp legal (level nofun)).ok run
    exact ⟨tokened, round.counted (h.slowTop some) legal m h.tokened h.counted, below, nofun,
      fun _ => HeldOk_of_deferred (round.held h.below)⟩

/-- The state where a driver's loop ends has what its top keeps. -/
theorem loop_top {f : BitVec 3} {s u : State} {l : LoopStep} {n : Nat} (legal : s.cfg.legal = true) (row : s.ct = ctRow s.cfg.level)
    (m : s.MemoryOk) (h : LoopTop s.ct.driver s) (loop : (Op.iterate (roundOf f s.ct.driver) n).run s = .ok l u) :
    LoopTop s.ct.driver u := by
  refine (loop_keeps (P := fun v => Inside s v ∧ LoopTop s.ct.driver v) (fun v w ⟨inside, top⟩ fill => ?_)
    (fun v w ⟨inside, top⟩ some step => ?_) ⟨Inside.order.refl s, h⟩ loop).2
  · refine ⟨Inside.order.trans inside (fillWindow_keeps.ok fill), ?_⟩
    rw [fillWindow_eq_filled (inside.cfg ▸ legal) fill]
    exact top.filled (inside.cfg ▸ legal)
  · exact ⟨Inside.order.trans inside ((stepOf_keeps _).ok step), stepOf_top (inside.cfg ▸ legal)
      (fun matching => inside.cfg ▸ level_ne_zero row rfl matching) (inside.memory m) top some step⟩

theorem flushDeferred_registers {s t : State} (run : flushDeferred.run s = .ok () t) : t.mf.matchLength = s.mf.matchLength
    ∧ t.mf.matchAvailable = false := by
  unfold flushDeferred at run
  rw [Op.state_bind] at run
  by_cases held : s.mf.matchAvailable = true
  · rw [Op.when_pos held] at run
    obtain ⟨b, u, tallied, last⟩ := Op.bind_inv run
    cases last
    refine ⟨?_, rfl⟩
    change u.mf.matchLength = _
    rw [(tallies_tallyDeferred s b u tallied).mf]
  · rw [Op.when_neg held] at run
    cases run
    exact ⟨rfl, Bool.eq_false_iff.2 held⟩

theorem drive_top {f : BitVec 3} {s t : State} {r : DriveResult} (legal : s.cfg.legal = true) (row : s.ct = ctRow s.cfg.level)
    (m : s.MemoryOk) (h : LoopTop s.ct.driver s) (run : (drive f).run s = .ok r t) : LoopTop s.ct.driver t := by
  have tokened := drive_tokened legal row m h.tokened run
  have boundary := (drive_done run).1.boundary
  obtain ⟨l, u, loop, done, closing⟩ := drive_inv run
  have top := loop_top legal row m h loop
  by_cases noFlush : f = NO_FLUSH
  · rw [closing.noFlush noFlush]
    exact top
  · obtain ⟨start, -, head, prev⟩ := closing.quiet
    obtain ⟨v, deferred, flush⟩ := closing.flush noFlush
    have mf : t.mf = { v.mf with blockStart := (v.mf.strStart : Int) } := by rw [(flushBlock_ok flush).1.frame]
    refine ⟨tokened, counted_of_fresh (boundary noFlush).2, start ▸ top.below.of_same head prev, fun isFast => ?_, fun isSlow => ?_⟩
    · rw [if_neg (by rw [isFast]; exact nofun)] at deferred
      subst deferred
      rw [mf]
      exact top.fast isFast
    · rw [if_pos isSlow] at deferred
      obtain ⟨length, available⟩ := flushDeferred_registers deferred
      have empty : u.mf.lookAhead = 0 := done.used (.inl noFlush)
      obtain ⟨free, held⟩ := top.slow isSlow
      rw [State.HeldOk, mf]
      refine ⟨fun _ => ?_, fun taken => absurd (available.symm.trans taken) nofun⟩
      change v.mf.matchLength < 3
      rw [length]
      by_cases taken : u.mf.matchAvailable = true
      · by_contra long
        have := ((held taken).2 (Nat.not_lt.1 long)).2.1
        omega
      · exact free (Bool.eq_false_iff.2 taken)

/-- The match state and the counts of an open session. -/
def MatchOk (s : State) : Prop := s.SearchOk ∧ s.CountsOk

theorem loopTop_of_match {s : State} (session : s.isOpen) (tokens : s.TokensOk) (h : MatchOk s) : LoopTop s.ct.driver s := by
  obtain ⟨search, counts⟩ := h
  obtain ⟨below, fast, slow⟩ := search session
  exact ⟨tokens session, counts session, below, fast, slow⟩

theorem matchInvariant : SessionInvariant (fun s => (s.MemoryOk ∧ s.ModeOk) ∧ s.TokensOk) MatchOk where
  closed _ closed := ⟨fun session => absurd session closed, fun session => absurd session closed⟩
  fresh c s _ := ⟨fun _ => ⟨⟨nofun, nofun⟩, fun _ => ⟨Nat.lt_succ_self 2, rfl⟩, fun _ => ⟨fun _ => Nat.lt_succ_self 2, nofun⟩⟩,
    fun _ => counted_of_fresh (s := opened c s) ⟨rfl, rfl, rfl, rfl, rfl, rfl, rfl⟩⟩
  port _ _ h := h
  emptied _ h := h
  emits s t emits h := by
    rw [emits.frame]
    exact h
  compressed f c s r t mode busy pre h run := by
    obtain rfl | ⟨d, u, -, drv, ending⟩ := compressBusy_cases run
    · exact ⟨fun _ => h.1 (.inl busy), fun _ => h.2 (.inl busy)⟩
    · obtain ⟨⟨m, modeOk⟩, tokens⟩ := pre
      obtain ⟨-, legal, row⟩ := modeOk.1 (.inl busy)
      have top := loopTop_of_match (.inl busy) tokens h
      obtain ⟨tokened, counted, below, fast, slow⟩ := drive_top (s := started f c s) legal row m
        ⟨top.tokened, top.counted, top.below, top.fast, top.slow⟩ drv
      obtain ⟨mf, cfg, ct, tok, hb⟩ := ending.mf
      have sameCt : t.ct = s.ct := ct.trans ((drive_keeps f).ok drv).ct
      have frame := ending.frame.1
      refine ⟨fun _ => ?_, fun _ => counted_of_same counted ⟨tok, hb, by rw [frame], by rw [frame], cfg⟩⟩
      rw [sameCt, mf, State.HeldOk, mf, cfg]
      refine ⟨⟨fun p hp => ?_, fun p hp => ?_⟩, fast, slow⟩
      · rw [frame] at hp
        change p ∈ (if f = FULL_FLUSH then [] else u.mem.head) at hp
        split at hp
        · cases hp
        · exact below.1 p hp
      · rw [frame] at hp
        exact below.2 p hp

/-! ### Drivers come to their end -/

theorem windowOrder_of_check {s t : State} (run : checkWindow.run s = .ok () t) : WindowOrder t := by
  rw [checkWindow_run] at run
  split at run <;> cases run
  assumption

theorem stepOf_windowOrder {d : Driver} {s t : State} {l : LoopStep} (run : (stepOf d).run s = .ok l t) : WindowOrder t := by
  cases d with
  | stored => exact (storedStep_ok run).2
  | fast =>
    change fastStep.run s = _ at run
    unfold fastStep at run
    obtain ⟨head, u, -, run⟩ := Op.bind_inv run
    rw [Op.state_bind] at run
    obtain ⟨⟨⟩, v, -, run⟩ := Op.bind_inv run
    obtain ⟨b, w, -, run⟩ := Op.bind_inv run
    obtain ⟨⟨⟩, x, -, run⟩ := Op.bind_inv run
    obtain ⟨⟨⟩, y, check, last⟩ := Op.bind_inv run
    cases last
    exact windowOrder_of_check check
  | slow =>
    change slowStep.run s = _ at run
    unfold slowStep at run
    obtain ⟨head, u, -, run⟩ := Op.bind_inv run
    rw [Op.update_bind] at run
    obtain ⟨⟨⟩, v, -, run⟩ := Op.bind_inv run
    obtain ⟨⟨⟩, w, -, run⟩ := Op.bind_inv run
    obtain ⟨⟨⟩, x, check, last⟩ := Op.bind_inv run
    cases last
    exact windowOrder_of_check check

/-- What FAST and SLOW start from to come to their end. -/
structure MatchStart (s : State) : Prop where
  legal : s.cfg.legal = true
  level : s.cfg.level ≠ 0
  row : s.ct = ctRow s.cfg.level
  unbounded : s.unbounded
  memory : s.MemoryOk

/-- What their loop keeps. -/
structure MatchRun (s v : State) : Prop where
  inside : Inside s v
  top : LoopTop s.ct.driver v
  order : WindowOrder v
  acc : v.bp.Ok

section
variable {s v : State} (start : MatchStart s) (h : MatchRun s v)
include start h

theorem MatchRun.able : StepAble v :=
  ⟨h.inside.cfg ▸ start.level, h.inside.memory start.memory, h.top.tokened, h.top.counted, h.acc, by
    rw [State.unbounded, h.inside.platform]
    exact start.unbounded, h.order⟩

theorem MatchRun.fill : Wp fillWindow (fun _ => False) (fun _ t => MatchRun s t ∧ toCome t = toCome v) v := by
  obtain ⟨inside, top, order, acc⟩ := h
  have legal : v.cfg.legal = true := inside.cfg ▸ start.legal
  have run := fillWindow_run legal order
  have same : (filled v).bp = v.bp := (filled_sink v).1
  exact (wp_of_ok run).2 ⟨⟨Inside.order.trans inside (fillWindow_keeps.ok run), top.filled legal, filled_order order, same ▸ acc⟩,
    toCome_filled v⟩

theorem MatchRun.step (some : v.mf.lookAhead ≠ 0) :
    Wp (stepOf s.ct.driver) (fun _ => False) (fun _ t => MatchRun s t ∧ toCome t < toCome v) v := by
  have able := h.able start
  obtain ⟨inside, top, order, acc⟩ := h
  have legal : v.cfg.legal = true := inside.cfg ▸ start.legal
  have level : v.cfg.level ≠ 0 := inside.cfg ▸ start.level
  have notStored : s.ct.driver ≠ .stored := fun stored => start.level (level_zero_of_stored _ (start.row ▸ stored))
  have ends : ∃ l t, (stepOf s.ct.driver).run v = .ok l t := by
    generalize s.ct.driver = d at *
    cases d with
    | stored => exact absurd rfl notStored
    | fast =>
      obtain ⟨l, t, run, -⟩ := wp_false_iff.1 ((fastStep_wp legal level).mono
        (fun _ stuck => stuck ⟨top.fastTop some, able⟩) fun _ _ => id)
      exact ⟨l, t, run⟩
    | slow =>
      obtain ⟨l, t, run, -⟩ := wp_false_iff.1 ((slowStep_wp legal level).mono
        (fun _ stuck => stuck ⟨top.slowTop some, able⟩) fun _ _ => id)
      exact ⟨l, t, run⟩
  obtain ⟨l, t, run⟩ := ends
  obtain rfl := stepOf_goesOn _ v l t run
  refine (wp_of_ok run).2 ⟨⟨Inside.order.trans inside ((stepOf_keeps _).ok run), ?_, stepOf_windowOrder run, ?_⟩, ?_⟩
  · exact stepOf_top legal (fun _ => level) able.memory top some run
  · exact (works_stepOf _ v _ t run).acc acc
  · exact toCome_step (fun stored => absurd stored notStored) some run

theorem MatchRun.close (f : BitVec 3) {l : LoopStep} (done : LoopDone f (s.ct.driver = .stored) l v) :
    Wp (closeDrive f s.ct.driver l) (fun _ => False) (fun _ _ => True) v := by
  have able := h.able start
  obtain ⟨inside, top, order, acc⟩ := h
  have legal : v.cfg.legal = true := inside.cfg ▸ start.legal
  have level : v.cfg.level ≠ 0 := inside.cfg ▸ start.level
  obtain ⟨-, m, tokened, counted, -, unbounded, -⟩ := able
  have window : v.mf.strStart ≤ v.cfg.windowBytes := by have := order.1; omega
  have room := tokened.1
  refine closeDrive_wp done (fun _ => trivial) fun _ => ?_
  rw [wp_when]
  have closes : ∀ w, w.cfg = v.cfg → Closable w → Wp (flushBlock (if f = FINISH then 1 else 0)) (fun _ => False) (fun _ _ => True) w :=
    fun w cfg closable => (flushBlock_wp (cfg ▸ legal) (cfg ▸ level) _).mono (fun _ stuck => stuck closable) fun _ _ _ => trivial
  refine ⟨fun isSlow => ?_, fun _ => closes v rfl ⟨m, acc, unbounded, window, order.2, Nat.le_of_lt (by omega), counted⟩⟩
  unfold flushDeferred
  rw [wp_state, wp_when]
  refine ⟨fun held => ?_, fun _ => closes v rfl ⟨m, acc, unbounded, window, order.2, Nat.le_of_lt (by omega), counted⟩⟩
  rw [wp_bind]
  have before := ((top.slow isSlow).2 held).1
  refine ((tallyDeferred_wp legal).post fun b w run tallied => ?_).mono (fun _ stuck => stuck ⟨by omega, before, window⟩) fun _ _ => id
  obtain ⟨-, rfl, -⟩ := tallied
  have memory := (tallyDeferred_keeps.ok run).memory m
  have byte : (v.mem.win.read (v.mf.strStart - 1)).toNat ≤ 255 := Nat.le_of_lt_succ (BitVec.isLt _)
  have counted' := tallied_counted legal m tokened (Nat.zero_le _) byte counted
  exact wp_update.2 (closes _ rfl ⟨memory, acc, unbounded, window, order.2, Nat.le_of_lt room, counted'⟩)

end

theorem drive_total {f : BitVec 3} {s : State} (legal : s.cfg.legal = true) (row : s.ct = ctRow s.cfg.level) (unbounded : s.unbounded)
    (m : s.MemoryOk) (order : WindowOrder s) (acc : s.bp.Ok) (top : LoopTop s.ct.driver s)
    (stored : s.cfg.level = 0 → PendingOk s) : ∃ d u, (drive f).run s = .ok d u := by
  by_cases level : s.cfg.level = 0
  · obtain ⟨d, u, run, -⟩ := drive_level_zero ⟨legal, level, row, unbounded, m, order, stored level, acc⟩ f
    exact ⟨d, u, run⟩
  · have start : MatchStart s := ⟨legal, level, row, unbounded, m⟩
    obtain ⟨d, u, run, -⟩ := wp_false_iff.1 (drive_wp (P := MatchRun s) (fun _ h _ => h.fill start) (fun _ h some => h.step start some)
      (fun _ _ h done => h.close start f done) ⟨Inside.order.refl s, top, order, acc⟩)
    exact ⟨d, u, run⟩

end Sys2Proof.Proofs
end

section
/-! Every legal COMPRESS completes in a session that meets the invariants, and so no invariant or resource fault is ever
raised (40_host_commands.md R205, 60_exceptions.md R500). -/

namespace Sys2Proof.Proofs

open Sys2Proof.Machine Sys2Proof.Claims

/-! ### The invariants together -/

/-- The invariants of a session. -/
structure Healthy (s : State) : Prop where
  memory : s.MemoryOk
  mode : s.ModeOk
  window : s.WindowOk
  acc : s.AccOk
  tokens : s.TokensOk
  stored : s.StoredOk
  matching : MatchOk s

theorem healthy_exec {i : Instr} {s t : State} (h : Healthy s) (run : exec i s = .next t) : Healthy t := by
  obtain ⟨memory, mode, window, acc, tokens, stored, matching⟩ := h
  exact ⟨(exec_keeps_memoryForm run).1 memory, exec_modeOk run mode, windowInvariant.exec run trivial window,
    accInvariant.exec run trivial acc, tokensInvariant.exec run ⟨memory, mode⟩ tokens, storedInvariant.exec run mode stored,
    matchInvariant.exec run ⟨⟨memory, mode⟩, tokens⟩ matching⟩

/-- A legal COMPRESS in BUSY comes to its end. -/
theorem Healthy.compresses {f : BitVec 3} {c : List Byte} {s : State} (h : Healthy s) (mode : f ≤ 4) (busy : s.ctl.fsm = .busy)
    (unbounded : s.unbounded) : ∃ t, exec (compressWith f c) s = .next (t.answer (replyOf f))
      ∧ (compressBusy f c).run s = .ok (replyOf f) t := by
  by_cases dup : Duplicate s f c
  · obtain ⟨rfl, previous, notFinish⟩ := dup
    have run := compressBusy_run_of_duplicate previous notFinish
    rw [show okReply = replyOf f from (if_neg notFinish).symm] at run
    refine ⟨_, ?_, run⟩
    rw [exec_compressWith mode, runCommand_of_ok ((compress_run_of_busy mode busy []).trans run)]
  · obtain ⟨memory, modeOk, window, acc, tokens, stored, matching⟩ := h
    obtain ⟨-, legal, row⟩ := modeOk.1 (.inl busy)
    obtain ⟨tokened, counted, below, fast, slow⟩ := loopTop_of_match (.inl busy) tokens matching
    obtain ⟨d, u, run⟩ := drive_total (f := f) (s := started f c s) legal row unbounded memory (window (.inl busy)) (acc (.inl busy))
      ⟨tokened, counted, below, fast, slow⟩ fun level => (stored (.inl busy) level).2
    obtain ⟨t, done, busyRun, -⟩ := exec_of_drive mode busy dup run unbounded ((drive_drives f _ _ _ run).acc (acc (.inl busy)))
    exact ⟨t, done, busyRun⟩

/-- Settles O28. -/
theorem compressCompletes : Obligations.CompressCompletes := by
  intro f chunk s mode busy unbounded memory modeOk window acc tokens stored search counts
  have healthy : Healthy s := ⟨memory, modeOk, window, acc, tokens, stored, search, counts⟩
  obtain ⟨t, done, run⟩ := healthy.compresses (c := chunk) mode busy unbounded
  have session := (compressBusy_session mode chunk).ok run
  obtain ⟨memory, modeOk, window, acc, tokens, stored, search, counts⟩ := healthy_exec healthy done
  refine ⟨_, done, ?_, ?_, session.cfg, session.ct, session.platform, memory, modeOk, window, acc, tokens, stored, search, counts⟩
  · change t.ctl = _
    rw [(compressBusy_ok run).ctl, endCtl, busy]
    rfl
  · change ({ t.port with reply := some (replyOf f) } : Port) = _
    rw [session.port, replyOf_eq]

/-! ### No invariant or resource fault (R500) -/

/-- The fault codes that no command is to raise. -/
def internalCodes : List Nat := [5, 6, 7, 9, 10, 11, 12, 13]

/-- The last result is no FAULT with an internal code. -/
def Harmless (s : State) : Prop := ∀ r, s.port.reply = some r → ∀ code ∈ internalCodes, r.word ≠ BitVec.ofNat 32 (2 + 256 * code)

/-- The words that commands answer with. -/
def harmlessWords : List Word := [0, 1, 0x102, 0x202, 0x302, 0x402, 0x802]

theorem harmlessWords_not_internal : ∀ word ∈ harmlessWords, ∀ code ∈ internalCodes, word ≠ BitVec.ofNat 32 (2 + 256 * code) := by
  simp [harmlessWords, internalCodes]

theorem harmless_of_word {s : State} {word : Word} {data : ReplyData} (reply : s.port.reply = some ⟨word, data⟩)
    (known : word ∈ harmlessWords) : Harmless s := fun r same => by
  rw [reply] at same
  cases same
  exact harmlessWords_not_internal word known

theorem configure_harmless {level method windowBits memLevel : BitVec 4} {strategy : BitVec 2} {s t : State} (unbounded : s.unbounded)
    (run : exec (.configure level method windowBits memLevel strategy) s = .next t) : Harmless t := by
  by_cases legal : LegalOperands level method windowBits memLevel strategy
  · rw [exec_configure_of_legal legal fun cap bounded => nomatch unbounded.symm.trans bounded] at run
    cases run
    exact harmless_of_word rfl (by decide)
  · rw [configureRefused level method windowBits memLevel strategy s legal] at run
    cases run
    exact harmless_of_word rfl (by decide)

theorem compress_harmless {f : BitVec 3} {c : List Byte} {s t : State} (h : Healthy s) (unbounded : s.unbounded) (mode : f ≤ 4)
    (session : s.isOpen) (run : exec (compressWith f c) s = .next t) : Harmless t := by
  obtain busy | finish := session
  · obtain ⟨u, done, -⟩ := h.compresses (c := c) mode busy unbounded
    rw [done] at run
    cases run
    refine harmless_of_word (word := if f = 4 then 1 else 0) (data := .none) ?_ (by split <;> decide)
    rw [← replyOf_eq]
    rfl
  · obtain ⟨-, -, -, after, again⟩ := stateChecks s
    by_cases same : f = 4 ∧ c = []
    · obtain ⟨rfl, rfl⟩ := same
      rw [show compressWith 4 [] = .compressFinish [] from rfl, again finish] at run
      cases run
      exact harmless_of_word rfl (by decide)
    · rw [after f c mode finish same] at run
      cases run
      exact harmless_of_word rfl (by decide)

theorem command_harmless {i : Instr} {s t : State} (h : Healthy s) (unbounded : s.unbounded) (command : IsCommand i)
    (run : exec i s = .next t) : Harmless t := by
  by_cases configure : IsConfigure i
  · obtain ⟨level, method, windowBits, memLevel, strategy, rfl⟩ := configure
    exact configure_harmless unbounded run
  obtain ⟨unconfigured, faulted, badFlush, -⟩ := stateChecks s
  have open_ : s.isOpen ∨ Harmless t := by
    cases fsm : s.ctl.fsm with
    | busy => exact .inl (.inl fsm)
    | finish => exact .inl (.inr fsm)
    | unconfigured =>
      rw [unconfigured i command configure fsm] at run
      cases run
      exact .inr (harmless_of_word rfl (by decide))
    | faulted =>
      rw [faulted i command configure fsm] at run
      cases run
      exact .inr (harmless_of_word rfl (by decide))
  obtain session | harmless := open_
  swap
  · exact harmless
  have bad : ∀ {chunk : List Byte}, i = .compressFlush5 chunk ∨ i = .compressFlush6 chunk ∨ i = .compressFlush7 chunk → Harmless t :=
    fun row => by
      rw [badFlush i _ row session] at run
      cases run
      exact harmless_of_word rfl (by decide)
  cases i with
  | configure a b c d e => exact absurd ⟨a, b, c, d, e, rfl⟩ configure
  | compressNoFlush chunk => exact compress_harmless (f := 0) h unbounded (by decide) session run
  | compressPartialFlush chunk => exact compress_harmless (f := 1) h unbounded (by decide) session run
  | compressSyncFlush chunk => exact compress_harmless (f := 2) h unbounded (by decide) session run
  | compressFullFlush chunk => exact compress_harmless (f := 3) h unbounded (by decide) session run
  | compressFinish chunk => exact compress_harmless (f := 4) h unbounded (by decide) session run
  | compressFlush5 chunk => exact bad (.inl rfl)
  | compressFlush6 chunk => exact bad (.inr (.inl rfl))
  | compressFlush7 chunk => exact bad (.inr (.inr rfl))
  | getBytes =>
    rw [(getBytes s).1 session] at run
    cases run
    exact harmless_of_word rfl (by decide)
  | takeBytes =>
    rw [(takeBytesAndGetCrc.1 s).1 session] at run
    cases run
    exact harmless_of_word rfl (by decide)
  | getCrc =>
    rw [(takeBytesAndGetCrc.2 s).1 session] at run
    cases run
    exact harmless_of_word rfl (by decide)
  | zlibHeader => exact command.elim
  | blockStored => exact command.elim
  | blockStatic => exact command.elim
  | blockDynamic => exact command.elim
  | blockReserved => exact command.elim
  | adlerTrailer => exact command.elim

theorem runAll_harmless {cmds : List Instr} {s t : State} (commands : ∀ i ∈ cmds, IsCommand i) (healthy : Healthy s)
    (unbounded : s.unbounded) (harmless : Harmless s) (run : runAll cmds s = some t) : Harmless t := by
  induction cmds generalizing s with
  | nil =>
    cases run
    exact harmless
  | cons i rest ih =>
    obtain ⟨u, first, run⟩ := Option.bind_eq_some_iff.1 (show (nextOf (exec i s)).bind (runAll rest) = some t from run)
    have next : exec i s = .next u := by
      cases out : exec i s with
      | next v => rw [out] at first; cases first; rfl
      | fault e => rw [out] at first; cases first
      | refused e => rw [out] at first; cases first
    have platform := (everyInstructionFrame i s u next).1
    exact ih (fun j mem => commands j (List.mem_cons_of_mem i mem)) (healthy_exec healthy next)
      (by rw [State.unbounded, platform]; exact unbounded)
      (command_harmless healthy unbounded (commands i List.mem_cons_self) next) run

/-- Settles O29, by induction on the commands. -/
theorem internalFaultsUnreachable : Obligations.InternalFaultsUnreachable := by
  intro cmds t r commands run reply
  obtain ⟨-, -, -, memory, mode, window, acc, tokens, -, stored, search, counts⟩ := resetIsGood
  exact runAll_harmless commands ⟨memory, mode, window, acc, tokens, stored, search, counts⟩ rfl nofun run r reply

end Sys2Proof.Proofs
end

section
/-! The operations that see neither the window nor the input: trees, tokens and bits (42_huffman_builder.md R321 to R337,
43_bit_packer.md R390 to R396, 44_block_controller.md R431 to R443). What such an operation does in one state it does in every
state with the same tokens, trees, accumulator and `OUT`. -/

namespace Sys2Proof.Proofs

open Sys2Proof.Machine Sys2Proof.Claims

section
variable {α β : Type} {φ : State → State} {s : State}

/-- Where `x` comes to its end from `s`, with a result that meets `Q`, `y` does the same from `φ s`, up to `φ`. -/
def Mimics (φ : State → State) (x y : Op α) (s : State) (Q : α → State → Prop) : Prop :=
  ∀ a t, x.run s = .ok a t → y.run (φ s) = .ok a (φ t) ∧ Q a t

theorem Mimics.post {x y : Op α} {Q R : α → State → Prop} (h : Mimics φ x y s Q) (le : ∀ a t, x.run s = .ok a t → Q a t → R a t) :
    Mimics φ x y s R := fun a t run => ⟨(h a t run).1, le a t run (h a t run).2⟩

theorem mimics_pure {Q : α → State → Prop} {a : α} (h : Q a s) : Mimics φ (pure a) (pure a) s Q := fun _ _ run => by
  cases run
  exact ⟨rfl, h⟩

theorem mimics_raise {Q : α → State → Prop} {y : Op α} {f : FaultCode} : Mimics φ (Op.raise f) y s Q := fun _ _ run => nomatch run

theorem mimics_bind {x y : Op α} {k l : α → Op β} {Q : α → State → Prop} {R : β → State → Prop} (hx : Mimics φ x y s Q)
    (hk : ∀ a t, Q a t → Mimics φ (k a) (l a) t R) : Mimics φ (x >>= k) (y >>= l) s R := by
  intro b u run
  obtain ⟨a, t, first, rest⟩ := Op.bind_inv run
  obtain ⟨same, q⟩ := hx a t first
  rw [Op.bind_ok same]
  exact hk a t q b u rest

theorem mimics_read {k l : State → Op α} {Q : α → State → Prop} (h : Mimics φ (k s) (l (φ s)) s Q) :
    Mimics φ (Op.state >>= k) (Op.state >>= l) s Q := h

theorem mimics_update {u v : State → State} {Q : Unit → State → Prop} (h : v (φ s) = φ (u s)) (q : Q () (u s)) :
    Mimics φ (Op.update u) (Op.update v) s Q := fun _ _ run => by
  cases run
  exact ⟨congrArg (EStateM.Result.ok ()) h, q⟩

theorem mimics_require {p q : Prop} [Decidable p] [Decidable q] {f : FaultCode} {Q : Unit → State → Prop} (h : p → q ∧ Q () s) :
    Mimics φ (Op.require p f) (Op.require q f) s Q := by
  unfold Op.require
  by_cases holds : p
  · rw [if_pos holds, if_pos (h holds).1]
    exact mimics_pure (h holds).2
  · rw [if_neg holds]
    exact mimics_raise

theorem mimics_ite {p q : Prop} [Decidable p] [Decidable q] {x y x' y' : Op α} {Q : α → State → Prop} (same : p ↔ q)
    (hx : p → Mimics φ x x' s Q) (hy : ¬ p → Mimics φ y y' s Q) : Mimics φ (if p then x else y) (if q then x' else y') s Q := by
  by_cases holds : p
  · rw [if_pos holds, if_pos (same.1 holds)]
    exact hx holds
  · rw [if_neg holds, if_neg (mt same.2 holds)]
    exact hy holds

theorem mimics_when {p q : Prop} [Decidable p] [Decidable q] {x y : Op Unit} {Q : Unit → State → Prop} (same : p ↔ q)
    (hx : p → Mimics φ x y s Q) (none : ¬ p → Q () s) : Mimics φ (Op.when p x) (Op.when q y) s Q :=
  mimics_ite same hx fun h => mimics_pure (none h)

theorem mimics_forEach {x y : α → Op Unit} {P : State → Prop} {as : List α} (each : ∀ a ∈ as, ∀ t, P t →
    Mimics φ (x a) (y a) t fun _ => P) (start : P s) : Mimics φ (Op.forEach x as) (Op.forEach y as) s fun _ => P := by
  induction as generalizing s with
  | nil => exact mimics_pure start
  | cons a rest ih =>
    rw [Op.forEach_cons, Op.forEach_cons]
    exact mimics_bind (each a List.mem_cons_self s start) fun _ t here =>
      ih (fun b mem => each b (List.mem_cons_of_mem a mem)) here

theorem mimics_times {x y : Op Unit} {P : Nat → State → Prop} {k : Nat} (round : ∀ j, j < k → ∀ t, P j t →
    Mimics φ x y t fun _ u => P (j + 1) u) (start : P 0 s) : Mimics φ (Op.times k x) (Op.times k y) s fun _ t => P k t := by
  suffices rest : ∀ n j t, j + n = k → P j t → Mimics φ (Op.times n x) (Op.times n y) t fun _ u => P k u from
    rest k 0 s (Nat.zero_add k) start
  intro n
  induction n with
  | zero =>
    rintro j t rfl here
    exact mimics_pure here
  | succ n ih =>
    intro j t count here
    rw [Op.times_succ, Op.times_succ]
    exact mimics_bind (round j (by omega) t here) fun _ u next => ih (j + 1) u (by omega) next

end

/-! ### Operations blind to their surroundings -/

/-- The tokens, trees, accumulator and `OUT` of `s` in the surroundings of `o`. -/
def veil (o s : State) : State :=
  { o with cfg := s.cfg, ct := s.ct, tok := s.tok, hb := s.hb, bp := s.bp, platform := s.platform
           mem := { o.mem with dbuf := s.mem.dbuf, lbuf := s.mem.lbuf, out := s.mem.out } }

/-- Whatever surrounds them, `x` does the same to the tokens, trees, accumulator and `OUT`, and leaves the surroundings. -/
def Blind {α : Type} (x : Op α) : Prop := ∀ o s, Mimics (veil o) x x s fun _ _ => True

section
variable {α β : Type}

theorem Blind.run {x : Op α} (h : Blind x) (o : State) {s t : State} {a : α} (run : x.run s = .ok a t) :
    x.run (veil o s) = .ok a (veil o t) := (h o s a t run).1

theorem blind_pure (a : α) : Blind (pure a : Op α) := fun _ _ => mimics_pure trivial

theorem blind_raise {f : FaultCode} : Blind (Op.raise f : Op α) := fun _ _ => mimics_raise

theorem blind_bind {x : Op α} {k : α → Op β} (hx : Blind x) (hk : ∀ a, Blind (k a)) : Blind (x >>= k) :=
  fun o s => mimics_bind (hx o s) fun a t _ => hk a o t

theorem blind_read {k : State → Op β} (same : ∀ o s, k (veil o s) = k s) (hk : ∀ s, Blind (k s)) : Blind (Op.state >>= k) :=
  fun o s => mimics_read (by rw [same]; exact hk s o s)

theorem blind_update {u : State → State} (h : ∀ o s, u (veil o s) = veil o (u s)) : Blind (Op.update u) :=
  fun o s => mimics_update (h o s) trivial

theorem blind_require {p : Prop} [Decidable p] {f : FaultCode} : Blind (Op.require p f) :=
  fun _ _ => mimics_require fun h => ⟨h, trivial⟩

theorem blind_ite {p : Prop} [Decidable p] {x y : Op α} (hx : Blind x) (hy : Blind y) : Blind (if p then x else y) :=
  fun o s => mimics_ite Iff.rfl (fun _ => hx o s) fun _ => hy o s

theorem blind_when {p : Prop} [Decidable p] {x : Op Unit} (hx : Blind x) : Blind (Op.when p x) := blind_ite hx (blind_pure ())

theorem blind_times {x : Op Unit} (hx : Blind x) (k : Nat) : Blind (Op.times k x) :=
  fun o _ => mimics_times (P := fun _ _ => True) (fun _ _ t _ => hx o t) trivial

theorem blind_forEach {x : α → Op Unit} (hx : ∀ a, Blind (x a)) (as : List α) : Blind (Op.forEach x as) :=
  fun o _ => mimics_forEach (P := fun _ => True) (fun a _ t _ => hx a o t) trivial

theorem blind_readAt {w : Nat} (size : Nat) (a : Arr w) (i : Nat) : Blind (Op.readAt size a i) :=
  blind_bind blind_require fun _ => blind_pure _

end

/-- Surrounded by itself a state is as it was. -/
theorem Blind.frame {α : Type} {x : Op α} (h : Blind x) {s t : State} {a : α} (run : x.run s = .ok a t) : t = veil s t := by
  have again := h.run s run
  rw [show veil s s = s from rfl, run] at again
  exact (EStateM.Result.ok.inj again).2

/-! ### Trees -/

theorem blind_addCost (opt static : Int) : Blind (addCost opt static) := blind_update fun _ _ => rfl

theorem blind_buildTree (tree : Tree) : Blind (buildTree tree) := by
  refine blind_read (fun _ _ => rfl) fun s => blind_bind (blind_addCost _ _) fun _ => ?_
  split
  · exact blind_raise
  · exact blind_bind (blind_addCost _ _) fun _ => blind_bind blind_require fun _ => blind_update fun _ _ => rfl

theorem blind_countTree (tree : Tree) (maxCode : Nat) : Blind (countTree tree maxCode) :=
  blind_bind blind_require fun _ => blind_read (fun _ _ => rfl) fun _ => blind_forEach (fun _ =>
    blind_bind blind_require fun _ => blind_update fun _ _ => rfl) _

theorem blind_buildAll : Blind buildAll :=
  blind_bind (blind_buildTree _) fun _ => blind_bind (blind_buildTree _) fun _ => blind_read (fun _ _ => rfl) fun _ =>
    blind_bind (blind_countTree _ _) fun _ => blind_bind (blind_countTree _ _) fun _ => blind_bind (blind_buildTree _) fun _ =>
      blind_bind (blind_update fun _ _ => rfl) fun _ => blind_update fun _ _ => rfl

/-! ### Bits -/

theorem blind_putByte (b : Byte) : Blind (putByte b) :=
  blind_read (fun _ _ => rfl) fun _ => blind_bind blind_require fun _ => blind_update fun _ _ => rfl

theorem blind_putShort (w : BitVec 16) : Blind (putShort w) := blind_bind (blind_putByte _) fun _ => blind_putByte _

theorem blind_sendBits (value length : Nat) : Blind (sendBits value length) := by
  refine blind_bind blind_require fun _ => blind_read (fun _ _ => rfl) fun s => blind_ite ?_ (blind_update fun _ _ => rfl)
  exact blind_bind (blind_update fun _ _ => rfl) fun _ => blind_read (fun _ _ => rfl) fun _ =>
    blind_bind (blind_putShort _) fun _ => blind_update fun _ _ => rfl

theorem blind_sendDiff (a b length : Nat) : Blind (sendDiff a b length) := blind_bind blind_require fun _ => blind_sendBits _ _

theorem blind_biWindup : Blind biWindup := by
  have bytes : ∀ bp, Blind (windupBytes bp) := fun bp => blind_ite (blind_putShort _) (blind_when (blind_putByte _))
  exact blind_read (fun _ _ => rfl) fun _ => blind_bind (bytes _) fun _ => blind_update fun _ _ => rfl

/-! ### Block bodies and headers -/

theorem blind_sendCode (set : CodeSet) (tree : Tree) (c : Nat) : Blind (sendCode set tree c) :=
  blind_bind blind_require fun _ => blind_read (fun _ _ => rfl) fun _ => blind_sendBits _ _

theorem blind_sendExtra (v base n : Nat) : Blind (sendExtra v base n) := blind_ite (blind_pure ()) (blind_sendDiff _ _ _)

theorem blind_sendToken (set : CodeSet) (i : Nat) : Blind (sendToken set i) := by
  have dbuf : Blind (readDbuf i) := blind_read (fun _ _ => rfl) fun _ => blind_readAt _ _ _
  have lbuf : Blind (readLbuf i) := blind_read (fun _ _ => rfl) fun _ => blind_readAt _ _ _
  exact blind_bind dbuf fun _ => blind_bind lbuf fun _ => blind_ite (blind_sendCode _ _ _)
    (blind_bind (blind_sendCode _ _ _) fun _ => blind_bind (blind_sendExtra _ _ _) fun _ =>
      blind_bind (blind_sendCode _ _ _) fun _ => blind_sendExtra _ _ _)

theorem blind_compressBlock (set : CodeSet) : Blind (compressBlock set) :=
  blind_read (fun _ _ => rfl) fun _ => blind_bind (blind_forEach (blind_sendToken set) _) fun _ => blind_sendCode _ _ _

theorem blind_sendClSym (c : ClSym) : Blind (sendClSym c) := by
  cases c with
  | len l => exact blind_sendCode _ _ _
  | repeatPrev count => exact blind_bind (blind_sendCode _ _ _) fun _ => blind_sendDiff _ _ _
  | zeros count => exact blind_bind (blind_sendCode _ _ _) fun _ => blind_sendDiff _ _ _
  | manyZeros count => exact blind_bind (blind_sendCode _ _ _) fun _ => blind_sendDiff _ _ _

theorem blind_sendAllTrees : Blind sendAllTrees := by
  have tree : ∀ t maxCode, Blind (sendTree t maxCode) := fun _ _ =>
    blind_bind blind_require fun _ => blind_read (fun _ _ => rfl) fun _ => blind_forEach blind_sendClSym _
  have blLen : ∀ rank, Blind (sendBlLen rank) := fun _ =>
    blind_bind blind_require fun _ => blind_read (fun _ _ => rfl) fun _ => blind_sendBits _ _
  exact blind_read (fun _ _ => rfl) fun _ => blind_bind (blind_sendDiff _ _ _) fun _ => blind_bind (blind_sendDiff _ _ _) fun _ =>
    blind_bind (blind_sendDiff _ _ _) fun _ => blind_bind (blind_forEach blLen _) fun _ => blind_bind (tree _ _) fun _ => tree _ _

theorem blind_staticBlock (eof : BitVec 1) : Blind (staticBlock eof) :=
  blind_bind (blind_sendBits _ _) fun _ => blind_compressBlock _

theorem blind_dynamicBlock (eof : BitVec 1) : Blind (dynamicBlock eof) :=
  blind_bind (blind_sendBits _ _) fun _ => blind_bind blind_sendAllTrees fun _ => blind_compressBlock _

theorem blind_initBlock : Blind initBlock := blind_update fun _ _ => rfl

end Sys2Proof.Proofs
end

section
/-! A step of FAST or SLOW with a full lookahead sees no byte behind it: with more bytes in the window it does the same
(41_match_finder.md R250, R251, R260, R270, R285, R290). -/

namespace Sys2Proof.Proofs

open Sys2Proof.Machine Sys2Proof.Claims

/-! ### The hash of the string at a position -/

/-- The next update gives the hash of the string at `p`: the one it would give after a seed there. -/
def RolledAt (p : Nat) (s : State) : Prop := ∀ x, updateHash s.cfg s.mf.insH x
  = updateHash s.cfg (updateHash s.cfg ((s.mem.win.read p).zeroExtend 16) (s.mem.win.read (p + 1))) x

theorem RolledAt.of_same {p : Nat} {s t : State} (h : RolledAt p s) (same : t.mf.insH = s.mf.insH ∧ t.cfg = s.cfg
    ∧ t.mem.win = s.mem.win) : RolledAt p t := by
  obtain ⟨hash, cfg, win⟩ := same
  rw [RolledAt, hash, cfg, win]
  exact h

/-- A seed is an update of any hash, two updates later. -/
theorem updateHash_seed (c : Settings) (h : BitVec 16) (x y z : Byte) :
    updateHash c (updateHash c (updateHash c h x) y) z = updateHash c (updateHash c (x.zeroExtend 16) y) z := by
  have shift : c.hashShift ≤ c.hashBits := by
    unfold Settings.hashShift Settings.hashBits MIN_MATCH
    omega
  have one : ∀ i < c.hashShift, (updateHash c h x).getLsbD i = (x.zeroExtend 16).getLsbD i := fun i low => by
    by_cases word : i < 16
    · rw [updateHash_getLsbD c h x word, BitVec.getLsbD_setWidth, decide_eq_true low, decide_eq_true word,
        decide_eq_true (Nat.lt_of_lt_of_le low shift)]
      simp
    · rw [BitVec.getLsbD_of_ge _ _ (by omega), BitVec.getLsbD_of_ge _ _ (by omega)]
  have three := updateHash_agree c z (updateHash_agree c y one)
  have enough := hashBits_le_hashShift c
  exact updateHash_eq_of_agree c z fun i hi => three i (by omega)

theorem rolledAt_inserted {p : Nat} {s : State} (h : RolledAt p s) : RolledAt (p + 1) (inserted p s) := fun x => by
  change updateHash s.cfg (updateHash s.cfg s.mf.insH (s.mem.win.read (p + 2))) x = _
  rw [h, updateHash_seed]
  rfl

/-! ### More bytes in the window -/

/-- `s` with `g` more bytes of lookahead, and the window, `IN`, checksums and control registers of `o`. -/
def cover (o : State) (g : Nat) (s : State) : State :=
  { s with ctl := o.ctl, sums := o.sums, mf := { s.mf with lookAhead := s.mf.lookAhead + g }
           mem := { s.mem with win := o.mem.win, input := o.mem.input } }

theorem Blind.covered {α : Type} {x : Op α} (h : Blind x) (o : State) (g : Nat) (s : State) :
    Mimics (cover o g) x x s fun _ t => t = veil s t := fun a t run => by
  have frame := h.frame run
  have same := h.run (cover o g s) run
  refine ⟨?_, frame⟩
  rw [frame]
  exact same

/-- Below `e` the windows of `s` and `o` agree, and the next string to insert is `j` after `strStart`. -/
structure Rides (o : State) (e j : Nat) (s : State) : Prop where
  legal : s.cfg.legal = true
  agree : ∀ i, i < e → o.mem.win.read i = s.mem.win.read i
  rolled : RolledAt (s.mf.strStart + j) s

theorem Rides.of_same {o : State} {e j : Nat} {s t : State} (h : Rides o e j s) (same : t.mf.insH = s.mf.insH ∧ t.cfg = s.cfg
    ∧ t.mem.win = s.mem.win) (start : t.mf.strStart = s.mf.strStart) : Rides o e j t := by
  obtain ⟨legal, agree, rolled⟩ := h
  exact ⟨same.2.1 ▸ legal, same.2.2 ▸ agree, start ▸ rolled.of_same same⟩

section
variable {o : State} {e g : Nat} {s : State}

theorem mimics_readWin {i : Nat} (same : o.mem.win.read i = s.mem.win.read i) :
    Mimics (cover o g) (readWin i) (readWin i) s fun b t => b = s.mem.win.read i ∧ t = s := by
  intro b t run
  rw [readWin_run] at run ⊢
  split at run <;> cases run
  next inside =>
    rw [if_pos (show i < (cover o g s).cfg.windowBytes from inside)]
    exact ⟨congrArg (EStateM.Result.ok · _) same, rfl, rfl⟩

theorem mimics_insertString {pos : Nat} (legal : s.cfg.legal = true) (same : o.mem.win.read (pos + 2) = s.mem.win.read (pos + 2)) :
    Mimics (cover o g) (insertString pos) (insertString pos) s fun _ t => t = inserted pos s := by
  intro r t run
  obtain ⟨rfl, rfl, inside⟩ := insertString_ok run
  have hash : hashAt (cover o g s) pos = hashAt s pos := congrArg (updateHash s.cfg s.mf.insH) same
  refine ⟨?_, rfl⟩
  rw [insertString_run_of_legal (s := cover o g s) legal inside, inserted, hash]
  rfl

theorem mimics_takeLook {n : Nat} : Mimics (cover o g) (takeLook n) (takeLook n) s
    fun _ t => n ≤ s.mf.lookAhead ∧ t = s.setMf { s.mf with lookAhead := s.mf.lookAhead - n } := by
  unfold takeLook
  refine mimics_read (mimics_bind (mimics_require (Q := fun _ t => n ≤ s.mf.lookAhead ∧ t = s)
    fun h => ⟨Nat.le_trans h (Nat.le_add_right _ g), h, rfl⟩) ?_)
  rintro - t ⟨some, rfl⟩
  refine mimics_update ?_ ⟨some, rfl⟩
  exact congrArg (fun n => (cover o g t).setMf { t.mf with lookAhead := n }) (Nat.sub_add_comm some)

theorem mimics_checkWindow (inside : s.mf.strStart + s.mf.lookAhead + g ≤ s.cfg.windowBytes) :
    Mimics (cover o g) checkWindow checkWindow s fun _ t => t = s :=
  mimics_read (mimics_require fun h => ⟨⟨(Nat.add_assoc _ _ g).symm ▸ inside, h.2⟩, rfl⟩)

theorem mimics_tally {dist : Int} {lc : Nat} (legal : s.cfg.legal = true) (byte : lc ≤ 255) :
    Mimics (cover o g) (tally dist lc) (tally dist lc) s fun _ t => ∃ d, t = tallied d lc s := by
  intro b t run
  have sizes := sizes_of_legal legal
  obtain ⟨room, d, rfl, near, rfl, rfl⟩ := (tally_wp legal).ok run
  have high := sizes.wSize_high
  have reach := sizes.maxDist
  exact ⟨tally_run (s := cover o g s) room near (by omega) byte, d, rfl⟩

theorem mimics_tallyLiteral {i : Nat} (legal : s.cfg.legal = true) (same : o.mem.win.read i = s.mem.win.read i) :
    Mimics (cover o g) (tallyLiteral i) (tallyLiteral i) s fun _ t => ∃ d lc, t = tallied d lc s := by
  refine mimics_bind (mimics_readWin same) ?_
  rintro b _ ⟨-, rfl⟩
  exact (mimics_tally legal (Nat.le_of_lt_succ (BitVec.isLt b))).post fun _ _ _ ⟨d, same⟩ => ⟨d, _, same⟩

theorem Rides.tallied {j : Nat} (h : Rides o e j s) (d lc : Nat) : Rides o e j (tallied d lc s) := h.of_same ⟨rfl, rfl, rfl⟩ rfl

/-! ### The end of a block -/

theorem mimics_storedBlock {start len : Int} {eof : BitVec 1} (same : 0 ≤ start → ∀ i, i < len.toNat →
    o.mem.win.read (start.toNat + i) = s.mem.win.read (start.toNat + i)) :
    Mimics (cover o g) (storedBlock start len eof) (storedBlock start len eof) s fun _ _ => True := by
  have kept : ∀ {x : Op Unit} {t : State}, Blind x → t.mem.win = s.mem.win →
      Mimics (cover o g) x x t fun _ u => u.mem.win = s.mem.win := fun blind win =>
    (blind.covered o g _).post fun _ _ _ frame => by rw [frame]; exact win
  unfold storedBlock
  refine mimics_bind (mimics_require (Q := fun _ t => 0 ≤ start ∧ t.mem.win = s.mem.win) fun h => ⟨h, h.1, rfl⟩) ?_
  rintro - t ⟨low, win⟩
  refine mimics_bind (kept (blind_sendBits _ _) win) fun _ t win => ?_
  refine mimics_bind (kept blind_biWindup win) fun _ t win => ?_
  refine mimics_bind (kept (blind_putShort _) win) fun _ t win => ?_
  refine mimics_bind (kept (blind_putShort _) win) fun _ t win => ?_
  refine (mimics_forEach (P := fun t => t.mem.win = s.mem.win) (fun i mem t win => ?_) win).post fun _ _ _ _ => trivial
  have byte := same low i (List.mem_range.1 mem)
  refine mimics_bind (mimics_readWin (by rw [win]; exact byte)) ?_
  rintro b _ ⟨-, rfl⟩
  exact kept (blind_putByte b) win

theorem mimics_flushBlock {eof : BitVec 1} (same : ∀ i, i < s.mf.strStart → o.mem.win.read i = s.mem.win.read i) :
    Mimics (cover o g) (flushBlock eof) (flushBlock eof) s fun _ t => Flushed s t := by
  suffices plain : Mimics (cover o g) (flushBlock eof) (flushBlock eof) s fun _ _ => True from
    plain.post fun _ _ run _ => (flushBlock_ok run).1
  unfold flushBlock
  refine mimics_read (mimics_bind ((blind_when blind_buildAll).covered o g s) fun _ t frame => mimics_read ?_)
  have mf : t.mf = s.mf := by rw [frame]; rfl
  have win : t.mem.win = s.mem.win := by rw [frame]; rfl
  refine mimics_bind (Q := fun _ _ => True) ?_ fun _ u _ => ?_
  · change Mimics (cover o g) _ (emitBlock (selectMode t.cfg.level.toNat ((t.mf.strStart : Int) - t.mf.blockStart) t.mf.blockStart
      t.hb.optLen t.hb.staticLen) t.mf.blockStart ((t.mf.strStart : Int) - t.mf.blockStart) eof) t _
    generalize selectMode _ _ _ _ _ = mode
    cases mode with
    | static => exact ((blind_staticBlock eof).covered o g t).post fun _ _ _ _ => trivial
    | dynamic => exact ((blind_dynamicBlock eof).covered o g t).post fun _ _ _ _ => trivial
    | stored =>
      refine mimics_storedBlock fun low i inside => ?_
      rw [mf] at low inside ⊢
      rw [win]
      exact same _ (by omega)
  refine mimics_bind (blind_initBlock.covered o g u) fun _ v _ => ?_
  refine mimics_bind ((blind_when blind_biWindup).covered o g v) fun _ w _ => ?_
  exact mimics_update rfl trivial

theorem mimics_flushIf {b : Bool} {j : Nat} (h : Rides o e j s) (inside : s.mf.strStart ≤ e) :
    Mimics (cover o g) (flushIf b) (flushIf b) s fun _ t => Rides o e j t ∧ t = { s with
      mf := { s.mf with blockStart := t.mf.blockStart }, tok := t.tok, hb := t.hb, bp := t.bp, mem := { s.mem with out := t.mem.out } } := by
  refine mimics_when Iff.rfl (fun _ => (mimics_flushBlock fun i low => h.agree i (Nat.lt_of_lt_of_le low inside)).post ?_) fun _ => ⟨h, rfl⟩
  intro _ t _ flushed
  have frame := flushed.frame
  exact ⟨h.of_same (by rw [frame]; exact ⟨rfl, rfl, rfl⟩) (by rw [frame]), by rw [frame]⟩

/-! ### The search -/

theorem mimics_commonLength {a b limit : Nat} (same : ∀ i, i < e → o.mem.win.read i = s.mem.win.read i) (left : a + limit ≤ e)
    (right : b + limit ≤ e) : Mimics (cover o g) (commonLength a b limit) (commonLength a b limit) s
      fun n t => n ≤ limit ∧ t = s := by
  induction limit generalizing a b with
  | zero => exact mimics_pure ⟨Nat.le_refl _, rfl⟩
  | succ limit ih =>
    rw [commonLength]
    refine mimics_bind (mimics_readWin (same a (by omega))) ?_
    rintro x _ ⟨-, rfl⟩
    refine mimics_bind (mimics_readWin (same b (by omega))) ?_
    rintro y _ ⟨-, rfl⟩
    refine mimics_ite Iff.rfl (fun _ => mimics_bind (ih (by omega) (by omega)) ?_) fun _ => mimics_pure ⟨Nat.zero_le _, rfl⟩
    rintro n _ ⟨le, rfl⟩
    exact mimics_pure ⟨Nat.succ_le_succ le, rfl⟩

/-- Only `matchStart` has changed. -/
def Marked (s t : State) : Prop := t = { s with mf := { s.mf with matchStart := t.mf.matchStart } }

theorem mimics_walkChain {strStart nice limit chain cur best : Nat} (same : ∀ i, i < e → o.mem.win.read i = s.mem.win.read i)
    (left : strStart + 258 ≤ e) (before : cur < strStart) (entries : ∀ i, (s.mem.prev.read i).toNat < strStart) (short : best ≤ 258) :
    Mimics (cover o g) (walkChain strStart 258 nice limit chain cur best) (walkChain strStart 258 nice limit chain cur best) s
      fun n t => n ≤ 258 ∧ Marked s t := by
  suffices from_ : ∀ u, Marked s u → Mimics (cover o g) (walkChain strStart 258 nice limit chain cur best)
      (walkChain strStart 258 nice limit chain cur best) u fun n t => n ≤ 258 ∧ Marked s t from from_ s rfl
  induction chain generalizing cur best with
  | zero => exact fun u marked => mimics_pure ⟨short, marked⟩
  | succ chain ih =>
    intro u marked
    have win : u.mem.win = s.mem.win := by rw [show u = _ from marked]
    rw [walkChain]
    refine mimics_bind (mimics_commonLength (by rw [win]; exact same) left (by omega)) ?_
    rintro len _ ⟨le, rfl⟩
    refine mimics_bind (mimics_when (Q := fun _ t => Marked s t) Iff.rfl (fun _ => mimics_update rfl ?_) fun _ => marked) fun _ v marked => ?_
    · rw [Marked, show _ = _ from marked]
      rfl
    have prev : v.mem.prev = s.mem.prev := by rw [show v = _ from marked]
    refine mimics_ite Iff.rfl (fun _ => mimics_pure ⟨le, marked⟩) fun _ => mimics_read ?_
    refine mimics_bind (Q := fun next t => next.toNat < strStart ∧ Marked s t) ?_ ?_
    · intro next t run
      change (readPrev (cur % v.cfg.wSize)).run _ = _ ∧ _
      rw [readPrev_run] at run ⊢
      split at run <;> cases run
      next slots =>
        rw [if_pos (show cur % v.cfg.wSize < (cover o g v).cfg.wSize from slots)]
        exact ⟨rfl, by rw [prev]; exact entries _, marked⟩
    · rintro next t ⟨low, marked⟩
      exact mimics_ite Iff.rfl (fun _ => ih low (Nat.max_le.2 ⟨short, le⟩) t marked)
        fun _ => mimics_pure ⟨Nat.max_le.2 ⟨short, le⟩, marked⟩

theorem niceLength_le : ∀ level : BitVec 4, (ctRow level).niceLength.toNat ≤ 258 := by decide

/-- What a search needs to stay before `e`. -/
structure Searches (o : State) (e head : Nat) (s : State) : Prop where
  agree : ∀ i, i < e → o.mem.win.read i = s.mem.win.read i
  full : 258 ≤ s.mf.lookAhead
  inside : s.mf.strStart + s.mf.lookAhead ≤ e
  nice : s.ct.niceLength.toNat ≤ 258
  hand : s.mf.prevLength ≤ 258
  before : head < s.mf.strStart
  entries : ∀ i, (s.mem.prev.read i).toNat < s.mf.strStart

/-- The search reads at most 258 bytes from `strStart` on. -/
theorem mimics_searchFrom {head : Nat} (h : Searches o e head s) : Mimics (cover o g) (searchFrom head) (searchFrom head) s fun _ t =>
    t = { s with mf := { s.mf with matchLength := t.mf.matchLength, matchStart := t.mf.matchStart } } ∧ t.mf.matchLength ≤ 258 := by
  obtain ⟨agree, full, inside, nice, hand, before, entries⟩ := h
  have look : MAX_MATCH ≤ s.mf.lookAhead + g := Nat.le_add_right_of_le full
  unfold searchFrom longestMatch
  refine mimics_bind (Q := fun n t => n ≤ 258 ∧ Marked s t) (mimics_read ?_) ?_
  · change Mimics (cover o g) _ (walkChain s.mf.strStart (min MAX_MATCH (s.mf.lookAhead + g))
      (min s.ct.niceLength.toNat (s.mf.lookAhead + g)) _ _ head s.mf.prevLength >>= fun best => pure (min best (s.mf.lookAhead + g))) s _
    rw [Nat.min_eq_left look, Nat.min_eq_left (show MAX_MATCH ≤ s.mf.lookAhead from full), Nat.min_eq_left (Nat.le_trans nice full),
      Nat.min_eq_left (Nat.le_trans nice (Nat.le_add_right_of_le full))]
    refine mimics_bind (mimics_walkChain agree (by omega) before entries hand) ?_
    rintro best t ⟨le, marked⟩
    rw [Nat.min_eq_left (Nat.le_trans le full), Nat.min_eq_left (Nat.le_trans le (Nat.le_add_right_of_le full))]
    exact mimics_pure ⟨le, marked⟩
  · rintro n t ⟨le, marked⟩
    refine mimics_update rfl ⟨?_, le⟩
    rw [show t = _ from marked]
    rfl

/-! ### Insertions on the way -/

theorem Rides.inserted (h : Rides o e 0 s) : Rides o e 1 (inserted s.mf.strStart s) := ⟨h.legal, h.agree, rolledAt_inserted h.rolled⟩

theorem Rides.advanced {j n : Nat} (h : Rides o e (n + j) s) : Rides o e j (s.setMf { s.mf with strStart := s.mf.strStart + n }) :=
  ⟨h.legal, h.agree, Nat.add_assoc s.mf.strStart n j ▸ h.rolled⟩

theorem mimics_insertHere (h : Rides o e 0 s) (long : 3 ≤ s.mf.lookAhead) (inside : s.mf.strStart + s.mf.lookAhead ≤ e) :
    Mimics (cover o g) insertHere insertHere s fun head t => Rides o e 1 t ∧ Placed head s t := by
  refine Mimics.post (Q := fun _ t => Rides o e 1 t) ?_ fun head t run rides => ⟨rides, (insertHere_wp h.legal).ok run⟩
  refine mimics_read (mimics_ite ⟨fun _ => Nat.le_add_right_of_le long, fun _ => long⟩ (fun _ => ?_) fun short => absurd long short)
  refine (mimics_insertString h.legal (h.agree _ (by omega))).post ?_
  rintro _ _ - rfl
  exact h.inserted

/-- `strStart` is `n` further on, and the strings passed are in their chains. -/
def Passed (o : State) (e n : Nat) (s t : State) : Prop := Shifted n s t ∧ Rides o e 1 t

theorem Passed.step {n : Nat} {t u : State} (h : Passed o e n s t) (k : Passed o e 1 t u) : Passed o e (n + 1) s u :=
  ⟨h.1.trans k.1, k.2⟩

theorem Passed.last {n : Nat} {t : State} (h : Passed o e n s t) : Rides o e 0 (t.setMf { t.mf with strStart := t.mf.strStart + 1 })
    ∧ t.mf.strStart = s.mf.strStart + n ∧ t.mf.lookAhead = s.mf.lookAhead :=
  ⟨h.2.advanced, h.1.start, by rw [show t = _ from h.1]⟩

/-- The next position, inserted: its string ends before `e`. -/
theorem mimics_insertNext {s : State} (h : Rides o e 1 s) (inside : s.mf.strStart + 3 < e) :
    Mimics (cover o g) (insertString (s.mf.strStart + 1)) (insertString (s.mf.strStart + 1))
      (s.setMf { s.mf with strStart := s.mf.strStart + 1 }) fun _ t => Passed o e 1 s t := by
  refine (mimics_insertString (s := s.setMf { s.mf with strStart := s.mf.strStart + 1 }) h.legal (h.agree _ (by omega))).post ?_
  rintro _ _ - rfl
  exact ⟨rfl, h.advanced.inserted⟩

theorem mimics_skipFast (h : Rides o e 1 s) (inside : s.mf.strStart + 3 < e) :
    Mimics (cover o g) skipFast skipFast s fun _ t => Passed o e 1 s t := by
  unfold skipFast advance
  refine mimics_bind (mimics_update (Q := fun _ t => t = _) rfl rfl) ?_
  rintro - _ rfl
  exact mimics_read (mimics_bind (mimics_insertNext h inside) fun _ _ passed => mimics_pure passed)

theorem mimics_skipSlow {fence fence' : Nat} (h : Rides o e 1 s) (inside : s.mf.strStart + 4 ≤ fence) (inE : fence ≤ e)
    (le : fence ≤ fence') : Mimics (cover o g) (skipSlow fence) (skipSlow fence') s fun _ t => Passed o e 1 s t := by
  have due : s.mf.strStart + 1 + MIN_MATCH ≤ fence := inside
  unfold skipSlow advance
  refine mimics_bind (mimics_update (Q := fun _ t => t = _) rfl rfl) ?_
  rintro - _ rfl
  refine mimics_read (mimics_when ⟨fun _ => Nat.le_trans due le, fun _ => due⟩ (fun _ => ?_) fun none => absurd due none)
  exact mimics_bind (mimics_insertNext h (by omega)) fun _ _ passed => mimics_pure passed

/-! ### FAST -/

theorem mimics_fastPass {len : Nat} (h : Rides o e 1 s) (some : 1 ≤ len) (long : 3 ≤ s.mf.lookAhead)
    (inside : s.mf.strStart + len + s.mf.lookAhead ≤ e) : Mimics (cover o g) (fastPass len) (fastPass len) s fun _ t => Rides o e 0 t := by
  unfold fastPass advance
  refine mimics_read (mimics_ite ⟨fun _ => Nat.le_add_right_of_le long, fun _ => long⟩ (fun _ => ?_) fun short => absurd long short)
  refine mimics_bind (mimics_times (P := fun j t => Passed o e j s t) (fun j hj t passed => ?_) ⟨rfl, h⟩) fun _ t passed => ?_
  · have start := passed.last.2.1
    exact (mimics_skipFast passed.2 (by omega)).post fun _ _ _ next => passed.step next
  · exact mimics_update rfl passed.last.1

theorem mimics_fastToken (h : Rides o e 1 s) (inside : s.mf.strStart + s.mf.lookAhead ≤ e) (full : 262 ≤ s.mf.lookAhead)
    (size : s.mf.matchLength ≤ 258) : Mimics (cover o g) fastToken fastToken s fun _ t => Rides o e 0 t ∧ t.cfg = s.cfg
      ∧ t.mf.strStart + t.mf.lookAhead = s.mf.strStart + s.mf.lookAhead := by
  refine Mimics.post (Q := fun _ t => Rides o e 0 t) ?_ fun b t run rides => ⟨rides, ?_⟩
  swap
  · obtain ⟨d, lc, n, token⟩ := (fastToken_wp h.legal).ok run
    have start := token.start
    have look := token.look
    exact ⟨by rw [show t = _ from token.moved]; rfl, by omega⟩
  have three : MIN_MATCH = 3 := rfl
  unfold fastToken
  refine mimics_read (mimics_ite Iff.rfl (fun long => ?_) fun _ => ?_)
  · unfold fastMatch
    refine mimics_read (mimics_bind (mimics_tally h.legal (by omega)) ?_)
    rintro b _ ⟨d, rfl⟩
    refine mimics_bind mimics_takeLook ?_
    rintro - _ ⟨enough, rfl⟩
    have enough : s.mf.matchLength ≤ s.mf.lookAhead := enough
    refine mimics_bind (mimics_fastPass (s := (tallied d _ s).setMf { s.mf with lookAhead := s.mf.lookAhead - s.mf.matchLength })
      ((h.tallied d _).of_same ⟨rfl, rfl, rfl⟩ rfl) (by omega) ?_ ?_) fun _ t rides => ?_
    · change 3 ≤ s.mf.lookAhead - s.mf.matchLength
      omega
    · change s.mf.strStart + s.mf.matchLength + (s.mf.lookAhead - s.mf.matchLength) ≤ e
      omega
    · exact mimics_bind (mimics_update (Q := fun _ u => Rides o e 0 u) rfl (rides.of_same ⟨rfl, rfl, rfl⟩ rfl))
        fun _ _ rides => mimics_pure rides
  · unfold fastLiteral advance
    refine mimics_read (mimics_bind (mimics_tallyLiteral h.legal (h.agree _ (by omega))) ?_)
    rintro b _ ⟨d, lc, rfl⟩
    refine mimics_bind mimics_takeLook ?_
    rintro - _ ⟨-, rfl⟩
    refine mimics_bind (mimics_update (Q := fun _ u => Rides o e 0 u) rfl ?_) fun _ _ rides => mimics_pure rides
    exact Rides.advanced (n := 1) (j := 0) ((h.tallied d lc).of_same ⟨rfl, rfl, rfl⟩ rfl)

/-- What the top of a round needs for its step to stay before `e`. -/
structure StepsBefore (d : Driver) (e : Nat) (s : State) : Prop where
  top : LoopTop d s
  full : 262 ≤ s.mf.lookAhead
  inside : s.mf.strStart + s.mf.lookAhead ≤ e
  nice : s.ct.niceLength.toNat ≤ 258

/-- The insertion of a round leaves a chain that a search stays before `e` on. -/
theorem StepsBefore.searches {d : Driver} {head : Nat} {t : State} (h : StepsBefore d e s) (rides : Rides o e 1 t) (placed : Placed head s t)
    (some : head ≠ 0) {u : State} (same : u = { t with mf := { u.mf with strStart := t.mf.strStart, lookAhead := t.mf.lookAhead } })
    (hand : u.mf.prevLength ≤ 258) : Searches o e head u := by
  obtain ⟨top, full, inside, nice⟩ := h
  obtain ⟨shifted, -, below⟩ := placed
  obtain ⟨before, entries⟩ := below top.below some
  have frame : t.mf.strStart = s.mf.strStart ∧ t.mf.lookAhead = s.mf.lookAhead ∧ t.ct = s.ct := by
    rw [show t = _ from shifted]
    exact ⟨rfl, rfl, rfl⟩
  obtain ⟨start, look, ct⟩ := frame
  have frame : u.mf.strStart = t.mf.strStart ∧ u.mf.lookAhead = t.mf.lookAhead ∧ u.ct = t.ct ∧ u.mem = t.mem := by
    rw [same]
    exact ⟨rfl, rfl, rfl, rfl⟩
  obtain ⟨start', look', ct', mem⟩ := frame
  refine ⟨by rw [mem]; exact rides.agree, by omega, by omega, by rw [ct', ct]; exact nice, hand, by omega, ?_⟩
  rw [mem, start', start]
  exact entries

theorem mimics_fastStep (h : Rides o e 0 s) (steps : StepsBefore .fast e s) (room : s.mf.strStart + s.mf.lookAhead + g ≤ s.cfg.windowBytes) :
    Mimics (cover o g) fastStep fastStep s fun _ t => Rides o e 0 t := by
  obtain ⟨short, hand⟩ := steps.top.fast rfl
  have full := steps.full
  have inside := steps.inside
  unfold fastStep
  refine mimics_bind (mimics_insertHere h (by omega) inside) ?_
  rintro head t ⟨rides, placed⟩
  have shifted := placed.shifted
  have start : t.mf.strStart = s.mf.strStart := shifted.start
  have placed' : t.mf.lookAhead = s.mf.lookAhead ∧ t.mf.matchLength = s.mf.matchLength ∧ t.mf.prevLength = s.mf.prevLength
      ∧ t.cfg = s.cfg := by
    rw [show t = _ from shifted]
    exact ⟨rfl, rfl, rfl, rfl⟩
  obtain ⟨look, length, prevLength, cfg⟩ := placed'
  refine mimics_read (mimics_bind (Q := fun _ v => Rides o e 1 v ∧ v.mf.matchLength ≤ 258 ∧ v.cfg = t.cfg ∧ Quiet t v)
    (mimics_when Iff.rfl (fun search => ?_) fun _ => ⟨rides, by omega, rfl, Quiet.order.refl t⟩) ?_)
  · refine (mimics_searchFrom (steps.searches rides placed search.1 rfl (by omega))).post fun _ v run ⟨frame, size⟩ =>
      ⟨rides.of_same (by rw [frame]; exact ⟨rfl, rfl, rfl⟩) (by rw [frame]), size, by rw [frame], quiet_searchFrom head t _ v run⟩
  rintro - v ⟨rides, size, cfg', quiet⟩
  have start' := quiet.start
  have look' := quiet.look
  refine mimics_bind (mimics_fastToken rides (by omega) (by omega) size) ?_
  rintro b w ⟨rides, cfg'', sum⟩
  refine mimics_bind (mimics_flushIf rides (by omega)) ?_
  rintro - x ⟨rides, frame⟩
  refine mimics_bind (mimics_checkWindow ?_) ?_
  · rw [frame]
    change w.mf.strStart + w.mf.lookAhead + g ≤ w.cfg.windowBytes
    rw [cfg'', cfg', cfg]
    omega
  · rintro - _ rfl
    exact mimics_pure rides

/-! ### SLOW -/

theorem mimics_slowSearch {head : Nat} (h : Rides o e 1 s) (searches : head ≠ 0 → Searches o e head s) :
    Mimics (cover o g) (slowSearch head) (slowSearch head) s fun _ t => Rides o e 1 t ∧ t.cfg = s.cfg
      ∧ t.mf.prevLength = s.mf.prevLength ∧ Quiet s t := by
  suffices kept : Mimics (cover o g) (slowSearch head) (slowSearch head) s fun _ t =>
      t = { s with mf := { s.mf with matchLength := t.mf.matchLength, matchStart := t.mf.matchStart } } from
    kept.post fun _ t run frame => ⟨h.of_same (by rw [frame]; exact ⟨rfl, rfl, rfl⟩) (by rw [frame]), by rw [frame], by rw [frame],
      quiet_slowSearch head s _ t run⟩
  have dropped : ∀ v : State, v.dropShort = { v with mf := { v.mf with matchLength := v.dropShort.mf.matchLength } } := fun v => by
    unfold State.dropShort
    split <;> rfl
  have commutes : ∀ v : State, (cover o g v).dropShort = cover o g v.dropShort := fun v => by
    unfold State.dropShort
    by_cases short : v.mf.matchLength ≤ 5 ∧ v.cfg.strategy = FILTERED
    · rw [if_pos short]
      exact if_pos short
    · rw [if_neg short]
      exact if_neg short
  unfold slowSearch
  refine mimics_read (mimics_when Iff.rfl (fun due => mimics_bind (Q := fun _ t =>
      t = { s with mf := { s.mf with matchLength := t.mf.matchLength, matchStart := t.mf.matchStart } })
    (mimics_when Iff.rfl (fun _ => (mimics_searchFrom (searches due.1)).post fun _ _ _ found => found.1) fun _ => rfl) ?_) fun _ => rfl)
  intro _ t frame
  refine mimics_update (commutes t) ?_
  rw [dropped t, frame]

theorem mimics_slowCommit (h : Rides o e 1 s) (inside : s.mf.strStart + s.mf.lookAhead ≤ e) (full : 262 ≤ s.mf.lookAhead)
    (long : 3 ≤ s.mf.prevLength) (size : s.mf.prevLength ≤ 258) :
    Mimics (cover o g) slowCommit slowCommit s fun _ t => Rides o e 0 t := by
  have three : MIN_MATCH = 3 := rfl
  unfold slowCommit
  refine mimics_read (mimics_bind (mimics_tally h.legal (by omega)) ?_)
  rintro b _ ⟨d, rfl⟩
  refine mimics_bind mimics_takeLook ?_
  rintro - _ ⟨enough, rfl⟩
  generalize start : (tallied d _ s).setMf _ = v
  have rides : Rides o e 1 v := by
    rw [← start]
    exact (h.tallied d _).of_same ⟨rfl, rfl, rfl⟩ rfl
  have place : v.mf.strStart = s.mf.strStart := by rw [← start]; rfl
  refine mimics_bind (mimics_times (P := fun j t => Passed o e j v t) (fun j hj t passed => ?_) ⟨rfl, rides⟩) fun _ t passed => ?_
  · have start := passed.last.2.1
    refine (mimics_skipSlow passed.2 (by omega) inside ?_).post fun _ _ _ next => passed.step next
    exact Nat.add_le_add_left (Nat.le_add_right _ g) _
  · have start := passed.last.2.1
    refine mimics_bind (mimics_update (Q := fun _ u => Rides o e 0 u ∧ u.mf.strStart = t.mf.strStart + 1) rfl
      ⟨passed.last.1.of_same ⟨rfl, rfl, rfl⟩ rfl, rfl⟩) fun _ u ⟨rides, next⟩ => ?_
    exact (mimics_flushIf rides (by omega)).post fun _ _ _ ended => ended.1

theorem mimics_slowLiteral (h : Rides o e 1 s) (inside : s.mf.strStart + s.mf.lookAhead ≤ e) :
    Mimics (cover o g) slowLiteral slowLiteral s fun _ t => Rides o e 0 t := by
  unfold slowLiteral tallyDeferred advance
  refine mimics_bind (Q := fun _ t => ∃ d lc, t = tallied d lc s) (mimics_read ?_) ?_
  · refine mimics_bind (mimics_require (Q := fun _ t => 1 ≤ s.mf.strStart ∧ t = s) fun some => ⟨some, some, rfl⟩) ?_
    rintro - _ ⟨some, rfl⟩
    exact mimics_tallyLiteral h.legal (h.agree _ (by omega))
  rintro b _ ⟨d, lc, rfl⟩
  have place : (tallied d lc s).mf.strStart = s.mf.strStart := rfl
  refine mimics_bind (mimics_flushIf (h.tallied d lc) (by omega)) fun _ t ⟨rides, _⟩ => ?_
  refine mimics_bind (mimics_update (Q := fun _ u => Rides o e 0 u) rfl (Rides.advanced (n := 1) (j := 0) rides)) fun _ u rides => ?_
  refine mimics_takeLook.post ?_
  rintro _ _ - ⟨-, rfl⟩
  exact rides.of_same ⟨rfl, rfl, rfl⟩ rfl

theorem mimics_slowDefer (h : Rides o e 1 s) : Mimics (cover o g) slowDefer slowDefer s fun _ t => Rides o e 0 t := by
  unfold slowDefer advance
  refine mimics_bind (mimics_update (Q := fun _ u => Rides o e 1 u) rfl (h.of_same ⟨rfl, rfl, rfl⟩ rfl)) fun _ t rides => ?_
  refine mimics_bind (mimics_update (Q := fun _ u => Rides o e 0 u) rfl (Rides.advanced (n := 1) (j := 0) rides)) fun _ u rides => ?_
  refine mimics_takeLook.post ?_
  rintro _ _ - ⟨-, rfl⟩
  exact rides.of_same ⟨rfl, rfl, rfl⟩ rfl

theorem mimics_slowDecide (h : Rides o e 1 s) (inside : s.mf.strStart + s.mf.lookAhead ≤ e) (full : 262 ≤ s.mf.lookAhead)
    (size : s.mf.prevLength ≤ 258) : Mimics (cover o g) slowDecide slowDecide s fun _ t => Rides o e 0 t :=
  mimics_read (mimics_ite Iff.rfl (fun commit => mimics_slowCommit h inside full commit.1 size)
    fun _ => mimics_ite Iff.rfl (fun _ => mimics_slowLiteral h inside) fun _ => mimics_slowDefer h)

theorem mimics_slowStep (h : Rides o e 0 s) (steps : StepsBefore .slow e s) (room : s.mf.strStart + s.mf.lookAhead + g ≤ s.cfg.windowBytes) :
    Mimics (cover o g) slowStep slowStep s fun _ t => Rides o e 0 t := by
  have full := steps.full
  have inside := steps.inside
  have size : s.mf.matchLength ≤ 258 := by
    obtain ⟨free, held⟩ := steps.top.slow rfl
    by_contra long
    by_cases taken : s.mf.matchAvailable = true
    · have := ((held taken).2 (by omega)).1
      omega
    · have := free (Bool.eq_false_iff.2 taken)
      omega
  unfold slowStep
  refine mimics_bind (mimics_insertHere h (by omega) inside) ?_
  rintro head t ⟨rides, placed⟩
  have shifted := placed.shifted
  have start : t.mf.strStart = s.mf.strStart := shifted.start
  have placed' : t.mf.lookAhead = s.mf.lookAhead ∧ t.mf.matchLength = s.mf.matchLength ∧ t.cfg = s.cfg := by
    rw [show t = _ from shifted]
    exact ⟨rfl, rfl, rfl⟩
  obtain ⟨look, length, cfg⟩ := placed'
  refine mimics_bind (mimics_update (Q := fun _ u => u = rolled t) rfl rfl) ?_
  rintro - _ rfl
  have hand : (rolled t).mf.prevLength ≤ 258 := Nat.le_trans (Nat.le_of_eq length) size
  refine mimics_bind (mimics_slowSearch (rides.of_same (t := rolled t) ⟨rfl, rfl, rfl⟩ rfl)
    fun some => steps.searches rides placed some rfl hand) ?_
  rintro - v ⟨rides, cfg', prevLength, quiet⟩
  have start' : v.mf.strStart = t.mf.strStart := quiet.start
  have look' : v.mf.lookAhead = t.mf.lookAhead := quiet.look
  refine mimics_bind ((mimics_slowDecide rides (by omega) (by omega) (prevLength ▸ hand)).post (R := fun _ w => Rides o e 0 w ∧ w.cfg = v.cfg
    ∧ w.mf.strStart + w.mf.lookAhead = v.mf.strStart + v.mf.lookAhead) fun _ w run rides => ⟨rides, ?_, ?_⟩) ?_
  · exact (slowDecide_keeps.ok run).cfg
  · obtain ⟨n, -, passes⟩ := slowDecide_passes (Quiet.order.refl v).moves run
    have := passes.start
    have := passes.look
    omega
  rintro - w ⟨rides, cfg'', sum⟩
  refine mimics_bind (mimics_checkWindow ?_) ?_
  · rw [cfg'', cfg', show (rolled t).cfg = t.cfg from rfl, cfg]
    omega
  · rintro - _ rfl
    exact mimics_pure rides

theorem mimics_stepOf {d : Driver} (matching : d ≠ .stored) (h : Rides o e 0 s) (steps : StepsBefore d e s)
    (room : s.mf.strStart + s.mf.lookAhead + g ≤ s.cfg.windowBytes) :
    Mimics (cover o g) (stepOf d) (stepOf d) s fun _ t => Rides o e 0 t := by
  cases d with
  | stored => exact absurd rfl matching
  | fast => exact mimics_fastStep h steps room
  | slow => exact mimics_slowStep h steps room

end

end Sys2Proof.Proofs
end

section
/-! States that differ in the hash register alone, and a window filled with bytes still to come: how the rounds of FAST and
SLOW go on from them (41_match_finder.md R256, R257, R285, R290). -/

namespace Sys2Proof.Proofs

open Sys2Proof.Machine Sys2Proof.Claims

/-! ### States that differ in the hash register alone -/

/-- Only `insH` differs. -/
def ButHash (s t : State) : Prop := t = { s with mf := { s.mf with insH := t.mf.insH } }

theorem ButHash.symm {s t : State} (h : ButHash s t) : ButHash t s := by
  rw [ButHash, show t = _ from h]

theorem ButHash.trans {s t u : State} (h : ButHash s t) (k : ButHash t u) : ButHash s u := by
  rw [ButHash, show u = _ from k, show t = _ from h]

/-- Only `insH` differs, and it does not matter: with three bytes of lookahead the next update gives the same hash, with fewer
the registers agree. -/
structure Twin (s t : State) : Prop where
  same : ButHash s t
  hash : 3 ≤ s.mf.lookAhead → ∀ x, updateHash s.cfg t.mf.insH x = updateHash s.cfg s.mf.insH x
  short : s.mf.lookAhead < 3 → t.mf.insH = s.mf.insH

theorem Twin.eq {s t : State} (h : Twin s t) (short : s.mf.lookAhead < 3) : t = s := by
  rw [show t = _ from h.same, h.short short]

theorem insertHere_run {s : State} (legal : s.cfg.legal = true) (order : WindowOrder s) (long : 3 ≤ s.mf.lookAhead) :
    insertHere.run s = .ok (s.mem.head.read (hashAt s s.mf.strStart).toNat).toNat (inserted s.mf.strStart s) := by
  have inside : s.mf.strStart + 2 < s.cfg.windowBytes := by have := order.1; omega
  unfold insertHere
  rw [Op.state_bind, if_pos (show MIN_MATCH ≤ s.mf.lookAhead from long), insertString_run_of_legal legal inside]

/-- The next string is hashed the same. -/
theorem Twin.inserts {s t : State} (h : Twin s t) (legal : s.cfg.legal = true) (order : WindowOrder s) (long : 3 ≤ s.mf.lookAhead) :
    ∃ head u, insertHere.run s = .ok head u ∧ insertHere.run t = .ok head u := by
  have hash := h.hash long
  obtain ⟨insH, rfl⟩ : ∃ insH, t = { s with mf := { s.mf with insH := insH } } := ⟨_, h.same⟩
  have same : hashAt { s with mf := { s.mf with insH := insH } } s.mf.strStart = hashAt s s.mf.strStart := hash _
  have twin := insertHere_run (s := { s with mf := { s.mf with insH := insH } }) legal order long
  rw [inserted, same] at twin
  exact ⟨_, _, insertHere_run legal order long, twin⟩

theorem Twin.step {d : Driver} {s t : State} (h : Twin s t) (matching : d ≠ .stored) (legal : s.cfg.legal = true)
    (order : WindowOrder s) : (stepOf d).run t = (stepOf d).run s := by
  by_cases short : s.mf.lookAhead < 3
  · rw [h.eq short]
  · obtain ⟨head, u, run, run'⟩ := h.inserts legal order (Nat.not_lt.1 short)
    cases d with
    | stored => exact absurd rfl matching
    | fast =>
      change fastStep.run t = fastStep.run s
      unfold fastStep
      rw [Op.bind_ok run', Op.bind_ok run]
    | slow =>
      change slowStep.run t = slowStep.run s
      unfold slowStep
      rw [Op.bind_ok run', Op.bind_ok run]

/-! ### A round after its fill -/

/-- The state after the fill that may be due at the top of a round. -/
def topped (s : State) : State := if s.mf.lookAhead < MIN_LOOKAHEAD then filled s else s

theorem topped_of_short {s : State} (short : s.mf.lookAhead < MIN_LOOKAHEAD) : topped s = filled s := if_pos short

theorem topped_cfg (s : State) : (topped s).cfg = s.cfg := by
  unfold topped
  split
  · exact (filled_registers s).2.2.1
  · rfl

theorem topped_order {s : State} (order : WindowOrder s) : WindowOrder (topped s) := by
  unfold topped
  split
  · exact filled_order order
  · exact order

/-- What a round of FAST or SLOW does after its fill. -/
def settle (f : BitVec 3) (d : Driver) : Op LoopStep := do
  let t ← Op.state
  if t.mf.lookAhead < MIN_LOOKAHEAD ∧ f = NO_FLUSH then pure .needMore
  else if t.mf.lookAhead = 0 then pure .exit
  else stepOf d

theorem roundOf_run {f : BitVec 3} {d : Driver} {s : State} (matching : d ≠ .stored) (legal : s.cfg.legal = true)
    (order : WindowOrder s) : (roundOf f d).run s = (settle f d).run (topped s) := by
  suffices matched : ∀ step, (matchRound f step).run s = (if (topped s).mf.lookAhead < MIN_LOOKAHEAD ∧ f = NO_FLUSH then pure .needMore
      else if (topped s).mf.lookAhead = 0 then pure .exit else step : Op LoopStep).run (topped s) by
    cases d with
    | stored => exact absurd rfl matching
    | fast => exact matched fastStep
    | slow => exact matched slowStep
  intro step
  unfold matchRound topped
  rw [Op.state_bind]
  by_cases short : s.mf.lookAhead < MIN_LOOKAHEAD
  · rw [Op.when_pos short, Op.bind_ok (fillWindow_run legal order), Op.state_bind, if_pos short]
    simp only [short, true_and]
  · have some : ¬ s.mf.lookAhead = 0 := fun none => short (by rw [none]; decide)
    rw [Op.when_neg short, if_neg short, Op.bind_ok (show (pure () : Op Unit).run s = .ok () s from rfl), Op.state_bind]
    simp only [short, some, false_and, if_false]

theorem settle_run_of_full {f : BitVec 3} {d : Driver} {s : State} (full : MIN_LOOKAHEAD ≤ s.mf.lookAhead) :
    (settle f d).run s = (stepOf d).run s := by
  have size : MIN_LOOKAHEAD = 262 := rfl
  unfold settle
  rw [Op.state_bind, if_neg fun more => Nat.not_lt.2 full more.1, if_neg (by omega)]

/-- From twins a round does the same, and leaves the same unless it asks for more. -/
theorem Twin.settles {f : BitVec 3} {d : Driver} {s t u v : State} {l k : LoopStep} (h : Twin s t) (matching : d ≠ .stored)
    (legal : s.cfg.legal = true) (order : WindowOrder s) (run : (settle f d).run s = .ok l u) (run' : (settle f d).run t = .ok k v) :
    k = l ∧ ButHash u v ∧ (l ≠ .needMore → v = u) := by
  have look : t.mf.lookAhead = s.mf.lookAhead := by rw [show t = _ from h.same]
  unfold settle at run run'
  rw [Op.state_bind] at run run'
  rw [look] at run'
  split at run
  · next more =>
    rw [if_pos more] at run'
    cases run
    cases run'
    exact ⟨rfl, h.same, fun asks => absurd rfl asks⟩
  · next noMore =>
    rw [if_neg noMore] at run'
    have same : ∀ {x : Op LoopStep}, x.run s = .ok l u → x.run t = .ok k v →
        x.run t = x.run s ∨ t = s → k = l ∧ ButHash u v ∧ (l ≠ .needMore → v = u) := by
      rintro x run run' equal
      have same : x.run t = x.run s := equal.elim id (congrArg x.run)
      rw [same, run] at run'
      cases run'
      exact ⟨rfl, rfl, fun _ => rfl⟩
    split at run
    · next empty =>
      rw [if_pos empty] at run'
      exact same run run' (.inr (h.eq (by omega)))
    · next some =>
      rw [if_neg some] at run'
      exact same run run' (.inl (h.step matching legal order))

/-- How long a loop may go on does not matter once it has ended. -/
theorem iterate_unique {body : Op LoopStep} {n m : Nat} {s u v : State} {l k : LoopStep} (run : (Op.iterate body n).run s = .ok l u)
    (run' : (Op.iterate body m).run s = .ok k v) : k = l ∧ v = u := by
  induction n generalizing m s with
  | zero => cases run
  | succ n ih =>
    cases m with
    | zero => cases run'
    | succ m =>
      rw [Op.iterate_succ] at run run'
      obtain ⟨a, t, first, rest⟩ := Op.bind_inv run
      rw [Op.bind_ok first] at run'
      cases a with
      | again => exact ih rest run'
      | exit => cases rest; cases run'; exact ⟨rfl, rfl⟩
      | needMore => cases rest; cases run'; exact ⟨rfl, rfl⟩

/-- Loops whose next rounds are twins after their fill end the same. -/
theorem loops_twin {f : BitVec 3} {d : Driver} {s t u v : State} {l k : LoopStep} {n m : Nat} (h : Twin (topped s) (topped t))
    (matching : d ≠ .stored) (legal : s.cfg.legal = true) (cfg : t.cfg = s.cfg) (order : WindowOrder s) (order' : WindowOrder t)
    (run : (Op.iterate (roundOf f d) n).run s = .ok l u) (run' : (Op.iterate (roundOf f d) m).run t = .ok k v) :
    k = l ∧ ButHash u v ∧ (l ≠ .needMore → v = u) := by
  cases n with
  | zero => cases run
  | succ n =>
    cases m with
    | zero => cases run'
    | succ m =>
      rw [Op.iterate_succ] at run run'
      obtain ⟨a, x, first, rest⟩ := Op.bind_inv run
      obtain ⟨b, y, first', rest'⟩ := Op.bind_inv run'
      rw [roundOf_run matching legal order] at first
      rw [roundOf_run matching (cfg ▸ legal) order'] at first'
      obtain ⟨rfl, same, equal⟩ := h.settles matching (topped_cfg s ▸ legal) (topped_order order) first first'
      cases b with
      | again =>
        obtain rfl := equal nofun
        obtain ⟨rfl, rfl⟩ := iterate_unique rest rest'
        exact ⟨rfl, rfl, fun _ => rfl⟩
      | exit => cases rest; cases rest'; exact ⟨rfl, same, equal⟩
      | needMore => cases rest; cases rest'; exact ⟨rfl, same, equal⟩

/-! ### Bytes still to come -/

/-- The room behind the data. -/
def tailRoom (s : State) : Nat := s.cfg.windowBytes - (s.mf.strStart + s.mf.lookAhead)

/-- `s` in a command of mode `f` with `b` after its own input: already in the window as far as there is room, if its own
input is read. -/
def ahead (f : BitVec 3) (b : List Byte) (s : State) : State :=
  if s.mem.input = [] then taken (b.take (tailRoom s)) (b.drop (tailRoom s)) (started f b s) else started f (s.mem.input ++ b) s

theorem taken_nil (rest : List Byte) (s : State) : taken [] rest s = s.setMem { s.mem with input := rest } := by
  unfold taken
  rw [adlerUpdate_nil, crcUpdate_nil]
  rfl

theorem taken_taken (xs ys r r' : List Byte) (s : State) : taken ys r' (taken xs r s) = taken (xs ++ ys) r' s := by
  obtain ⟨-, -, adler, crc⟩ := checksums
  unfold taken
  dsimp only
  rw [List.length_append, writeAll_append, adler, crc, Nat.add_assoc, Nat.add_assoc]

theorem slidIf_started (f : BitVec 3) (c : List Byte) (s : State) : slidIf (started f c s) = started f c (slidIf s) := by
  have due : (started f c s).mustSlide = s.mustSlide := rfl
  unfold slidIf
  rw [due]
  split <;> rfl

/-- The bytes a fill reads, before it seeds the hash. -/
def readIn (s : State) : State := taken (s.mem.input.take s.fillRoom) (s.mem.input.drop s.fillRoom) (slidIf s)

theorem filled_readIn (s : State) : ButHash (readIn s) (filled s) := by
  unfold filled readIn
  generalize s.fillRoom = room
  split
  · next empty =>
    rw [empty, List.take_nil, List.drop_nil, taken_nil]
    have input : (slidIf s).mem.input = [] := (slidIf_input s).trans empty
    generalize slidIf s = t at input
    rw [ButHash, State.setMem, ← input]
  · dsimp only
    split <;> rfl

theorem ButHash.ahead {f : BitVec 3} {b : List Byte} {s t : State} (h : ButHash s t) : ButHash (ahead f b s) (ahead f b t) := by
  obtain ⟨insH, rfl⟩ : ∃ insH, t = { s with mf := { s.mf with insH := insH } } := ⟨_, h⟩
  unfold Proofs.ahead
  dsimp only
  split <;> rfl

/-- A fill with more to come behind its own input reads on. -/
theorem readIn_started {f : BitVec 3} {b : List Byte} {s : State} (order : WindowOrder s) :
    readIn (started f (s.mem.input ++ b) s) = ahead f b (readIn s) := by
  have room := slidIf_room order
  have cfg := slidIf_cfg s
  unfold readIn ahead
  rw [slidIf_started, show (started f (s.mem.input ++ b) s).fillRoom = s.fillRoom from rfl,
    show (started f (s.mem.input ++ b) s).mem.input = s.mem.input ++ b from rfl]
  generalize s.fillRoom = size at *
  generalize slidIf s = v at *
  generalize s.mem.input = input
  rw [show (taken (input.take size) (input.drop size) v).mem.input = input.drop size from rfl]
  by_cases all : input.length ≤ size
  · have left : tailRoom (taken (input.take size) (input.drop size) v) = size - input.length := by
      change v.cfg.windowBytes - (v.mf.strStart + (v.mf.lookAhead + (input.take size).length)) = _
      rw [List.take_of_length_le all, cfg]
      omega
    rw [left, if_pos (List.drop_eq_nil_of_le all), List.take_append, List.drop_append, List.take_of_length_le all,
      List.drop_eq_nil_of_le all, List.nil_append, ← taken_taken input _ []]
    rfl
  · have some : input.drop size ≠ [] := fun none => all (List.drop_eq_nil_iff.1 none)
    rw [if_neg some, List.take_append_of_le_length (by omega), List.drop_append_of_le_length (by omega)]
    rfl

theorem filled_ahead {f : BitVec 3} {b : List Byte} {s : State} (order : WindowOrder s) :
    ButHash (ahead f b (filled s)) (filled (started f (s.mem.input ++ b) s)) :=
  (filled_readIn s).ahead.symm.trans (by rw [← readIn_started order]; exact filled_readIn _)

end Sys2Proof.Proofs
end

section
/-! The input of a session fed in two commands or in one: the first command's rounds are the one command's, as long as no
compaction comes between (20_memory.md R117, 41_match_finder.md R256, R257). -/

namespace Sys2Proof.Proofs

open Sys2Proof.Machine Sys2Proof.Claims

/-! ### Fills in step -/

/-- How many of the bytes to come are in the window already. -/
def gap (b : List Byte) (s : State) : Nat := if s.mem.input = [] then (b.take (tailRoom s)).length else 0

theorem ahead_cover (f : BitVec 3) (b : List Byte) (s : State) : ahead f b s = cover (ahead f b s) (gap b s) s := by
  unfold ahead gap
  split <;> rfl

theorem ahead_mf (f : BitVec 3) (b : List Byte) (s : State) :
    (ahead f b s).mf = { s.mf with lookAhead := s.mf.lookAhead + gap b s } ∧ (ahead f b s).cfg = s.cfg := by
  rw [ahead_cover]
  exact ⟨rfl, rfl⟩

theorem gap_fits {b : List Byte} {s : State} (order : WindowOrder s) :
    s.mf.strStart + s.mf.lookAhead + gap b s ≤ s.cfg.windowBytes := by
  have window := order.1
  unfold gap tailRoom
  split
  · have := List.length_take_le (s.cfg.windowBytes - (s.mf.strStart + s.mf.lookAhead)) b
    omega
  · omega

theorem ahead_order {f : BitVec 3} {b : List Byte} {s : State} (order : WindowOrder s) : WindowOrder (ahead f b s) := by
  obtain ⟨mf, cfg⟩ := ahead_mf f b s
  rw [WindowOrder, mf, cfg]
  exact ⟨(Nat.add_assoc _ _ _).symm ▸ gap_fits order, order.2⟩

theorem ahead_read {f : BitVec 3} {b : List Byte} {s : State} (canonical : s.mem.win.Canonical) {i : Nat}
    (before : i < s.mf.strStart + s.mf.lookAhead) : (ahead f b s).mem.win.read i = s.mem.win.read i := by
  unfold ahead
  split
  · change (s.mem.win.writeAll (s.mf.strStart + s.mf.lookAhead) _).read i = _
    rw [Arr.read_writeAll canonical, if_neg (by omega)]
  · rfl

theorem ahead_within {f : BitVec 3} {b : List Byte} {s : State} (order : WindowOrder s) (within : s.mem.win.Within s.cfg.windowBytes) :
    (ahead f b s).mem.win.Within (ahead f b s).cfg.windowBytes := by
  have fits := gap_fits (b := b) order
  rw [(ahead_mf f b s).2]
  unfold gap at fits
  unfold ahead
  split
  · next read =>
    rw [if_pos read] at fits
    exact Arr.within_writeAll within _ fits
  · exact within

/-- The data ends where the next fill does not compact, or with the window. -/
def ClearEnd (s : State) : Prop := s.mf.strStart + s.mf.lookAhead < s.cfg.wSize + s.cfg.maxDist
  ∨ s.mf.strStart + s.mf.lookAhead = s.cfg.windowBytes

theorem topped_of_drained {s : State} (read : s.mem.input = []) (stays : ¬ s.mustSlide = true) : topped s = s := by
  have none : filled s = s := by
    unfold filled
    rw [if_pos read, filled_of_not_mustSlide stays]
  unfold topped
  rw [none, ite_self]

/-- Whoever is ahead in a window that is not full, and short of lookahead, has read everything. -/
theorem ahead_drained {f : BitVec 3} {b : List Byte} {s : State} (order : WindowOrder s) (read : s.mem.input = [])
    (room : s.mf.strStart + MIN_LOOKAHEAD ≤ s.cfg.windowBytes) (short : (ahead f b s).mf.lookAhead < MIN_LOOKAHEAD) :
    (ahead f b s).mem.input = [] := by
  have window := order.1
  have tail : tailRoom s = s.cfg.windowBytes - (s.mf.strStart + s.mf.lookAhead) := rfl
  have look : (ahead f b s).mf.lookAhead = s.mf.lookAhead + gap b s := congrArg MatchRegs.lookAhead (ahead_mf f b s).1
  have read' : gap b s = min (tailRoom s) b.length := (if_pos read).trans List.length_take
  unfold ahead
  rw [if_pos read]
  exact List.drop_eq_nil_of_le (by omega)

/-- A session ahead fills its window when the other does, or has no need to. -/
theorem topped_ahead {f : BitVec 3} {b : List Byte} {s : State} (legal : s.cfg.legal = true) (order : WindowOrder s)
    (clear : s.mem.input = [] → ClearEnd s) : ButHash (ahead f b (topped s)) (topped (ahead f b s)) := by
  have size : MIN_LOOKAHEAD = 262 := rfl
  have sizes := sizes_of_legal legal
  have dist := sizes.maxDist
  have low := sizes.wSize_low
  have bytes : s.cfg.windowBytes = 2 * s.cfg.wSize := rfl
  obtain ⟨mf, cfg⟩ := ahead_mf f b s
  have look : (ahead f b s).mf.lookAhead = s.mf.lookAhead + gap b s := congrArg MatchRegs.lookAhead mf
  have start : (ahead f b s).mf.strStart = s.mf.strStart := by rw [mf]
  by_cases full : s.mf.lookAhead < MIN_LOOKAHEAD
  swap
  · unfold topped
    rw [if_neg full, if_neg (by omega)]
    rfl
  have together : ahead f b s = started f (s.mem.input ++ b) s → ButHash (ahead f b (topped s)) (topped (ahead f b s)) := fun same => by
    have full' : (started f (s.mem.input ++ b) s).mf.lookAhead < MIN_LOOKAHEAD := full
    rw [same, topped_of_short full, topped_of_short full']
    exact filled_ahead order
  by_cases read : s.mem.input = []
  swap
  · exact together (if_neg read)
  obtain before | atEnd := clear read
  · -- no compaction is due, and whoever is ahead has read all there is or need not fill
    have stays : ¬ s.mustSlide = true := fun due => by have := (mustSlide_iff s).1 due; omega
    have stays' : ¬ (ahead f b s).mustSlide = true := fun due => by
      have := (mustSlide_iff _).1 due
      rw [start, cfg] at this
      omega
    rw [topped_of_drained read stays]
    by_cases short : (ahead f b s).mf.lookAhead < MIN_LOOKAHEAD
    · rw [topped_of_drained (ahead_drained order read (by omega) short) stays']
      rfl
    · rw [show topped (ahead f b s) = ahead f b s from if_neg short]
      rfl
  · have room : tailRoom s = 0 := by unfold tailRoom; omega
    refine together ?_
    unfold ahead
    rw [if_pos read, room, List.take_zero, List.drop_zero, taken_nil, read]
    rfl

/-! ### The hash at the top of a round -/

/-- With three bytes of lookahead the hash is that of the string at `strStart`, once updated. -/
def Rolled (s : State) : Prop := 3 ≤ s.mf.lookAhead → RolledAt s.mf.strStart s

theorem filled_hash_of_short {s : State} (short : (filled s).mf.lookAhead < 3) : (filled s).mf.insH = s.mf.insH := by
  have slid : (slidIf s).mf.insH = s.mf.insH := by
    unfold slidIf
    split <;> rfl
  unfold filled at short ⊢
  generalize s.fillRoom = room at *
  split at short
  · next empty => rw [if_pos empty]; exact slid
  · next some =>
    rw [if_neg some]
    dsimp only at short ⊢
    split at short
    · next three => exact absurd short (Nat.not_lt.2 three)
    · next few => rw [if_neg few]; exact slid

theorem topped_hash_of_short {s : State} (short : (topped s).mf.lookAhead < 3) : (topped s).mf.insH = s.mf.insH := by
  unfold topped at short ⊢
  split at short
  · next due => rw [if_pos due]; exact filled_hash_of_short short
  · next full => rw [if_neg full]

theorem Rolled.slidIf {s : State} (h : Rolled s) (within : s.mem.win.Within s.cfg.windowBytes) (order : WindowOrder s) :
    Rolled (slidIf s) := by
  have bytes : s.cfg.windowBytes = 2 * s.cfg.wSize := rfl
  unfold Proofs.slidIf
  split
  · next due =>
    have far := (mustSlide_iff s).1 due
    intro long x
    have inside := order.1
    have long : 3 ≤ s.mf.lookAhead := long
    have read : ∀ k, k < 2 → (s.mem.win.compact s.cfg.wSize).read (s.mf.strStart - s.cfg.wSize + k) = s.mem.win.read (s.mf.strStart + k) :=
      fun k small => by
        rw [Arr.read_compact within, if_pos (by omega)]
        exact congrArg _ (by omega)
    have first : (s.mem.win.compact s.cfg.wSize).read (s.mf.strStart - s.cfg.wSize) = s.mem.win.read s.mf.strStart := read 0 (by decide)
    have second := read 1 (by decide)
    change updateHash s.cfg s.mf.insH x = updateHash s.cfg (updateHash s.cfg (((s.mem.win.compact s.cfg.wSize).read
      (s.mf.strStart - s.cfg.wSize)).zeroExtend 16) ((s.mem.win.compact s.cfg.wSize).read (s.mf.strStart - s.cfg.wSize + 1))) x
    rw [first, second]
    exact h long x
  · exact h

theorem Rolled.filled {s : State} (h : Rolled s) (within : s.mem.win.Within s.cfg.windowBytes) (order : WindowOrder s) :
    Rolled (filled s) := by
  have slid := h.slidIf within order
  unfold Proofs.filled
  generalize s.fillRoom = room
  split
  · exact slid
  · dsimp only
    split
    · exact fun _ _ => rfl
    · next few => exact fun long => absurd long few

theorem Rolled.topped {s : State} (h : Rolled s) (within : s.mem.win.Within s.cfg.windowBytes) (order : WindowOrder s) :
    Rolled (topped s) := by
  unfold Proofs.topped
  split
  · exact h.filled within order
  · exact h

/-- Whoever is ahead has the same bytes where the data of both is. -/
theorem rolled_ahead {f : BitVec 3} {b : List Byte} {s : State} (canonical : s.mem.win.Canonical) (h : Rolled s)
    (long : 3 ≤ s.mf.lookAhead) : Rolled (ahead f b s) := by
  intro _ x
  obtain ⟨mf, cfg⟩ := ahead_mf f b s
  have start : (ahead f b s).mf.strStart = s.mf.strStart := by rw [mf]
  have hash : (ahead f b s).mf.insH = s.mf.insH := by rw [mf]
  rw [start, hash, cfg, ahead_read canonical (by omega), ahead_read canonical (by omega)]
  exact h long x

/-- Rolled both, sessions that differ in the hash alone are twins. -/
theorem twin_of_rolled {s t : State} (same : ButHash s t) (rolled : Rolled s) (rolled' : Rolled t)
    (short : s.mf.lookAhead < 3 → t.mf.insH = s.mf.insH) : Twin s t := by
  refine ⟨same, fun long x => ?_, short⟩
  obtain ⟨insH, rfl⟩ : ∃ insH, t = { s with mf := { s.mf with insH := insH } } := ⟨_, same⟩
  exact (rolled' long x).trans (rolled long x).symm

/-! ### Where the data ends -/

/-- `n` bytes have come to the session, the input included: the data ends at `n`, less the compactions. -/
def Lined (n : Nat) (s : State) : Prop := ∃ k, s.mf.strStart + s.mf.lookAhead + s.mem.input.length + k * s.cfg.wSize = n

theorem Lined.filled {n : Nat} {s : State} (h : Lined n s) : Lined n (filled s) := by
  obtain ⟨k, sum⟩ := h
  obtain ⟨start, -, cfg, look⟩ := filled_registers s
  have input := filled_input s
  rw [slidIf_strStart] at start
  have both := congrArg List.length (List.take_append_drop s.fillRoom s.mem.input)
  rw [List.length_append] at both
  rw [Lined, start, cfg, look, input]
  split
  · next due =>
    have far := (mustSlide_iff s).1 due
    refine ⟨k + 1, ?_⟩
    rw [Nat.succ_mul]
    omega
  · exact ⟨k, by omega⟩

theorem Lined.topped {n : Nat} {s : State} (h : Lined n s) : Lined n (topped s) := by
  unfold Proofs.topped
  split
  · exact h.filled
  · exact h

theorem Lined.clearEnd {n : Nat} {s : State} (h : Lined n s) (legal : s.cfg.legal = true) (order : WindowOrder s)
    (clear : ClearSplit s.cfg.wSize n) (read : s.mem.input = []) : ClearEnd s := by
  have dist : s.cfg.maxDist = s.cfg.wSize - 262 := rfl
  have bytes : s.cfg.windowBytes = 2 * s.cfg.wSize := rfl
  have low := (sizes_of_legal legal).wSize_low
  have window := order.1
  obtain ⟨k, sum⟩ := h
  rw [read, List.length_nil, Nat.add_zero] at sum
  unfold ClearEnd
  obtain early | clear := clear
  · omega
  · generalize s.mf.strStart + s.mf.lookAhead = e at *
    rw [← sum, Nat.add_mul_mod_self_right] at clear
    by_cases one : e < 2 * s.cfg.wSize
    · by_cases zero : e < s.cfg.wSize
      · omega
      · rw [Nat.mod_eq_sub_mod (by omega), Nat.mod_eq_of_lt (by omega)] at clear
        omega
    · omega

end Sys2Proof.Proofs
end

section
/-! Where every split point is a clear one, chunks do not show at any level (20_memory.md R117): the rounds of a NO_FLUSH are
the first rounds of one command with all the bytes, and the command after it takes up where they leave off. -/

namespace Sys2Proof.Proofs

open Sys2Proof.Machine Sys2Proof.Claims

/-! ### Steps in step -/

theorem filled_settled {s : State} (legal : s.cfg.legal = true) (order : WindowOrder s) : ¬ (filled s).mustSlide = true := by
  have sizes := sizes_of_legal legal
  have dist := sizes.maxDist
  have low := sizes.wSize_low
  have bytes : s.cfg.windowBytes = 2 * s.cfg.wSize := rfl
  obtain ⟨start, -, cfg, -⟩ := filled_registers s
  have window := order.1
  rw [slidIf_strStart] at start
  rw [mustSlide_iff, start, cfg]
  split
  · omega
  · next stays => exact fun due => stays ((mustSlide_iff s).2 due)

/-- A step leaves what is ahead as it is. -/
theorem ahead_step {f : BitVec 3} {b : List Byte} {n : Nat} {s t : State} (works : Works s t) (passes : Passes n s t) :
    ahead f b t = cover (ahead f b s) (gap b s) t := by
  have frame := works.frame
  have stop : t.mf.strStart + t.mf.lookAhead = s.mf.strStart + s.mf.lookAhead := by
    have := passes.start
    have := passes.look
    omega
  have same : t.ctl = s.ctl ∧ t.cfg = s.cfg ∧ t.sums = s.sums ∧ t.mem.win = s.mem.win ∧ t.mem.input = s.mem.input := by
    rw [frame]
    exact ⟨rfl, rfl, rfl, rfl, rfl⟩
  obtain ⟨ctl, cfg, sums, win, input⟩ := same
  have room : tailRoom t = tailRoom s := by rw [tailRoom, stop, cfg]; rfl
  unfold ahead gap
  rw [input, room]
  split
  · unfold taken started State.setCtl State.setMem cover
    dsimp only
    rw [stop, ctl, sums, win]
  · unfold started State.setCtl State.setMem cover
    dsimp only
    rw [ctl, sums, win]
    rfl

/-- No step passes more than 258 bytes. -/
theorem stepOf_short {d : Driver} {s t : State} (matching : d ≠ .stored) (legal : s.cfg.legal = true) (level : s.cfg.level ≠ 0)
    (top : LoopTop d s) (some : s.mf.lookAhead ≠ 0) (run : (stepOf d).run s = .ok .again t) :
    t.mf.strStart ≤ s.mf.strStart + 258 := by
  cases d with
  | stored => exact absurd rfl matching
  | fast =>
    obtain ⟨d, lc, -, round⟩ := (fastStep_wp legal level).ok run
    have round := round (top.fastTop some)
    have byte := round.byte
    by_cases literal : d = 0
    · have := (round.isLiteral literal).2.1
      omega
    · have := (round.isMatch literal).2.1
      omega
  | slow =>
    obtain ⟨v, searched, decided⟩ := (slowStep_wp legal level).ok run
    have start := searched.start
    have length := searched.prevLength
    cases decided with
    | commit d lc long one win dist size start' =>
      have taken : s.mf.matchAvailable = true := by
        by_contra free
        have := (top.slow rfl).1 (Bool.eq_false_iff.2 free)
        omega
      have := (((top.slow rfl).2 taken).2 (by omega)).1
      omega
    | literal lc better held inside one win byte start' => omega
    | defer better free some frame =>
      have : t.mf.strStart = v.mf.strStart + 1 := by rw [frame]
      omega

/-! ### The rounds of a NO_FLUSH -/

/-- At the top of a round of a NO_FLUSH from `s`, of a session that `n` bytes have come to, with `b` to come in mode `f`. -/
structure Feeding (s : State) (n : Nat) (f : BitVec 3) (b : List Byte) (y : State) : Prop where
  run : MatchRun s y
  rolled : Rolled y
  whole : Rolled (ahead f b y)
  lined : Lined n y

section
variable {s : State} {n : Nat} {f : BitVec 3} {b : List Byte} (start : MatchStart s) (clear : ClearSplit s.cfg.wSize n)
include start

theorem MatchStart.matching : s.ct.driver ≠ .stored := fun stored => start.level (level_zero_of_stored _ (start.row ▸ stored))

theorem MatchRun.topped {y : State} (run : MatchRun s y) : MatchRun s (topped y) := by
  unfold Proofs.topped
  split
  · exact ((run.fill start).ok (fillWindow_run (run.inside.cfg ▸ start.legal) run.order)).1
  · exact run

theorem MatchRun.win {y : State} (run : MatchRun s y) : y.mem.win.Canonical ∧ y.mem.win.Within y.cfg.windowBytes := by
  obtain ⟨⟨⟨win, -⟩, -⟩, ⟨within, -⟩, -⟩ := (State.memoryOk_iff y).1 (run.inside.memory start.memory)
  exact ⟨win, within⟩

include clear

theorem Feeding.clearEnd {y : State} (h : Feeding s n f b y) (read : y.mem.input = []) : ClearEnd y := by
  have cfg := h.run.inside.cfg
  exact h.lined.clearEnd (cfg ▸ start.legal) h.run.order (cfg ▸ clear) read

/-- A round that steps is a round of the one command. -/
theorem Feeding.step {y u : State} (h : Feeding s n f b y) (full : MIN_LOOKAHEAD ≤ (topped y).mf.lookAhead)
    (run : (stepOf s.ct.driver).run (topped y) = .ok .again u) :
    Feeding s n f b u ∧ (roundOf f s.ct.driver).run (ahead f b y) = .ok .again (ahead f b u) := by
  have size : MIN_LOOKAHEAD = 262 := rfl
  have matching := start.matching
  have same := topped_ahead (f := f) (b := b) (h.run.inside.cfg ▸ start.legal) h.run.order (h.clearEnd start clear)
  have whole := h.whole
  obtain ⟨run₀, rolled, -, lined⟩ := h
  have legal₀ : y.cfg.legal = true := run₀.inside.cfg ▸ start.legal
  have top := run₀.topped start
  have rolledTop := rolled.topped (run₀.win start).2 run₀.order
  have linedTop := lined.topped
  have wholeTop := whole.topped (ahead_within run₀.order (run₀.win start).2) (ahead_order run₀.order)
  generalize Proofs.topped y = v at *
  have legal : v.cfg.legal = true := top.inside.cfg ▸ start.legal
  have level : v.cfg.level ≠ 0 := top.inside.cfg ▸ start.level
  have some : v.mf.lookAhead ≠ 0 := by omega
  obtain ⟨next, -⟩ := (top.step start some).ok run
  have works := works_stepOf _ v _ u run
  obtain ⟨k, passes⟩ := stepOf_passes run
  have short := stepOf_short matching legal level top.top some run
  have passed := passes.start
  have left := passes.look
  have canonical := (top.win start).1
  -- the step itself
  have rides : Rides (ahead f b v) (v.mf.strStart + v.mf.lookAhead) 0 v :=
    ⟨legal, fun i before => ahead_read canonical before, rolledTop (by omega)⟩
  have ct : v.ct = ctRow s.cfg.level := top.inside.ct.trans start.row
  obtain ⟨covered, ridden⟩ := mimics_stepOf (g := gap b v) matching rides
    ⟨top.top, full, Nat.le_refl _, by rw [ct]; exact niceLength_le _⟩ (gap_fits top.order) _ _ run
  rw [← ahead_cover, ← ahead_step works passes] at covered
  have rolled' : Rolled u := fun _ => ridden.rolled
  refine ⟨⟨next, rolled', rolled_ahead (next.win start).1 rolled' (by omega), ?_⟩, ?_⟩
  · obtain ⟨j, sum⟩ := linedTop
    have cfg : u.cfg = v.cfg := next.inside.cfg.trans top.inside.cfg.symm
    have input : u.mem.input = v.mem.input := works.input
    refine ⟨j, ?_⟩
    rw [cfg, input]
    omega
  · rw [roundOf_run matching ((ahead_mf f b y).2 ▸ legal₀) (ahead_order run₀.order)]
    have aheadLook : (ahead f b v).mf.lookAhead = v.mf.lookAhead + gap b v := congrArg MatchRegs.lookAhead (ahead_mf f b v).1
    have twin := twin_of_rolled same (rolled_ahead canonical rolledTop (by omega)) wholeTop fun few => by omega
    have look : (topped (ahead f b y)).mf.lookAhead = v.mf.lookAhead + gap b v := by
      rw [show topped (ahead f b y) = _ from same]
      exact aheadLook
    rw [settle_run_of_full (by omega), twin.step matching ((ahead_mf f b v).2 ▸ legal) (ahead_order top.order)]
    exact covered

/-- The loop of a NO_FLUSH ends in the fill of a round; what is left of a loop with all the bytes is its loop from there. -/
theorem Feeding.loop {y u : State} {l : LoopStep} {m : Nat} (h : Feeding s n f b y)
    (run : (Op.iterate (roundOf NO_FLUSH s.ct.driver) m).run y = .ok l u) :
    ∃ z, Feeding s n f b z ∧ u = topped z ∧ LoopDone NO_FLUSH false l u
      ∧ ∀ {k v m}, (Op.iterate (roundOf f s.ct.driver) m).run (ahead f b y) = .ok k v →
          ∃ m', (Op.iterate (roundOf f s.ct.driver) m').run (ahead f b z) = .ok k v := by
  have matching := start.matching
  induction m generalizing y with
  | zero => cases run
  | succ m ih =>
    rw [Op.iterate_succ] at run
    obtain ⟨a, t, first, rest⟩ := Op.bind_inv run
    have done := roundOf_done first
    rw [roundOf_run matching (h.run.inside.cfg ▸ start.legal) h.run.order] at first
    by_cases full : MIN_LOOKAHEAD ≤ (topped y).mf.lookAhead
    · rw [settle_run_of_full full] at first
      obtain rfl := stepOf_goesOn _ _ _ _ first
      obtain ⟨next, whole⟩ := h.step start clear full first
      obtain ⟨z, feeding, last, done, rest'⟩ := ih next rest
      refine ⟨z, feeding, last, done, fun {k v m} all => ?_⟩
      cases m with
      | zero => cases all
      | succ m =>
        rw [Op.iterate_succ, Op.bind_ok whole] at all
        exact rest' all
    · unfold settle at first
      rw [Op.state_bind, if_pos ⟨Nat.not_le.1 full, rfl⟩] at first
      cases first
      cases rest
      have done := done nofun
      rw [decide_eq_false matching] at done
      exact ⟨y, h, rfl, done, fun {k v m} all => ⟨m, all⟩⟩

/-- The next command takes up where a NO_FLUSH has left off. -/
theorem Feeding.next {z : State} {l : LoopStep} (h : Feeding s n f b z) (done : LoopDone NO_FLUSH false l (topped z)) :
    Twin (topped (started f b (topped z))) (topped (ahead f b z)) := by
  have size : MIN_LOOKAHEAD = 262 := rfl
  have legal : z.cfg.legal = true := h.run.inside.cfg ▸ start.legal
  have same := topped_ahead (f := f) (b := b) legal h.run.order (h.clearEnd start clear)
  have top := h.run.topped start
  have within := (h.run.win start).2
  have rolled := h.rolled.topped within h.run.order
  have whole := h.whole.topped (ahead_within h.run.order within) (ahead_order h.run.order)
  have settled : filled (topped z) = topped z := by
    have stays : ¬ (topped z).mustSlide = true := by
      by_cases full : z.mf.lookAhead < MIN_LOOKAHEAD
      · rw [topped_of_short full]
        exact filled_settled legal h.run.order
      · have short := done.look
        rw [show topped z = z from if_neg full] at short
        exact absurd short full
    unfold filled
    rw [if_pos done.input, filled_of_not_mustSlide stays]
  have due : (started f b (topped z)).mf.lookAhead < MIN_LOOKAHEAD := done.look
  have again : ButHash (ahead f b (topped z)) (topped (started f b (topped z))) := by
    have fills := filled_ahead (f := f) (b := b) top.order
    rw [settled, done.input, List.nil_append] at fills
    rw [topped_of_short due]
    exact fills
  have rolled' : Rolled (topped (started f b (topped z))) :=
    Rolled.topped (s := started f b (topped z)) rolled (top.win start).2 top.order
  have twins := again.symm.trans same
  refine twin_of_rolled twins rolled' whole fun few => ?_
  -- with fewer than three bytes no hash has been seeded
  have look : (topped (ahead f b z)).mf.lookAhead = (topped (started f b (topped z))).mf.lookAhead := by
    rw [show topped (ahead f b z) = _ from twins]
  have grown : (topped z).mf.lookAhead ≤ (topped (started f b (topped z))).mf.lookAhead := by
    rw [topped_of_short due, (filled_registers _).2.2.2]
    exact Nat.le_add_right _ _
  rw [topped_hash_of_short (look ▸ few), topped_hash_of_short few, (ahead_mf f b z).1]
  exact (topped_hash_of_short (Nat.lt_of_le_of_lt grown few)).symm

end

end Sys2Proof.Proofs
end

section
/-! Chunks at every level, where every split point is a clear one (20_memory.md R117): two commands against one, then any number
by induction. -/

namespace Sys2Proof.Proofs

open Sys2Proof.Machine Sys2Proof.Claims

/-! ### Two commands against one -/

theorem Healthy.driven {f : BitVec 3} {c : List Byte} {s : State} (h : Healthy s) (mode : f ≤ 4) (busy : s.ctl.fsm = .busy)
    (unbounded : s.unbounded) (notDup : ¬ Duplicate s f c) : ∃ t, exec (compressWith f c) s = .next (t.answer (replyOf f))
      ∧ (driven f).run (started f c s) = .ok (replyOf f) t ∧ Compressed f c s (replyOf f) t ∧ Session s t := by
  obtain ⟨t, done, run⟩ := h.compresses (c := c) mode busy unbounded
  exact ⟨t, done, (compressBusy_run_of_driven notDup) ▸ run, compressBusy_ok run, (compressBusy_session mode c).ok run⟩

/-- Commands whose loops end the same, up to the hash, leave the same, up to the hash. -/
theorem driven_twin {f : BitVec 3} {s s' t t' : State} {r r' : Reply} (run : (driven f).run s = .ok r t)
    (run' : (driven f).run s' = .ok r' t') (driver : s'.ct.driver = s.ct.driver)
    (loops : ∀ {n m l k u v}, (Op.iterate (roundOf f s.ct.driver) n).run s = .ok l u →
      (Op.iterate (roundOf f s.ct.driver) m).run s' = .ok k v → k = l ∧ ButHash u v ∧ (l ≠ .needMore → v = u)) : ButHash t t' := by
  obtain ⟨d, w, drv, ending⟩ := driven_inv run
  obtain ⟨d', w', drv', ending'⟩ := driven_inv run'
  obtain ⟨l, u, loop, done, closing⟩ := drive_inv drv
  obtain ⟨k, v, loop', -, closing'⟩ := drive_inv drv'
  rw [driver] at loop'
  obtain ⟨rfl, same, equal⟩ := loops loop loop'
  by_cases noFlush : f = NO_FLUSH
  · rw [ending.noFlush noFlush, ending'.noFlush noFlush, closing.noFlush noFlush, closing'.noFlush noFlush]
    exact same
  · have exits := done.answer
    rw [if_neg noFlush] at exits
    obtain rfl := equal (by rw [exits]; exact nofun)
    have drives : (drive f).run s' = (drive f).run s := by
      rw [drive_eq, drive_eq, driver, Op.bind_ok loop, Op.bind_ok loop']
    rw [drives, drv] at drv'
    cases drv'
    unfold Proofs.driven runDriver at run run'
    rw [bind_assoc, Op.bind_ok drv] at run
    rw [bind_assoc, Op.bind_ok (drives.trans drv), run] at run'
    cases run'
    rfl

theorem answer_same {s : State} {r : Reply} (reply : s.port.reply = some r) : s.answer r = s := by
  change s.setPort { s.port with reply := some r } = s
  rw [← reply]
  rfl

theorem ButHash.answer {s t : State} (h : ButHash s t) {r : Reply} : ButHash (s.answer r) (t.answer r) := by
  rw [ButHash, show t = _ from h]
  rfl

/-- Between the commands of a session that `n` bytes have come to, all with NO_FLUSH. -/
structure Fed (n : Nat) (s : State) : Prop where
  healthy : Healthy s
  busy : s.ctl.fsm = .busy
  unbounded : s.unbounded
  last : s.ctl.lastFlush = 0
  reply : s.port.reply = some okReply
  input : s.mem.input = []
  rolled : Rolled s
  lined : Lined n s

section
variable {n : Nat} {s : State} (fed : Fed n s)
include fed

/-- An empty NO_FLUSH is a duplicate and leaves the session as it is. -/
theorem Fed.idle : exec (compressWith 0 []) s = .next s := by
  have run := compressBusy_run_of_duplicate (f := 0) (s := s) (BitVec.le_def.2 (Nat.zero_le _)) (by decide)
  have mem : ({ s.mem with input := [] } : Memory) = s.mem := by rw [← fed.input]
  have ctl : ({ s.ctl with lastFlush := 0 } : Control) = s.ctl := by rw [← fed.last]
  rw [mem, ctl] at run
  rw [exec_compressWith (by decide), runCommand_of_ok ((compress_run_of_busy (by decide) fed.busy []).trans run)]
  exact congrArg _ (answer_same fed.reply)

/-- The last command, in step with the mode, is a duplicate only with NO_FLUSH. -/
theorem Fed.again {f : BitVec 3} {c : List Byte} (dup : Duplicate s f c) : f = 0 := by
  have previous := dup.2.1
  rw [fed.last] at previous
  exact BitVec.eq_of_toNat_eq (Nat.le_zero.1 previous)

variable (level : s.cfg.level ≠ 0)
include level

theorem Fed.loopStart (f : BitVec 3) (c : List Byte) : MatchStart (started f c s) ∧ MatchRun (started f c s) (started f c s) := by
  obtain ⟨memory, modeOk, window, acc, tokens, stored, matching⟩ := fed.healthy
  obtain ⟨-, legal, row⟩ := modeOk.1 (.inl fed.busy)
  obtain ⟨tokened, counted, below, fast, slow⟩ := loopTop_of_match (.inl fed.busy) tokens matching
  exact ⟨⟨legal, level, row, fed.unbounded, memory⟩, Inside.order.refl _, ⟨tokened, counted, below, fast, slow⟩,
    window (.inl fed.busy), acc (.inl fed.busy)⟩

theorem Fed.feeding {a : List Byte} (nonempty : a ≠ []) (f : BitVec 3) (b : List Byte) :
    Feeding (started 0 a s) (n + a.length) f b (started 0 a s) ∧ ahead f b (started 0 a s) = started f (a ++ b) s := by
  have whole : ahead f b (started 0 a s) = started f (a ++ b) s := if_neg (show (started 0 a s).mem.input ≠ [] from nonempty)
  refine ⟨⟨(fed.loopStart level 0 a).2, fed.rolled, whole ▸ fed.rolled, ?_⟩, whole⟩
  obtain ⟨k, sum⟩ := fed.lined
  rw [fed.input, List.length_nil] at sum
  refine ⟨k, ?_⟩
  change s.mf.strStart + s.mf.lookAhead + a.length + k * s.cfg.wSize = _
  omega

/-- A NO_FLUSH of some bytes ends in the fill of a round, and the session goes on. -/
theorem Fed.feed {a : List Byte} (nonempty : a ≠ []) (clear : ClearSplit s.cfg.wSize (n + a.length)) :
    ∃ m l k, exec (compressWith 0 a) s = .next m ∧ Fed (n + a.length) m ∧ Session s m
      ∧ (Op.iterate (roundOf NO_FLUSH s.ct.driver) k).run (started 0 a s) = .ok l m := by
  obtain ⟨m, done, drv, compressed, session⟩ := fed.healthy.driven (f := 0) (c := a) (by decide) fed.busy fed.unbounded
    fun dup => nonempty dup.1
  obtain ⟨d, w, drive, ending⟩ := driven_inv drv
  obtain ⟨l, x, loop, -, closing⟩ := drive_inv drive
  obtain rfl : m = x := (ending.noFlush rfl).trans (closing.noFlush rfl)
  have reply : m.port.reply = some okReply := by rw [session.port]; exact fed.reply
  rw [show m.answer (replyOf 0) = m from answer_same reply] at done
  obtain ⟨z, feeding, rfl, -⟩ := (fed.feeding level nonempty 0 []).1.loop (fed.loopStart level 0 a).1 clear loop
  have within := (feeding.run.win (fed.loopStart level 0 a).1).2
  have ctl := compressed.ctl
  rw [endCtl, if_neg (show ¬ (0 : BitVec 3) = FINISH by decide)] at ctl
  have unbounded : (topped z).unbounded := by
    rw [State.unbounded, session.platform]
    exact fed.unbounded
  refine ⟨_, l, _, done, ⟨healthy_exec fed.healthy done, by rw [ctl]; exact fed.busy, unbounded,
    by rw [ctl], reply, compressed.input, feeding.rolled.topped within feeding.run.order,
    feeding.lined.topped⟩, session, loop⟩

/-- A command after a NO_FLUSH leaves what one command with all the bytes leaves. -/
theorem Fed.split {a b : List Byte} {f : BitVec 3} (clear : ClearSplit s.cfg.wSize (n + a.length)) (mode : f ≤ 4) :
    ∃ m u v, exec (compressWith 0 a) s = .next m ∧ Fed (n + a.length) m ∧ m.cfg = s.cfg ∧ exec (compressWith f b) m = .next u
      ∧ exec (compressWith f (a ++ b)) s = .next v ∧ ButHash u v := by
  by_cases empty : a = []
  · subst empty
    obtain ⟨v, done, -⟩ := fed.healthy.compresses (f := f) (c := b) mode fed.busy fed.unbounded
    exact ⟨s, _, _, fed.idle, fed, rfl, done, done, rfl⟩
  obtain ⟨m, l, k, done, fed', session, loop⟩ := fed.feed level empty clear
  by_cases again : b = [] ∧ f = 0
  · obtain ⟨rfl, rfl⟩ := again
    rw [List.append_nil]
    exact ⟨m, m, m, done, fed', session.cfg, fed'.idle, done, rfl⟩
  have fresh : ¬ Duplicate m f b := fun dup => again ⟨dup.1, fed'.again dup⟩
  have whole : ¬ Duplicate s f (a ++ b) := fun dup => empty (List.append_eq_nil_iff.1 dup.1).1
  obtain ⟨u, second, drv, -⟩ := fed'.healthy.driven mode fed'.busy fed'.unbounded fresh
  obtain ⟨v, one, drv', -⟩ := fed.healthy.driven mode fed.busy fed.unbounded whole
  refine ⟨m, _, _, done, fed', session.cfg, second, one, ButHash.answer ?_⟩
  have driver : m.ct.driver = s.ct.driver := by rw [session.ct]
  refine driven_twin drv drv' driver.symm fun {j i l k u v} rest all => ?_
  obtain ⟨feeding, start⟩ := fed.feeding level empty f b
  have from_ := (fed.loopStart level 0 a).1
  obtain ⟨z, feeding, rfl, drained, goesOn⟩ := feeding.loop from_ clear loop
  rw [show (started f b (topped z)).ct.driver = s.ct.driver from driver] at rest all
  obtain ⟨i', rest'⟩ := goesOn (start.symm ▸ all)
  have top := feeding.run.topped from_
  have legal : z.cfg.legal = true := feeding.run.inside.cfg ▸ from_.legal
  exact loops_twin (feeding.next from_ clear drained) from_.matching ((topped_cfg z).symm ▸ legal) ((ahead_mf f b z).2.trans (topped_cfg z).symm)
    top.order (ahead_order feeding.run.order) rest rest'

end

/-! ### Any number of commands -/

theorem Fed.chunks {f : BitVec 3} (mode : f ≤ 4) (b : List Byte) (chunks : List (List Byte)) {n : Nat} {s : State} (fed : Fed n s)
    (level : s.cfg.level ≠ 0) (clear : ∀ k, ClearSplit s.cfg.wSize (n + (chunks.take k).flatten.length)) :
    ∃ u v, runAll (chunks.map .compressNoFlush ++ [compressWith f b]) s = some u
      ∧ exec (compressWith f (chunks.flatten ++ b)) s = .next v ∧ ButHash u v := by
  induction chunks generalizing n s with
  | nil =>
    obtain ⟨v, done, -⟩ := fed.healthy.compresses (f := f) (c := b) mode fed.busy fed.unbounded
    refine ⟨v.answer (replyOf f), _, ?_, done, rfl⟩
    change (nextOf (exec (compressWith f b) s)).bind (runAll []) = _
    rw [done]
    rfl
  | cons c rest ih =>
    have first : ClearSplit s.cfg.wSize (n + c.length) := by
      have := clear 1
      rwa [List.take_one, List.head?_cons, Option.toList_some, List.flatten_singleton] at this
    obtain ⟨m, u', v, done, fed', cfg, second, one, same⟩ := fed.split level (b := rest.flatten ++ b) first mode
    obtain ⟨u, v', tail, whole, same'⟩ := ih fed' (cfg ▸ level) fun k => by
      have := clear (k + 1)
      rwa [List.take_succ_cons, List.flatten_cons, List.length_append, ← Nat.add_assoc, ← cfg] at this
    rw [second] at whole
    cases whole
    refine ⟨u, v, ?_, ?_, same'.trans same⟩
    · change (nextOf (exec (compressWith 0 c) s)).bind _ = _
      rw [done]
      exact tail
    · rw [List.flatten_cons, List.append_assoc]
      exact one

theorem fed_of_opened {level windowBits memLevel : BitVec 4} {strategy : BitVec 2} {s : State}
    (legal : LegalOperands level 8 windowBits memLevel strategy)
    (run : exec (.configure level 8 windowBits memLevel strategy) State.reset = .next s) :
    Fed 0 s ∧ s.cfg = ⟨level, 8, windowBits, memLevel, strategy⟩ := by
  obtain ⟨-, -, -, memory, mode, window, acc, tokens, -, stored, search, counts⟩ := resetIsGood
  have healthy := healthy_exec ⟨memory, mode, window, acc, tokens, stored, search, counts⟩ run
  have unbounded : State.reset.platform.outCapacity = none := rfl
  rw [exec_configure_of_legal legal fun _ bounded => nomatch unbounded.symm.trans bounded] at run
  cases run
  refine ⟨⟨healthy, rfl, rfl, rfl, rfl, rfl, fun long => absurd (show 3 ≤ 0 from long) (by decide), 0, ?_⟩, rfl⟩
  change 0 + 0 * _ = 0
  rw [Nat.zero_mul]

theorem Fed.level_zero {f : BitVec 3} (mode : f ≤ 4) (b : List Byte) (chunks : List (List Byte)) {s : State} (fed : Fed 0 s)
    (level : s.cfg.level = 0) : ∃ u v, runAll (chunks.map .compressNoFlush ++ [compressWith f b]) s = some u
      ∧ exec (compressWith f (chunks.flatten ++ b)) s = .next v
      ∧ u.mem.out = v.mem.out ∧ u.bp = v.bp ∧ u.sums = v.sums ∧ u.ctl = v.ctl ∧ u.port.reply = v.port.reply := by
  obtain ⟨memory, modeOk, window, acc, tokens, stored, matching⟩ := fed.healthy
  obtain ⟨-, legal, row⟩ := modeOk.1 (.inl fed.busy)
  obtain ⟨start, look⟩ := storedStart_of_busy ⟨fed.busy, legal, row⟩ level fed.unbounded memory stored window (acc (.inl fed.busy))
  have again : ∀ c, ¬ Duplicate s f c ∨ f = 0 := fun c => Decidable.not_or_of_imp fed.again
  obtain ⟨u, chunked, left⟩ := level0_chunks mode b chunks start look fed.busy fun _ => again b
  obtain ⟨v, whole, right⟩ := level0End start look mode fed.busy (again (chunks.flatten ++ b))
  obtain ⟨out, bp⟩ := sink_of_stream left.start.acc right.start.acc (left.valid.trans right.valid.symm) (left.stream.trans right.stream.symm)
  exact ⟨u, v, chunked, whole, out, bp, left.sums.trans right.sums.symm, left.ctl.trans right.ctl.symm, by rw [left.port, right.port]⟩

/-- Settles O26. -/
theorem chunkingAtClearSplits : Obligations.ChunkingAtClearSplits := by
  intro level windowBits memLevel strategy f chunks b s legal mode clear run
  obtain ⟨fed, configured⟩ := fed_of_opened legal run
  by_cases stored : s.cfg.level = 0
  · exact fed.level_zero mode b chunks stored
  · obtain ⟨u, v, split, whole, same⟩ := fed.chunks mode b chunks stored fun k => by
      rw [configured, Nat.zero_add]
      exact clear k
    refine ⟨u, v, split, whole, ?_⟩
    rw [show v = _ from same]
    exact ⟨rfl, rfl, rfl, rfl, rfl⟩

end Sys2Proof.Proofs
end
